-- ==== Sys2Proof/Word.lean ====
section
/-!
DEFINITION. Word.lean: the one datum of the block, the byte (rule R10: "Every datum the block stores, moves, sends or
receives is one byte"). Addition of bytes is `BitVec` addition, which is the spec's `+8` (modulo 256), and the
complement `~b` is `BitVec`'s `~~~`.
-/

namespace Sys2Proof

/-- A byte, rule R10: bit 0 is the least significant bit. -/
abbrev Byte := BitVec 8

/-- `u8(v) = v mod 256`, rule R10. -/
abbrev u8 (n : Nat) : Byte := BitVec.ofNat 8 n

end Sys2Proof
end

