-- ==== Sys2Proof/Config.lean ====
section
/-!
DEFINITION. Config.lean: the implementation parameters of rule R9 (00_scope.md), and the free values, which the spec
leaves "any value" (93_implementation_defined.md U2, U15) and which nothing in Lean can evaluate.

The parameters are a record that State carries and no step changes, so that every statement about all states is a
statement about all parameter values: "a claim must hold for every admissible value" (rule R9).
-/

namespace Sys2Proof

/-- The two serial links of rule R1: the full-duplex host link and the half-duplex bus link. -/
inductive Link where
  | host
  | bus
deriving DecidableEq, Repr

/-- The four FIFO channels of rule R20. -/
inductive Chan where
  | hrx
  | htx
  | brx
  | btx
deriving DecidableEq, Repr

/-- The three analog samples of the telemetry sink, in the order of rule R254: primary supply, secondary, thermal. -/
inductive Analog where
  | supply
  | secondary
  | thermal
deriving DecidableEq, Repr

/-- `READ_RESP_ORDER` of rule R9: does a READ_DATA response send the status before or after the payload. -/
inductive ReadOrder where
  | statusFirst
  | payloadFirst
deriving DecidableEq, Repr

/-- The parameters of rule R9. `IDX_W` is absent: by rule R22 no behaviour depends on it and the model keeps the
indices as natural numbers. `TICK_PERIOD` is absent: by rule R345 no rule depends on it. `TMO_W = 8` and
`TX_DEPTH = 1` are fixed by rule R9 and are in the types of State. -/
structure Config where
  /-- `CAP_HRX`. -/
  capHrx : Nat
  /-- `CAP_HTX`. -/
  capHtx : Nat
  /-- `CAP_BRX`. -/
  capBrx : Nat
  /-- `CAP_BTX`. -/
  capBtx : Nat
  /-- `T_HOST_RX`, ticks a host-codec byte read waits. -/
  tHostRx : Byte
  /-- `T_BUS_RX`, ticks a bus-codec byte read waits. -/
  tBusRx : Byte
  /-- `T_BUS_DRAIN`, ticks `BC_TX_END` waits for the drain. -/
  tBusDrain : Byte
  /-- `T_COOLDOWN`, ticks of the client's Invalid-path cooldown. -/
  tCooldown : Byte
  /-- `BI_PING`. -/
  biPing : Byte
  /-- `BI_READ`. -/
  biRead : Byte
  /-- `BI_REG_WRITE`. -/
  biRegWrite : Byte
  /-- `BI_ACTION`. -/
  biAction : Byte
  /-- `ERR_CKSUM_MASK`, the bit of the bus error byte that means "instruction checksum error". -/
  errCksumMask : Byte
  /-- `READ_RESP_ORDER`. -/
  readOrder : ReadOrder
deriving DecidableEq, Repr

/-- `CAP_c` of rule R9. -/
def Config.cap (c : Config) : Chan → Nat
  | .hrx => c.capHrx
  | .htx => c.capHtx
  | .brx => c.capBrx
  | .btx => c.capBtx

/-- Ticks a codec byte read on a link waits: `T_HOST_RX` or `T_BUS_RX` (rules R167, R185). -/
def Config.tRx (c : Config) : Link → Byte
  | .host => c.tHostRx
  | .bus => c.tBusRx

/-- The values the worked scenarios of 95_test_vectors.md use: capacities 64, timeouts 5, 5, 10 and 3 ticks, the
customary bus instruction bytes and error bit, status first. DESIGN CHOICE for `State.reset` only (log entry 1):
rule R9 leaves every one of them OPEN. -/
def Config.customary : Config where
  capHrx := 64
  capHtx := 64
  capBrx := 64
  capBtx := 64
  tHostRx := 5
  tBusRx := 5
  tBusDrain := 10
  tCooldown := 3
  biPing := 0x01
  biRead := 0x02
  biRegWrite := 0x04
  biAction := 0x05
  errCksumMask := 0x10
  readOrder := .statusFirst

/-- `BUS_BROADCAST_ID` of rule R9: 254. -/
def busBroadcastId : Byte := 0xFE

/-- Admissible capacities, rule R9: "powers of two, at least 2". -/
def Config.capsAdmissible (c : Config) : Prop :=
  ∀ ch : Chan, ∃ k, 1 ≤ k ∧ c.cap ch = 2 ^ k

/-- The four bus instruction bytes are different bytes. Not a rule of the spec (rule R9 admits any byte for each): it is
what lets a packet on the bus be read back as one row of the table (log entry 14). -/
abbrev Config.busCodesDiffer (c : Config) : Prop :=
  c.biPing ≠ c.biRead ∧ c.biPing ≠ c.biRegWrite ∧ c.biPing ≠ c.biAction ∧
  c.biRead ≠ c.biRegWrite ∧ c.biRead ≠ c.biAction ∧ c.biRegWrite ≠ c.biAction

/-- FREE VALUE (log entry 4): what slot `slot` of channel `ch` holds when nothing has been stored in it since the
`epoch`-th reset. Rule R36: "unspecified; never read before written"; 93_implementation_defined.md U2: any value. -/
opaque Config.unwrittenSlot : Nat → Chan → Nat → Byte

/-- FREE VALUE (log entry 5): the analog samples after the `epoch`-th reset. Rule R36: "unspecified (owned by the
telemetry sink)"; 93_implementation_defined.md U15: any value. -/
opaque Config.analogAfterReset : Nat → Analog → Byte

end Sys2Proof
end

