-- ==== Sys2Proof/Syntax.lean ====
section
/-!
DEFINITION. Syntax.lean: the rows of spec/opcode_table.json, one constructor each (47 rows), and the formats of
rule R90 they are written in.

A CMD row carries its operand bytes (rule R92), an EVT row its data byte (rule R105). A HOSTPKT row is selected by the
instruction byte alone (rule R95): its arguments are bytes the client reads from HRX afterwards, one operation per byte
(rules R104, R253), so they are no operands of the constructor. A BUSTX or BUSRX row carries the variable bytes of its
packet (rules R99, R100, R108).
-/

namespace Sys2Proof

/-- The formats of rule R90, and the RESET interface of rule R6, which has no code. -/
inductive Format where
  | cmd
  | evt
  | resetLine
  | hostPkt
  | busTx
  | busRx
deriving DecidableEq, Repr

/-- What the host instruction byte selects, rule R95. -/
inductive HostCommand where
  | ping
  | setReadFormat
  | setWriteFormat
  | readData
  | writeData
  /-- 0xF5 to 0xFF: reserved nibble. -/
  | reserved (b : Byte)
  /-- 0x00 to 0xEF: bad sync nibble. -/
  | badSync (b : Byte)
deriving DecidableEq, Repr

/-- The bytes a received bus packet opens with, rule R100: `s1` and `s2`, "expected to equal 0xFF each", and the id of the
replying device. -/
structure BusHead where
  s1 : Byte := 0xFF
  s2 : Byte := 0xFF
  id : Byte
deriving DecidableEq, Repr

/-- One constructor per row of spec/opcode_table.json. -/
inductive Instr where
  -- CMD, group 0: FIFO (40_fifo_ops.md)
  | hrxGet (t : Byte)
  | hrxWait
  | hrxFlush
  | htxPut (b : Byte)
  | brxGet (t : Byte)
  | brxFlush
  | btxPut (b : Byte)
  -- CMD, group 1: host codec (41_host_codec.md)
  | hcTxStart (instr : Byte)
  | hcTxByte (b : Byte) (acc : Bool)
  | hcTxEnd
  | hcRxStart
  | hcRxByte (acc : Bool)
  | hcRxEnd
  -- CMD, group 2: bus codec (42_bus_codec.md)
  | bcTxStart (id n instr : Byte)
  | bcTxByte (b : Byte)
  | bcTxEnd
  | bcRxPacket (expected : Byte)
  | bcRxEnd
  -- CMD, group 3: arbiter, timer, status (43_arbiter_timer_status.md)
  | dirTx
  | dirRx
  | tmoArm (t : Byte)
  | tmoWait
  | stRead
  | stReset
  | stSet (m : Byte)
  | stClr (m : Byte)
  -- EVT (rule R105)
  | evHrx (b : Byte)
  | evHtxLoad
  | evHtxDone
  | evBrx (b : Byte)
  | evBtxLoad
  | evBtxDone
  | evTick
  | evUnmapped
  -- the RESET interface (rule R221)
  | reset
  -- HOSTPKT, decoded by the client (45_client_sequencer.md)
  | ping
  | setReadFormat
  | setWriteFormat
  | readData
  | writeData
  | invalidReserved (b : Byte)
  | invalidBadSync (b : Byte)
  -- BUSTX (rules R99, R108)
  | biPing (id : Byte)
  | biRead (id startAddr length : Byte)
  | biRegWrite (id startAddr : Byte) (data : List Byte)
  | biAction
  -- BUSRX (rule R100)
  | busReply (head : BusHead) (err : Byte) (params : List Byte) (cks : Byte)
deriving DecidableEq, Repr

/-- The format a row of the table is written in. -/
def Instr.format : Instr → Format
  | .hrxGet _ | .hrxWait | .hrxFlush | .htxPut _ | .brxGet _ | .brxFlush | .btxPut _ => .cmd
  | .hcTxStart _ | .hcTxByte _ _ | .hcTxEnd | .hcRxStart | .hcRxByte _ | .hcRxEnd => .cmd
  | .bcTxStart _ _ _ | .bcTxByte _ | .bcTxEnd | .bcRxPacket _ | .bcRxEnd => .cmd
  | .dirTx | .dirRx | .tmoArm _ | .tmoWait | .stRead | .stReset | .stSet _ | .stClr _ => .cmd
  | .evHrx _ | .evHtxLoad | .evHtxDone | .evBrx _ | .evBtxLoad | .evBtxDone | .evTick | .evUnmapped => .evt
  | .reset => .resetLine
  | .ping | .setReadFormat | .setWriteFormat | .readData | .writeData => .hostPkt
  | .invalidReserved _ | .invalidBadSync _ => .hostPkt
  | .biPing _ | .biRead _ _ _ | .biRegWrite _ _ _ | .biAction => .busTx
  | .busReply _ _ _ _ => .busRx

/-- The row of the table a decoded host instruction byte stands for. -/
def HostCommand.instr : HostCommand → Instr
  | .ping => .ping
  | .setReadFormat => .setReadFormat
  | .setWriteFormat => .setWriteFormat
  | .readData => .readData
  | .writeData => .writeData
  | .reserved b => .invalidReserved b
  | .badSync b => .invalidBadSync b

end Sys2Proof
end

