-- ==== Sys2Proof/WellFormed.lean ====
section
/-!
DEFINITION. WellFormed.lean: which terms of `Instr` are instructions of the spec. Every CMD and EVT operand byte is
legal (rule R103: "Every value of every other operand byte … is legal"; the accumulate flag is a Bool here, so its
unassigned values cannot be written at all). The checks left are those a packet's length byte and the two INVALID rows
make.
-/

namespace Sys2Proof

/-- Well-formedness of a term, by row. -/
def Instr.wf : Instr → Bool
  | .hrxGet _ | .hrxWait | .hrxFlush | .htxPut _ | .brxGet _ | .brxFlush | .btxPut _ => true
  | .hcTxStart _ | .hcTxByte _ _ | .hcTxEnd | .hcRxStart | .hcRxByte _ | .hcRxEnd => true
  | .bcTxStart _ _ _ | .bcTxByte _ | .bcTxEnd | .bcRxPacket _ | .bcRxEnd => true
  | .dirTx | .dirRx | .tmoArm _ | .tmoWait | .stRead | .stReset | .stSet _ | .stClr _ => true
  | .evHrx _ | .evHtxLoad | .evHtxDone | .evBrx _ | .evBtxLoad | .evBtxDone | .evTick | .evUnmapped => true
  | .reset => true
  | .ping | .setReadFormat | .setWriteFormat | .readData | .writeData => true
  -- rule R95: the reserved nibbles 5 to F under the sync nibble
  | .invalidReserved b => decide (0xF5 ≤ b.toNat)
  -- rule R95: bits 7:4 not 0xF
  | .invalidBadSync b => decide (b.toNat < 0xF0)
  | .biPing _ | .biRead _ _ _ | .biAction => true
  -- rule R101: the parameter count (the start address and the data) is a byte, so that u8(numParams + 2) tells it
  | .biRegWrite _ _ data => decide (data.length ≤ 254)
  -- rule R101: the length byte announces u8(L - 2) parameter bytes, at most 255
  | .busReply _ _ params _ => decide (params.length ≤ 255)

end Sys2Proof
end

