-- ==== Sys2Proof/Decode.lean ====
section
/-!
DEFINITION. Decode.lean: the decoder, total on any bytes on any of the interfaces of rule R90, rejecting by name, and
after it the encoder written from the same tables (rules R92, R95, R99, R100, R105, R108).

Each format has its own byte space (rule R90): the byte 0x01 is HRX_WAIT on CMD, an argument of no meaning on EVT, a
bad sync nibble on the host link and, as byte 4 of a packet, BI_PING on the bus. So the decoder takes the format.
-/

namespace Sys2Proof

/-- Why bytes stand for no instruction. Rule R103 (d), (e) and 93_implementation_defined.md U1 give the treatment:
"refuse". Each is safe: the model stops where the spec defines no operation. -/
inductive DecodeError where
  /-- No byte stands on the interface. -/
  | empty
  /-- The first byte announces more bytes than stand there. -/
  | truncated
  /-- A CMD opcode outside rule R92 (rule R103 (d)). -/
  | unassignedOpcode (b : Byte)
  /-- An EVT code that is no event: 0x88 to 0xFF by rule R103 (d), 0x00 to 0x7F by DESIGN CHOICE (log entry 24). -/
  | reservedEvent (b : Byte)
  /-- An accumulate operand other than 0x00 or 0x01 (rule R103 (e)). -/
  | unassignedAccumulate (b : Byte)
  /-- Bytes on the RESET interface, which carries none. -/
  | resetHasNoCode
  /-- A sent packet that does not begin with 0xFF 0xFF (rule R99). -/
  | badSync
  /-- A sent packet whose checksum byte is not that of rule R102. -/
  | badChecksum
  /-- A sent packet whose instruction byte is none of rule R108, or whose parameters are not that row's. -/
  | unknownBusPacket (instr : Byte)
deriving DecidableEq, Repr

/-- The running sum of rule R102: `u8(x1 + ... + xn)`, 0 for the empty sequence. -/
def byteSum : List Byte → Byte
  | [] => 0
  | b :: bs => b + byteSum bs

/-- The checksum byte of rule R102: `~sum`. -/
def checksumOf (bs : List Byte) : Byte := ~~~ byteSum bs

/-- `numParams +8 2`, the length byte of a sent packet (rule R101). -/
def lengthByte (numParams : Byte) : Byte := numParams + 2

/-- `paramCount = L -8 2` (rule R101). -/
def paramCount (len : Byte) : Byte := len - 2

/-- The accumulate operand, rule R103 (e): 0x00 or 0x01. -/
def decodeAcc (b : Byte) : Except DecodeError Bool :=
  if b = 0 then .ok false else if b = 1 then .ok true else .error (.unassignedAccumulate b)

/-- An operation with no operand byte (rule R91). -/
def noOperand (i : Instr) (r : List Byte) : Except DecodeError (Instr × List Byte) := .ok (i, r)

/-- An operation with one operand byte (rule R91). -/
def oneOperand (f : Byte → Instr) : List Byte → Except DecodeError (Instr × List Byte)
  | a :: r => .ok (f a, r)
  | [] => .error .truncated

/-- An operation whose one operand byte is the accumulate flag (rule R103 (e)). -/
def accOperand (f : Bool → Instr) : List Byte → Except DecodeError (Instr × List Byte)
  | a :: r => (decodeAcc a).map fun acc => (f acc, r)
  | [] => .error .truncated

/-- CMD, rules R91 and R92: an opcode byte, then its operand bytes. Answers the instruction and the bytes after it. -/
def decodeCmd : List Byte → Except DecodeError (Instr × List Byte)
  | [] => .error .empty
  | op :: r =>
    match op.toNat with
    | 0x00 => oneOperand .hrxGet r
    | 0x01 => noOperand .hrxWait r
    | 0x02 => noOperand .hrxFlush r
    | 0x03 => oneOperand .htxPut r
    | 0x04 => oneOperand .brxGet r
    | 0x05 => noOperand .brxFlush r
    | 0x06 => oneOperand .btxPut r
    | 0x10 => oneOperand .hcTxStart r
    | 0x11 =>
      match r with
      | b :: r => accOperand (.hcTxByte b) r
      | [] => .error .truncated
    | 0x12 => noOperand .hcTxEnd r
    | 0x13 => noOperand .hcRxStart r
    | 0x14 => accOperand .hcRxByte r
    | 0x15 => noOperand .hcRxEnd r
    | 0x20 =>
      match r with
      | id :: n :: i :: r => .ok (.bcTxStart id n i, r)
      | _ => .error .truncated
    | 0x21 => oneOperand .bcTxByte r
    | 0x22 => noOperand .bcTxEnd r
    | 0x23 => oneOperand .bcRxPacket r
    | 0x24 => noOperand .bcRxEnd r
    | 0x30 => noOperand .dirTx r
    | 0x31 => noOperand .dirRx r
    | 0x32 => oneOperand .tmoArm r
    | 0x33 => noOperand .tmoWait r
    | 0x34 => noOperand .stRead r
    | 0x35 => noOperand .stReset r
    | 0x36 => oneOperand .stSet r
    | 0x37 => oneOperand .stClr r
    | _ => .error (.unassignedOpcode op)

/-- EVT, rule R105: an event code, then its data byte if it has one. Rules R103 (d) and R105 reserve 0x88 to 0xFF and say
nothing of the codes below 0x80: that those are refused in the same way is a DESIGN CHOICE, log entry 24. -/
def decodeEvt : List Byte → Except DecodeError (Instr × List Byte)
  | [] => .error .empty
  | code :: r =>
    match code.toNat with
    | 0x80 => oneOperand .evHrx r
    | 0x81 => noOperand .evHtxLoad r
    | 0x82 => noOperand .evHtxDone r
    | 0x83 => oneOperand .evBrx r
    | 0x84 => noOperand .evBtxLoad r
    | 0x85 => noOperand .evBtxDone r
    | 0x86 => noOperand .evTick r
    | 0x87 => noOperand .evUnmapped r
    | _ => .error (.reservedEvent code)

/-- The host instruction byte, rules R95 and R243: the sync nibble in bits 7:4, the command in bits 3:0. -/
def decodeHostByte (b : Byte) : HostCommand :=
  if b.toNat / 16 ≠ 0xF then .badSync b
  else
    match b.toNat % 16 with
    | 0 => .ping
    | 1 => .setReadFormat
    | 2 => .setWriteFormat
    | 3 => .readData
    | 4 => .writeData
    | _ => .reserved b

/-- HOSTPKT: the instruction byte alone selects the row (rule R95); "This byte is decoded by the client". -/
def decodeHost : List Byte → Except DecodeError (Instr × List Byte)
  | [] => .error .empty
  | b :: r => .ok ((decodeHostByte b).instr, r)

/-- A packet of rule R108 by its instruction byte and parameters. -/
def busTxInstr (c : Config) (id instr : Byte) (params : List Byte) : Except DecodeError Instr :=
  if instr = c.biPing ∧ params = [] then .ok (.biPing id)
  else if instr = c.biAction ∧ params = [] ∧ id = busBroadcastId then .ok .biAction
  else
    match params with
    | [a, l] =>
      if instr = c.biRead then .ok (.biRead id a l)
      else if instr = c.biRegWrite then .ok (.biRegWrite id a [l])
      else .error (.unknownBusPacket instr)
    | a :: data =>
      if instr = c.biRegWrite then .ok (.biRegWrite id a data) else .error (.unknownBusPacket instr)
    | [] => .error (.unknownBusPacket instr)

/-- The framing of rule R99: 0xFF 0xFF, id, length, instruction, parameters, checksum. Answers id, instruction byte and
parameters, and the bytes after the packet. "The block treats `id` and `instr` as opaque bytes". -/
def busTxFrame : List Byte → Except DecodeError ((Byte × Byte × List Byte) × List Byte)
  | [] => .error .empty
  | s1 :: s2 :: id :: len :: instr :: r =>
    if s1 ≠ 0xFF ∨ s2 ≠ 0xFF then .error .badSync
    else
      let n := (paramCount len).toNat
      match r.drop n with
      | [] => .error .truncated
      | cks :: rest =>
        if cks ≠ checksumOf (id :: len :: instr :: r.take n) then .error .badChecksum
        else .ok ((id, instr, r.take n), rest)
  | _ => .error .truncated

/-- BUSTX, rule R99; the rows are the packets of rule R108. -/
def decodeBusTx (c : Config) (bs : List Byte) : Except DecodeError (Instr × List Byte) :=
  match busTxFrame bs with
  | .error e => .error e
  | .ok ((id, instr, params), rest) => (busTxInstr c id instr params).map fun i => (i, rest)

/-- BUSRX, rule R100: s1, s2, id, L, err, `L -8 2` parameters, checksum. Sync and checksum bytes are whatever the device
sent: "expected to equal 0xFF each", a wrong one is flagged by `BC_RX_PACKET`, non-fatal (rule R103 (c)), and the checksum
is validated by `BC_RX_END`; neither is checked here. -/
def decodeBusRx : List Byte → Except DecodeError (Instr × List Byte)
  | [] => .error .empty
  | s1 :: s2 :: id :: len :: err :: r =>
    let n := (paramCount len).toNat
    match r.drop n with
    | [] => .error .truncated
    | cks :: rest => .ok (.busReply { s1 := s1, s2 := s2, id := id } err (r.take n) cks, rest)
  | _ => .error .truncated

/-- The RESET interface: no code (rule R105: "`RESET` is not an event code; it is its own interface"). -/
def decodeReset : List Byte → Except DecodeError (Instr × List Byte)
  | [] => .ok (.reset, [])
  | _ :: _ => .error .resetHasNoCode

/-- The decoder: the instruction that stands first on an interface, and the bytes after it. -/
def decode (c : Config) : Format → List Byte → Except DecodeError (Instr × List Byte)
  | .cmd, bs => decodeCmd bs
  | .evt, bs => decodeEvt bs
  | .resetLine, bs => decodeReset bs
  | .hostPkt, bs => decodeHost bs
  | .busTx, bs => decodeBusTx c bs
  | .busRx, bs => decodeBusRx bs

/-- The accumulate operand byte (rule R103 (e)). -/
def encodeAcc (acc : Bool) : Byte := if acc then 0x01 else 0x00

/-- A packet of rule R99 with its length and checksum bytes. -/
def busTxBytes (id instr : Byte) (params : List Byte) : List Byte :=
  let len := lengthByte (u8 params.length)
  0xFF :: 0xFF :: id :: len :: instr :: params ++ [checksumOf (id :: len :: instr :: params)]

/-- A packet of rule R100. -/
def busRxBytes (head : BusHead) (err : Byte) (params : List Byte) (cks : Byte) : List Byte :=
  head.s1 :: head.s2 :: head.id :: lengthByte (u8 params.length) :: err :: params ++ [cks]

/-- The encoder: the bytes of a well-formed instruction on its own interface (`Instr.format`). -/
def encode (c : Config) : Instr → List Byte
  | .hrxGet t => [0x00, t]
  | .hrxWait => [0x01]
  | .hrxFlush => [0x02]
  | .htxPut b => [0x03, b]
  | .brxGet t => [0x04, t]
  | .brxFlush => [0x05]
  | .btxPut b => [0x06, b]
  | .hcTxStart i => [0x10, i]
  | .hcTxByte b acc => [0x11, b, encodeAcc acc]
  | .hcTxEnd => [0x12]
  | .hcRxStart => [0x13]
  | .hcRxByte acc => [0x14, encodeAcc acc]
  | .hcRxEnd => [0x15]
  | .bcTxStart id n i => [0x20, id, n, i]
  | .bcTxByte b => [0x21, b]
  | .bcTxEnd => [0x22]
  | .bcRxPacket e => [0x23, e]
  | .bcRxEnd => [0x24]
  | .dirTx => [0x30]
  | .dirRx => [0x31]
  | .tmoArm t => [0x32, t]
  | .tmoWait => [0x33]
  | .stRead => [0x34]
  | .stReset => [0x35]
  | .stSet m => [0x36, m]
  | .stClr m => [0x37, m]
  | .evHrx b => [0x80, b]
  | .evHtxLoad => [0x81]
  | .evHtxDone => [0x82]
  | .evBrx b => [0x83, b]
  | .evBtxLoad => [0x84]
  | .evBtxDone => [0x85]
  | .evTick => [0x86]
  | .evUnmapped => [0x87]
  | .reset => []
  | .ping => [0xF0]
  | .setReadFormat => [0xF1]
  | .setWriteFormat => [0xF2]
  | .readData => [0xF3]
  | .writeData => [0xF4]
  | .invalidReserved b => [b]
  | .invalidBadSync b => [b]
  | .biPing id => busTxBytes id c.biPing []
  | .biRead id a l => busTxBytes id c.biRead [a, l]
  | .biRegWrite id a data => busTxBytes id c.biRegWrite (a :: data)
  | .biAction => busTxBytes busBroadcastId c.biAction []
  | .busReply head err params cks => busRxBytes head err params cks

/-- The longest instruction in bytes: a BUSRX packet with 255 parameter bytes (rules R100, R101). -/
def maxInstrBytes : Nat := 261

/-- Byte `i` of an instruction numbered as spec/opcode_table.json numbers it: bits `8i+7 .. 8i`. -/
def tableByte (w i : Nat) : Byte := u8 (w >>> (8 * i))

/-- The bytes of an instruction whose bits are `w`, every bit above them 0, up to the longest instruction. -/
def tableBytes (w : Nat) : List Byte := (List.range maxInstrBytes).map (tableByte w)

/-- The interface a row's word is read on, from its first byte: CMD opcodes 0x00 to 0x7F, EVT codes 0x80 to 0xEF, host
instruction bytes 0xF0 to 0xFF; a word longer than one byte that opens with the two sync bytes is a bus reply. The rows
of the formats share one byte space (the table gives 0x01 to both HRX_WAIT and BI_PING), so a bare first byte cannot
name every row: log entry 15. -/
def tableFormat (nbits w : Nat) : Format :=
  let b := (tableByte w 0).toNat
  if b = 0xFF ∧ tableByte w 1 = 0xFF ∧ 8 < nbits then .busRx
  else if b < 0x80 then .cmd
  else if b < 0xF0 then .evt
  else .hostPkt

/-- The instruction the decoder reads from a row's word. -/
def decodeTableWord (nbits w : Nat) : Option Instr :=
  match decode Config.customary (tableFormat nbits w) (tableBytes w) with
  | .ok (i, _) => some i
  | .error _ => none

end Sys2Proof
end

