-- ==== Sys2Proof/Machine/State.lean ====
section
/-!
DEFINITION. Machine/State.lean: every piece of state the spec gives the machine (10_state.md rules R20 to R36, client
state rule R241), as plain data, and the state after RESET (rule R36).

Three things that are not registers are plain data here too: the operation in progress on CMD (rule R33) as the list of
the micro-steps it has still to take, the reference client's place in its procedures (rule R241 (c)), and the run the
environment and the program prescribe (rule R8), as a list of inputs that the step consumes.
-/

namespace Sys2Proof.Machine

/-- A storage space of rule R60: (slot, byte) pairs, slots strictly rising; a slot not listed holds nothing written
since reset (see `Config.unwrittenSlot`). -/
abbrev Memory := List Host.Cell

/-- A FIFO channel, rule R20: storage and the two free-running indices (natural numbers, as rule R22 allows). -/
structure Channel where
  /-- `c.buf`. -/
  buf : Memory
  /-- `c.get`, the count of bytes ever removed. -/
  get : Nat
  /-- `c.put`, the count of bytes ever inserted. -/
  put : Nat
deriving DecidableEq, Repr

/-- `DIR`, rule R25. -/
inductive Direction where
  | receive
  | transmit
deriving DecidableEq, Repr

/-- The outcome of a CMD operation, rule R93. -/
inductive Code where
  | ok
  | timeout
  | checksum
deriving DecidableEq, Repr

/-- The outcome byte, rule R93. -/
def Code.byte : Code → Byte
  | .ok => 0x00
  | .timeout => 0x01
  | .checksum => 0x02

/-- What the block answers on CMD, rule R91: an outcome and its result bytes. -/
structure Answer where
  code : Code
  results : List Byte
deriving DecidableEq, Repr

/-- The answer as bytes, rule R91: the outcome byte, then the results. -/
def Answer.bytes (a : Answer) : List Byte := a.code.byte :: a.results

/-- What a put does to its codec's transmit sum beside the push (rule R68). -/
inductive SumUse where
  /-- Nothing: the byte is not accumulated. -/
  | keep
  /-- `sum <- sum +8 b`. -/
  | add
  /-- `sum <- 0`; the byte is not accumulated. -/
  | clear
  /-- `sum <- 0`, then `sum <- sum +8 b`. -/
  | restart
deriving DecidableEq, Repr

/-- What an operation does with the byte a timed or untimed get yields (rules R136, R137, R163 to R165, R183 to R185). -/
inductive GetUse where
  /-- A raw channel get: the byte is the result. -/
  | raw
  /-- `HC_RX_BYTE`: accumulate it if asked; it is the result. -/
  | byte (acc : Bool)
  /-- `HC_RX_START`: the sum becomes the byte; it is the result. -/
  | start
  /-- `HC_RX_END`, `BC_RX_END`: compare it with `~sum`. -/
  | check
  /-- `BC_RX_PACKET`: the first sync byte. -/
  | sync1
  /-- `BC_RX_PACKET`: the second sync byte. -/
  | sync2
  /-- `BC_RX_PACKET`: the id. -/
  | id
  /-- `BC_RX_PACKET`: the length byte. -/
  | len
  /-- `BC_RX_PACKET`: the error byte. -/
  | err
  /-- `BC_RX_PACKET`: a parameter byte. -/
  | param
deriving DecidableEq, Repr

/-- One micro-step of a CMD operation (rule R68), as the pseudocode of the operation's rule marks it. -/
inductive Micro where
  /-- `fg_put(c, b)` on the link's TX channel, rule R131. -/
  | put (l : Link) (b : Byte) (u : SumUse)
  /-- `fg_put(c, ~sum)`, the closing put of a codec (rules R162, R182). -/
  | putChecksum (l : Link)
  /-- `step { TMO <- t }`, the arming of rule R132. -/
  | arm (t : Byte)
  /-- The first arming of `BC_RX_PACKET`, with `BC_RX_SUM <- 0` written beside it. -/
  | armPacket (t : Byte)
  /-- The completion of `fg_get` on the link's RX channel, rule R132. -/
  | get (l : Link) (u : GetUse)
  /-- The completion of `fg_get_untimed(HRX)`, rule R133. -/
  | getUntimed (u : GetUse)
  /-- `step { c.get <- c.put }`, rules R139, R140. -/
  | flush (l : Link)
  /-- `step { DIR <- d }`, rules R210, R211. -/
  | direction (d : Direction)
  /-- `hold until TMO = 0`, rule R214. -/
  | awaitExpiry
  /-- The drain wait of `BC_TX_END`, rule R182. -/
  | awaitDrain
  /-- `step { s = STATUS }`, rule R216. -/
  | readStatus
  /-- `step { STATUS <- 0x00 }`, rule R217. -/
  | resetStatus
  /-- `step { STATUS <- STATUS | m }`, rule R218 and every non-fatal `set STATUS.X`. -/
  | setStatus (m : Byte)
  /-- `step { STATUS <- STATUS & ~m }`, rule R219. -/
  | clearStatus (m : Byte)
  /-- `step { set STATUS.X }; return o`: the failure path of a codec operation. -/
  | fail (m : Byte) (o : Code)
deriving DecidableEq, Repr

/-- The locals of `BC_RX_PACKET`, rule R183. -/
structure PacketLocals where
  expected : Byte
  s1 : Byte := 0
  id : Byte := 0
  len : Byte := 0
  err : Byte := 0
  params : List Byte := []
deriving DecidableEq, Repr

/-- What an operation has to do from its start: its micro-steps, and its locals where it has any. -/
structure Program where
  todo : List Micro
  packet : Option PacketLocals := none
deriving DecidableEq, Repr

/-- Which part of the foreground agent issued an operation: the run's own CMD lines, or the reference client. -/
inductive Owner where
  | script
  | client
deriving DecidableEq, Repr

/-- The operation in progress on CMD, rule R33: its position (what is still to do) and its locals. -/
structure Op where
  owner : Owner
  todo : List Micro
  /-- Result bytes so far. -/
  results : List Byte
  /-- Locals of `BC_RX_PACKET`. -/
  packet : Option PacketLocals
deriving DecidableEq, Repr

/-- A format entry, rules R98 and R241: (deviceId, startAddr, length). -/
structure Entry where
  deviceId : Byte
  startAddr : Byte
  length : Byte
deriving DecidableEq, Repr

/-- `TABLE[Read]` or `TABLE[Write]`, rule R241. -/
inductive TableSel where
  | read
  | write
deriving DecidableEq, Repr

/-- One bus transaction of rule R245. -/
structure Txn where
  id : Byte
  instr : Byte
  params : List Byte
  expected : Byte
deriving DecidableEq, Repr

/-- The loop variables of `READ_DATA` (rule R250): what has been obtained, the entry in work and the entries left. -/
structure ReadLoop where
  payload : List Byte
  device : Byte
  addr : Nat
  rem : Nat
  rest : List Entry
deriving DecidableEq, Repr

/-- What the client does with the result of a transaction. -/
inductive TxnFor where
  | ping (addr : Byte)
  /-- `loop` is already advanced past the block; the block ends at the virtual register iff `virt`. -/
  | read (loop : ReadLoop) (virt : Bool) (phys : Nat)
  | write (rest : List Entry)
  | commit
  /-- The sending half alone, `BUS_SEND` of rule R106. -/
  | sendOnly
deriving DecidableEq, Repr

/-- Where in `bus_txn` (rule R245) the client is: the operation it issues next. -/
inductive TxnStage where
  | dirTx
  | start
  | param (left : List Byte)
  | close
  | dirRx
  | packet
  | check (rid err : Byte) (data : List Byte)
  /-- `ST_CLR 80` before a retry. -/
  | retry
deriving DecidableEq, Repr

/-- What follows a status response. -/
inductive After where
  | done
  /-- The cooldown of the Invalid path, rule R252. -/
  | cooldown
deriving DecidableEq, Repr

/-- What follows a run of emitted bytes. -/
inductive EmitThen where
  /-- `HC_TX_END`. -/
  | close (k : After)
  /-- `PayloadFirst`: the status part of the response. -/
  | status (k : After)
  /-- `PayloadFirst`: the next block of `READ_DATA`. -/
  | readLoop (l : ReadLoop)
deriving DecidableEq, Repr

/-- The client's place in its procedures (45_client_sequencer.md), rule R241 (c): each names the CMD operation the
client issues next, or has issued and waits for. -/
inductive Pos where
  /-- Start of a host command cycle: `ST_RESET` (rule R242). -/
  | cycleStart
  /-- Idle: `HC_RX_START`. -/
  | idle
  | pingAddr
  | pingEnd (addr : Byte)
  /-- `ST_SET 08`: the replied id differs from the address. -/
  | pingMark
  | formatCount (d : TableSel)
  | formatEntry (d : TableSel) (left : Nat) (got : List Byte) (new : List Entry)
  | formatEnd (d : TableSel) (new : List Entry)
  | readEnd
  /-- `PayloadFirst`: `HC_TX_START F3` before the blocks. -/
  | readOpen (l : ReadLoop)
  | writeArg (left : Nat) (data : List Byte) (e : Entry) (rest : List Entry)
  | writeEnd
  | txn (stage : TxnStage) (t : Txn) (k : TxnFor)
  | invalidSet (instr : Byte)
  | statusStart (instr : Byte) (payload : List Byte) (k : After)
  | statusRead (payload : List Byte) (k : After)
  | statusByte (st : Byte) (payload : List Byte) (k : After)
  | statusRetry (payload : List Byte) (k : After)
  | emit (b : Byte) (bs : List Byte) (k : EmitThen)
  | statusEnd (k : After)
  | coolArm
  | coolWait
  | coolFlushHost
  | coolFlushBus
deriving DecidableEq, Repr

/-- Client state, rules R34 and R241. `totalBytes[d]` is the sum of the lengths of `TABLE[d]` (`tableBytesOf`), stored
once, in the table. -/
structure Client where
  /-- `TABLE[Read]`. -/
  readTable : List Entry
  /-- `TABLE[Write]`. -/
  writeTable : List Entry
  /-- `RETRY`, retries used in this host command cycle. -/
  retry : Nat
  /-- `ANALOG[1]`, primary supply. -/
  supply : Byte
  /-- `ANALOG[2]`, secondary. -/
  secondary : Byte
  /-- `ANALOG[3]`, thermal. -/
  thermal : Byte
  /-- The dispatcher state. -/
  pos : Pos
deriving DecidableEq, Repr

/-- One line of a run (rules R8, R65, R106): which agent acts next, and with what. -/
inductive Input where
  /-- Bytes on an interface: the instruction that stands first in them is decoded and executed; a CMD operation takes
  its micro-steps up to the point where it completes or holds (rule R106). -/
  | word (f : Format) (bytes : List Byte)
  /-- A CMD operation is presented and takes no micro-step yet. -/
  | issue (bytes : List Byte)
  /-- The foreground agent takes one micro-step of the operation in progress (rule R68). -/
  | turn
  /-- The reference client issues its next operation. -/
  | client
  /-- The foreground agent goes on up to its next hold. -/
  | resume
  /-- The telemetry sink refreshes one sample (rules R241 (d), R254). -/
  | analog (a : Analog) (sample : Byte)
deriving DecidableEq, Repr

/-- The machine. -/
structure State where
  /-- Parameters of rule R9; no step changes them. -/
  cfg : Config
  /-- `HRX`, rule R20. -/
  hrx : Channel
  /-- `HTX`, rule R20. -/
  htx : Channel
  /-- `BRX`, rule R20. -/
  brx : Channel
  /-- `BTX`, rule R20. -/
  btx : Channel
  /-- `HTX.shift`, rule R24. -/
  htxShift : Option Byte
  /-- `BTX.shift`, rule R24. -/
  btxShift : Option Byte
  /-- `DIR`, rule R25. -/
  dir : Direction
  /-- `TMO`, rule R26. -/
  tmo : Byte
  /-- `STATUS`, rule R27. -/
  status : Byte
  /-- `HC_TX_SUM`, rule R28. -/
  hcTxSum : Byte
  /-- `HC_RX_SUM`, rule R28. -/
  hcRxSum : Byte
  /-- `BC_TX_SUM`, rule R28. -/
  bcTxSum : Byte
  /-- `BC_RX_SUM`, rule R28. -/
  bcRxSum : Byte
  /-- `HALT`, rule R29. -/
  halt : Bool
  /-- The operation in progress, rule R33. -/
  op : Option Op
  /-- `HOST_OUT`, rule R35 (e): a trace, oldest byte first. -/
  hostOut : List Byte
  /-- `BUS_OUT`, rule R35 (e): a trace, oldest byte first. -/
  busOut : List Byte
  /-- The answers given on CMD (rule R8): a trace, oldest first. -/
  cmdOut : List Answer
  /-- Client state, rule R241. -/
  client : Client
  /-- MODEL's own: the lines of the run still to come (rule R8). -/
  input : List Input
  /-- MODEL's own: resets taken so far; selects the free values of the present epoch. -/
  epoch : Nat
deriving DecidableEq, Repr

/-- Faults. The spec has none: "No condition is fatal to the running process" (rule R290), the fail-stop is the latch
`HALT` (rule R296), no access can miss its storage (rule R62). So the type has no constructor: every step of this model
goes on or is refused. Safe. -/
inductive Fault where
deriving DecidableEq, Repr

/-- Refusals. -/
inductive Refusal where
  /-- Raised by `exec` for an instruction with no meaning yet. Safe. -/
  | notModelled (mnemonic : String)
  /-- Raised by the fetch when the bytes on an interface are no instruction: rule R103 (d), (e) and
  93_implementation_defined.md U1, treatment "refuse". Safe. -/
  | undecodable (e : DecodeError)
  /-- Raised by the fetch when the run puts an operation of its own on CMD while the reference client is inside a host
  command: two threads of control. Rule R337: "A client must not drive the CMD interface from more than one thread of
  control"; 93_implementation_defined.md U12, treatment "refuse". Safe. -/
  | secondThread
deriving DecidableEq, Repr

/-- An empty channel with nothing written, rule R36. -/
def Channel.reset : Channel := { buf := [], get := 0, put := 0 }

/-- Client state after RESET, rule R36: empty tables, `RETRY = 0`, dispatcher at the start of a host command cycle. The
analog samples are "unspecified"; zero here, log entry 5. -/
def Client.reset : Client where
  readTable := []
  writeTable := []
  retry := 0
  supply := 0
  secondary := 0
  thermal := 0
  pos := .cycleStart

/-- The machine right after reset, rule R36. The parameters are OPEN in the spec; log entry 1 names the ones here. -/
def State.reset : State where
  cfg := Config.customary
  hrx := Channel.reset
  htx := Channel.reset
  brx := Channel.reset
  btx := Channel.reset
  htxShift := none
  btxShift := none
  dir := .receive
  tmo := 0
  status := 0x00
  hcTxSum := 0x00
  hcRxSum := 0x00
  bcTxSum := 0x00
  bcRxSum := 0x00
  halt := false
  op := none
  hostOut := []
  busOut := []
  cmdOut := []
  client := Client.reset
  input := []
  epoch := 0

end Sys2Proof.Machine
end

