-- ==== Sys2Proof/Machine/Flags.lean ====
section
/-!
DEFINITION. Machine/Flags.lean: the eight sticky bits of `STATUS` (rules R27, R291) as masks, and the updates of the
register. There are no arithmetic flags (rule R32).
-/

namespace Sys2Proof.Machine

/-- `HostTimeout`, bit 0 (rule R27). -/
def hostTimeoutMask : Byte := 0x01
/-- `BusTimeout`, bit 1. -/
def busTimeoutMask : Byte := 0x02
/-- `InvalidHostCommand`, bit 2. -/
def invalidHostCommandMask : Byte := 0x04
/-- `InvalidBusResponse`, bit 3. -/
def invalidBusResponseMask : Byte := 0x08
/-- `HostOverflow`, bit 4. -/
def hostOverflowMask : Byte := 0x10
/-- `BusOverflow`, bit 5. -/
def busOverflowMask : Byte := 0x20
/-- `HostChecksumError`, bit 6. -/
def hostChecksumErrorMask : Byte := 0x40
/-- `BusChecksumError`, bit 7. -/
def busChecksumErrorMask : Byte := 0x80

/-- The timeout bit of a link: `HostTimeout` or `BusTimeout` (rule R291). -/
def timeoutMask : Link → Byte
  | .host => hostTimeoutMask
  | .bus => busTimeoutMask

/-- The overflow bit of a link: `HostOverflow` or `BusOverflow` (rule R291). -/
def overflowMask : Link → Byte
  | .host => hostOverflowMask
  | .bus => busOverflowMask

/-- The checksum bit of a link: `HostChecksumError` or `BusChecksumError` (rule R291). -/
def checksumErrorMask : Link → Byte
  | .host => hostChecksumErrorMask
  | .bus => busChecksumErrorMask

/-- `STATUS <- STATUS | m`, one atomic read-modify-write (rules R10, R218). A flagged condition does this and nothing
else: "No control is transferred, no state is saved, nothing is masked, no mode changes" (rule R290). It is the block's
whole "trap entry" (rule R295). -/
def State.raise (s : State) (m : Byte) : State := { s with status := s.status ||| m }

/-- `STATUS <- STATUS & ~m`, one atomic read-modify-write (rule R219); with `m = 0xFF` it is `STATUS <- 0x00` of rule
R217. The only "return" from a flagged condition is to clear its bit (rule R297). -/
def State.clearFlags (s : State) (m : Byte) : State := { s with status := s.status &&& ~~~ m }

/-- The received checksum byte is right: `c = ~sum` (rules R102, R165, R184). -/
abbrev checksumMatches (sum c : Byte) : Prop := c = ~~~ sum

end Sys2Proof.Machine
end

