-- ==== Sys2Proof/Machine/Operands.lean ====
section
/-!
DEFINITION. Machine/Operands.lean: what operand and argument bytes mean: the host command arguments the client checks
(rules R98, R103 (b), R248), the packet fields of `BC_RX_PACKET` (rules R72, R183), and the block split of `READ_DATA`
(rule R250).
-/

namespace Sys2Proof.Machine

/-- A legal format entry, rule R98: "deviceId <= 253, startAddr <= 54, length <= (55-startAddr)". -/
abbrev Entry.valid (e : Entry) : Prop :=
  e.deviceId.toNat ≤ 253 ∧ e.startAddr.toNat ≤ 54 ∧ e.length.toNat ≤ 55 - e.startAddr.toNat

/-- A legal format table, rules R98 and R241: at most 32 entries, each legal. -/
abbrev tableValid (t : List Entry) : Prop := t.length ≤ 32 ∧ ∀ e ∈ t, e.valid

/-- `totalBytes` of a table, rule R241: the sum of the lengths. -/
def totalBytesOf : List Entry → Nat
  | [] => 0
  | e :: es => e.length.toNat + totalBytesOf es

/-- The first entry with a byte to read, and the entries after it: an entry with `length = 0` causes no bus traffic
(rule R250). -/
def firstNonEmpty : List Entry → Option (Entry × List Entry)
  | [] => none
  | e :: es => if e.length.toNat = 0 then firstNonEmpty es else some (e, es)

/-- The register address that "does not exist on the device", rules R11 and R250. -/
def virtualRegister : Nat := 54

/-- The bus read-size ceiling, rule R250: blocks of at most 20 bytes. -/
def blockCeiling : Nat := 20

/-- The sentinel of the backfill, rule R250. -/
def sentinel : Byte := 0xFF

/-- One parameter byte of a received packet, rule R183: "if i < expected then params <- params ++ [b]"; bytes beyond
`expected` are discarded (rule R72). Everything consumed before was stored as long as there was room, so the count
stored tells whether there still is. -/
def PacketLocals.store (p : PacketLocals) (b : Byte) : PacketLocals :=
  if p.params.length < p.expected.toNat then { p with params := p.params ++ [b] } else p

/-- The results of `BC_RX_PACKET`, rule R92: id, L, err, n, params[0 .. n-1]. -/
def PacketLocals.results (p : PacketLocals) : List Byte :=
  p.id :: p.len :: p.err :: u8 p.params.length :: p.params

/-- The result bytes an operation answers with. -/
def Op.answerBytes (o : Op) : List Byte :=
  match o.packet with
  | some p => p.results
  | none => o.results

end Sys2Proof.Machine
end

