-- ==== Sys2Proof/Machine/Ops.lean ====
section
/-!
DEFINITION. Machine/Ops.lean: the named operations over the storage spaces, the channels, the checksum sums, the
countdown, the direction and the traces (rules R60 to R63, R130, R24 to R28), each used by several operations.
-/

namespace Sys2Proof.Machine

/-- `MemRead(c, i, 1)`, rule R10: what has been written in a slot, if anything has. -/
def Memory.read : Memory → Nat → Option Byte
  | [], _ => none
  | (a, b) :: m, i => if a = i then some b else Memory.read m i

/-- `MemWrite(c, i, 1, v)`, rule R10: writes one slot and keeps the slots strictly rising. -/
def Memory.write : Memory → Nat → Byte → Memory
  | [], i, v => [(i, v)]
  | (a, b) :: m, i, v =>
    if i < a then (i, v) :: (a, b) :: m
    else if i = a then (i, v) :: m
    else (a, b) :: Memory.write m i v

/-- Every slot listed is above `lo`. -/
def Memory.above : Nat → Memory → Bool
  | _, [] => true
  | lo, (a, _) :: m => decide (lo < a) && Memory.above a m

/-- The canonical form: slots strictly rising. An unlisted slot holds no written value, so no entry can equal what an
unlisted slot reads as, and equal memories are equal lists. -/
def Memory.wf : Memory → Bool
  | [] => true
  | (a, _) :: m => Memory.above a m

/-- The state element of a channel. -/
def State.chan (s : State) : Chan → Channel
  | .hrx => s.hrx
  | .htx => s.htx
  | .brx => s.brx
  | .btx => s.btx

/-- Replace a channel. -/
def State.setChan (s : State) (c : Chan) (ch : Channel) : State :=
  match c with
  | .hrx => { s with hrx := ch }
  | .htx => { s with htx := ch }
  | .brx => { s with brx := ch }
  | .btx => { s with btx := ch }

/-- The RX channel of a link, rule R11. -/
def rxChan : Link → Chan
  | .host => .hrx
  | .bus => .brx

/-- The TX channel of a link, rule R11. -/
def txChan : Link → Chan
  | .host => .htx
  | .bus => .btx

/-- `CAP_c`. -/
def State.cap (s : State) (c : Chan) : Nat := s.cfg.cap c

/-- `len(c)`, rules R21 and R130. -/
def State.len (s : State) (c : Chan) : Nat := (s.chan c).put - (s.chan c).get

/-- `empty(c)`, rule R130. -/
abbrev State.Empty (s : State) (c : Chan) : Prop := s.len c = 0

/-- `full(c)`, rule R130. -/
abbrev State.Full (s : State) (c : Chan) : Prop := s.len c = s.cap c

/-- The in-flight slot of a link's transmitter, rule R24. -/
def State.shift (s : State) : Link → Option Byte
  | .host => s.htxShift
  | .bus => s.btxShift

/-- Write an in-flight slot. -/
def State.setShift (s : State) (l : Link) (v : Option Byte) : State :=
  match l with
  | .host => { s with htxShift := v }
  | .bus => { s with btxShift := v }

/-- `drained(c)` of a link's TX channel, rule R130. -/
abbrev State.Drained (s : State) (l : Link) : Prop := s.Empty (txChan l) ∧ s.shift l = none

/-- What a slot holds: the byte written there since reset, or the free value of rule R36 and
93_implementation_defined.md U2. -/
def State.slot (s : State) (c : Chan) (i : Nat) : Byte :=
  match ((s.chan c).buf).read i with
  | some b => b
  | none => Config.unwrittenSlot s.epoch c i

/-- The bytes a channel holds, oldest first, rule R21. -/
def State.contents (s : State) (c : Chan) : List Byte :=
  (List.range (s.len c)).map fun k => s.slot c (((s.chan c).get + k) % s.cap c)

/-- `push(c, b)`, rule R130: one slot and `c.put`. Every caller has tested that `c` is not full. -/
def State.push (s : State) (c : Chan) (b : Byte) : State :=
  let ch := s.chan c
  s.setChan c { ch with buf := ch.buf.write (ch.put % s.cap c) b, put := ch.put + 1 }

/-- The byte `pop(c)` returns, rule R130. -/
def State.oldest (s : State) (c : Chan) : Byte := s.slot c ((s.chan c).get % s.cap c)

/-- What `pop(c)` leaves, rule R130: `c.get` alone changes, the slot's byte stays as a stale value. -/
def State.dropOldest (s : State) (c : Chan) : State :=
  s.setChan c { s.chan c with get := (s.chan c).get + 1 }

/-- The flush of rules R139 and R140: `c.get <- c.put`, from the consumer's side. -/
def State.flushChan (s : State) (c : Chan) : State :=
  s.setChan c { s.chan c with get := (s.chan c).put }

/-- The transmit sum of a link's codec, rule R28. -/
def State.txSum (s : State) : Link → Byte
  | .host => s.hcTxSum
  | .bus => s.bcTxSum

/-- Write a transmit sum. -/
def State.setTxSum (s : State) (l : Link) (v : Byte) : State :=
  match l with
  | .host => { s with hcTxSum := v }
  | .bus => { s with bcTxSum := v }

/-- The receive sum of a link's codec, rule R28. -/
def State.rxSum (s : State) : Link → Byte
  | .host => s.hcRxSum
  | .bus => s.bcRxSum

/-- Write a receive sum. -/
def State.setRxSum (s : State) (l : Link) (v : Byte) : State :=
  match l with
  | .host => { s with hcRxSum := v }
  | .bus => { s with bcRxSum := v }

/-- What the push of `b` does to the transmit sum beside it. -/
def SumUse.apply (u : SumUse) (sum b : Byte) : Byte :=
  match u with
  | .keep => sum
  | .add => sum + b
  | .clear => 0
  | .restart => 0 + b

/-- `emit(T, b)`, rule R10. -/
def State.emit (s : State) (l : Link) (b : Byte) : State :=
  match l with
  | .host => { s with hostOut := s.hostOut ++ [b] }
  | .bus => { s with busOut := s.busOut ++ [b] }

/-- `TMO <- t`, the arming of rules R132, R182 and R213. -/
def State.armTimer (s : State) (t : Byte) : State := { s with tmo := t }

/-- `DIR <- d`, rules R210 and R211. -/
def State.setDir (s : State) (d : Direction) : State := { s with dir := d }

/-- The level of DIR-OUT, rules R6 and R107: 1 means the block drives the bus line. -/
def State.dirOut (s : State) : Bool :=
  match s.dir with
  | .receive => false
  | .transmit => true

/-- The level of HALT-OUT, rules R6 and R220. -/
def State.haltOut (s : State) : Bool := s.halt

/-- A byte arrives on a link, rules R141 and R142: pushed, or dropped at a full channel with the overflow bit set. -/
def State.arrive (s : State) (l : Link) (b : Byte) : State :=
  if s.Full (rxChan l) then s.raise (overflowMask l) else s.push (rxChan l) b

/-- A byte appears on the bus line, rule R142: nothing in the halted state, nothing while `DIR = Transmit`. -/
def State.busLineByte (s : State) (b : Byte) : State :=
  if s.halt = true then s
  else if s.dir = .transmit then s
  else s.arrive .bus b

/-- The transmitter of a link takes the next byte, the body of rules R143 and R145. -/
def State.loadShift (s : State) (l : Link) : State :=
  let b := s.oldest (txChan l)
  (s.dropOldest (txChan l)).setShift l (some b)

/-- The transmitter of a link may take a byte: the FIFO is not empty and the slot is (rules R143, R145). -/
abbrev State.CanLoad (s : State) (l : Link) : Prop := ¬ s.Empty (txChan l) ∧ s.shift l = none

/-- `TABLE[d]`. -/
def Client.table (k : Client) : TableSel → List Entry
  | .read => k.readTable
  | .write => k.writeTable

/-- Replace `TABLE[d]` wholesale, rules R241 and R248. -/
def Client.setTable (k : Client) (d : TableSel) (t : List Entry) : Client :=
  match d with
  | .read => { k with readTable := t }
  | .write => { k with writeTable := t }

/-- Refresh one analog sample, rule R241 (d). -/
def Client.setAnalog (k : Client) (a : Analog) (v : Byte) : Client :=
  match a with
  | .supply => { k with supply := v }
  | .secondary => { k with secondary := v }
  | .thermal => { k with thermal := v }

/-- The RESET event, rules R36, R221 and R330: every element at its reset value; the parameters and the rest of the run
stay (rule R8: they are no state of the block); unwritten slots and the analog samples take fresh free values. -/
def State.afterReset (s : State) : State :=
  let e := s.epoch + 1
  { State.reset with
    cfg := s.cfg
    input := s.input
    epoch := e
    client := { Client.reset with
      supply := Config.analogAfterReset e .supply
      secondary := Config.analogAfterReset e .secondary
      thermal := Config.analogAfterReset e .thermal } }

end Sys2Proof.Machine
end

