-- ==== Sys2Proof/Machine/ClientLogic.lean ====
section
/-!
DEFINITION. Machine/ClientLogic.lean: what the reference client does with the answer of the operation it issued
(45_client_sequencer.md). The client's own computations touch no state of the block; each is done when the answer it
rests on is given (log entry 9). Which operation the client issues next is in Machine/Client.lean.
-/

namespace Sys2Proof.Machine

/-- Where a status response leads (rules R244, R252). -/
def After.pos : After → Pos
  | .done => .cycleStart
  | .cooldown => .coolArm

/-- Emit bytes with `HC_TX_BYTE b, 1`, then close the packet. -/
def emitThenClose (bs : List Byte) (k : After) : Pos :=
  match bs with
  | [] => .statusEnd k
  | b :: bs => .emit b bs (.close k)

/-- Emit payload bytes with `HC_TX_BYTE b, 1`, then the status part (`PayloadFirst`). -/
def emitThenStatus (bs : List Byte) (k : After) : Pos :=
  match bs with
  | [] => .statusRead [] k
  | b :: bs => .emit b bs (.status k)

/-- `invalid_path(instr)`, rule R252. -/
def invalidPath (instr : Byte) : Pos := .invalidSet instr

/-- `send_status(instr, [])`, rule R244. -/
def plainStatus (instr : Byte) : Pos := .statusStart instr [] .done

/-- The end of `READ_DATA`, label `backfill` of rule R250: the bytes still owed are sentinels. -/
def readFinish (c : Config) (k : Client) (payload : List Byte) : Pos :=
  let owed := List.replicate (totalBytesOf k.readTable - payload.length) sentinel
  match c.readOrder with
  | .statusFirst => .statusStart 0xF3 (payload ++ owed) .done
  | .payloadFirst => emitThenStatus owed .done

/-- One block of an entry, rule R250: at most 20 bytes; a block whose last byte is the virtual register is trimmed by
one; a block with no physical byte left is a ping. -/
def readBlock (c : Config) (l : ReadLoop) : Pos :=
  let blk := min l.rem blockCeiling
  let virt := decide (l.addr + blk = virtualRegister + 1)
  let phys := if virt then blk - 1 else blk
  let next : ReadLoop := { l with addr := l.addr + blk, rem := l.rem - blk }
  let t : Txn :=
    if phys = 0 then { id := l.device, instr := c.biPing, params := [], expected := 0 }
    else { id := l.device, instr := c.biRead, params := [u8 l.addr, u8 phys], expected := u8 phys }
  .txn .dirTx t (.read next virt phys)

/-- The loop of `READ_DATA`, rule R250: the next block of the entry in work, else of the next entry, else the end. -/
def readNext (c : Config) (k : Client) (l : ReadLoop) : Pos :=
  if l.rem ≠ 0 then readBlock c l
  else
    match firstNonEmpty l.rest with
    | some (e, es) =>
      readBlock c
        { l with device := e.deviceId, addr := e.startAddr.toNat, rem := e.length.toNat, rest := es }
    | none => readFinish c k l.payload

/-- The start of the loop over `rest`. With `PayloadFirst` the opening `HC_TX_START F3` is issued here, before the first bus
transaction: DESIGN CHOICE (log entry 22), rule R244 says only that the payload bytes follow it "as they are obtained". -/
def readBegin (c : Config) (k : Client) (rest : List Entry) : Pos :=
  let l : ReadLoop := { payload := [], device := 0, addr := 0, rem := 0, rest := rest }
  match c.readOrder with
  | .statusFirst => readNext c k l
  | .payloadFirst => .readOpen l

/-- After a block's reply, rule R250: the data, sentinels for what a short reply left out, and the error byte for the
virtual register. -/
def readGot (c : Config) (k : Client) (l : ReadLoop) (virt : Bool) (phys : Nat) (err : Byte) (data : List Byte) : Pos :=
  let chunk := data ++ List.replicate (phys - data.length) sentinel ++ (if virt then [err] else [])
  let l' : ReadLoop := { l with payload := l.payload ++ chunk }
  match c.readOrder, chunk with
  | .payloadFirst, b :: bs => .emit b bs (.readLoop l')
  | _, _ => readNext c k l'

/-- The register write of one entry once its payload is read, rule R251. -/
def writeTxn (c : Config) (e : Entry) (data : List Byte) (rest : List Entry) : Pos :=
  .txn .dirTx { id := e.deviceId, instr := c.biRegWrite, params := e.startAddr :: data, expected := 0 } (.write rest)

/-- The loop of `WRITE_DATA`, rule R251: the next entry's payload, or the closing checksum. -/
def writeNext (c : Config) : List Entry → Pos
  | [] => .writeEnd
  | e :: es => if e.length.toNat = 0 then writeTxn c e [] es else .writeArg e.length.toNat [] e es

/-- The one commit of `WRITE_DATA`, rule R251. -/
def commitTxn (c : Config) : Pos :=
  .txn .dirTx { id := busBroadcastId, instr := c.biAction, params := [], expected := 0 } .commit

/-- The result of a bus transaction, rule R245. -/
inductive TxnResult where
  | success (rid err : Byte) (data : List Byte)
  | sendFail
  | timeout
  | checksumFailure (rid err : Byte) (data : List Byte)
deriving DecidableEq, Repr

/-- What follows a transaction's result: `PING` (rule R247), `READ_DATA` (rule R250), `WRITE_DATA` (rule R251). -/
def txnDone (c : Config) (k : Client) : TxnFor → TxnResult → Pos
  | .ping addr, .success rid _ _ | .ping addr, .checksumFailure rid _ _ =>
    if rid ≠ addr then .pingMark else plainStatus 0xF0
  | .ping _, .sendFail | .ping _, .timeout => plainStatus 0xF0
  | .read l virt phys, .success _ err data => readGot c k l virt phys err data
  | .read l _ _, .sendFail | .read l _ _, .timeout | .read l _ _, .checksumFailure _ _ _ =>
    readFinish c k l.payload
  | .write rest, .success _ _ _ => writeNext c rest
  | .write _, .sendFail | .write _, .timeout | .write _, .checksumFailure _ _ _ => plainStatus 0xF4
  | .commit, _ => plainStatus 0xF4
  | .sendOnly, _ => .cycleStart

/-- The parameter bytes of a packet still to send, then `BC_TX_END`. -/
def paramStage : List Byte → TxnStage
  | [] => .close
  | p :: ps => .param (p :: ps)

/-- A transaction's next place on an answer, rules R245 and R246. -/
def txnReact (c : Config) (k : Client) (stage : TxnStage) (t : Txn) (f : TxnFor) (a : Answer) : Client :=
  match stage with
  | .dirTx => { k with pos := .txn .start t f }
  | .start => { k with pos := .txn (paramStage t.params) t f }
  | .param left => { k with pos := .txn (paramStage left.tail) t f }
  | .close =>
    if a.code = .timeout then { k with pos := txnDone c k f .sendFail }
    else if f = .sendOnly then { k with pos := .cycleStart }
    else if t.id = busBroadcastId then { k with pos := txnDone c k f (.success t.id 0 []) }
    else { k with pos := .txn .dirRx t f }
  | .dirRx => { k with pos := .txn .packet t f }
  | .packet =>
    match a.code, a.results with
    | .ok, rid :: _ :: err :: _ :: data => { k with pos := .txn (.check rid err data) t f }
    | _, _ => { k with pos := txnDone c k f .timeout }
  | .check rid err data =>
    if a.code = .timeout then { k with pos := txnDone c k f .timeout }
    else if err &&& c.errCksumMask ≠ 0 ∨ a.code = .checksum then
      if k.retry < 3 then { k with pos := .txn .retry t f }
      else { k with pos := txnDone c k f (.checksumFailure rid err data) }
    else { k with pos := txnDone c k f (.success rid err data) }
  | .retry => { k with retry := k.retry + 1, pos := .txn .dirTx t f }

/-- `SET_FORMAT(d)`, rules R248 and R249: the instruction byte it answers with. -/
def formatInstr : TableSel → Byte
  | .read => 0xF1
  | .write => 0xF2

/-- A violation of `SET_FORMAT`, rule R248: the table is left empty and the Invalid path taken. -/
def Client.formatViolation (k : Client) (d : TableSel) : Client :=
  { k.setTable d [] with pos := invalidPath (formatInstr d) }

/-- A host read timeout inside `SET_FORMAT`, rule R248: the table is left empty, a plain status is sent. -/
def Client.formatAbandoned (k : Client) (d : TableSel) : Client :=
  { k.setTable d [] with pos := plainStatus (formatInstr d) }

/-- After an entry of `SET_FORMAT`: the next one, or the checksum. -/
def formatNext (d : TableSel) (left : Nat) (new : List Entry) : Pos :=
  match left with
  | 0 => .formatEnd d new
  | n + 1 => .formatEntry d (n + 1) [] new

/-- A byte of an entry, rule R248: "Each entry is validated as soon as its three bytes are read". -/
def Client.formatByte (k : Client) (d : TableSel) (left : Nat) (got : List Byte) (new : List Entry) (b : Byte) : Client :=
  match got with
  | [dev, addr] =>
    let e : Entry := { deviceId := dev, startAddr := addr, length := b }
    if e.valid then { k with pos := formatNext d (left - 1) (new ++ [e]) } else k.formatViolation d
  | _ => { k with pos := .formatEntry d left (got ++ [b]) new }

/-- `PING`, rule R247. -/
def Client.startPing (k : Client) : Client := { k with pos := .pingAddr }

/-- `SET_READ_FORMAT` and `SET_WRITE_FORMAT`, rules R248 and R249. -/
def Client.startFormat (k : Client) (d : TableSel) : Client := { k with pos := .formatCount d }

/-- `READ_DATA`, rule R250. -/
def Client.startRead (k : Client) : Client := { k with pos := .readEnd }

/-- `WRITE_DATA`, rule R251. -/
def Client.startWrite (c : Config) (k : Client) : Client := { k with pos := writeNext c k.writeTable }

/-- `INVALID`, rule R252. -/
def Client.startInvalid (k : Client) (instr : Byte) : Client := { k with pos := invalidPath instr }

/-- `BUS_SEND id, instr, params`, rule R106. -/
def Client.startBusSend (k : Client) (id instr : Byte) (params : List Byte) : Client :=
  { k with pos := .txn .dirTx { id := id, instr := instr, params := params, expected := 0 } .sendOnly }

/-- `route(instr)`, rule R243. -/
def Client.route (c : Config) (k : Client) (b : Byte) : Client :=
  match decodeHostByte b with
  | .ping => k.startPing
  | .setReadFormat => k.startFormat .read
  | .setWriteFormat => k.startFormat .write
  | .readData => k.startRead
  | .writeData => k.startWrite c
  | .reserved b => k.startInvalid b
  | .badSync b => k.startInvalid b

/-- The byte an answer carries first. -/
def Answer.byte0 (a : Answer) : Byte := a.results.headD 0

/-- What the client does with the answer of the operation its place names (45_client_sequencer.md). -/
def Client.react (c : Config) (k : Client) (a : Answer) : Client :=
  match k.pos with
  -- rule R242: STATUS is reset by the operation itself, RETRY here
  | .cycleStart => { k with retry := 0, pos := .idle }
  | .idle => k.route c a.byte0
  -- rule R247
  | .pingAddr =>
    if a.code = .timeout then { k with pos := plainStatus 0xF0 } else { k with pos := .pingEnd a.byte0 }
  | .pingEnd addr =>
    if a.code = .timeout then { k with pos := plainStatus 0xF0 }
    else if addr = 0xFF then { k with pos := plainStatus 0xF0 }
    else if addr = busBroadcastId then { k with pos := invalidPath 0xF0 }
    else { k with pos := .txn .dirTx { id := addr, instr := c.biPing, params := [], expected := 0 } (.ping addr) }
  | .pingMark => { k with pos := plainStatus 0xF0 }
  -- rule R248
  | .formatCount d =>
    if a.code = .timeout then k.formatAbandoned d
    else if 32 < a.byte0.toNat then k.formatViolation d
    else { k with pos := formatNext d a.byte0.toNat [] }
  | .formatEntry d left got new =>
    if a.code = .timeout then k.formatAbandoned d else k.formatByte d left got new a.byte0
  | .formatEnd d new =>
    if a.code = .timeout then k.formatAbandoned d
    else { k.setTable d new with pos := plainStatus (formatInstr d) }
  -- rule R250; a host read timeout abandons every entry (rule R253, log entry 10)
  | .readEnd =>
    if a.code = .timeout then { k with pos := readBegin c k [] } else { k with pos := readBegin c k k.readTable }
  | .readOpen l => { k with pos := readNext c k l }
  -- rule R251
  | .writeArg left data e rest =>
    if a.code = .timeout then { k with pos := plainStatus 0xF4 }
    else
      let data' := data ++ [a.byte0]
      if left ≤ 1 then { k with pos := writeTxn c e data' rest }
      else { k with pos := .writeArg (left - 1) data' e rest }
  | .writeEnd =>
    if a.code = .timeout then { k with pos := plainStatus 0xF4 } else { k with pos := commitTxn c }
  -- rules R245, R246
  | .txn stage t f => txnReact c k stage t f a
  -- rule R252
  | .invalidSet instr => { k with pos := .statusStart instr [] .cooldown }
  -- rule R244
  | .statusStart _ payload after => { k with pos := .statusRead payload after }
  | .statusRead payload after => { k with pos := .statusByte a.byte0 payload after }
  | .statusByte _ payload after => { k with pos := .statusRetry payload after }
  -- the snapshot of rule R254: all three samples as of this one instant
  | .statusRetry payload after =>
    { k with pos := emitThenClose ([k.supply, k.secondary, k.thermal] ++ payload) after }
  | .emit _ bs f =>
    match bs, f with
    | b :: bs, f => { k with pos := .emit b bs f }
    | [], .close after => { k with pos := .statusEnd after }
    | [], .status after => { k with pos := .statusRead [] after }
    | [], .readLoop l => { k with pos := readNext c k l }
  | .statusEnd after => { k with pos := after.pos }
  | .coolArm => { k with pos := .coolWait }
  | .coolWait => { k with pos := .coolFlushHost }
  | .coolFlushHost => { k with pos := .coolFlushBus }
  | .coolFlushBus => { k with pos := .cycleStart }

end Sys2Proof.Machine
end

