-- ==== Sys2Proof/Machine/Micro.lean ====
section
/-!
DEFINITION. Machine/Micro.lean: the micro-steps of CMD operations (rule R68): what each does, when it holds, and how an
operation completes. `State.microStep` answers `none` exactly where the foreground agent has no enabled micro-step of
the operation in progress: `HALT = 1`, no operation, or a hold (rule R10: "it is not a fault and not a failure").
-/

namespace Sys2Proof.Machine

/-- The operation completes with an outcome (rules R91, R93): the interface is free, the answer is on CMD, and where the
reference client issued it the client takes the answer. -/
def State.answer (s : State) (o : Op) (code : Code) : State :=
  let a : Answer := { code := code, results := o.answerBytes }
  let s' : State := { s with op := none, cmdOut := s.cmdOut ++ [a] }
  match o.owner with
  | .script => s'
  | .client => { s' with client := s'.client.react s'.cfg a }

/-- After a micro-step: the operation waits at its next one, or completes with `Ok` where none is left. -/
def State.proceed (s : State) (o : Op) : State :=
  match o.todo with
  | [] => s.answer o .ok
  | _ :: _ => { s with op := some o }

/-- An update of the locals of `BC_RX_PACKET`. -/
def Op.withPacket (o : Op) (f : PacketLocals → PacketLocals) : Op := { o with packet := o.packet.map f }

/-- The byte reads of `BC_RX_PACKET` after its header, rule R183: one arming and one get for each of `paramCount` bytes. -/
def paramReads (t : Byte) : Nat → List Micro
  | 0 => []
  | n + 1 => .arm t :: .get .bus .param :: paramReads t n

/-- A get has yielded byte `b` (it is already off the channel): what the operation does with it in the same micro-step. -/
def State.useByte (s : State) (l : Link) (o : Op) (b : Byte) : GetUse → State
  | .raw => s.proceed { o with results := o.results ++ [b] }
  | .byte acc =>
    (if acc then s.setRxSum l (s.rxSum l + b) else s).proceed { o with results := o.results ++ [b] }
  | .start => (s.setRxSum l b).proceed { o with results := o.results ++ [b] }
  | .check =>
    if checksumMatches (s.rxSum l) b then s.proceed o
    else s.proceed { o with todo := [.fail (checksumErrorMask l) .checksum] }
  | .sync1 => s.proceed (o.withPacket fun p => { p with s1 := b })
  | .sync2 =>
    let s1 := (o.packet.map PacketLocals.s1).getD 0
    if s1 ≠ 0xFF ∨ b ≠ 0xFF then s.proceed { o with todo := .setStatus invalidBusResponseMask :: o.todo }
    else s.proceed o
  | .id => (s.setRxSum l (s.rxSum l + b)).proceed (o.withPacket fun p => { p with id := b })
  | .len => (s.setRxSum l (s.rxSum l + b)).proceed (o.withPacket fun p => { p with len := b })
  | .err =>
    let o' := o.withPacket fun p => { p with err := b }
    let count := paramCount ((o.packet.map PacketLocals.len).getD 0)
    let expected := (o.packet.map PacketLocals.expected).getD 0
    let reads := paramReads (s.cfg.tRx l) count.toNat
    let todo := if count ≠ expected then .setStatus invalidBusResponseMask :: reads else reads
    (s.setRxSum l (s.rxSum l + b)).proceed { o' with todo := todo ++ o.todo }
  | .param => (s.setRxSum l (s.rxSum l + b)).proceed (o.withPacket fun p => p.store b)

/-- A timed get ends with `TMO = 0` and an empty channel: the raw gets answer `Timeout` and set no flag (rules R136,
R137); a codec's get goes on to `step { set STATUS.X }; return Timeout` (rules R164, R165, R185). -/
def State.getTimedOut (s : State) (l : Link) (o : Op) : GetUse → State
  | .raw => s.answer o .timeout
  | .byte _ | .start | .check | .sync1 | .sync2 | .id | .len | .err | .param =>
    s.proceed { o with todo := [.fail (timeoutMask l) .timeout] }

/-- One micro-step, `o.todo` being what is left after it; `none` where it holds. -/
def Micro.run (m : Micro) (o : Op) (s : State) : Option State :=
  match m with
  | .put l b u =>
    if s.Full (txChan l) then none
    else some (((s.push (txChan l) b).setTxSum l (u.apply (s.txSum l) b)).proceed o)
  | .putChecksum l =>
    if s.Full (txChan l) then none else some ((s.push (txChan l) (~~~ s.txSum l)).proceed o)
  | .arm t => some ((s.armTimer t).proceed o)
  | .armPacket t => some (((s.armTimer t).setRxSum .bus 0).proceed o)
  | .get l u =>
    if ¬ s.Empty (rxChan l) then
      some ((s.dropOldest (rxChan l)).useByte l o (s.oldest (rxChan l)) u)
    else if s.tmo = 0 then some (s.getTimedOut l o u)
    else none
  | .getUntimed u =>
    if s.Empty .hrx then none
    else some ((s.dropOldest .hrx).useByte .host o (s.oldest .hrx) u)
  | .flush l => some ((s.flushChan (rxChan l)).proceed o)
  | .direction d => some ((s.setDir d).proceed o)
  | .awaitExpiry => if s.tmo = 0 then some (s.proceed o) else none
  | .awaitDrain =>
    if s.Drained .bus then some (s.proceed o)
    else if s.tmo = 0 then some ((s.raise busTimeoutMask).answer o .timeout)
    else none
  | .readStatus => some (s.proceed { o with results := o.results ++ [s.status] })
  | .resetStatus => some ((s.clearFlags 0xFF).proceed o)
  | .setStatus m => some ((s.raise m).proceed o)
  | .clearStatus m => some ((s.clearFlags m).proceed o)
  | .fail m code => some ((s.raise m).answer o code)

/-- The foreground agent's micro-step of the operation in progress, rule R68. While `HALT = 1` there is none (rule R29). -/
def State.microStep (s : State) : Option State :=
  if s.halt = true then none
  else
    match s.op with
    | none => none
    | some o =>
      match o.todo with
      | [] => some (s.answer o .ok)
      | m :: rest => m.run { o with todo := rest } s

/-- An operation is presented on CMD (rules R31, R91). A waiting operation holds the interface: then nothing is
presented. -/
def State.issue (s : State) (w : Owner) (p : Program) : State :=
  match s.op with
  | some _ => s
  | none => { s with op := some { owner := w, todo := p.todo, results := [], packet := p.packet } }

/-- Micro-steps of the operation in progress up to the point where it completes or holds, at most `fuel` of them. -/
def State.runOp : Nat → State → State
  | 0, s => s
  | n + 1, s =>
    match s.microStep with
    | some s' => State.runOp n s'
    | none => s

/-- More micro-steps than any operation has: the longest is `BC_RX_PACKET` with 255 parameter bytes, at most
2 * (5 + 255) + 3. -/
def opFuel : Nat := 1024

/-- A CMD line of a run, rule R106: "an operation line stands for all its micro-steps up to the point where it holds". -/
def State.command (s : State) (p : Program) : Host.Outcome State Fault Refusal :=
  match s.op with
  | some _ => .next s
  | none => .next ((s.issue .script p).runOp opFuel)

end Sys2Proof.Machine
end

