-- ==== Sys2Proof/Machine/BusCodec.lean ====
section
/-!
DEFINITION. Machine/BusCodec.lean: the bus packet codec (42_bus_codec.md). No operation here reads or writes `DIR`
(rule R186) and none checks the sequence it is issued in (rule R187).
-/

namespace Sys2Proof.Machine

/-- `BC_TX_START id, n, instr`, rule R180: "Five micro-steps". -/
def bcTxStartProgram (id n instr : Byte) : Program where
  todo :=
    [.put .bus 0xFF .clear, .put .bus 0xFF .keep, .put .bus id .add, .put .bus (lengthByte n) .add, .put .bus instr .add]

/-- `BC_TX_BYTE b`, rule R181: "Always accumulated". -/
def bcTxByteProgram (b : Byte) : Program := { todo := [.put .bus b .add] }

/-- `BC_TX_END`, rule R182. -/
def bcTxEndProgram (c : Config) : Program := { todo := [.putChecksum .bus, .arm c.tBusDrain, .awaitDrain] }

/-- `BC_RX_PACKET expected`, rule R183: the header reads; the reads of the parameters follow once `L` is known. -/
def bcRxPacketProgram (c : Config) (expected : Byte) : Program where
  todo :=
    [.armPacket (c.tRx .bus), .get .bus .sync1, .arm (c.tRx .bus), .get .bus .sync2, .arm (c.tRx .bus), .get .bus .id,
      .arm (c.tRx .bus), .get .bus .len, .arm (c.tRx .bus), .get .bus .err]
  packet := some { expected := expected }

/-- `BC_RX_END`, rule R184. -/
def bcRxEndProgram (c : Config) : Program := { todo := [.arm (c.tRx .bus), .get .bus .check] }

/-- `BC_TX_START id, n, instr`, rule R180: begin a bus packet. -/
def execBcTxStart (id n instr : Byte) (s : State) : Host.Outcome State Fault Refusal :=
  s.command (bcTxStartProgram id n instr)

/-- `BC_TX_BYTE b`, rule R181: emit one parameter byte. -/
def execBcTxByte (b : Byte) (s : State) : Host.Outcome State Fault Refusal := s.command (bcTxByteProgram b)

/-- `BC_TX_END`, rule R182: the checksum, then the wait for the drain. -/
def execBcTxEnd (s : State) : Host.Outcome State Fault Refusal := s.command (bcTxEndProgram s.cfg)

/-- `BC_RX_PACKET expected`, rule R183: the header and parameters of one bus packet. -/
def execBcRxPacket (expected : Byte) (s : State) : Host.Outcome State Fault Refusal :=
  s.command (bcRxPacketProgram s.cfg expected)

/-- `BC_RX_END`, rule R184: read and validate the checksum byte. -/
def execBcRxEnd (s : State) : Host.Outcome State Fault Refusal := s.command (bcRxEndProgram s.cfg)

end Sys2Proof.Machine
end

