-- ==== Sys2Proof/Machine/Fifo.lean ====
section
/-!
DEFINITION. Machine/Fifo.lean: the FIFO channel operations and events (40_fifo_ops.md). For each CMD operation: its
micro-steps, as its rule's pseudocode gives them, and its meaning.
-/

namespace Sys2Proof.Machine

/-- `HRX_GET t`, rule R136. -/
def hrxGetProgram (t : Byte) : Program := { todo := [.arm t, .get .host .raw] }

/-- `HRX_WAIT`, rule R138. -/
def hrxWaitProgram : Program := { todo := [.getUntimed .raw] }

/-- `HRX_FLUSH`, rule R139. -/
def hrxFlushProgram : Program := { todo := [.flush .host] }

/-- `HTX_PUT b`, rule R134. -/
def htxPutProgram (b : Byte) : Program := { todo := [.put .host b .keep] }

/-- `BRX_GET t`, rule R137. -/
def brxGetProgram (t : Byte) : Program := { todo := [.arm t, .get .bus .raw] }

/-- `BRX_FLUSH`, rule R140. -/
def brxFlushProgram : Program := { todo := [.flush .bus] }

/-- `BTX_PUT b`, rule R135. -/
def btxPutProgram (b : Byte) : Program := { todo := [.put .bus b .keep] }

/-- `HRX_GET t`, rule R136: the oldest byte from the host, waiting at most `t` ticks. -/
def execHrxGet (t : Byte) (s : State) : Host.Outcome State Fault Refusal := s.command (hrxGetProgram t)

/-- `HRX_WAIT`, rule R138: the oldest byte from the host, waiting without limit. -/
def execHrxWait (s : State) : Host.Outcome State Fault Refusal := s.command hrxWaitProgram

/-- `HRX_FLUSH`, rule R139. -/
def execHrxFlush (s : State) : Host.Outcome State Fault Refusal := s.command hrxFlushProgram

/-- `HTX_PUT b`, rule R134. -/
def execHtxPut (b : Byte) (s : State) : Host.Outcome State Fault Refusal := s.command (htxPutProgram b)

/-- `BRX_GET t`, rule R137. -/
def execBrxGet (t : Byte) (s : State) : Host.Outcome State Fault Refusal := s.command (brxGetProgram t)

/-- `BRX_FLUSH`, rule R140. -/
def execBrxFlush (s : State) : Host.Outcome State Fault Refusal := s.command brxFlushProgram

/-- `BTX_PUT b`, rule R135. -/
def execBtxPut (b : Byte) (s : State) : Host.Outcome State Fault Refusal := s.command (btxPutProgram b)

/-- `EV_HRX b`, rule R141: pushed, or dropped with `HostOverflow` at a full channel; nothing in the halted state. -/
def execEvHrx (b : Byte) (s : State) : Host.Outcome State Fault Refusal :=
  .next (if s.halt = true then s else s.arrive .host b)

/-- `EV_BRX b`, rule R142. -/
def execEvBrx (b : Byte) (s : State) : Host.Outcome State Fault Refusal := .next (s.busLineByte b)

/-- `EV_HTX_LOAD`, rule R143. Where the event is not enabled it is no step of the block (rule R293): nothing changes. -/
def execEvHtxLoad (s : State) : Host.Outcome State Fault Refusal :=
  .next (if s.halt = false ∧ s.CanLoad .host then s.loadShift .host else s)

/-- `EV_HTX_DONE`, rule R144. -/
def execEvHtxDone (s : State) : Host.Outcome State Fault Refusal :=
  .next (if s.halt = true then s
    else
      match s.shift .host with
      | none => s
      | some b => (s.emit .host b).setShift .host none)

/-- `EV_BTX_LOAD`, rule R145: enabled in `Transmit` only. -/
def execEvBtxLoad (s : State) : Host.Outcome State Fault Refusal :=
  .next (if s.halt = false ∧ s.dir = .transmit ∧ s.CanLoad .bus then s.loadShift .bus else s)

/-- `EV_BTX_DONE`, rule R146: in `Receive` the byte is lost, the driver was off. -/
def execEvBtxDone (s : State) : Host.Outcome State Fault Refusal :=
  .next (if s.halt = true then s
    else
      match s.shift .bus with
      | none => s
      | some b => (if s.dir = .transmit then s.emit .bus b else s).setShift .bus none)

end Sys2Proof.Machine
end

