-- ==== Sys2Proof/Machine/HostCodec.lean ====
section
/-!
DEFINITION. Machine/HostCodec.lean: the host packet codec (41_host_codec.md). "The codec is payload-agnostic" (rule
R166): no operation looks at what came before it but for the two sums.
-/

namespace Sys2Proof.Machine

/-- `HC_TX_START instr`, rule R160. -/
def hcTxStartProgram (instr : Byte) : Program := { todo := [.put .host instr .restart] }

/-- `HC_TX_BYTE b, acc`, rule R161. -/
def hcTxByteProgram (b : Byte) (acc : Bool) : Program := { todo := [.put .host b (if acc then .add else .keep)] }

/-- `HC_TX_END`, rule R162. -/
def hcTxEndProgram : Program := { todo := [.putChecksum .host] }

/-- `HC_RX_START`, rule R163. -/
def hcRxStartProgram : Program := { todo := [.getUntimed .start] }

/-- `HC_RX_BYTE acc`, rule R164; the bound is the parameter `T_HOST_RX` (rule R167). -/
def hcRxByteProgram (c : Config) (acc : Bool) : Program := { todo := [.arm (c.tRx .host), .get .host (.byte acc)] }

/-- `HC_RX_END`, rule R165. -/
def hcRxEndProgram (c : Config) : Program := { todo := [.arm (c.tRx .host), .get .host .check] }

/-- `HC_TX_START instr`, rule R160: begin a host packet. -/
def execHcTxStart (instr : Byte) (s : State) : Host.Outcome State Fault Refusal := s.command (hcTxStartProgram instr)

/-- `HC_TX_BYTE b, acc`, rule R161: emit one payload byte. -/
def execHcTxByte (b : Byte) (acc : Bool) (s : State) : Host.Outcome State Fault Refusal :=
  s.command (hcTxByteProgram b acc)

/-- `HC_TX_END`, rule R162: close a host packet with its checksum. -/
def execHcTxEnd (s : State) : Host.Outcome State Fault Refusal := s.command hcTxEndProgram

/-- `HC_RX_START`, rule R163: the first byte of a host packet. -/
def execHcRxStart (s : State) : Host.Outcome State Fault Refusal := s.command hcRxStartProgram

/-- `HC_RX_BYTE acc`, rule R164: one byte of a host packet. -/
def execHcRxByte (acc : Bool) (s : State) : Host.Outcome State Fault Refusal := s.command (hcRxByteProgram s.cfg acc)

/-- `HC_RX_END`, rule R165: read and validate the checksum byte. -/
def execHcRxEnd (s : State) : Host.Outcome State Fault Refusal := s.command (hcRxEndProgram s.cfg)

end Sys2Proof.Machine
end

