-- ==== Sys2Proof/Machine/System.lean ====
section
/-!
DEFINITION. Machine/System.lean: direction arbiter, countdown, status register, fail-stop and reset
(43_arbiter_timer_status.md). "None is privileged: the block has one foreground agent and no modes".
-/

namespace Sys2Proof.Machine

/-- `DIR_TX`, rule R210. -/
def dirTxProgram : Program := { todo := [.direction .transmit] }

/-- `DIR_RX`, rule R211. -/
def dirRxProgram : Program := { todo := [.direction .receive] }

/-- `TMO_ARM t`, rule R213. -/
def tmoArmProgram (t : Byte) : Program := { todo := [.arm t] }

/-- `TMO_WAIT`, rule R214. -/
def tmoWaitProgram : Program := { todo := [.awaitExpiry] }

/-- `ST_READ`, rule R216. -/
def stReadProgram : Program := { todo := [.readStatus] }

/-- `ST_RESET`, rule R217. -/
def stResetProgram : Program := { todo := [.resetStatus] }

/-- `ST_SET m`, rule R218. -/
def stSetProgram (m : Byte) : Program := { todo := [.setStatus m] }

/-- `ST_CLR m`, rule R219. -/
def stClrProgram (m : Byte) : Program := { todo := [.clearStatus m] }

/-- `DIR_TX`, rule R210: grant the bus line to the transmitter. -/
def execDirTx (s : State) : Host.Outcome State Fault Refusal := s.command dirTxProgram

/-- `DIR_RX`, rule R211: release the bus line and enable the receiver. "it does not wait for the transmit path to
drain"; the client's precondition is `State.MayReceive` (Safety.lean). -/
def execDirRx (s : State) : Host.Outcome State Fault Refusal := s.command dirRxProgram

/-- `TMO_ARM t`, rule R213: load the countdown. -/
def execTmoArm (t : Byte) (s : State) : Host.Outcome State Fault Refusal := s.command (tmoArmProgram t)

/-- `TMO_WAIT`, rule R214: wait until the countdown has run out. -/
def execTmoWait (s : State) : Host.Outcome State Fault Refusal := s.command tmoWaitProgram

/-- `ST_READ`, rule R216. -/
def execStRead (s : State) : Host.Outcome State Fault Refusal := s.command stReadProgram

/-- `ST_RESET`, rule R217. -/
def execStReset (s : State) : Host.Outcome State Fault Refusal := s.command stResetProgram

/-- `ST_SET m`, rule R218. -/
def execStSet (m : Byte) (s : State) : Host.Outcome State Fault Refusal := s.command (stSetProgram m)

/-- `ST_CLR m`, rule R219. -/
def execStClr (m : Byte) (s : State) : Host.Outcome State Fault Refusal := s.command (stClrProgram m)

/-- `EV_TICK`, rule R215: "At 0 the countdown stays 0 and does not wrap". -/
def execEvTick (s : State) : Host.Outcome State Fault Refusal :=
  .next (if s.halt = true then s else if s.tmo = 0 then s else { s with tmo := s.tmo - 1 })

/-- `EV_UNMAPPED`, rules R220 and R296: the fail-stop latch; all other state keeps its value. -/
def execEvUnmapped (s : State) : Host.Outcome State Fault Refusal := .next { s with halt := true }

/-- `RESET`, rule R221: "Enabled: always, also when `HALT = 1`". -/
def execReset (s : State) : Host.Outcome State Fault Refusal := .next s.afterReset

end Sys2Proof.Machine
end

