-- ==== Sys2Proof/Machine/Client.lean ====
section
/-!
DEFINITION. Machine/Client.lean: the reference client as the foreground agent's program (rules R5, R240, R242): the CMD
operation it issues at each place of its procedures, and the run of the foreground agent up to its next hold.
-/

namespace Sys2Proof.Machine

/-- The operation of `bus_txn` (rule R245) at a stage. -/
def txnProgram (c : Config) (t : Txn) : TxnStage → Program
  | .dirTx => dirTxProgram
  | .start => bcTxStartProgram t.id (u8 t.params.length) t.instr
  | .param left => bcTxByteProgram (left.headD 0)
  | .close => bcTxEndProgram c
  | .dirRx => dirRxProgram
  | .packet => bcRxPacketProgram c t.expected
  | .check _ _ _ => bcRxEndProgram c
  | .retry => stClrProgram busChecksumErrorMask

/-- The operation the client issues at its place (45_client_sequencer.md). -/
def clientProgram (c : Config) (k : Client) : Program :=
  match k.pos with
  | .cycleStart => stResetProgram
  | .idle => hcRxStartProgram
  | .pingAddr => hcRxByteProgram c true
  | .pingEnd _ => hcRxEndProgram c
  | .pingMark => stSetProgram invalidBusResponseMask
  | .formatCount _ => hcRxByteProgram c true
  | .formatEntry _ _ _ _ => hcRxByteProgram c true
  | .formatEnd _ _ => hcRxEndProgram c
  | .readEnd => hcRxEndProgram c
  | .readOpen _ => hcTxStartProgram 0xF3
  | .writeArg _ _ _ _ => hcRxByteProgram c true
  | .writeEnd => hcRxEndProgram c
  | .txn stage t _ => txnProgram c t stage
  | .invalidSet _ => stSetProgram invalidHostCommandMask
  | .statusStart instr _ _ => hcTxStartProgram instr
  | .statusRead _ _ => stReadProgram
  | .statusByte st _ _ => hcTxByteProgram st true
  | .statusRetry _ _ => hcTxByteProgram (u8 k.retry) true
  | .emit b _ _ => hcTxByteProgram b true
  | .statusEnd _ => hcTxEndProgram
  | .coolArm => tmoArmProgram c.tCooldown
  | .coolWait => tmoWaitProgram
  | .coolFlushHost => hrxFlushProgram
  | .coolFlushBus => brxFlushProgram

/-- The client issues its next operation, if the interface is free and the block is not halted. -/
def State.clientIssue (s : State) : State :=
  if s.halt = true then s else s.issue .client (clientProgram s.cfg s.client)

/-- The foreground agent's next action: a micro-step of the operation in progress; else, inside a host command, the
client's next operation. `none` in the halted state, at a hold, and when nothing is in progress. -/
def State.foregroundStep (s : State) : Option State :=
  if s.halt = true then none
  else
    match s.op with
    | some _ => s.microStep
    | none => if s.client.pos = .cycleStart then none else some s.clientIssue

/-- The foreground agent up to its next hold, or to the end of the host command, at most `fuel` actions. -/
def State.runForeground : Nat → State → State
  | 0, s => s
  | n + 1, s =>
    match s.foregroundStep with
    | some s' => State.runForeground n s'
    | none => s

/-- More actions than a host command takes between two holds: a response with 1760 payload bytes takes two for each. -/
def foregroundFuel : Nat := 8192

/-- The foreground agent is free: no operation in progress, and the client between two host commands. -/
abbrev State.ForegroundFree (s : State) : Prop := s.op = none ∧ s.client.pos = .cycleStart

/-- The foreground agent takes up a procedure of the client and runs it to its next hold. In the halted state no agent
has a step (rule R220); a foreground agent that is not free takes up nothing (rule R31). -/
def State.takeUp (s : State) (start : Client → Client) : Host.Outcome State Fault Refusal :=
  .next (if s.halt = false ∧ s.ForegroundFree then
    State.runForeground foregroundFuel { s with client := start s.client } else s)

/-- The client at the start of a command's procedure, with the cycle's opening behind it (rule R242): `ST_RESET` and
`RETRY <- 0` are done, `HC_RX_START` has taken the instruction byte `b` and started `HC_RX_SUM` with it, and `start` is
the procedure the byte is routed to. The two operations' answers are on CMD. -/
def State.dispatched (s : State) (b : Byte) (start : Client → Client) : State :=
  { s with
    status := 0x00
    hcRxSum := b
    cmdOut := s.cmdOut ++ [{ code := .ok, results := [] }, { code := .ok, results := [b] }]
    client := start { s.client with retry := 0, pos := .idle } }

/-- A host command whose instruction byte `b` stands in front of the run: the foreground agent, between two host
commands, takes the whole cycle of rule R242 with it up to the next hold (log entry 12). -/
def State.takeCommand (s : State) (b : Byte) (start : Client → Client) : Host.Outcome State Fault Refusal :=
  .next (if s.halt = false ∧ s.ForegroundFree then
    State.runForeground foregroundFuel (s.dispatched b start) else s)

end Sys2Proof.Machine
end

