-- ==== Sys2Proof/Machine/BusPackets.lean ====
section
/-!
DEFINITION. Machine/BusPackets.lean: the packets on the bus. A BUSTX row is the sending of its packet by the foreground
agent, the pseudo-instruction `BUS_SEND` of rule R106 with the instruction byte and parameters of rule R108; the BUSRX
row is the arrival of its packet on the bus line, `BUS_FEED` of rule R106 with the bytes of rule R100, whatever its sync
bytes (log entry 11).
-/

namespace Sys2Proof.Machine

/-- `BI_PING`, rule R108: no parameters. -/
def execBiPing (id : Byte) (s : State) : Host.Outcome State Fault Refusal :=
  s.takeUp fun k => k.startBusSend id s.cfg.biPing []

/-- `BI_READ`, rule R108: parameters startAddr, length. -/
def execBiRead (id startAddr length : Byte) (s : State) : Host.Outcome State Fault Refusal :=
  s.takeUp fun k => k.startBusSend id s.cfg.biRead [startAddr, length]

/-- `BI_REG_WRITE`, rule R108: parameters startAddr, data. -/
def execBiRegWrite (id startAddr : Byte) (data : List Byte) (s : State) : Host.Outcome State Fault Refusal :=
  s.takeUp fun k => k.startBusSend id s.cfg.biRegWrite (startAddr :: data)

/-- `BI_ACTION`, rule R108: no parameters, sent to `BUS_BROADCAST_ID`. -/
def execBiAction (s : State) : Host.Outcome State Fault Refusal :=
  s.takeUp fun k => k.startBusSend busBroadcastId s.cfg.biAction []

/-- Bytes appear on the bus line one after the other, each one event of rule R142. -/
def State.busFeed (s : State) : List Byte → State
  | [] => s
  | b :: bs => (s.busLineByte b).busFeed bs

/-- `BUS_REPLY`, rule R100: the bytes of the packet arrive, in order, nothing between them. -/
def execBusReply (head : BusHead) (err : Byte) (params : List Byte) (cks : Byte) (s : State) :
    Host.Outcome State Fault Refusal :=
  .next (s.busFeed (busRxBytes head err params cks))

end Sys2Proof.Machine
end

