-- ==== Sys2Proof/Machine/HostCommands.lean ====
section
/-!
DEFINITION. Machine/HostCommands.lean: the host commands (45_client_sequencer.md rules R247 to R252), each as the host
command cycle of rule R242 with that command's instruction byte: flags and retry counter reset, the byte taken by
`HC_RX_START`, then the procedure. Argument bytes and the checksum are read from HRX by the procedure itself. Each runs
to its first hold (or its end) here and goes on with the lines of the run after it (log entry 12).
-/

namespace Sys2Proof.Machine

/-- `PING`, rule R247. -/
def execPing (s : State) : Host.Outcome State Fault Refusal := s.takeCommand 0xF0 Client.startPing

/-- `SET_READ_FORMAT`, rule R248. -/
def execSetReadFormat (s : State) : Host.Outcome State Fault Refusal :=
  s.takeCommand 0xF1 fun k => k.startFormat .read

/-- `SET_WRITE_FORMAT`, rule R249. -/
def execSetWriteFormat (s : State) : Host.Outcome State Fault Refusal :=
  s.takeCommand 0xF2 fun k => k.startFormat .write

/-- `READ_DATA`, rule R250. -/
def execReadData (s : State) : Host.Outcome State Fault Refusal := s.takeCommand 0xF3 Client.startRead

/-- `WRITE_DATA`, rule R251. -/
def execWriteData (s : State) : Host.Outcome State Fault Refusal := s.takeCommand 0xF4 (Client.startWrite s.cfg)

/-- `INVALID`, reserved nibble, rules R95 and R252. -/
def execInvalidReserved (b : Byte) (s : State) : Host.Outcome State Fault Refusal :=
  s.takeCommand b fun k => k.startInvalid b

/-- `INVALID`, bad sync nibble, rules R95 and R252. -/
def execInvalidBadSync (b : Byte) (s : State) : Host.Outcome State Fault Refusal :=
  s.takeCommand b fun k => k.startInvalid b

end Sys2Proof.Machine
end

