-- ==== Sys2Proof/Machine/Dispatch.lean ====
section
/-!
DEFINITION. Machine/Dispatch.lean: one arm per constructor of Instr, each one call of the meaning of that instruction.
-/

namespace Sys2Proof.Machine

/-- The meaning of an instruction: one arm per row of the opcode table. -/
def exec (i : Instr) (s : State) : Host.Outcome State Fault Refusal :=
  match i with
  | .hrxGet t => Sys2Proof.Machine.execHrxGet t s
  | .hrxWait => Sys2Proof.Machine.execHrxWait s
  | .hrxFlush => Sys2Proof.Machine.execHrxFlush s
  | .htxPut b => Sys2Proof.Machine.execHtxPut b s
  | .brxGet t => Sys2Proof.Machine.execBrxGet t s
  | .brxFlush => Sys2Proof.Machine.execBrxFlush s
  | .btxPut b => Sys2Proof.Machine.execBtxPut b s
  | .hcTxStart instr => Sys2Proof.Machine.execHcTxStart instr s
  | .hcTxByte b acc => Sys2Proof.Machine.execHcTxByte b acc s
  | .hcTxEnd => Sys2Proof.Machine.execHcTxEnd s
  | .hcRxStart => Sys2Proof.Machine.execHcRxStart s
  | .hcRxByte acc => Sys2Proof.Machine.execHcRxByte acc s
  | .hcRxEnd => Sys2Proof.Machine.execHcRxEnd s
  | .bcTxStart id n instr => Sys2Proof.Machine.execBcTxStart id n instr s
  | .bcTxByte b => Sys2Proof.Machine.execBcTxByte b s
  | .bcTxEnd => Sys2Proof.Machine.execBcTxEnd s
  | .bcRxPacket expected => Sys2Proof.Machine.execBcRxPacket expected s
  | .bcRxEnd => Sys2Proof.Machine.execBcRxEnd s
  | .dirTx => Sys2Proof.Machine.execDirTx s
  | .dirRx => Sys2Proof.Machine.execDirRx s
  | .tmoArm t => Sys2Proof.Machine.execTmoArm t s
  | .tmoWait => Sys2Proof.Machine.execTmoWait s
  | .stRead => Sys2Proof.Machine.execStRead s
  | .stReset => Sys2Proof.Machine.execStReset s
  | .stSet m => Sys2Proof.Machine.execStSet m s
  | .stClr m => Sys2Proof.Machine.execStClr m s
  | .evHrx b => Sys2Proof.Machine.execEvHrx b s
  | .evHtxLoad => Sys2Proof.Machine.execEvHtxLoad s
  | .evHtxDone => Sys2Proof.Machine.execEvHtxDone s
  | .evBrx b => Sys2Proof.Machine.execEvBrx b s
  | .evBtxLoad => Sys2Proof.Machine.execEvBtxLoad s
  | .evBtxDone => Sys2Proof.Machine.execEvBtxDone s
  | .evTick => Sys2Proof.Machine.execEvTick s
  | .evUnmapped => Sys2Proof.Machine.execEvUnmapped s
  | .reset => Sys2Proof.Machine.execReset s
  | .ping => Sys2Proof.Machine.execPing s
  | .setReadFormat => Sys2Proof.Machine.execSetReadFormat s
  | .setWriteFormat => Sys2Proof.Machine.execSetWriteFormat s
  | .readData => Sys2Proof.Machine.execReadData s
  | .writeData => Sys2Proof.Machine.execWriteData s
  | .invalidReserved b => Sys2Proof.Machine.execInvalidReserved b s
  | .invalidBadSync b => Sys2Proof.Machine.execInvalidBadSync b s
  | .biPing id => Sys2Proof.Machine.execBiPing id s
  | .biRead id startAddr length => Sys2Proof.Machine.execBiRead id startAddr length s
  | .biRegWrite id startAddr data => Sys2Proof.Machine.execBiRegWrite id startAddr data s
  | .biAction => Sys2Proof.Machine.execBiAction s
  | .busReply head err params cks => Sys2Proof.Machine.execBusReply head err params cks s

end Sys2Proof.Machine
end

