-- ==== Sys2Proof/Machine/Fetch.lean ====
section
/-!
DEFINITION. Machine/Fetch.lean: taking the next line of a run (rules R8, R31, R65, R106). Bytes standing on an
interface are decoded; the instruction is executed as soon as its agent can take it up.
-/

namespace Sys2Proof.Machine

/-- The micro-steps an instruction prescribes on CMD, for the CMD rows of the table. -/
def programOf (c : Config) : Instr → Option Program
  | .hrxGet t => some (hrxGetProgram t)
  | .hrxWait => some hrxWaitProgram
  | .hrxFlush => some hrxFlushProgram
  | .htxPut b => some (htxPutProgram b)
  | .brxGet t => some (brxGetProgram t)
  | .brxFlush => some brxFlushProgram
  | .btxPut b => some (btxPutProgram b)
  | .hcTxStart i => some (hcTxStartProgram i)
  | .hcTxByte b acc => some (hcTxByteProgram b acc)
  | .hcTxEnd => some hcTxEndProgram
  | .hcRxStart => some hcRxStartProgram
  | .hcRxByte acc => some (hcRxByteProgram c acc)
  | .hcRxEnd => some (hcRxEndProgram c)
  | .bcTxStart id n i => some (bcTxStartProgram id n i)
  | .bcTxByte b => some (bcTxByteProgram b)
  | .bcTxEnd => some (bcTxEndProgram c)
  | .bcRxPacket e => some (bcRxPacketProgram c e)
  | .bcRxEnd => some (bcRxEndProgram c)
  | .dirTx => some dirTxProgram
  | .dirRx => some dirRxProgram
  | .tmoArm t => some (tmoArmProgram t)
  | .tmoWait => some tmoWaitProgram
  | .stRead => some stReadProgram
  | .stReset => some stResetProgram
  | .stSet m => some (stSetProgram m)
  | .stClr m => some (stClrProgram m)
  | .evHrx _ | .evHtxLoad | .evHtxDone | .evBrx _ | .evBtxLoad | .evBtxDone | .evTick | .evUnmapped => none
  | .reset => none
  | .ping | .setReadFormat | .setWriteFormat | .readData | .writeData => none
  | .invalidReserved _ | .invalidBadSync _ => none
  | .biPing _ | .biRead _ _ _ | .biRegWrite _ _ _ | .biAction => none
  | .busReply _ _ _ _ => none

/-- The reference client is inside a host command: its thread of control has left the start of a cycle. The sending of
one packet, `BUS_SEND` (log entry 11), is a line of the run and no host command. -/
def Pos.inHostCommand : Pos → Bool
  | .cycleStart | .txn _ _ .sendOnly => false
  | _ => true

/-- A line on this interface would drive CMD from a second thread of control (rule R337, U12): the run's own operations
while the client is inside a host command. A host packet is the client's own. -/
def State.intrudes (s : State) (f : Format) : Bool :=
  match f with
  | .cmd | .busTx => s.client.pos.inHostCommand
  | .hostPkt | .evt | .resetLine | .busRx => false

/-- The agent of an interface can take up a line now. "An operation is issued only after the previous one has completed"
(rule R31), so the foreground agent has to be free. An event, an arriving packet and RESET wait for nothing. -/
def State.admits (s : State) (f : Format) : Bool :=
  match f with
  | .cmd | .hostPkt | .busTx => decide s.ForegroundFree
  | .evt | .resetLine | .busRx => true

/-- The bytes left on an interface stay in front of the rest of the run. -/
def keepWord (f : Format) (bytes : List Byte) (rest : List Input) : List Input :=
  match bytes with
  | [] => rest
  | b :: bs => .word f (b :: bs) :: rest

/-- The bytes left of an `issue` line stay in front of the rest of the run. -/
def keepIssue (bytes : List Byte) (rest : List Input) : List Input :=
  match bytes with
  | [] => rest
  | b :: bs => .issue (b :: bs) :: rest

/-- The foreground agent's next action, or nothing where it has none. -/
def State.foregroundTurn (s : State) : State := s.foregroundStep.getD s

/-- The operation in progress takes a micro-step, or holds. -/
def State.opTurn (s : State) : State := s.microStep.getD s

/-- What becomes of a line that would go on with `taken`: refused where it is a second thread of control; taken where its
agent can take it up; else it waits in front of the run while the foreground agent goes on. -/
def State.takeLine (s : State) (f : Format) (taken : Host.Outcome State Fault Refusal) :
    Host.Outcome State Fault Refusal :=
  if s.intrudes f = true then .refused .secondThread
  else if s.admits f = true then taken
  else .next s.foregroundTurn

/-- A line whose bytes are no row of the table. Bytes on the bus line arrive whether or not they make a whole packet (rule
R142). A framed packet whose instruction byte is none of rule R108 is sent like any other, `BUS_SEND` with opaque bytes
(rules R99, R106). A line without bytes prescribes nothing (log entry 7). The rest is refused: rule R103 (d), (e), U1. -/
def fetchOther (f : Format) (bytes : List Byte) (rest : List Input) (e : DecodeError) (s : State) :
    Host.Outcome State Fault Refusal :=
  match bytes, f with
  | [], _ => .next { s with input := rest }
  | _ :: _, .busRx => .next ({ s with input := rest }.busFeed bytes)
  | _ :: _, .busTx =>
    match busTxFrame bytes with
    | .error _ => .refused (.undecodable e)
    | .ok ((id, instr, params), more) =>
      s.takeLine .busTx
        ({ s with input := keepWord .busTx more rest }.takeUp fun k => k.startBusSend id instr params)
  | _ :: _, .cmd | _ :: _, .evt | _ :: _, .hostPkt | _ :: _, .resetLine => .refused (.undecodable e)

/-- A line of bytes. `s` is the state with the line still in front (`rest` behind it). -/
def fetchWord (f : Format) (bytes : List Byte) (rest : List Input) (s : State) : Host.Outcome State Fault Refusal :=
  match decode s.cfg f bytes with
  | .error e => fetchOther f bytes rest e s
  | .ok (i, more) => s.takeLine f (exec i { s with input := keepWord f more rest })

/-- A CMD operation presented without a micro-step. -/
def fetchIssue (bytes : List Byte) (rest : List Input) (s : State) : Host.Outcome State Fault Refusal :=
  match decode s.cfg .cmd bytes with
  | .error e => fetchOther .cmd bytes rest e s
  | .ok (i, more) =>
    let s' : State := { s with input := keepIssue more rest }
    match programOf s.cfg i with
    | some p => s.takeLine .cmd (.next (s'.issue .script p))
    | none => .next s'

/-- One line of the run. With no line left no agent is named and nothing happens (log entry 7). -/
def nextLine (s : State) : Host.Outcome State Fault Refusal :=
  match s.input with
  | [] => .next s
  | .word f bytes :: rest => fetchWord f bytes rest s
  | .issue bytes :: rest => fetchIssue bytes rest s
  | .turn :: rest => .next ({ s with input := rest }.opTurn)
  | .client :: rest => .next ({ s with input := rest }.clientIssue)
  | .resume :: rest => .next (State.runForeground foregroundFuel { s with input := rest })
  | .analog a v :: rest => .next { s with input := rest, client := s.client.setAnalog a v }

/-- The bytes of a row's word, exactly as many as its instruction has (the bits above `nbits` are 0); the bytes of the
word itself where they are no instruction. -/
def wordBytes (c : Config) (nbits w : Nat) : List Byte :=
  match decode c (tableFormat nbits w) (tableBytes w) with
  | .ok (_, rest) => (tableBytes w).take (maxInstrBytes - rest.length)
  | .error _ => (tableBytes w).take (nbits / 8)

/-- The instruction of a row's word stands in front of the run, and its agent is free to take it up: for a row of the
foreground agent (CMD, HOSTPKT, BUSTX) no operation is in progress and the client is between two host commands. -/
def State.placeWord (s : State) (nbits w : Nat) : State :=
  let f := tableFormat nbits w
  let s' := { s with input := .word f (wordBytes s.cfg nbits w) :: s.input }
  match f with
  | .cmd | .hostPkt | .busTx => { s' with op := none, client := { s'.client with pos := .cycleStart } }
  | .evt | .resetLine | .busRx => s'

end Sys2Proof.Machine
end

