-- ==== Sys2Proof/Safety.lean ====
section
/-!
DEFINITION. Safety.lean: what a good state is (the invariants of rules R21, R36, R241 and R246), what the hazards of
70_reset_and_hazards.md forbid a client to do, and the vocabulary statements about the machine use.
-/

namespace Sys2Proof.Machine

/-- The block can take a CMD operation and step it: not halted, the interface free (rules R29, R31). -/
abbrev State.Ready (s : State) : Prop := s.halt = false ∧ s.op = none

/-- The foreground agent can take up a procedure of the client. -/
abbrev State.ClientReady (s : State) : Prop := s.halt = false ∧ s.ForegroundFree

/-- A CMD operation the run issued has completed: the interface is free and the answer is on it (rule R91). -/
def State.reply (s : State) (code : Code) (results : List Byte) : State :=
  { s with op := none, cmdOut := s.cmdOut ++ [{ code := code, results := results }] }

/-- A CMD operation the run issued holds at its present micro-step (rule R33). -/
def State.holding (s : State) (todo : List Micro) (results : List Byte) (packet : Option PacketLocals) : State :=
  { s with op := some { owner := .script, todo := todo, results := results, packet := packet } }

/-- The indices of a channel are sound, rule R21: `0 <= len(c) <= CAP_c` as a true difference. -/
abbrev State.ChannelOk (s : State) (c : Chan) : Prop :=
  (s.chan c).get ≤ (s.chan c).put ∧ s.len c ≤ s.cap c

/-- A channel has room for `n` more bytes. -/
abbrev State.Room (s : State) (c : Chan) (n : Nat) : Prop := s.len c + n ≤ s.cap c

/-- Storage of a channel: canonical, and no slot outside `0 .. CAP_c - 1` (rules R60, R62). -/
abbrev State.StorageOk (s : State) (c : Chan) : Prop :=
  (s.chan c).buf.wf = true ∧ ∀ e ∈ (s.chan c).buf, e.1 < s.cap c

/-- Every slot of the live window has been written since reset, so no free value is ever read (rules R21, R36:
"never read before written"). -/
abbrev State.WindowWritten (s : State) (c : Chan) : Prop :=
  ∀ k, k < s.len c → (((s.chan c).buf).read (((s.chan c).get + k) % s.cap c)).isSome = true

/-- The channel invariant: every capacity positive, every channel sound, its storage canonical, its window written. -/
def State.ChannelsInv (s : State) : Prop :=
  ∀ c, 0 < s.cap c ∧ s.ChannelOk c ∧ s.StorageOk c ∧ s.WindowWritten c

/-- The retry bound, rule R246: at most 3, and less than 3 where the client has just decided on one more retry. -/
def State.RetryInv (s : State) : Prop :=
  s.client.retry ≤ 3 ∧ ∀ t k, s.client.pos = .txn .retry t k → s.client.retry < 3

/-- The entries `SET_FORMAT` has taken so far are legal and few enough (rule R248). -/
def formatSoFar : Pos → Prop
  | .formatEntry _ left _ new => new.length + left ≤ 32 ∧ 0 < left ∧ ∀ e ∈ new, e.valid
  | .formatEnd _ new => tableValid new
  | _ => True

/-- The table invariant, rule R241: both tables hold at most 32 entries, each legal. -/
def State.TablesInv (s : State) : Prop :=
  tableValid s.client.readTable ∧ tableValid s.client.writeTable ∧ formatSoFar s.client.pos

/-- The hazard rule R333 asks of a client that issues `DIR_RX`. -/
abbrev State.MayReceive (s : State) : Prop := s.Drained .bus

/-- The state after `n` ticks (rule R215) that nothing comes between. -/
def State.afterTicks : Nat → State → State
  | 0, s => s
  | n + 1, s =>
    match exec .evTick s with
    | .next s' => State.afterTicks n s'
    | .fault _ => s
    | .refused _ => s

/-- `n` micro-steps of the operation in progress, one at a time. -/
def State.afterTurns : Nat → State → State
  | 0, s => s
  | n + 1, s => State.afterTurns n s.opTurn

/-- A sequence of instructions executed one after the other. -/
def execAll : List Instr → State → Host.Outcome State Fault Refusal
  | [], s => .next s
  | i :: is, s =>
    match exec i s with
    | .next s' => execAll is s'
    | .fault r => .fault r
    | .refused r => .refused r

/-- What `READ_DATA` still owes the host: the rest of the entry in work and the entries after it (rule R250). -/
def ReadLoop.owed (l : ReadLoop) : Nat := l.rem + totalBytesOf l.rest

/-- Payload bytes a block with `phys` bytes read and, where `virt`, the synthesized one, adds (rule R250). -/
def blockBytes (virt : Bool) (phys : Nat) : Nat := phys + if virt then 1 else 0

/-- The byte count of `READ_DATA` (rule R250) at a place of the client: what has been obtained and what is still owed
never exceed `total`, a reply's data never exceed what was asked for, and the response that opens with 0xF3 carries
exactly `total` payload bytes. -/
def readCount (total : Nat) : Pos → Prop
  | .readOpen l | .emit _ _ (.readLoop l) => l.payload.length + l.owed ≤ total
  | .txn stage t (.read l virt phys) =>
    l.payload.length + blockBytes virt phys + l.owed ≤ total ∧ phys ≤ 20 ∧ t.expected = u8 phys ∧
      ∀ rid err data, stage = .check rid err data → data.length ≤ phys
  | .statusStart instr payload _ => instr = 0xF3 → payload.length = total
  | .invalidSet instr => instr ≠ 0xF3
  | _ => True

/-- The locals of a `BC_RX_PACKET` the client issued hold no more than it asked for. -/
def packetBound (op : Option Op) : Pos → Prop
  | .txn .packet t _ => ∀ o, op = some o → o.owner = .client →
      ∃ p, o.packet = some p ∧ p.expected = t.expected ∧ p.params.length ≤ p.expected.toNat
  | _ => True

/-- The byte count invariant of `READ_DATA` with `StatusFirst`, rule R250: "ReadData always returns exactly
totalBytes[Read] payload bytes regardless of mid-transaction bus failures". -/
def State.ReadInv (s : State) : Prop :=
  readCount (totalBytesOf s.client.readTable) s.client.pos ∧ packetBound s.op s.client.pos

/-- The status bits an instruction can set up to its first hold, by the cause table of rule R291. The host commands and
the sending of a packet are whole procedures of the client: any bit. -/
def causesOf : Instr → Byte
  | .hcRxByte _ => 0x01
  | .hcRxEnd => 0x41
  | .bcTxEnd => 0x02
  | .bcRxPacket _ => 0x0A
  | .bcRxEnd => 0x82
  | .stSet m => m
  | .evHrx _ => 0x10
  | .evBrx _ | .busReply _ _ _ _ => 0x20
  | .ping | .setReadFormat | .setWriteFormat | .readData | .writeData => 0xFF
  | .invalidReserved _ | .invalidBadSync _ => 0xFF
  | .biPing _ | .biRead _ _ _ | .biRegWrite _ _ _ | .biAction => 0xFF
  | .hrxGet _ | .hrxWait | .hrxFlush | .htxPut _ | .brxGet _ | .brxFlush | .btxPut _ => 0x00
  | .hcTxStart _ | .hcTxByte _ _ | .hcTxEnd | .hcRxStart => 0x00
  | .bcTxStart _ _ _ | .bcTxByte _ => 0x00
  | .dirTx | .dirRx | .tmoArm _ | .tmoWait | .stRead | .stReset | .stClr _ => 0x00
  | .evHtxLoad | .evHtxDone | .evBtxLoad | .evBtxDone | .evTick | .evUnmapped => 0x00
  | .reset => 0x00

/-- The CMD operations whose outcome can be `Timeout` (rule R292). -/
def canTimeOut : Instr → Bool
  | .hrxGet _ | .brxGet _ | .hcRxByte _ | .hcRxEnd | .bcTxEnd | .bcRxPacket _ | .bcRxEnd => true
  | .hrxWait | .hrxFlush | .htxPut _ | .brxFlush | .btxPut _ => false
  | .hcTxStart _ | .hcTxByte _ _ | .hcTxEnd | .hcRxStart => false
  | .bcTxStart _ _ _ | .bcTxByte _ => false
  | .dirTx | .dirRx | .tmoArm _ | .tmoWait | .stRead | .stReset | .stSet _ | .stClr _ => false
  | .evHrx _ | .evHtxLoad | .evHtxDone | .evBrx _ | .evBtxLoad | .evBtxDone | .evTick | .evUnmapped => false
  | .reset => false
  | .ping | .setReadFormat | .setWriteFormat | .readData | .writeData => false
  | .invalidReserved _ | .invalidBadSync _ => false
  | .biPing _ | .biRead _ _ _ | .biRegWrite _ _ _ | .biAction => false
  | .busReply _ _ _ _ => false

/-- A status response with no payload as it stands in HTX, rule R97: the instruction byte, the status, the retry count,
the three analog samples, the checksum. -/
def statusResponse (k : Client) (instr status retry : Byte) : List Byte :=
  let body := [instr, status, retry, k.supply, k.secondary, k.thermal]
  body ++ [checksumOf body]

/-- The response of `READ_DATA` as it stands in HTX, rules R97 and R244, in either order of its parts. -/
def readResponse (order : ReadOrder) (k : Client) (status retry : Byte) (payload : List Byte) : List Byte :=
  let info := [status, retry, k.supply, k.secondary, k.thermal]
  let body := 0xF3 :: match order with
    | .statusFirst => info ++ payload
    | .payloadFirst => payload ++ info
  body ++ [checksumOf body]

/-- The status a command leaves whose host checksum byte `cks` closes the bytes `bs` (rules R165, R242): all bits clear,
or `HostChecksumError`. -/
def checkedStatus (bs : List Byte) (cks : Byte) : Byte := if cks = checksumOf bs then 0x00 else 0x40

/-- The three argument bytes of a format entry, rule R98. -/
def Entry.bytes (e : Entry) : List Byte := [e.deviceId, e.startAddr, e.length]

/-- The client waits for the drain of a packet it has queued (rules R182, R245). -/
abbrev State.AwaitsDrain (s : State) : Prop :=
  s.op = some { owner := .client, todo := [.awaitDrain], results := [], packet := none } ∧ s.tmo = s.cfg.tBusDrain

/-- The client waits out the cooldown of the Invalid path (rule R252). -/
abbrev State.AwaitsCooldown (s : State) : Prop :=
  s.op = some { owner := .client, todo := [.awaitExpiry], results := [], packet := none } ∧
    s.tmo = s.cfg.tCooldown ∧ s.client.pos = .coolWait

/-- The Invalid path behind its response, rule R252: the client `k` waits out the cooldown, with `more` still in HRX and
BRX as it was; with `T_COOLDOWN = 0` the wait has ended at once, and both RX channels are flushed. -/
def State.CoolsDown (s : State) (k : Client) (more : List Byte) (brx : Channel) : Prop :=
  (s.cfg.tCooldown ≠ 0 → s.AwaitsCooldown ∧ s.client = { k with pos := .coolWait } ∧ s.contents .hrx = more ∧ s.brx = brx) ∧
  (s.cfg.tCooldown = 0 → s.op = none ∧ s.tmo = 0 ∧ s.client = { k with pos := .cycleStart } ∧ s.contents .hrx = [] ∧
    s.brx = { brx with get := brx.put })

/-- The end of the Invalid path, rule R252: the cooldown is over, `HRX_FLUSH` and `BRX_FLUSH` are done, the client is at
the start of a cycle. Nothing else changes, STATUS among it. -/
def State.recovered (s : State) : State :=
  let ok : Answer := { code := .ok, results := [] }
  { (s.flushChan .hrx).flushChan .brx with
    tmo := 0
    op := none
    cmdOut := s.cmdOut ++ [ok, ok, ok]
    client := { s.client with pos := .cycleStart } }

/-- The bus transaction of `PING addr`, rule R247. -/
def pingTxn (c : Config) (addr : Byte) : Txn := { id := addr, instr := c.biPing, params := [], expected := 0 }

/-- A host command has ended with a plain status response, rules R244 and R247: it is queued in HTX behind what `s` had
there, the client is back at the start of a cycle, and STATUS is what was reported. -/
def State.Reported (t s : State) (instr status : Byte) : Prop :=
  t.op = none ∧ t.status = status ∧ t.client = { s.client with pos := .cycleStart } ∧
    t.contents .htx = s.contents .htx ++ statusResponse s.client instr status (u8 s.client.retry)

end Sys2Proof.Machine
end

