-- ==== Sys2Proof/Laws/State.lean ====
section
/-!
SUPPORT. Laws/State.lean: the small lemmas of State's named updates: one for each field an update leaves or writes.
-/

namespace Sys2Proof.Machine

variable (s : State)

/-! ### `State.setChan` -/

@[simp] theorem State.setChan_cfg (c : Chan) (ch : Channel) : (s.setChan c ch).cfg = s.cfg := by cases c <;> rfl
@[simp] theorem State.setChan_htxShift (c : Chan) (ch : Channel) : (s.setChan c ch).htxShift = s.htxShift := by cases c <;> rfl
@[simp] theorem State.setChan_btxShift (c : Chan) (ch : Channel) : (s.setChan c ch).btxShift = s.btxShift := by cases c <;> rfl
@[simp] theorem State.setChan_dir (c : Chan) (ch : Channel) : (s.setChan c ch).dir = s.dir := by cases c <;> rfl
@[simp] theorem State.setChan_tmo (c : Chan) (ch : Channel) : (s.setChan c ch).tmo = s.tmo := by cases c <;> rfl
@[simp] theorem State.setChan_status (c : Chan) (ch : Channel) : (s.setChan c ch).status = s.status := by cases c <;> rfl
@[simp] theorem State.setChan_hcTxSum (c : Chan) (ch : Channel) : (s.setChan c ch).hcTxSum = s.hcTxSum := by cases c <;> rfl
@[simp] theorem State.setChan_hcRxSum (c : Chan) (ch : Channel) : (s.setChan c ch).hcRxSum = s.hcRxSum := by cases c <;> rfl
@[simp] theorem State.setChan_bcTxSum (c : Chan) (ch : Channel) : (s.setChan c ch).bcTxSum = s.bcTxSum := by cases c <;> rfl
@[simp] theorem State.setChan_bcRxSum (c : Chan) (ch : Channel) : (s.setChan c ch).bcRxSum = s.bcRxSum := by cases c <;> rfl
@[simp] theorem State.setChan_halt (c : Chan) (ch : Channel) : (s.setChan c ch).halt = s.halt := by cases c <;> rfl
@[simp] theorem State.setChan_op (c : Chan) (ch : Channel) : (s.setChan c ch).op = s.op := by cases c <;> rfl
@[simp] theorem State.setChan_hostOut (c : Chan) (ch : Channel) : (s.setChan c ch).hostOut = s.hostOut := by cases c <;> rfl
@[simp] theorem State.setChan_busOut (c : Chan) (ch : Channel) : (s.setChan c ch).busOut = s.busOut := by cases c <;> rfl
@[simp] theorem State.setChan_cmdOut (c : Chan) (ch : Channel) : (s.setChan c ch).cmdOut = s.cmdOut := by cases c <;> rfl
@[simp] theorem State.setChan_client (c : Chan) (ch : Channel) : (s.setChan c ch).client = s.client := by cases c <;> rfl
@[simp] theorem State.setChan_input (c : Chan) (ch : Channel) : (s.setChan c ch).input = s.input := by cases c <;> rfl
@[simp] theorem State.setChan_epoch (c : Chan) (ch : Channel) : (s.setChan c ch).epoch = s.epoch := by cases c <;> rfl

/-! ### `State.setShift` -/

@[simp] theorem State.setShift_cfg (l : Link) (v : Option Byte) : (s.setShift l v).cfg = s.cfg := by cases l <;> rfl
@[simp] theorem State.setShift_hrx (l : Link) (v : Option Byte) : (s.setShift l v).hrx = s.hrx := by cases l <;> rfl
@[simp] theorem State.setShift_htx (l : Link) (v : Option Byte) : (s.setShift l v).htx = s.htx := by cases l <;> rfl
@[simp] theorem State.setShift_brx (l : Link) (v : Option Byte) : (s.setShift l v).brx = s.brx := by cases l <;> rfl
@[simp] theorem State.setShift_btx (l : Link) (v : Option Byte) : (s.setShift l v).btx = s.btx := by cases l <;> rfl
@[simp] theorem State.setShift_dir (l : Link) (v : Option Byte) : (s.setShift l v).dir = s.dir := by cases l <;> rfl
@[simp] theorem State.setShift_tmo (l : Link) (v : Option Byte) : (s.setShift l v).tmo = s.tmo := by cases l <;> rfl
@[simp] theorem State.setShift_status (l : Link) (v : Option Byte) : (s.setShift l v).status = s.status := by cases l <;> rfl
@[simp] theorem State.setShift_hcTxSum (l : Link) (v : Option Byte) : (s.setShift l v).hcTxSum = s.hcTxSum := by cases l <;> rfl
@[simp] theorem State.setShift_hcRxSum (l : Link) (v : Option Byte) : (s.setShift l v).hcRxSum = s.hcRxSum := by cases l <;> rfl
@[simp] theorem State.setShift_bcTxSum (l : Link) (v : Option Byte) : (s.setShift l v).bcTxSum = s.bcTxSum := by cases l <;> rfl
@[simp] theorem State.setShift_bcRxSum (l : Link) (v : Option Byte) : (s.setShift l v).bcRxSum = s.bcRxSum := by cases l <;> rfl
@[simp] theorem State.setShift_halt (l : Link) (v : Option Byte) : (s.setShift l v).halt = s.halt := by cases l <;> rfl
@[simp] theorem State.setShift_op (l : Link) (v : Option Byte) : (s.setShift l v).op = s.op := by cases l <;> rfl
@[simp] theorem State.setShift_hostOut (l : Link) (v : Option Byte) : (s.setShift l v).hostOut = s.hostOut := by cases l <;> rfl
@[simp] theorem State.setShift_busOut (l : Link) (v : Option Byte) : (s.setShift l v).busOut = s.busOut := by cases l <;> rfl
@[simp] theorem State.setShift_cmdOut (l : Link) (v : Option Byte) : (s.setShift l v).cmdOut = s.cmdOut := by cases l <;> rfl
@[simp] theorem State.setShift_client (l : Link) (v : Option Byte) : (s.setShift l v).client = s.client := by cases l <;> rfl
@[simp] theorem State.setShift_input (l : Link) (v : Option Byte) : (s.setShift l v).input = s.input := by cases l <;> rfl
@[simp] theorem State.setShift_epoch (l : Link) (v : Option Byte) : (s.setShift l v).epoch = s.epoch := by cases l <;> rfl

/-! ### `State.setTxSum` -/

@[simp] theorem State.setTxSum_cfg (l : Link) (v : Byte) : (s.setTxSum l v).cfg = s.cfg := by cases l <;> rfl
@[simp] theorem State.setTxSum_hrx (l : Link) (v : Byte) : (s.setTxSum l v).hrx = s.hrx := by cases l <;> rfl
@[simp] theorem State.setTxSum_htx (l : Link) (v : Byte) : (s.setTxSum l v).htx = s.htx := by cases l <;> rfl
@[simp] theorem State.setTxSum_brx (l : Link) (v : Byte) : (s.setTxSum l v).brx = s.brx := by cases l <;> rfl
@[simp] theorem State.setTxSum_btx (l : Link) (v : Byte) : (s.setTxSum l v).btx = s.btx := by cases l <;> rfl
@[simp] theorem State.setTxSum_htxShift (l : Link) (v : Byte) : (s.setTxSum l v).htxShift = s.htxShift := by cases l <;> rfl
@[simp] theorem State.setTxSum_btxShift (l : Link) (v : Byte) : (s.setTxSum l v).btxShift = s.btxShift := by cases l <;> rfl
@[simp] theorem State.setTxSum_dir (l : Link) (v : Byte) : (s.setTxSum l v).dir = s.dir := by cases l <;> rfl
@[simp] theorem State.setTxSum_tmo (l : Link) (v : Byte) : (s.setTxSum l v).tmo = s.tmo := by cases l <;> rfl
@[simp] theorem State.setTxSum_status (l : Link) (v : Byte) : (s.setTxSum l v).status = s.status := by cases l <;> rfl
@[simp] theorem State.setTxSum_hcRxSum (l : Link) (v : Byte) : (s.setTxSum l v).hcRxSum = s.hcRxSum := by cases l <;> rfl
@[simp] theorem State.setTxSum_bcRxSum (l : Link) (v : Byte) : (s.setTxSum l v).bcRxSum = s.bcRxSum := by cases l <;> rfl
@[simp] theorem State.setTxSum_halt (l : Link) (v : Byte) : (s.setTxSum l v).halt = s.halt := by cases l <;> rfl
@[simp] theorem State.setTxSum_op (l : Link) (v : Byte) : (s.setTxSum l v).op = s.op := by cases l <;> rfl
@[simp] theorem State.setTxSum_hostOut (l : Link) (v : Byte) : (s.setTxSum l v).hostOut = s.hostOut := by cases l <;> rfl
@[simp] theorem State.setTxSum_busOut (l : Link) (v : Byte) : (s.setTxSum l v).busOut = s.busOut := by cases l <;> rfl
@[simp] theorem State.setTxSum_cmdOut (l : Link) (v : Byte) : (s.setTxSum l v).cmdOut = s.cmdOut := by cases l <;> rfl
@[simp] theorem State.setTxSum_client (l : Link) (v : Byte) : (s.setTxSum l v).client = s.client := by cases l <;> rfl
@[simp] theorem State.setTxSum_input (l : Link) (v : Byte) : (s.setTxSum l v).input = s.input := by cases l <;> rfl
@[simp] theorem State.setTxSum_epoch (l : Link) (v : Byte) : (s.setTxSum l v).epoch = s.epoch := by cases l <;> rfl

/-! ### `State.setRxSum` -/

@[simp] theorem State.setRxSum_cfg (l : Link) (v : Byte) : (s.setRxSum l v).cfg = s.cfg := by cases l <;> rfl
@[simp] theorem State.setRxSum_hrx (l : Link) (v : Byte) : (s.setRxSum l v).hrx = s.hrx := by cases l <;> rfl
@[simp] theorem State.setRxSum_htx (l : Link) (v : Byte) : (s.setRxSum l v).htx = s.htx := by cases l <;> rfl
@[simp] theorem State.setRxSum_brx (l : Link) (v : Byte) : (s.setRxSum l v).brx = s.brx := by cases l <;> rfl
@[simp] theorem State.setRxSum_btx (l : Link) (v : Byte) : (s.setRxSum l v).btx = s.btx := by cases l <;> rfl
@[simp] theorem State.setRxSum_htxShift (l : Link) (v : Byte) : (s.setRxSum l v).htxShift = s.htxShift := by cases l <;> rfl
@[simp] theorem State.setRxSum_btxShift (l : Link) (v : Byte) : (s.setRxSum l v).btxShift = s.btxShift := by cases l <;> rfl
@[simp] theorem State.setRxSum_dir (l : Link) (v : Byte) : (s.setRxSum l v).dir = s.dir := by cases l <;> rfl
@[simp] theorem State.setRxSum_tmo (l : Link) (v : Byte) : (s.setRxSum l v).tmo = s.tmo := by cases l <;> rfl
@[simp] theorem State.setRxSum_status (l : Link) (v : Byte) : (s.setRxSum l v).status = s.status := by cases l <;> rfl
@[simp] theorem State.setRxSum_hcTxSum (l : Link) (v : Byte) : (s.setRxSum l v).hcTxSum = s.hcTxSum := by cases l <;> rfl
@[simp] theorem State.setRxSum_bcTxSum (l : Link) (v : Byte) : (s.setRxSum l v).bcTxSum = s.bcTxSum := by cases l <;> rfl
@[simp] theorem State.setRxSum_halt (l : Link) (v : Byte) : (s.setRxSum l v).halt = s.halt := by cases l <;> rfl
@[simp] theorem State.setRxSum_op (l : Link) (v : Byte) : (s.setRxSum l v).op = s.op := by cases l <;> rfl
@[simp] theorem State.setRxSum_hostOut (l : Link) (v : Byte) : (s.setRxSum l v).hostOut = s.hostOut := by cases l <;> rfl
@[simp] theorem State.setRxSum_busOut (l : Link) (v : Byte) : (s.setRxSum l v).busOut = s.busOut := by cases l <;> rfl
@[simp] theorem State.setRxSum_cmdOut (l : Link) (v : Byte) : (s.setRxSum l v).cmdOut = s.cmdOut := by cases l <;> rfl
@[simp] theorem State.setRxSum_client (l : Link) (v : Byte) : (s.setRxSum l v).client = s.client := by cases l <;> rfl
@[simp] theorem State.setRxSum_input (l : Link) (v : Byte) : (s.setRxSum l v).input = s.input := by cases l <;> rfl
@[simp] theorem State.setRxSum_epoch (l : Link) (v : Byte) : (s.setRxSum l v).epoch = s.epoch := by cases l <;> rfl

/-! ### `State.emit` -/

@[simp] theorem State.emit_cfg (l : Link) (b : Byte) : (s.emit l b).cfg = s.cfg := by cases l <;> rfl
@[simp] theorem State.emit_hrx (l : Link) (b : Byte) : (s.emit l b).hrx = s.hrx := by cases l <;> rfl
@[simp] theorem State.emit_htx (l : Link) (b : Byte) : (s.emit l b).htx = s.htx := by cases l <;> rfl
@[simp] theorem State.emit_brx (l : Link) (b : Byte) : (s.emit l b).brx = s.brx := by cases l <;> rfl
@[simp] theorem State.emit_btx (l : Link) (b : Byte) : (s.emit l b).btx = s.btx := by cases l <;> rfl
@[simp] theorem State.emit_htxShift (l : Link) (b : Byte) : (s.emit l b).htxShift = s.htxShift := by cases l <;> rfl
@[simp] theorem State.emit_btxShift (l : Link) (b : Byte) : (s.emit l b).btxShift = s.btxShift := by cases l <;> rfl
@[simp] theorem State.emit_dir (l : Link) (b : Byte) : (s.emit l b).dir = s.dir := by cases l <;> rfl
@[simp] theorem State.emit_tmo (l : Link) (b : Byte) : (s.emit l b).tmo = s.tmo := by cases l <;> rfl
@[simp] theorem State.emit_status (l : Link) (b : Byte) : (s.emit l b).status = s.status := by cases l <;> rfl
@[simp] theorem State.emit_hcTxSum (l : Link) (b : Byte) : (s.emit l b).hcTxSum = s.hcTxSum := by cases l <;> rfl
@[simp] theorem State.emit_hcRxSum (l : Link) (b : Byte) : (s.emit l b).hcRxSum = s.hcRxSum := by cases l <;> rfl
@[simp] theorem State.emit_bcTxSum (l : Link) (b : Byte) : (s.emit l b).bcTxSum = s.bcTxSum := by cases l <;> rfl
@[simp] theorem State.emit_bcRxSum (l : Link) (b : Byte) : (s.emit l b).bcRxSum = s.bcRxSum := by cases l <;> rfl
@[simp] theorem State.emit_halt (l : Link) (b : Byte) : (s.emit l b).halt = s.halt := by cases l <;> rfl
@[simp] theorem State.emit_op (l : Link) (b : Byte) : (s.emit l b).op = s.op := by cases l <;> rfl
@[simp] theorem State.emit_cmdOut (l : Link) (b : Byte) : (s.emit l b).cmdOut = s.cmdOut := by cases l <;> rfl
@[simp] theorem State.emit_client (l : Link) (b : Byte) : (s.emit l b).client = s.client := by cases l <;> rfl
@[simp] theorem State.emit_input (l : Link) (b : Byte) : (s.emit l b).input = s.input := by cases l <;> rfl
@[simp] theorem State.emit_epoch (l : Link) (b : Byte) : (s.emit l b).epoch = s.epoch := by cases l <;> rfl

/-! ### `State.armTimer` -/

@[simp] theorem State.armTimer_cfg (t : Byte) : (s.armTimer t).cfg = s.cfg := rfl
@[simp] theorem State.armTimer_hrx (t : Byte) : (s.armTimer t).hrx = s.hrx := rfl
@[simp] theorem State.armTimer_htx (t : Byte) : (s.armTimer t).htx = s.htx := rfl
@[simp] theorem State.armTimer_brx (t : Byte) : (s.armTimer t).brx = s.brx := rfl
@[simp] theorem State.armTimer_btx (t : Byte) : (s.armTimer t).btx = s.btx := rfl
@[simp] theorem State.armTimer_htxShift (t : Byte) : (s.armTimer t).htxShift = s.htxShift := rfl
@[simp] theorem State.armTimer_btxShift (t : Byte) : (s.armTimer t).btxShift = s.btxShift := rfl
@[simp] theorem State.armTimer_dir (t : Byte) : (s.armTimer t).dir = s.dir := rfl
@[simp] theorem State.armTimer_tmo (t : Byte) : (s.armTimer t).tmo = t := rfl
@[simp] theorem State.armTimer_status (t : Byte) : (s.armTimer t).status = s.status := rfl
@[simp] theorem State.armTimer_hcTxSum (t : Byte) : (s.armTimer t).hcTxSum = s.hcTxSum := rfl
@[simp] theorem State.armTimer_hcRxSum (t : Byte) : (s.armTimer t).hcRxSum = s.hcRxSum := rfl
@[simp] theorem State.armTimer_bcTxSum (t : Byte) : (s.armTimer t).bcTxSum = s.bcTxSum := rfl
@[simp] theorem State.armTimer_bcRxSum (t : Byte) : (s.armTimer t).bcRxSum = s.bcRxSum := rfl
@[simp] theorem State.armTimer_halt (t : Byte) : (s.armTimer t).halt = s.halt := rfl
@[simp] theorem State.armTimer_op (t : Byte) : (s.armTimer t).op = s.op := rfl
@[simp] theorem State.armTimer_hostOut (t : Byte) : (s.armTimer t).hostOut = s.hostOut := rfl
@[simp] theorem State.armTimer_busOut (t : Byte) : (s.armTimer t).busOut = s.busOut := rfl
@[simp] theorem State.armTimer_cmdOut (t : Byte) : (s.armTimer t).cmdOut = s.cmdOut := rfl
@[simp] theorem State.armTimer_client (t : Byte) : (s.armTimer t).client = s.client := rfl
@[simp] theorem State.armTimer_input (t : Byte) : (s.armTimer t).input = s.input := rfl
@[simp] theorem State.armTimer_epoch (t : Byte) : (s.armTimer t).epoch = s.epoch := rfl

/-! ### `State.setDir` -/

@[simp] theorem State.setDir_cfg (d : Direction) : (s.setDir d).cfg = s.cfg := rfl
@[simp] theorem State.setDir_hrx (d : Direction) : (s.setDir d).hrx = s.hrx := rfl
@[simp] theorem State.setDir_htx (d : Direction) : (s.setDir d).htx = s.htx := rfl
@[simp] theorem State.setDir_brx (d : Direction) : (s.setDir d).brx = s.brx := rfl
@[simp] theorem State.setDir_btx (d : Direction) : (s.setDir d).btx = s.btx := rfl
@[simp] theorem State.setDir_htxShift (d : Direction) : (s.setDir d).htxShift = s.htxShift := rfl
@[simp] theorem State.setDir_btxShift (d : Direction) : (s.setDir d).btxShift = s.btxShift := rfl
@[simp] theorem State.setDir_dir (d : Direction) : (s.setDir d).dir = d := rfl
@[simp] theorem State.setDir_tmo (d : Direction) : (s.setDir d).tmo = s.tmo := rfl
@[simp] theorem State.setDir_status (d : Direction) : (s.setDir d).status = s.status := rfl
@[simp] theorem State.setDir_hcTxSum (d : Direction) : (s.setDir d).hcTxSum = s.hcTxSum := rfl
@[simp] theorem State.setDir_hcRxSum (d : Direction) : (s.setDir d).hcRxSum = s.hcRxSum := rfl
@[simp] theorem State.setDir_bcTxSum (d : Direction) : (s.setDir d).bcTxSum = s.bcTxSum := rfl
@[simp] theorem State.setDir_bcRxSum (d : Direction) : (s.setDir d).bcRxSum = s.bcRxSum := rfl
@[simp] theorem State.setDir_halt (d : Direction) : (s.setDir d).halt = s.halt := rfl
@[simp] theorem State.setDir_op (d : Direction) : (s.setDir d).op = s.op := rfl
@[simp] theorem State.setDir_hostOut (d : Direction) : (s.setDir d).hostOut = s.hostOut := rfl
@[simp] theorem State.setDir_busOut (d : Direction) : (s.setDir d).busOut = s.busOut := rfl
@[simp] theorem State.setDir_cmdOut (d : Direction) : (s.setDir d).cmdOut = s.cmdOut := rfl
@[simp] theorem State.setDir_client (d : Direction) : (s.setDir d).client = s.client := rfl
@[simp] theorem State.setDir_input (d : Direction) : (s.setDir d).input = s.input := rfl
@[simp] theorem State.setDir_epoch (d : Direction) : (s.setDir d).epoch = s.epoch := rfl

/-! ### `State.raise` -/

@[simp] theorem State.raise_cfg (m : Byte) : (s.raise m).cfg = s.cfg := rfl
@[simp] theorem State.raise_hrx (m : Byte) : (s.raise m).hrx = s.hrx := rfl
@[simp] theorem State.raise_htx (m : Byte) : (s.raise m).htx = s.htx := rfl
@[simp] theorem State.raise_brx (m : Byte) : (s.raise m).brx = s.brx := rfl
@[simp] theorem State.raise_btx (m : Byte) : (s.raise m).btx = s.btx := rfl
@[simp] theorem State.raise_htxShift (m : Byte) : (s.raise m).htxShift = s.htxShift := rfl
@[simp] theorem State.raise_btxShift (m : Byte) : (s.raise m).btxShift = s.btxShift := rfl
@[simp] theorem State.raise_dir (m : Byte) : (s.raise m).dir = s.dir := rfl
@[simp] theorem State.raise_tmo (m : Byte) : (s.raise m).tmo = s.tmo := rfl
@[simp] theorem State.raise_status (m : Byte) : (s.raise m).status = s.status ||| m := rfl
@[simp] theorem State.raise_hcTxSum (m : Byte) : (s.raise m).hcTxSum = s.hcTxSum := rfl
@[simp] theorem State.raise_hcRxSum (m : Byte) : (s.raise m).hcRxSum = s.hcRxSum := rfl
@[simp] theorem State.raise_bcTxSum (m : Byte) : (s.raise m).bcTxSum = s.bcTxSum := rfl
@[simp] theorem State.raise_bcRxSum (m : Byte) : (s.raise m).bcRxSum = s.bcRxSum := rfl
@[simp] theorem State.raise_halt (m : Byte) : (s.raise m).halt = s.halt := rfl
@[simp] theorem State.raise_op (m : Byte) : (s.raise m).op = s.op := rfl
@[simp] theorem State.raise_hostOut (m : Byte) : (s.raise m).hostOut = s.hostOut := rfl
@[simp] theorem State.raise_busOut (m : Byte) : (s.raise m).busOut = s.busOut := rfl
@[simp] theorem State.raise_cmdOut (m : Byte) : (s.raise m).cmdOut = s.cmdOut := rfl
@[simp] theorem State.raise_client (m : Byte) : (s.raise m).client = s.client := rfl
@[simp] theorem State.raise_input (m : Byte) : (s.raise m).input = s.input := rfl
@[simp] theorem State.raise_epoch (m : Byte) : (s.raise m).epoch = s.epoch := rfl

/-! ### `State.clearFlags` -/

@[simp] theorem State.clearFlags_cfg (m : Byte) : (s.clearFlags m).cfg = s.cfg := rfl
@[simp] theorem State.clearFlags_hrx (m : Byte) : (s.clearFlags m).hrx = s.hrx := rfl
@[simp] theorem State.clearFlags_htx (m : Byte) : (s.clearFlags m).htx = s.htx := rfl
@[simp] theorem State.clearFlags_brx (m : Byte) : (s.clearFlags m).brx = s.brx := rfl
@[simp] theorem State.clearFlags_btx (m : Byte) : (s.clearFlags m).btx = s.btx := rfl
@[simp] theorem State.clearFlags_htxShift (m : Byte) : (s.clearFlags m).htxShift = s.htxShift := rfl
@[simp] theorem State.clearFlags_btxShift (m : Byte) : (s.clearFlags m).btxShift = s.btxShift := rfl
@[simp] theorem State.clearFlags_dir (m : Byte) : (s.clearFlags m).dir = s.dir := rfl
@[simp] theorem State.clearFlags_tmo (m : Byte) : (s.clearFlags m).tmo = s.tmo := rfl
@[simp] theorem State.clearFlags_status (m : Byte) : (s.clearFlags m).status = s.status &&& ~~~ m := rfl
@[simp] theorem State.clearFlags_hcTxSum (m : Byte) : (s.clearFlags m).hcTxSum = s.hcTxSum := rfl
@[simp] theorem State.clearFlags_hcRxSum (m : Byte) : (s.clearFlags m).hcRxSum = s.hcRxSum := rfl
@[simp] theorem State.clearFlags_bcTxSum (m : Byte) : (s.clearFlags m).bcTxSum = s.bcTxSum := rfl
@[simp] theorem State.clearFlags_bcRxSum (m : Byte) : (s.clearFlags m).bcRxSum = s.bcRxSum := rfl
@[simp] theorem State.clearFlags_halt (m : Byte) : (s.clearFlags m).halt = s.halt := rfl
@[simp] theorem State.clearFlags_op (m : Byte) : (s.clearFlags m).op = s.op := rfl
@[simp] theorem State.clearFlags_hostOut (m : Byte) : (s.clearFlags m).hostOut = s.hostOut := rfl
@[simp] theorem State.clearFlags_busOut (m : Byte) : (s.clearFlags m).busOut = s.busOut := rfl
@[simp] theorem State.clearFlags_cmdOut (m : Byte) : (s.clearFlags m).cmdOut = s.cmdOut := rfl
@[simp] theorem State.clearFlags_client (m : Byte) : (s.clearFlags m).client = s.client := rfl
@[simp] theorem State.clearFlags_input (m : Byte) : (s.clearFlags m).input = s.input := rfl
@[simp] theorem State.clearFlags_epoch (m : Byte) : (s.clearFlags m).epoch = s.epoch := rfl

/-! ### `State.reply` -/

@[simp] theorem State.reply_cfg (o : Code) (r : List Byte) : (s.reply o r).cfg = s.cfg := rfl
@[simp] theorem State.reply_hrx (o : Code) (r : List Byte) : (s.reply o r).hrx = s.hrx := rfl
@[simp] theorem State.reply_htx (o : Code) (r : List Byte) : (s.reply o r).htx = s.htx := rfl
@[simp] theorem State.reply_brx (o : Code) (r : List Byte) : (s.reply o r).brx = s.brx := rfl
@[simp] theorem State.reply_btx (o : Code) (r : List Byte) : (s.reply o r).btx = s.btx := rfl
@[simp] theorem State.reply_htxShift (o : Code) (r : List Byte) : (s.reply o r).htxShift = s.htxShift := rfl
@[simp] theorem State.reply_btxShift (o : Code) (r : List Byte) : (s.reply o r).btxShift = s.btxShift := rfl
@[simp] theorem State.reply_dir (o : Code) (r : List Byte) : (s.reply o r).dir = s.dir := rfl
@[simp] theorem State.reply_tmo (o : Code) (r : List Byte) : (s.reply o r).tmo = s.tmo := rfl
@[simp] theorem State.reply_status (o : Code) (r : List Byte) : (s.reply o r).status = s.status := rfl
@[simp] theorem State.reply_hcTxSum (o : Code) (r : List Byte) : (s.reply o r).hcTxSum = s.hcTxSum := rfl
@[simp] theorem State.reply_hcRxSum (o : Code) (r : List Byte) : (s.reply o r).hcRxSum = s.hcRxSum := rfl
@[simp] theorem State.reply_bcTxSum (o : Code) (r : List Byte) : (s.reply o r).bcTxSum = s.bcTxSum := rfl
@[simp] theorem State.reply_bcRxSum (o : Code) (r : List Byte) : (s.reply o r).bcRxSum = s.bcRxSum := rfl
@[simp] theorem State.reply_halt (o : Code) (r : List Byte) : (s.reply o r).halt = s.halt := rfl
@[simp] theorem State.reply_op (o : Code) (r : List Byte) : (s.reply o r).op = none := rfl
@[simp] theorem State.reply_hostOut (o : Code) (r : List Byte) : (s.reply o r).hostOut = s.hostOut := rfl
@[simp] theorem State.reply_busOut (o : Code) (r : List Byte) : (s.reply o r).busOut = s.busOut := rfl
@[simp] theorem State.reply_cmdOut (o : Code) (r : List Byte) : (s.reply o r).cmdOut = s.cmdOut ++ [⟨o, r⟩] := rfl
@[simp] theorem State.reply_client (o : Code) (r : List Byte) : (s.reply o r).client = s.client := rfl
@[simp] theorem State.reply_input (o : Code) (r : List Byte) : (s.reply o r).input = s.input := rfl
@[simp] theorem State.reply_epoch (o : Code) (r : List Byte) : (s.reply o r).epoch = s.epoch := rfl

/-! ### `State.holding` -/

@[simp] theorem State.holding_cfg (m : List Micro) (r : List Byte) (p : Option PacketLocals) : (s.holding m r p).cfg = s.cfg := rfl
@[simp] theorem State.holding_hrx (m : List Micro) (r : List Byte) (p : Option PacketLocals) : (s.holding m r p).hrx = s.hrx := rfl
@[simp] theorem State.holding_htx (m : List Micro) (r : List Byte) (p : Option PacketLocals) : (s.holding m r p).htx = s.htx := rfl
@[simp] theorem State.holding_brx (m : List Micro) (r : List Byte) (p : Option PacketLocals) : (s.holding m r p).brx = s.brx := rfl
@[simp] theorem State.holding_btx (m : List Micro) (r : List Byte) (p : Option PacketLocals) : (s.holding m r p).btx = s.btx := rfl
@[simp] theorem State.holding_htxShift (m : List Micro) (r : List Byte) (p : Option PacketLocals) : (s.holding m r p).htxShift = s.htxShift := rfl
@[simp] theorem State.holding_btxShift (m : List Micro) (r : List Byte) (p : Option PacketLocals) : (s.holding m r p).btxShift = s.btxShift := rfl
@[simp] theorem State.holding_dir (m : List Micro) (r : List Byte) (p : Option PacketLocals) : (s.holding m r p).dir = s.dir := rfl
@[simp] theorem State.holding_tmo (m : List Micro) (r : List Byte) (p : Option PacketLocals) : (s.holding m r p).tmo = s.tmo := rfl
@[simp] theorem State.holding_status (m : List Micro) (r : List Byte) (p : Option PacketLocals) : (s.holding m r p).status = s.status := rfl
@[simp] theorem State.holding_hcTxSum (m : List Micro) (r : List Byte) (p : Option PacketLocals) : (s.holding m r p).hcTxSum = s.hcTxSum := rfl
@[simp] theorem State.holding_hcRxSum (m : List Micro) (r : List Byte) (p : Option PacketLocals) : (s.holding m r p).hcRxSum = s.hcRxSum := rfl
@[simp] theorem State.holding_bcTxSum (m : List Micro) (r : List Byte) (p : Option PacketLocals) : (s.holding m r p).bcTxSum = s.bcTxSum := rfl
@[simp] theorem State.holding_bcRxSum (m : List Micro) (r : List Byte) (p : Option PacketLocals) : (s.holding m r p).bcRxSum = s.bcRxSum := rfl
@[simp] theorem State.holding_halt (m : List Micro) (r : List Byte) (p : Option PacketLocals) : (s.holding m r p).halt = s.halt := rfl
@[simp] theorem State.holding_op (m : List Micro) (r : List Byte) (p : Option PacketLocals) : (s.holding m r p).op = some ⟨.script, m, r, p⟩ := rfl
@[simp] theorem State.holding_hostOut (m : List Micro) (r : List Byte) (p : Option PacketLocals) : (s.holding m r p).hostOut = s.hostOut := rfl
@[simp] theorem State.holding_busOut (m : List Micro) (r : List Byte) (p : Option PacketLocals) : (s.holding m r p).busOut = s.busOut := rfl
@[simp] theorem State.holding_cmdOut (m : List Micro) (r : List Byte) (p : Option PacketLocals) : (s.holding m r p).cmdOut = s.cmdOut := rfl
@[simp] theorem State.holding_client (m : List Micro) (r : List Byte) (p : Option PacketLocals) : (s.holding m r p).client = s.client := rfl
@[simp] theorem State.holding_input (m : List Micro) (r : List Byte) (p : Option PacketLocals) : (s.holding m r p).input = s.input := rfl
@[simp] theorem State.holding_epoch (m : List Micro) (r : List Byte) (p : Option PacketLocals) : (s.holding m r p).epoch = s.epoch := rfl

/-! ### `State.dispatched` -/

@[simp] theorem State.dispatched_cfg (b : Byte) (k : Client → Client) : (s.dispatched b k).cfg = s.cfg := rfl
@[simp] theorem State.dispatched_hrx (b : Byte) (k : Client → Client) : (s.dispatched b k).hrx = s.hrx := rfl
@[simp] theorem State.dispatched_htx (b : Byte) (k : Client → Client) : (s.dispatched b k).htx = s.htx := rfl
@[simp] theorem State.dispatched_brx (b : Byte) (k : Client → Client) : (s.dispatched b k).brx = s.brx := rfl
@[simp] theorem State.dispatched_btx (b : Byte) (k : Client → Client) : (s.dispatched b k).btx = s.btx := rfl
@[simp] theorem State.dispatched_htxShift (b : Byte) (k : Client → Client) : (s.dispatched b k).htxShift = s.htxShift := rfl
@[simp] theorem State.dispatched_btxShift (b : Byte) (k : Client → Client) : (s.dispatched b k).btxShift = s.btxShift := rfl
@[simp] theorem State.dispatched_dir (b : Byte) (k : Client → Client) : (s.dispatched b k).dir = s.dir := rfl
@[simp] theorem State.dispatched_tmo (b : Byte) (k : Client → Client) : (s.dispatched b k).tmo = s.tmo := rfl
@[simp] theorem State.dispatched_status (b : Byte) (k : Client → Client) : (s.dispatched b k).status = 0x00 := rfl
@[simp] theorem State.dispatched_hcTxSum (b : Byte) (k : Client → Client) : (s.dispatched b k).hcTxSum = s.hcTxSum := rfl
@[simp] theorem State.dispatched_hcRxSum (b : Byte) (k : Client → Client) : (s.dispatched b k).hcRxSum = b := rfl
@[simp] theorem State.dispatched_bcTxSum (b : Byte) (k : Client → Client) : (s.dispatched b k).bcTxSum = s.bcTxSum := rfl
@[simp] theorem State.dispatched_bcRxSum (b : Byte) (k : Client → Client) : (s.dispatched b k).bcRxSum = s.bcRxSum := rfl
@[simp] theorem State.dispatched_halt (b : Byte) (k : Client → Client) : (s.dispatched b k).halt = s.halt := rfl
@[simp] theorem State.dispatched_op (b : Byte) (k : Client → Client) : (s.dispatched b k).op = s.op := rfl
@[simp] theorem State.dispatched_hostOut (b : Byte) (k : Client → Client) : (s.dispatched b k).hostOut = s.hostOut := rfl
@[simp] theorem State.dispatched_busOut (b : Byte) (k : Client → Client) : (s.dispatched b k).busOut = s.busOut := rfl
@[simp] theorem State.dispatched_cmdOut (b : Byte) (k : Client → Client) : (s.dispatched b k).cmdOut = s.cmdOut ++ [⟨.ok, []⟩, ⟨.ok, [b]⟩] := rfl
@[simp] theorem State.dispatched_client (b : Byte) (k : Client → Client) : (s.dispatched b k).client = k { s.client with retry := 0, pos := .idle } := rfl
@[simp] theorem State.dispatched_input (b : Byte) (k : Client → Client) : (s.dispatched b k).input = s.input := rfl
@[simp] theorem State.dispatched_epoch (b : Byte) (k : Client → Client) : (s.dispatched b k).epoch = s.epoch := rfl

/-! ### `State.push` -/

@[simp] theorem State.push_cfg (c : Chan) (b : Byte) : (s.push c b).cfg = s.cfg := by cases c <;> rfl
@[simp] theorem State.push_htxShift (c : Chan) (b : Byte) : (s.push c b).htxShift = s.htxShift := by cases c <;> rfl
@[simp] theorem State.push_btxShift (c : Chan) (b : Byte) : (s.push c b).btxShift = s.btxShift := by cases c <;> rfl
@[simp] theorem State.push_dir (c : Chan) (b : Byte) : (s.push c b).dir = s.dir := by cases c <;> rfl
@[simp] theorem State.push_tmo (c : Chan) (b : Byte) : (s.push c b).tmo = s.tmo := by cases c <;> rfl
@[simp] theorem State.push_status (c : Chan) (b : Byte) : (s.push c b).status = s.status := by cases c <;> rfl
@[simp] theorem State.push_hcTxSum (c : Chan) (b : Byte) : (s.push c b).hcTxSum = s.hcTxSum := by cases c <;> rfl
@[simp] theorem State.push_hcRxSum (c : Chan) (b : Byte) : (s.push c b).hcRxSum = s.hcRxSum := by cases c <;> rfl
@[simp] theorem State.push_bcTxSum (c : Chan) (b : Byte) : (s.push c b).bcTxSum = s.bcTxSum := by cases c <;> rfl
@[simp] theorem State.push_bcRxSum (c : Chan) (b : Byte) : (s.push c b).bcRxSum = s.bcRxSum := by cases c <;> rfl
@[simp] theorem State.push_halt (c : Chan) (b : Byte) : (s.push c b).halt = s.halt := by cases c <;> rfl
@[simp] theorem State.push_op (c : Chan) (b : Byte) : (s.push c b).op = s.op := by cases c <;> rfl
@[simp] theorem State.push_hostOut (c : Chan) (b : Byte) : (s.push c b).hostOut = s.hostOut := by cases c <;> rfl
@[simp] theorem State.push_busOut (c : Chan) (b : Byte) : (s.push c b).busOut = s.busOut := by cases c <;> rfl
@[simp] theorem State.push_cmdOut (c : Chan) (b : Byte) : (s.push c b).cmdOut = s.cmdOut := by cases c <;> rfl
@[simp] theorem State.push_client (c : Chan) (b : Byte) : (s.push c b).client = s.client := by cases c <;> rfl
@[simp] theorem State.push_input (c : Chan) (b : Byte) : (s.push c b).input = s.input := by cases c <;> rfl
@[simp] theorem State.push_epoch (c : Chan) (b : Byte) : (s.push c b).epoch = s.epoch := by cases c <;> rfl

/-! ### `State.dropOldest` -/

@[simp] theorem State.dropOldest_cfg (c : Chan) : (s.dropOldest c).cfg = s.cfg := by cases c <;> rfl
@[simp] theorem State.dropOldest_htxShift (c : Chan) : (s.dropOldest c).htxShift = s.htxShift := by cases c <;> rfl
@[simp] theorem State.dropOldest_btxShift (c : Chan) : (s.dropOldest c).btxShift = s.btxShift := by cases c <;> rfl
@[simp] theorem State.dropOldest_dir (c : Chan) : (s.dropOldest c).dir = s.dir := by cases c <;> rfl
@[simp] theorem State.dropOldest_tmo (c : Chan) : (s.dropOldest c).tmo = s.tmo := by cases c <;> rfl
@[simp] theorem State.dropOldest_status (c : Chan) : (s.dropOldest c).status = s.status := by cases c <;> rfl
@[simp] theorem State.dropOldest_hcTxSum (c : Chan) : (s.dropOldest c).hcTxSum = s.hcTxSum := by cases c <;> rfl
@[simp] theorem State.dropOldest_hcRxSum (c : Chan) : (s.dropOldest c).hcRxSum = s.hcRxSum := by cases c <;> rfl
@[simp] theorem State.dropOldest_bcTxSum (c : Chan) : (s.dropOldest c).bcTxSum = s.bcTxSum := by cases c <;> rfl
@[simp] theorem State.dropOldest_bcRxSum (c : Chan) : (s.dropOldest c).bcRxSum = s.bcRxSum := by cases c <;> rfl
@[simp] theorem State.dropOldest_halt (c : Chan) : (s.dropOldest c).halt = s.halt := by cases c <;> rfl
@[simp] theorem State.dropOldest_op (c : Chan) : (s.dropOldest c).op = s.op := by cases c <;> rfl
@[simp] theorem State.dropOldest_hostOut (c : Chan) : (s.dropOldest c).hostOut = s.hostOut := by cases c <;> rfl
@[simp] theorem State.dropOldest_busOut (c : Chan) : (s.dropOldest c).busOut = s.busOut := by cases c <;> rfl
@[simp] theorem State.dropOldest_cmdOut (c : Chan) : (s.dropOldest c).cmdOut = s.cmdOut := by cases c <;> rfl
@[simp] theorem State.dropOldest_client (c : Chan) : (s.dropOldest c).client = s.client := by cases c <;> rfl
@[simp] theorem State.dropOldest_input (c : Chan) : (s.dropOldest c).input = s.input := by cases c <;> rfl
@[simp] theorem State.dropOldest_epoch (c : Chan) : (s.dropOldest c).epoch = s.epoch := by cases c <;> rfl

/-! ### `State.flushChan` -/

@[simp] theorem State.flushChan_cfg (c : Chan) : (s.flushChan c).cfg = s.cfg := by cases c <;> rfl
@[simp] theorem State.flushChan_htxShift (c : Chan) : (s.flushChan c).htxShift = s.htxShift := by cases c <;> rfl
@[simp] theorem State.flushChan_btxShift (c : Chan) : (s.flushChan c).btxShift = s.btxShift := by cases c <;> rfl
@[simp] theorem State.flushChan_dir (c : Chan) : (s.flushChan c).dir = s.dir := by cases c <;> rfl
@[simp] theorem State.flushChan_tmo (c : Chan) : (s.flushChan c).tmo = s.tmo := by cases c <;> rfl
@[simp] theorem State.flushChan_status (c : Chan) : (s.flushChan c).status = s.status := by cases c <;> rfl
@[simp] theorem State.flushChan_hcTxSum (c : Chan) : (s.flushChan c).hcTxSum = s.hcTxSum := by cases c <;> rfl
@[simp] theorem State.flushChan_hcRxSum (c : Chan) : (s.flushChan c).hcRxSum = s.hcRxSum := by cases c <;> rfl
@[simp] theorem State.flushChan_bcTxSum (c : Chan) : (s.flushChan c).bcTxSum = s.bcTxSum := by cases c <;> rfl
@[simp] theorem State.flushChan_bcRxSum (c : Chan) : (s.flushChan c).bcRxSum = s.bcRxSum := by cases c <;> rfl
@[simp] theorem State.flushChan_halt (c : Chan) : (s.flushChan c).halt = s.halt := by cases c <;> rfl
@[simp] theorem State.flushChan_op (c : Chan) : (s.flushChan c).op = s.op := by cases c <;> rfl
@[simp] theorem State.flushChan_hostOut (c : Chan) : (s.flushChan c).hostOut = s.hostOut := by cases c <;> rfl
@[simp] theorem State.flushChan_busOut (c : Chan) : (s.flushChan c).busOut = s.busOut := by cases c <;> rfl
@[simp] theorem State.flushChan_cmdOut (c : Chan) : (s.flushChan c).cmdOut = s.cmdOut := by cases c <;> rfl
@[simp] theorem State.flushChan_client (c : Chan) : (s.flushChan c).client = s.client := by cases c <;> rfl
@[simp] theorem State.flushChan_input (c : Chan) : (s.flushChan c).input = s.input := by cases c <;> rfl
@[simp] theorem State.flushChan_epoch (c : Chan) : (s.flushChan c).epoch = s.epoch := by cases c <;> rfl

/-! ### The derived views -/

@[simp] theorem State.setChan_cap (c : Chan) (ch : Channel) (c' : Chan) : (s.setChan c ch).cap c' = s.cap c' := by cases c <;> cases c' <;> rfl
@[simp] theorem State.setChan_shift (c : Chan) (ch : Channel) (l' : Link) : (s.setChan c ch).shift l' = s.shift l' := by cases c <;> cases l' <;> rfl
@[simp] theorem State.setChan_txSum (c : Chan) (ch : Channel) (l' : Link) : (s.setChan c ch).txSum l' = s.txSum l' := by cases c <;> cases l' <;> rfl
@[simp] theorem State.setChan_rxSum (c : Chan) (ch : Channel) (l' : Link) : (s.setChan c ch).rxSum l' = s.rxSum l' := by cases c <;> cases l' <;> rfl
@[simp] theorem State.setShift_chan (l : Link) (v : Option Byte) (c' : Chan) : (s.setShift l v).chan c' = s.chan c' := by cases l <;> cases c' <;> rfl
@[simp] theorem State.setShift_cap (l : Link) (v : Option Byte) (c' : Chan) : (s.setShift l v).cap c' = s.cap c' := by cases l <;> cases c' <;> rfl
@[simp] theorem State.setShift_len (l : Link) (v : Option Byte) (c' : Chan) : (s.setShift l v).len c' = s.len c' := by cases l <;> cases c' <;> rfl
@[simp] theorem State.setShift_slot (l : Link) (v : Option Byte) (c' : Chan) (i : Nat) : (s.setShift l v).slot c' i = s.slot c' i := by cases l <;> cases c' <;> rfl
@[simp] theorem State.setShift_contents (l : Link) (v : Option Byte) (c' : Chan) : (s.setShift l v).contents c' = s.contents c' := by cases l <;> cases c' <;> rfl
@[simp] theorem State.setShift_txSum (l : Link) (v : Option Byte) (l' : Link) : (s.setShift l v).txSum l' = s.txSum l' := by cases l <;> cases l' <;> rfl
@[simp] theorem State.setShift_rxSum (l : Link) (v : Option Byte) (l' : Link) : (s.setShift l v).rxSum l' = s.rxSum l' := by cases l <;> cases l' <;> rfl
@[simp] theorem State.setShift_oldest (l : Link) (v : Option Byte) (c' : Chan) : (s.setShift l v).oldest c' = s.oldest c' := by cases l <;> cases c' <;> rfl
@[simp] theorem State.setTxSum_chan (l : Link) (v : Byte) (c' : Chan) : (s.setTxSum l v).chan c' = s.chan c' := by cases l <;> cases c' <;> rfl
@[simp] theorem State.setTxSum_cap (l : Link) (v : Byte) (c' : Chan) : (s.setTxSum l v).cap c' = s.cap c' := by cases l <;> cases c' <;> rfl
@[simp] theorem State.setTxSum_len (l : Link) (v : Byte) (c' : Chan) : (s.setTxSum l v).len c' = s.len c' := by cases l <;> cases c' <;> rfl
@[simp] theorem State.setTxSum_slot (l : Link) (v : Byte) (c' : Chan) (i : Nat) : (s.setTxSum l v).slot c' i = s.slot c' i := by cases l <;> cases c' <;> rfl
@[simp] theorem State.setTxSum_contents (l : Link) (v : Byte) (c' : Chan) : (s.setTxSum l v).contents c' = s.contents c' := by cases l <;> cases c' <;> rfl
@[simp] theorem State.setTxSum_shift (l : Link) (v : Byte) (l' : Link) : (s.setTxSum l v).shift l' = s.shift l' := by cases l <;> cases l' <;> rfl
@[simp] theorem State.setTxSum_rxSum (l : Link) (v : Byte) (l' : Link) : (s.setTxSum l v).rxSum l' = s.rxSum l' := by cases l <;> cases l' <;> rfl
@[simp] theorem State.setTxSum_oldest (l : Link) (v : Byte) (c' : Chan) : (s.setTxSum l v).oldest c' = s.oldest c' := by cases l <;> cases c' <;> rfl
@[simp] theorem State.setRxSum_chan (l : Link) (v : Byte) (c' : Chan) : (s.setRxSum l v).chan c' = s.chan c' := by cases l <;> cases c' <;> rfl
@[simp] theorem State.setRxSum_cap (l : Link) (v : Byte) (c' : Chan) : (s.setRxSum l v).cap c' = s.cap c' := by cases l <;> cases c' <;> rfl
@[simp] theorem State.setRxSum_len (l : Link) (v : Byte) (c' : Chan) : (s.setRxSum l v).len c' = s.len c' := by cases l <;> cases c' <;> rfl
@[simp] theorem State.setRxSum_slot (l : Link) (v : Byte) (c' : Chan) (i : Nat) : (s.setRxSum l v).slot c' i = s.slot c' i := by cases l <;> cases c' <;> rfl
@[simp] theorem State.setRxSum_contents (l : Link) (v : Byte) (c' : Chan) : (s.setRxSum l v).contents c' = s.contents c' := by cases l <;> cases c' <;> rfl
@[simp] theorem State.setRxSum_shift (l : Link) (v : Byte) (l' : Link) : (s.setRxSum l v).shift l' = s.shift l' := by cases l <;> cases l' <;> rfl
@[simp] theorem State.setRxSum_txSum (l : Link) (v : Byte) (l' : Link) : (s.setRxSum l v).txSum l' = s.txSum l' := by cases l <;> cases l' <;> rfl
@[simp] theorem State.setRxSum_oldest (l : Link) (v : Byte) (c' : Chan) : (s.setRxSum l v).oldest c' = s.oldest c' := by cases l <;> cases c' <;> rfl
@[simp] theorem State.emit_chan (l : Link) (b : Byte) (c' : Chan) : (s.emit l b).chan c' = s.chan c' := by cases l <;> cases c' <;> rfl
@[simp] theorem State.emit_cap (l : Link) (b : Byte) (c' : Chan) : (s.emit l b).cap c' = s.cap c' := by cases l <;> cases c' <;> rfl
@[simp] theorem State.emit_len (l : Link) (b : Byte) (c' : Chan) : (s.emit l b).len c' = s.len c' := by cases l <;> cases c' <;> rfl
@[simp] theorem State.emit_slot (l : Link) (b : Byte) (c' : Chan) (i : Nat) : (s.emit l b).slot c' i = s.slot c' i := by cases l <;> cases c' <;> rfl
@[simp] theorem State.emit_contents (l : Link) (b : Byte) (c' : Chan) : (s.emit l b).contents c' = s.contents c' := by cases l <;> cases c' <;> rfl
@[simp] theorem State.emit_shift (l : Link) (b : Byte) (l' : Link) : (s.emit l b).shift l' = s.shift l' := by cases l <;> cases l' <;> rfl
@[simp] theorem State.emit_txSum (l : Link) (b : Byte) (l' : Link) : (s.emit l b).txSum l' = s.txSum l' := by cases l <;> cases l' <;> rfl
@[simp] theorem State.emit_rxSum (l : Link) (b : Byte) (l' : Link) : (s.emit l b).rxSum l' = s.rxSum l' := by cases l <;> cases l' <;> rfl
@[simp] theorem State.emit_oldest (l : Link) (b : Byte) (c' : Chan) : (s.emit l b).oldest c' = s.oldest c' := by cases l <;> cases c' <;> rfl
@[simp] theorem State.armTimer_chan (t : Byte) (c' : Chan) : (s.armTimer t).chan c' = s.chan c' := by cases c' <;> rfl
@[simp] theorem State.armTimer_cap (t : Byte) (c' : Chan) : (s.armTimer t).cap c' = s.cap c' := by cases c' <;> rfl
@[simp] theorem State.armTimer_len (t : Byte) (c' : Chan) : (s.armTimer t).len c' = s.len c' := by cases c' <;> rfl
@[simp] theorem State.armTimer_slot (t : Byte) (c' : Chan) (i : Nat) : (s.armTimer t).slot c' i = s.slot c' i := by cases c' <;> rfl
@[simp] theorem State.armTimer_contents (t : Byte) (c' : Chan) : (s.armTimer t).contents c' = s.contents c' := by cases c' <;> rfl
@[simp] theorem State.armTimer_shift (t : Byte) (l' : Link) : (s.armTimer t).shift l' = s.shift l' := by cases l' <;> rfl
@[simp] theorem State.armTimer_txSum (t : Byte) (l' : Link) : (s.armTimer t).txSum l' = s.txSum l' := by cases l' <;> rfl
@[simp] theorem State.armTimer_rxSum (t : Byte) (l' : Link) : (s.armTimer t).rxSum l' = s.rxSum l' := by cases l' <;> rfl
@[simp] theorem State.armTimer_oldest (t : Byte) (c' : Chan) : (s.armTimer t).oldest c' = s.oldest c' := by cases c' <;> rfl
@[simp] theorem State.setDir_chan (d : Direction) (c' : Chan) : (s.setDir d).chan c' = s.chan c' := by cases c' <;> rfl
@[simp] theorem State.setDir_cap (d : Direction) (c' : Chan) : (s.setDir d).cap c' = s.cap c' := by cases c' <;> rfl
@[simp] theorem State.setDir_len (d : Direction) (c' : Chan) : (s.setDir d).len c' = s.len c' := by cases c' <;> rfl
@[simp] theorem State.setDir_slot (d : Direction) (c' : Chan) (i : Nat) : (s.setDir d).slot c' i = s.slot c' i := by cases c' <;> rfl
@[simp] theorem State.setDir_contents (d : Direction) (c' : Chan) : (s.setDir d).contents c' = s.contents c' := by cases c' <;> rfl
@[simp] theorem State.setDir_shift (d : Direction) (l' : Link) : (s.setDir d).shift l' = s.shift l' := by cases l' <;> rfl
@[simp] theorem State.setDir_txSum (d : Direction) (l' : Link) : (s.setDir d).txSum l' = s.txSum l' := by cases l' <;> rfl
@[simp] theorem State.setDir_rxSum (d : Direction) (l' : Link) : (s.setDir d).rxSum l' = s.rxSum l' := by cases l' <;> rfl
@[simp] theorem State.setDir_oldest (d : Direction) (c' : Chan) : (s.setDir d).oldest c' = s.oldest c' := by cases c' <;> rfl
@[simp] theorem State.raise_chan (m : Byte) (c' : Chan) : (s.raise m).chan c' = s.chan c' := by cases c' <;> rfl
@[simp] theorem State.raise_cap (m : Byte) (c' : Chan) : (s.raise m).cap c' = s.cap c' := by cases c' <;> rfl
@[simp] theorem State.raise_len (m : Byte) (c' : Chan) : (s.raise m).len c' = s.len c' := by cases c' <;> rfl
@[simp] theorem State.raise_slot (m : Byte) (c' : Chan) (i : Nat) : (s.raise m).slot c' i = s.slot c' i := by cases c' <;> rfl
@[simp] theorem State.raise_contents (m : Byte) (c' : Chan) : (s.raise m).contents c' = s.contents c' := by cases c' <;> rfl
@[simp] theorem State.raise_shift (m : Byte) (l' : Link) : (s.raise m).shift l' = s.shift l' := by cases l' <;> rfl
@[simp] theorem State.raise_txSum (m : Byte) (l' : Link) : (s.raise m).txSum l' = s.txSum l' := by cases l' <;> rfl
@[simp] theorem State.raise_rxSum (m : Byte) (l' : Link) : (s.raise m).rxSum l' = s.rxSum l' := by cases l' <;> rfl
@[simp] theorem State.raise_oldest (m : Byte) (c' : Chan) : (s.raise m).oldest c' = s.oldest c' := by cases c' <;> rfl
@[simp] theorem State.clearFlags_chan (m : Byte) (c' : Chan) : (s.clearFlags m).chan c' = s.chan c' := by cases c' <;> rfl
@[simp] theorem State.clearFlags_cap (m : Byte) (c' : Chan) : (s.clearFlags m).cap c' = s.cap c' := by cases c' <;> rfl
@[simp] theorem State.clearFlags_len (m : Byte) (c' : Chan) : (s.clearFlags m).len c' = s.len c' := by cases c' <;> rfl
@[simp] theorem State.clearFlags_slot (m : Byte) (c' : Chan) (i : Nat) : (s.clearFlags m).slot c' i = s.slot c' i := by cases c' <;> rfl
@[simp] theorem State.clearFlags_contents (m : Byte) (c' : Chan) : (s.clearFlags m).contents c' = s.contents c' := by cases c' <;> rfl
@[simp] theorem State.clearFlags_shift (m : Byte) (l' : Link) : (s.clearFlags m).shift l' = s.shift l' := by cases l' <;> rfl
@[simp] theorem State.clearFlags_txSum (m : Byte) (l' : Link) : (s.clearFlags m).txSum l' = s.txSum l' := by cases l' <;> rfl
@[simp] theorem State.clearFlags_rxSum (m : Byte) (l' : Link) : (s.clearFlags m).rxSum l' = s.rxSum l' := by cases l' <;> rfl
@[simp] theorem State.clearFlags_oldest (m : Byte) (c' : Chan) : (s.clearFlags m).oldest c' = s.oldest c' := by cases c' <;> rfl
@[simp] theorem State.reply_chan (o : Code) (r : List Byte) (c' : Chan) : (s.reply o r).chan c' = s.chan c' := by cases c' <;> rfl
@[simp] theorem State.reply_cap (o : Code) (r : List Byte) (c' : Chan) : (s.reply o r).cap c' = s.cap c' := by cases c' <;> rfl
@[simp] theorem State.reply_len (o : Code) (r : List Byte) (c' : Chan) : (s.reply o r).len c' = s.len c' := by cases c' <;> rfl
@[simp] theorem State.reply_slot (o : Code) (r : List Byte) (c' : Chan) (i : Nat) : (s.reply o r).slot c' i = s.slot c' i := by cases c' <;> rfl
@[simp] theorem State.reply_contents (o : Code) (r : List Byte) (c' : Chan) : (s.reply o r).contents c' = s.contents c' := by cases c' <;> rfl
@[simp] theorem State.reply_shift (o : Code) (r : List Byte) (l' : Link) : (s.reply o r).shift l' = s.shift l' := by cases l' <;> rfl
@[simp] theorem State.reply_txSum (o : Code) (r : List Byte) (l' : Link) : (s.reply o r).txSum l' = s.txSum l' := by cases l' <;> rfl
@[simp] theorem State.reply_rxSum (o : Code) (r : List Byte) (l' : Link) : (s.reply o r).rxSum l' = s.rxSum l' := by cases l' <;> rfl
@[simp] theorem State.reply_oldest (o : Code) (r : List Byte) (c' : Chan) : (s.reply o r).oldest c' = s.oldest c' := by cases c' <;> rfl
@[simp] theorem State.holding_chan (m : List Micro) (r : List Byte) (p : Option PacketLocals) (c' : Chan) : (s.holding m r p).chan c' = s.chan c' := by cases c' <;> rfl
@[simp] theorem State.holding_cap (m : List Micro) (r : List Byte) (p : Option PacketLocals) (c' : Chan) : (s.holding m r p).cap c' = s.cap c' := by cases c' <;> rfl
@[simp] theorem State.holding_len (m : List Micro) (r : List Byte) (p : Option PacketLocals) (c' : Chan) : (s.holding m r p).len c' = s.len c' := by cases c' <;> rfl
@[simp] theorem State.holding_slot (m : List Micro) (r : List Byte) (p : Option PacketLocals) (c' : Chan) (i : Nat) : (s.holding m r p).slot c' i = s.slot c' i := by cases c' <;> rfl
@[simp] theorem State.holding_contents (m : List Micro) (r : List Byte) (p : Option PacketLocals) (c' : Chan) : (s.holding m r p).contents c' = s.contents c' := by cases c' <;> rfl
@[simp] theorem State.holding_shift (m : List Micro) (r : List Byte) (p : Option PacketLocals) (l' : Link) : (s.holding m r p).shift l' = s.shift l' := by cases l' <;> rfl
@[simp] theorem State.holding_txSum (m : List Micro) (r : List Byte) (p : Option PacketLocals) (l' : Link) : (s.holding m r p).txSum l' = s.txSum l' := by cases l' <;> rfl
@[simp] theorem State.holding_rxSum (m : List Micro) (r : List Byte) (p : Option PacketLocals) (l' : Link) : (s.holding m r p).rxSum l' = s.rxSum l' := by cases l' <;> rfl
@[simp] theorem State.holding_oldest (m : List Micro) (r : List Byte) (p : Option PacketLocals) (c' : Chan) : (s.holding m r p).oldest c' = s.oldest c' := by cases c' <;> rfl
@[simp] theorem State.dispatched_chan (b : Byte) (k : Client → Client) (c' : Chan) : (s.dispatched b k).chan c' = s.chan c' := by cases c' <;> rfl
@[simp] theorem State.dispatched_cap (b : Byte) (k : Client → Client) (c' : Chan) : (s.dispatched b k).cap c' = s.cap c' := by cases c' <;> rfl
@[simp] theorem State.dispatched_len (b : Byte) (k : Client → Client) (c' : Chan) : (s.dispatched b k).len c' = s.len c' := by cases c' <;> rfl
@[simp] theorem State.dispatched_slot (b : Byte) (k : Client → Client) (c' : Chan) (i : Nat) : (s.dispatched b k).slot c' i = s.slot c' i := by cases c' <;> rfl
@[simp] theorem State.dispatched_contents (b : Byte) (k : Client → Client) (c' : Chan) : (s.dispatched b k).contents c' = s.contents c' := by cases c' <;> rfl
@[simp] theorem State.dispatched_shift (b : Byte) (k : Client → Client) (l' : Link) : (s.dispatched b k).shift l' = s.shift l' := by cases l' <;> rfl
@[simp] theorem State.dispatched_txSum (b : Byte) (k : Client → Client) (l' : Link) : (s.dispatched b k).txSum l' = s.txSum l' := by cases l' <;> rfl
@[simp] theorem State.dispatched_oldest (b : Byte) (k : Client → Client) (c' : Chan) : (s.dispatched b k).oldest c' = s.oldest c' := by cases c' <;> rfl
@[simp] theorem State.push_cap (c : Chan) (b : Byte) (c' : Chan) : (s.push c b).cap c' = s.cap c' := by cases c <;> cases c' <;> rfl
@[simp] theorem State.push_shift (c : Chan) (b : Byte) (l' : Link) : (s.push c b).shift l' = s.shift l' := by cases c <;> cases l' <;> rfl
@[simp] theorem State.push_txSum (c : Chan) (b : Byte) (l' : Link) : (s.push c b).txSum l' = s.txSum l' := by cases c <;> cases l' <;> rfl
@[simp] theorem State.push_rxSum (c : Chan) (b : Byte) (l' : Link) : (s.push c b).rxSum l' = s.rxSum l' := by cases c <;> cases l' <;> rfl
@[simp] theorem State.dropOldest_cap (c : Chan) (c' : Chan) : (s.dropOldest c).cap c' = s.cap c' := by cases c <;> cases c' <;> rfl
@[simp] theorem State.dropOldest_slot (c : Chan) (c' : Chan) (i : Nat) : (s.dropOldest c).slot c' i = s.slot c' i := by cases c <;> cases c' <;> rfl
@[simp] theorem State.dropOldest_shift (c : Chan) (l' : Link) : (s.dropOldest c).shift l' = s.shift l' := by cases c <;> cases l' <;> rfl
@[simp] theorem State.dropOldest_txSum (c : Chan) (l' : Link) : (s.dropOldest c).txSum l' = s.txSum l' := by cases c <;> cases l' <;> rfl
@[simp] theorem State.dropOldest_rxSum (c : Chan) (l' : Link) : (s.dropOldest c).rxSum l' = s.rxSum l' := by cases c <;> cases l' <;> rfl
@[simp] theorem State.flushChan_cap (c : Chan) (c' : Chan) : (s.flushChan c).cap c' = s.cap c' := by cases c <;> cases c' <;> rfl
@[simp] theorem State.flushChan_slot (c : Chan) (c' : Chan) (i : Nat) : (s.flushChan c).slot c' i = s.slot c' i := by cases c <;> cases c' <;> rfl
@[simp] theorem State.flushChan_shift (c : Chan) (l' : Link) : (s.flushChan c).shift l' = s.shift l' := by cases c <;> cases l' <;> rfl
@[simp] theorem State.flushChan_txSum (c : Chan) (l' : Link) : (s.flushChan c).txSum l' = s.txSum l' := by cases c <;> cases l' <;> rfl
@[simp] theorem State.flushChan_rxSum (c : Chan) (l' : Link) : (s.flushChan c).rxSum l' = s.rxSum l' := by cases c <;> cases l' <;> rfl

@[simp] theorem State.setShift_shift_same (l : Link) (v : Option Byte) : (s.setShift l v).shift l = v := by
  cases l <;> rfl

@[simp] theorem State.setTxSum_txSum_same (l : Link) (v : Byte) : (s.setTxSum l v).txSum l = v := by cases l <;> rfl

@[simp] theorem State.setRxSum_rxSum_same (l : Link) (v : Byte) : (s.setRxSum l v).rxSum l = v := by cases l <;> rfl

/-- Writing back the sum it has changes nothing. -/
theorem State.setRxSum_self (l : Link) : s.setRxSum l (s.rxSum l) = s := by cases l <;> rfl

theorem State.setTxSum_self (l : Link) : s.setTxSum l (s.txSum l) = s := by cases l <;> rfl

@[simp] theorem State.setChan_chan_same (c : Chan) (ch : Channel) : (s.setChan c ch).chan c = ch := by cases c <;> rfl

theorem State.setChan_chan_other {c c' : Chan} (h : c' ≠ c) (ch : Channel) : (s.setChan c ch).chan c' = s.chan c' := by
  cases c <;> cases c' <;> first | rfl | exact absurd rfl h

end Sys2Proof.Machine
end

