-- ==== Sys2Proof/Laws/Channel.lean ====
section
/-!
SUPPORT. Laws/Channel.lean: what the storage and channel operations do (rules R60 to R63, R130): a read after a write,
the canonical form, and `len`, `slot` and the indices after push, pop and flush.
-/

namespace Sys2Proof.Machine

/-! ### Memory -/

theorem Memory.read_write_same (m : Memory) (i : Nat) (v : Byte) : (Memory.write m i v).read i = some v := by
  induction m with
  | nil => simp [Memory.write, Memory.read]
  | cons e m ih =>
    obtain ⟨a, b⟩ := e
    simp only [Memory.write]
    split
    · simp [Memory.read]
    · split
      · simp [Memory.read]
      · rename_i h; simp [Memory.read, ih]; intro h'; exact absurd h'.symm h

theorem Memory.read_write_other (m : Memory) {i j : Nat} (v : Byte) (h : j ≠ i) :
    (Memory.write m i v).read j = m.read j := by
  induction m with
  | nil => simp [Memory.write, Memory.read, h.symm]
  | cons e m ih =>
    obtain ⟨a, b⟩ := e
    simp only [Memory.write]
    split
    · simp [Memory.read, h.symm]
    · split
      · rename_i ha; subst ha; simp [Memory.read, h.symm]
      · simp [Memory.read, ih]

theorem Memory.above_write {lo : Nat} {m : Memory} {i : Nat} (v : Byte) (hm : Memory.above lo m = true) (hi : lo < i) :
    Memory.above lo (Memory.write m i v) = true := by
  induction m generalizing lo with
  | nil => simp [Memory.write, Memory.above, hi]
  | cons e m ih =>
    obtain ⟨a, b⟩ := e
    simp only [Memory.above, Bool.and_eq_true, decide_eq_true_eq] at hm
    simp only [Memory.write]
    split
    · rename_i h; simp [Memory.above, hi, h, hm.2]
    · split
      · rename_i h; subst h; simp [Memory.above, hi, hm.2]
      · rename_i h1 h2; simp [Memory.above, hm.1, ih hm.2 (by omega)]

/-- A write keeps the canonical form. -/
theorem Memory.wf_write {m : Memory} (i : Nat) (v : Byte) (hm : m.wf = true) : (Memory.write m i v).wf = true := by
  cases m with
  | nil => simp [Memory.write, Memory.wf, Memory.above]
  | cons e m =>
    obtain ⟨a, b⟩ := e
    simp only [Memory.wf] at hm
    simp only [Memory.write]
    split
    · rename_i h; simp [Memory.wf, Memory.above, h, hm]
    · split
      · rename_i h; subst h; exact hm
      · rename_i h1 h2; exact Memory.above_write v hm (by omega)

/-- A write lists no slot but the one written and those listed before. -/
theorem Memory.mem_write {m : Memory} {i : Nat} {v : Byte} {e : Host.Cell} (h : e ∈ Memory.write m i v) :
    e = (i, v) ∨ e ∈ m := by
  induction m with
  | nil => simpa [Memory.write] using h
  | cons x m ih =>
    obtain ⟨a, b⟩ := x
    simp only [Memory.write] at h
    split at h
    · simpa using h
    · split at h
      · rcases List.mem_cons.1 h with h | h
        · exact .inl h
        · exact .inr (List.mem_cons_of_mem _ h)
      · rcases List.mem_cons.1 h with h | h
        · exact .inr (h ▸ List.mem_cons_self)
        · exact (ih h).imp_right (List.mem_cons_of_mem _)

/-! ### The channel a push, a pop or a flush leaves -/

variable (s : State)

@[simp] theorem State.push_chan_same (c : Chan) (b : Byte) :
    (s.push c b).chan c =
      { s.chan c with buf := Memory.write (s.chan c).buf ((s.chan c).put % s.cap c) b, put := (s.chan c).put + 1 } := by
  simp [State.push]

theorem State.push_chan_other {c c' : Chan} (h : c' ≠ c) (b : Byte) : (s.push c b).chan c' = s.chan c' := by
  simp [State.push, State.setChan_chan_other s h]

@[simp] theorem State.dropOldest_chan_same (c : Chan) :
    (s.dropOldest c).chan c = { s.chan c with get := (s.chan c).get + 1 } := by simp [State.dropOldest]

theorem State.dropOldest_chan_other {c c' : Chan} (h : c' ≠ c) : (s.dropOldest c).chan c' = s.chan c' := by
  simp [State.dropOldest, State.setChan_chan_other s h]

@[simp] theorem State.flushChan_chan_same (c : Chan) :
    (s.flushChan c).chan c = { s.chan c with get := (s.chan c).put } := by simp [State.flushChan]

theorem State.flushChan_chan_other {c c' : Chan} (h : c' ≠ c) : (s.flushChan c).chan c' = s.chan c' := by
  simp [State.flushChan, State.setChan_chan_other s h]

/-! ### `len` -/

/-- "`len` after a `push` is `len + 1`" (rule R130). -/
theorem State.len_push {c : Chan} (b : Byte) (h : (s.chan c).get ≤ (s.chan c).put) :
    (s.push c b).len c = s.len c + 1 := by
  simp [State.len]; omega

/-- "after a `pop` is `len - 1`" (rule R130). -/
theorem State.len_dropOldest (c : Chan) : (s.dropOldest c).len c = s.len c - 1 := by
  simp [State.len]; omega

@[simp] theorem State.len_flushChan (c : Chan) : (s.flushChan c).len c = 0 := by simp [State.len]

theorem State.push_len_other {c c' : Chan} (h : c' ≠ c) (b : Byte) : (s.push c b).len c' = s.len c' := by
  simp [State.len, State.push_chan_other s h]

theorem State.dropOldest_len_other {c c' : Chan} (h : c' ≠ c) : (s.dropOldest c).len c' = s.len c' := by
  simp [State.len, State.dropOldest_chan_other s h]

theorem State.flushChan_len_other {c c' : Chan} (h : c' ≠ c) : (s.flushChan c).len c' = s.len c' := by
  simp [State.len, State.flushChan_chan_other s h]

/-! ### Slots -/

/-- The slot a push writes reads as the byte pushed. -/
theorem State.push_slot_same (c : Chan) (b : Byte) : (s.push c b).slot c ((s.chan c).put % s.cap c) = b := by
  simp [State.slot, Memory.read_write_same]

/-- Every other slot of the channel reads as before. -/
theorem State.push_slot_other {c : Chan} (b : Byte) {i : Nat} (h : i ≠ (s.chan c).put % s.cap c) :
    (s.push c b).slot c i = s.slot c i := by
  simp [State.slot, Memory.read_write_other _ b h]

/-- Every slot of every other channel reads as before. -/
theorem State.push_slot_other_chan {c c' : Chan} (h : c' ≠ c) (b : Byte) (i : Nat) :
    (s.push c b).slot c' i = s.slot c' i := by
  simp [State.slot, State.push_chan_other s h]

/-- What a push leaves of any slot, in one line. -/
theorem State.push_slot (c c' : Chan) (b : Byte) (i : Nat) :
    (s.push c b).slot c' i = if c' = c ∧ i = (s.chan c).put % s.cap c then b else s.slot c' i := by
  split
  · rename_i h; obtain ⟨rfl, rfl⟩ := h; exact s.push_slot_same _ b
  · rename_i h
    by_cases hc : c' = c
    · subst hc; exact s.push_slot_other b (by simpa using h)
    · exact s.push_slot_other_chan hc b i

/-- A pop leaves every slot in place as a stale value (rule R130). -/
theorem State.dropOldest_slot' (c c' : Chan) (i : Nat) : (s.dropOldest c).slot c' i = s.slot c' i := by simp

end Sys2Proof.Machine
end

