-- ==== Sys2Proof/Laws/Contents.lean ====
section
/-!
SUPPORT. Laws/Contents.lean: the bytes a channel holds (rule R21) after a push, a pop and a flush.
-/

namespace Sys2Proof.Machine

variable (s : State)

theorem State.length_contents (c : Chan) : (s.contents c).length = s.len c := by simp [State.contents]

/-- Inside a live window of at most `cap` slots, the slot after it is a different one. -/
theorem slot_ne_of_window {get len cap k : Nat} (hk : k < len) (hl : len < cap) :
    (get + k) % cap ≠ (get + len) % cap := by
  intro h
  have h1 : (get + len) % cap = ((get + k) % cap + (len - k)) % cap := by
    rw [Nat.mod_add_mod]; congr 1; omega
  have h2 : (get + k) % cap < cap := Nat.mod_lt _ (by omega)
  by_cases h3 : (get + k) % cap + (len - k) < cap
  · rw [Nat.mod_eq_of_lt h3] at h1; omega
  · have h4 : ((get + k) % cap + (len - k)) % cap = (get + k) % cap + (len - k) - cap := by
      rw [Nat.mod_eq_sub_mod (by omega), Nat.mod_eq_of_lt (by omega)]
    omega

/-- A push puts its byte behind the bytes held, which stay as they are. -/
theorem State.contents_push {c : Chan} (b : Byte) (h : (s.chan c).get ≤ (s.chan c).put) (hl : s.len c < s.cap c) :
    (s.push c b).contents c = s.contents c ++ [b] := by
  have hput : (s.chan c).put = (s.chan c).get + s.len c := by simp [State.len]; omega
  unfold State.contents
  rw [s.len_push b h, List.range_succ, List.map_append]
  congr 1
  · apply List.map_congr_left
    intro k hk
    rw [List.mem_range] at hk
    simp only [State.push_chan_same, State.push_cap]
    apply s.push_slot_other
    rw [hput]
    exact slot_ne_of_window hk hl
  · simp only [List.map_cons, List.map_nil, State.push_chan_same, State.push_cap]
    rw [← hput, s.push_slot_same]

/-- A push leaves what other channels hold. -/
theorem State.contents_push_other {c c' : Chan} (h : c' ≠ c) (b : Byte) : (s.push c b).contents c' = s.contents c' := by
  unfold State.contents
  rw [s.push_len_other h, s.push_chan_other h]
  simp only [State.push_cap]
  apply List.map_congr_left
  intro k _
  exact s.push_slot_other_chan h b _

/-- The oldest byte is the first of the bytes held; a pop leaves the rest. -/
theorem State.contents_eq_cons {c : Chan} (h : ¬ s.Empty c) :
    s.contents c = s.oldest c :: (s.dropOldest c).contents c := by
  have hlen : s.len c = (s.len c - 1) + 1 := by
    have : s.len c ≠ 0 := h
    omega
  unfold State.contents
  rw [s.len_dropOldest c]
  conv_lhs => rw [hlen]
  rw [List.range_succ_eq_map, List.map_cons, List.map_map]
  congr 1
  apply List.map_congr_left
  intro k _
  simp only [Function.comp, State.dropOldest_chan_same, State.dropOldest_slot, State.dropOldest_cap]
  congr 2
  omega

/-- A pop leaves what other channels hold. -/
theorem State.contents_dropOldest_other {c c' : Chan} (h : c' ≠ c) :
    (s.dropOldest c).contents c' = s.contents c' := by
  unfold State.contents
  rw [s.dropOldest_len_other h, s.dropOldest_chan_other h]
  simp

/-- A flushed channel holds nothing. -/
@[simp] theorem State.contents_flushChan (c : Chan) : (s.flushChan c).contents c = [] := by
  simp [State.contents]

/-- A flush leaves what other channels hold. -/
theorem State.contents_flushChan_other {c c' : Chan} (h : c' ≠ c) : (s.flushChan c).contents c' = s.contents c' := by
  unfold State.contents
  rw [s.flushChan_len_other h, s.flushChan_chan_other h]
  simp

/-- A channel that holds `b :: bs` is not empty, gives `b`, and keeps `bs`. -/
theorem State.contents_cons {c : Chan} {b : Byte} {bs : List Byte} (h : s.contents c = b :: bs) :
    ¬ s.Empty c ∧ s.oldest c = b ∧ (s.dropOldest c).contents c = bs := by
  have hne : ¬ s.Empty c := by
    intro he
    have := s.length_contents c
    rw [h, he] at this
    simp at this
  have := s.contents_eq_cons hne
  rw [h] at this
  simp only [List.cons.injEq] at this
  exact ⟨hne, this.1.symm, this.2.symm⟩

/-- A channel that holds nothing is empty. -/
theorem State.empty_of_contents {c : Chan} (h : s.contents c = []) : s.Empty c := by
  have := s.length_contents c
  rw [h] at this
  exact this.symm

end Sys2Proof.Machine
end

