-- ==== Sys2Proof/Laws/Micro.lean ====
section
/-!
SUPPORT. Laws/Micro.lean: what a micro-step can do, said once (`Micro.run_cases`), and the induction over the
micro-steps of an operation and of the foreground agent packaged once (`runOp_keeps`, `runForeground_keeps`).
-/

namespace Sys2Proof.Machine

variable {s t : State}

/-! ### The effect of one micro-step on the block, the operation's own bookkeeping apart -/

/-- Every change a micro-step makes to the block. -/
inductive BlockEffect (s : State) : State → Prop where
  | none : BlockEffect s s
  | put (l : Link) (b v : Byte) (h : ¬ s.Full (txChan l)) : BlockEffect s ((s.push (txChan l) b).setTxSum l v)
  | arm (t : Byte) : BlockEffect s (s.armTimer t)
  | armPacket (t : Byte) : BlockEffect s ((s.armTimer t).setRxSum .bus 0)
  | got (l : Link) (v : Byte) (h : ¬ s.Empty (rxChan l)) : BlockEffect s ((s.dropOldest (rxChan l)).setRxSum l v)
  | flush (l : Link) : BlockEffect s (s.flushChan (rxChan l))
  | direction (d : Direction) : BlockEffect s (s.setDir d)
  | raise (m : Byte) : BlockEffect s (s.raise m)
  | clear (m : Byte) : BlockEffect s (s.clearFlags m)

/-- How a micro-step ends: the operation goes on (or completes with `Ok`), or completes with an outcome. -/
inductive Ends (t : State) : State → Prop where
  | proceed (o : Op) : Ends t (t.proceed o)
  | answer (o : Op) (code : Code) : Ends t (t.answer o code)

theorem useByte_ends (s : State) (l : Link) (o : Op) (b : Byte) (u : GetUse) :
    ∃ v o', s.useByte l o b u = (s.setRxSum l v).proceed o' := by
  have self : s.setRxSum l (s.rxSum l) = s := s.setRxSum_self l
  cases u with
  | raw => exact ⟨s.rxSum l, _, by rw [self]; rfl⟩
  | byte acc => cases acc with
    | true => exact ⟨_, _, rfl⟩
    | false => exact ⟨s.rxSum l, _, by rw [self]; rfl⟩
  | start => exact ⟨_, _, rfl⟩
  | check =>
    simp only [State.useByte]
    split
    · exact ⟨s.rxSum l, _, by rw [self]⟩
    · exact ⟨s.rxSum l, _, by rw [self]⟩
  | sync1 => exact ⟨s.rxSum l, _, by rw [self]; rfl⟩
  | sync2 =>
    simp only [State.useByte]
    split
    · exact ⟨s.rxSum l, _, by rw [self]⟩
    · exact ⟨s.rxSum l, _, by rw [self]⟩
  | id => exact ⟨_, _, rfl⟩
  | len => exact ⟨_, _, rfl⟩
  | err => exact ⟨_, _, rfl⟩
  | param => exact ⟨_, _, rfl⟩

theorem getTimedOut_ends (s : State) (l : Link) (o : Op) (u : GetUse) : Ends s (s.getTimedOut l o u) := by
  cases u with
  | raw => exact .answer _ _
  | _ => exact .proceed { o with todo := [.fail (timeoutMask l) .timeout] }

/-- What one micro-step can do: one change of the block, then the operation goes on or completes. -/
theorem Micro.run_cases {m : Micro} {o : Op} (h : m.run o s = some t) : ∃ u, BlockEffect s u ∧ Ends u t := by
  cases m <;> simp only [Micro.run] at h
  case put l b u =>
    split at h
    · cases h
    · rename_i hf; cases h; exact ⟨_, .put l b _ hf, .proceed _⟩
  case putChecksum l =>
    split at h
    · cases h
    · rename_i hf; cases h
      refine ⟨_, .put l (~~~ s.txSum l) (s.txSum l) hf, ?_⟩
      have : (s.push (txChan l) (~~~ s.txSum l)).setTxSum l (s.txSum l) = s.push (txChan l) (~~~ s.txSum l) := by
        have := State.setTxSum_self (s.push (txChan l) (~~~ s.txSum l)) l
        rwa [State.push_txSum] at this
      rw [this]; exact .proceed _
  case arm t => cases h; exact ⟨_, .arm t, .proceed _⟩
  case armPacket t => cases h; exact ⟨_, .armPacket t, .proceed _⟩
  case get l u =>
    split at h
    · rename_i he; cases h
      obtain ⟨v, o', hv⟩ := useByte_ends (s.dropOldest (rxChan l)) l o (s.oldest (rxChan l)) u
      exact ⟨_, .got l v he, hv ▸ .proceed _⟩
    · split at h
      · cases h; exact ⟨_, .none, getTimedOut_ends s l o u⟩
      · cases h
  case getUntimed u =>
    split at h
    · cases h
    · rename_i he; cases h
      obtain ⟨v, o', hv⟩ := useByte_ends (s.dropOldest .hrx) .host o (s.oldest .hrx) u
      exact ⟨_, .got .host v he, hv ▸ .proceed _⟩
  case flush l => cases h; exact ⟨_, .flush l, .proceed _⟩
  case direction d => cases h; exact ⟨_, .direction d, .proceed _⟩
  case awaitExpiry =>
    split at h
    · cases h; exact ⟨_, .none, .proceed _⟩
    · cases h
  case awaitDrain =>
    split at h
    · cases h; exact ⟨_, .none, .proceed _⟩
    · split at h
      · cases h; exact ⟨_, .raise _, .answer _ _⟩
      · cases h
  case readStatus => cases h; exact ⟨_, .none, .proceed _⟩
  case resetStatus => cases h; exact ⟨_, .clear _, .proceed _⟩
  case setStatus m => cases h; exact ⟨_, .raise m, .proceed _⟩
  case clearStatus m => cases h; exact ⟨_, .clear m, .proceed _⟩
  case fail m code => cases h; exact ⟨_, .raise m, .answer _ _⟩

/-- What the foreground agent's micro-step can do. -/
theorem State.microStep_cases (h : s.microStep = some t) :
    s.halt = false ∧ ∃ o, s.op = some o ∧ ∃ u, BlockEffect s u ∧ Ends u t := by
  unfold State.microStep at h
  split at h
  · cases h
  · rename_i hh
    refine ⟨by simpa using hh, ?_⟩
    split at h
    · cases h
    · rename_i o ho
      refine ⟨o, ho, ?_⟩
      split at h
      · cases h; exact ⟨s, .none, .answer _ _⟩
      · exact Micro.run_cases h

/-! ### The ends: what `answer` and `proceed` touch -/

/-- An answer touches the operation, the trace of answers and the client, nothing else. -/
theorem State.answer_eq (s : State) (o : Op) (code : Code) :
    ∃ k, s.answer o code = { s with
      op := none, cmdOut := s.cmdOut ++ [{ code := code, results := o.answerBytes }], client := k } := by
  unfold State.answer
  cases o.owner with
  | script => exact ⟨s.client, rfl⟩
  | client => exact ⟨_, rfl⟩

/-- The end of a micro-step touches the operation, the trace of answers and the client, nothing else. -/
theorem Ends.eq {u t : State} (h : Ends u t) :
    ∃ o a k, t = { u with op := o, cmdOut := u.cmdOut ++ a, client := k } := by
  cases h with
  | answer o code =>
    obtain ⟨k, hk⟩ := u.answer_eq o code
    exact ⟨_, _, k, hk⟩
  | proceed o =>
    unfold State.proceed
    split
    · obtain ⟨k, hk⟩ := u.answer_eq o .ok
      exact ⟨_, _, k, hk⟩
    · exact ⟨some o, [], u.client, by simp⟩

/-- An operation of the run's own goes on or answers; the client is not touched. -/
theorem State.answer_script {s : State} {o : Op} (h : o.owner = .script) (code : Code) :
    s.answer o code = s.reply code o.answerBytes := by
  unfold State.answer State.reply
  rw [h]

@[simp] theorem State.proceed_nil (s : State) (w : Owner) (r : List Byte) (p : Option PacketLocals) :
    s.proceed ⟨w, [], r, p⟩ = s.answer ⟨w, [], r, p⟩ .ok := rfl

@[simp] theorem State.proceed_cons (s : State) (w : Owner) (m : Micro) (ms : List Micro) (r : List Byte)
    (p : Option PacketLocals) : s.proceed ⟨w, m :: ms, r, p⟩ = { s with op := some ⟨w, m :: ms, r, p⟩ } := rfl

/-! ### Running an operation -/

theorem State.runOp_zero (s : State) : s.runOp 0 = s := rfl

theorem State.runOp_step {n : Nat} (h : s.microStep = some t) : s.runOp (n + 1) = t.runOp n := by
  simp [State.runOp, h]

theorem State.runOp_hold {n : Nat} (h : s.microStep = none) : s.runOp n = s := by
  cases n <;> simp [State.runOp, h]

/-- With no operation in progress there is nothing to run. -/
theorem State.microStep_idle (h : s.op = none) : s.microStep = none := by simp [State.microStep, h]

/-- In the halted state there is no micro-step (rule R29). -/
theorem State.microStep_halted (h : s.halt = true) : s.microStep = none := by simp [State.microStep, h]

theorem State.microStep_cons {w : Owner} {m : Micro} {ms : List Micro} {r : List Byte} {p : Option PacketLocals}
    (hh : s.halt = false) (ho : s.op = some ⟨w, m :: ms, r, p⟩) : s.microStep = m.run ⟨w, ms, r, p⟩ s := by
  simp [State.microStep, hh, ho]

/-- The meaning of every CMD row on a free interface. -/
theorem State.command_free (s : State) (p : Program) (h : s.op = none) :
    s.command p = .next ((s.issue .script p).runOp opFuel) := by simp [State.command, h]

/-- On a held interface nothing is presented. -/
theorem State.command_held (s : State) (p : Program) (h : s.op ≠ none) : s.command p = .next s := by
  unfold State.command
  split
  · rfl
  · contradiction

theorem State.issue_free (s : State) (w : Owner) (p : Program) (h : s.op = none) :
    s.issue w p = { s with op := some ⟨w, p.todo, [], p.packet⟩ } := by simp [State.issue, h]

theorem State.issue_held (s : State) (w : Owner) (p : Program) (h : s.op ≠ none) : s.issue w p = s := by
  unfold State.issue
  split
  · rfl
  · contradiction

/-- What every micro-step keeps, an operation run keeps. -/
theorem State.runOp_keeps {P : State → Prop} (hstep : ∀ s t, P s → s.microStep = some t → P t) (n : Nat) :
    ∀ s, P s → P (s.runOp n) := by
  induction n with
  | zero => intro s h; exact h
  | succ n ih =>
    intro s h
    cases hm : s.microStep with
    | none => rw [State.runOp_hold hm]; exact h
    | some t => rw [State.runOp_step hm]; exact ih t (hstep s t h hm)

/-- What issuing an operation and every micro-step keep, a CMD operation keeps. -/
theorem State.command_keeps {P : State → Prop} (hissue : ∀ s o, P s → P { s with op := some o })
    (hstep : ∀ s t, P s → s.microStep = some t → P t) {s t : State} {p : Program} (h : P s)
    (hc : s.command p = .next t) : P t := by
  unfold State.command at hc
  split at hc
  · cases hc; exact h
  · rename_i ho
    cases hc
    rw [State.issue_free _ _ _ ho]
    exact State.runOp_keeps hstep _ _ (hissue _ _ h)

/-- What issuing and every micro-step keep, the foreground agent's next action keeps. -/
theorem State.foregroundStep_keeps {P : State → Prop} (hissue : ∀ s o, P s → P { s with op := some o })
    (hstep : ∀ s t, P s → s.microStep = some t → P t) {s t : State} (h : P s) (hf : s.foregroundStep = some t) : P t := by
  unfold State.foregroundStep at hf
  split at hf
  · cases hf
  · split at hf
    · exact hstep _ _ h hf
    · rename_i ho
      split at hf
      · cases hf
      · cases hf
        unfold State.clientIssue
        split
        · exact h
        · rw [State.issue_free _ _ _ ho]; exact hissue _ _ h

/-- What issuing and every micro-step keep, a run of the foreground agent keeps. -/
theorem State.runForeground_keeps {P : State → Prop} (hissue : ∀ s o, P s → P { s with op := some o })
    (hstep : ∀ s t, P s → s.microStep = some t → P t) (n : Nat) : ∀ s, P s → P (s.runForeground n) := by
  induction n with
  | zero => intro s h; exact h
  | succ n ih =>
    intro s h
    unfold State.runForeground
    split
    · rename_i s' hs'; exact ih _ (State.foregroundStep_keeps hissue hstep h hs')
    · exact h

/-- What issuing, every micro-step and the start of a procedure keep, taking up the procedure keeps. -/
theorem State.takeUp_keeps {P : State → Prop} (hissue : ∀ s o, P s → P { s with op := some o })
    (hstep : ∀ s t, P s → s.microStep = some t → P t) {s t : State} {start : Client → Client} (h : P s)
    (hstart : P { s with client := start s.client }) (ht : s.takeUp start = .next t) : P t := by
  unfold State.takeUp at ht
  cases ht
  split
  · exact State.runForeground_keeps hissue hstep _ _ hstart
  · exact h

/-- What issuing, every micro-step and the opening of the cycle keep, taking a host command keeps. -/
theorem State.takeCommand_keeps {P : State → Prop} (hissue : ∀ s o, P s → P { s with op := some o })
    (hstep : ∀ s t, P s → s.microStep = some t → P t) {s t : State} {b : Byte} {start : Client → Client} (h : P s)
    (hstart : P (s.dispatched b start)) (ht : s.takeCommand b start = .next t) : P t := by
  unfold State.takeCommand at ht
  cases ht
  split
  · exact State.runForeground_keeps hissue hstep _ _ hstart
  · exact h

/-- A host command the foreground agent can take up. -/
theorem State.takeCommand_ready {s : State} (b : Byte) (start : Client → Client) (h : s.ClientReady) :
    s.takeCommand b start = .next ((s.dispatched b start).runForeground foregroundFuel) := by
  simp only [State.takeCommand]
  rw [if_pos h]

/-- A procedure of the client the foreground agent can take up. -/
theorem State.takeUp_ready {s : State} (start : Client → Client) (h : s.ClientReady) :
    s.takeUp start = .next (State.runForeground foregroundFuel { s with client := start s.client }) := by
  simp only [State.takeUp]
  rw [if_pos h]

theorem State.runForeground_step {n : Nat} (h : s.foregroundStep = some t) :
    s.runForeground (n + 1) = t.runForeground n := by simp [State.runForeground, h]

theorem State.runForeground_hold {n : Nat} (h : s.foregroundStep = none) : s.runForeground n = s := by
  cases n <;> simp [State.runForeground, h]

end Sys2Proof.Machine
end

