-- ==== Sys2Proof/Machine/Runs.lean ====
section
/-!
DEFINITION. Machine/Runs.lean: infinite runs and rule R73, weak fairness, "the only liveness assumption" (decision D24).
The step of the machine is one line at a time; here the lines of a run never end, and fairness says which events such a
run cannot put off for ever.
-/

namespace Sys2Proof.Machine

/-- The internal steps rule R73 assumes weak fairness of, "exactly these steps": the load and the completion of each
transmitter, and the tick. The arrivals and the unmapped event are none of them: "the environment may deliver them at any
time or never". -/
inductive FairEvent where
  | load (l : Link)
  | done (l : Link)
  | tick
deriving DecidableEq, Repr

/-- The row of the table that is this event. -/
def FairEvent.instr : FairEvent → Instr
  | .load .host => .evHtxLoad
  | .load .bus => .evBtxLoad
  | .done .host => .evHtxDone
  | .done .bus => .evBtxDone
  | .tick => .evTick

/-- The event is enabled: rules R143 to R146 for the transmitters ("a transmitter that has a byte and is allowed to send
it"), rule R215 for the tick ("always, unless `HALT = 1`"). -/
def State.Enables (s : State) (e : FairEvent) : Prop :=
  s.halt = false ∧
    match e with
    | .load l => (l = .bus → s.dir = .transmit) ∧ s.CanLoad l
    | .done l => s.shift l ≠ none
    | .tick => True

/-- The event that stands in front of the run, if an event does: the next step takes it. -/
def State.nextEvent (s : State) : Option Instr :=
  match s.input with
  | .word .evt bytes :: _ =>
    match decode s.cfg .evt bytes with
    | .ok (i, _) => some i
    | .error _ => none
  | _ => none

/-- The environment puts a line in front of the run, or leaves the run as it stands. -/
def State.offered (s : State) : Option Input → State
  | none => s
  | some l => { s with input := l :: s.input }

/-- An infinite sequence of states, and before each step the line the environment chose to put in front (rule R8: the
schedule is a parameter of the step relation). -/
structure Run where
  state : Nat → State
  line : Nat → Option Input

/-- The state the `n`th step starts from. -/
def Run.before (r : Run) (n : Nat) : State := (r.state n).offered (r.line n)

/-- The sequence is a run of the machine: each state is a step after the one before. -/
def Run.Steps (r : Run) : Prop := ∀ n, step (r.before n) = .next (r.state (n + 1))

/-- The `n`th step of the run is the event `e`. -/
def Run.Takes (r : Run) (n : Nat) (e : FairEvent) : Prop := (r.before n).nextEvent = some e.instr

/-- Weak fairness, rule R73 and decision D24: an event that is enabled from some point on without a break is taken at some
later point. For the tick that is: it occurs infinitely often unless the block is halted. -/
def Run.Fair (r : Run) : Prop :=
  ∀ (e : FairEvent) (n : Nat), (∀ m, n ≤ m → (r.state m).Enables e) → ∃ m, n ≤ m ∧ r.Takes m e

/-- The operation that is in progress at `n` no longer waits at some point from `n` on: it has completed, been abandoned,
or its next micro-step is enabled; or the block is halted. (Rule R73 assumes no fairness of the foreground agent, so that
it also takes the micro-step is no part of this.) -/
def Run.Releases (r : Run) (n : Nat) : Prop :=
  ∃ m, n ≤ m ∧ ((r.state m).halt = true ∨ (r.state m).op ≠ (r.state n).op ∨ (r.state m).microStep ≠ none)

/-- The micro-step at which the operation in progress stands. -/
def State.waitsAt (s : State) : Option Micro := s.op.bind fun o => o.todo.head?

/-- A wait that ends when the countdown runs out (rules R132, R182, R214). -/
def Micro.timed : Micro → Bool
  | .get _ _ | .awaitExpiry | .awaitDrain => true
  | .put _ _ _ | .putChecksum _ | .arm _ | .armPacket _ | .getUntimed _ | .flush _ | .direction _ => false
  | .readStatus | .resetStatus | .setStatus _ | .clearStatus _ | .fail _ _ => false

/-- A put to the transmit channel of a link (rule R131), by a raw put or by a codec. -/
def Micro.putsTo (l : Link) : Micro → Bool
  | .put l' _ _ | .putChecksum l' => decide (l' = l)
  | .get _ _ | .awaitExpiry | .awaitDrain | .arm _ | .armPacket _ | .getUntimed _ | .flush _ | .direction _ => false
  | .readStatus | .resetStatus | .setStatus _ | .clearStatus _ | .fail _ _ => false

end Sys2Proof.Machine
end

