-- ==== Sys2Proof/Certificates/Slice0/Obligations.lean ====
section
/-!
DEFINITION. Certificates/Slice0/Obligations.lean: the statements for the provers, each a `def Obligations.<Name> : Prop`.

Where a meaning's next state is written out as an equation, everything the equation does not name is left as it was:
`s.push c b`, `s.dropOldest c`, `s.reply o r` and the other named updates change only what their rule says
(Laws/State.lean has one lemma for each field), and `StoringOperationsWriteOneSlot` and
`NonStoringOperationsLeaveStorage` say the same of every slot of every channel by the read of one slot.
`s.Ready` is "not halted, no operation in progress"; `s.ClientReady` adds that the client is between two host commands.
-/

open Sys2Proof Sys2Proof.Machine

/-! ## Encoding -/

/-- Rules R92, R95, R99, R100, R105, R108: decoding the encoding of a well-formed instruction gives it back, whatever
stands behind it. The RESET interface carries no byte, so nothing stands behind it. -/
def Obligations.DecodeOfEncodeGivesInstruction : Prop :=
  ∀ (c : Config) (i : Instr) (rest : List Byte), i.wf = true → c.busCodesDiffer →
    (i.format = .resetLine → rest = []) → decode c i.format (encode c i ++ rest) = .ok (i, rest)

/-- The other direction, on every interface: bytes that decode are the encoding of what they decode to. -/
def Obligations.DecodedBytesAreTheEncoding : Prop :=
  ∀ (c : Config) (f : Format) (bs rest : List Byte) (i : Instr), decode c f bs = .ok (i, rest) →
    i.format = f ∧ i.wf = true ∧ encode c i ++ rest = bs

/-- Rules R92, R103 (d), R105 and 93_implementation_defined.md U1 ("refuse"): every CMD opcode and EVT code outside the
tables is refused by name, by the decoder and by the step. Of the EVT codes below 0x80, of which no rule speaks, that is the
model's choice, log entry 24. -/
def Obligations.UnassignedCodesAreRefused : Prop :=
  ∀ (s : State) (b : Byte) (more : List Byte) (rest : List Input),
    (b.toNat ∉ [0x00, 0x01, 0x02, 0x03, 0x04, 0x05, 0x06, 0x10, 0x11, 0x12, 0x13, 0x14, 0x15, 0x20, 0x21, 0x22, 0x23,
        0x24, 0x30, 0x31, 0x32, 0x33, 0x34, 0x35, 0x36, 0x37] →
      decode s.cfg .cmd (b :: more) = .error (.unassignedOpcode b) ∧
      (s.input = .word .cmd (b :: more) :: rest → step s = .refused (.undecodable (.unassignedOpcode b)))) ∧
    (b.toNat ∉ [0x80, 0x81, 0x82, 0x83, 0x84, 0x85, 0x86, 0x87] →
      decode s.cfg .evt (b :: more) = .error (.reservedEvent b) ∧
      (s.input = .word .evt (b :: more) :: rest → step s = .refused (.undecodable (.reservedEvent b))))

/-- Words written out from the tables of 30_encoding.md decode to their instructions, one of each family. -/
def Obligations.SampleWordsDecode : Prop :=
  decode Config.customary .cmd [0x00, 0x05] = .ok (.hrxGet 5, []) ∧
  decode Config.customary .cmd [0x11, 0x7A, 0x01] = .ok (.hcTxByte 0x7A true, []) ∧
  decode Config.customary .cmd [0x20, 0x01, 0x02, 0x02] = .ok (.bcTxStart 1 2 2, []) ∧
  decode Config.customary .cmd [0x37, 0x80] = .ok (.stClr 0x80, []) ∧
  decode Config.customary .evt [0x83, 0xFF] = .ok (.evBrx 0xFF, []) ∧
  decode Config.customary .hostPkt [0xF3] = .ok (.readData, []) ∧
  decode Config.customary .busTx [0xFF, 0xFF, 0x01, 0x04, 0x02, 0x2B, 0x01, 0xCC] = .ok (.biRead 1 0x2B 1, []) ∧
  decode Config.customary .busRx [0xFF, 0xFF, 0x01, 0x03, 0x00, 0x20, 0xDB] = .ok (.busReply { id := 1 } 0 [0x20] 0xDB, [])

/-- Rule R243: the sync nibble and the command nibble of a host instruction byte. -/
def Obligations.HostByteRoutesByNibbles : Prop :=
  ∀ b : Byte,
    (b.extractLsb' 4 4 ≠ 0xF#4 → decodeHostByte b = .badSync b) ∧
    (b.extractLsb' 4 4 = 0xF#4 → b.extractLsb' 0 4 = 0x0#4 → decodeHostByte b = .ping) ∧
    (b.extractLsb' 4 4 = 0xF#4 → b.extractLsb' 0 4 = 0x1#4 → decodeHostByte b = .setReadFormat) ∧
    (b.extractLsb' 4 4 = 0xF#4 → b.extractLsb' 0 4 = 0x2#4 → decodeHostByte b = .setWriteFormat) ∧
    (b.extractLsb' 4 4 = 0xF#4 → b.extractLsb' 0 4 = 0x3#4 → decodeHostByte b = .readData) ∧
    (b.extractLsb' 4 4 = 0xF#4 → b.extractLsb' 0 4 = 0x4#4 → decodeHostByte b = .writeData) ∧
    (b.extractLsb' 4 4 = 0xF#4 → 5 ≤ (b.extractLsb' 0 4).toNat → decodeHostByte b = .reserved b)

/-! ## The step -/

/-- A step runs the decoded instruction: where the bytes in front of the run decode to `i` and `i`'s agent can take it
up, the step is `exec i`, with the bytes behind the instruction left in front of the run. Where it cannot (rule R31: "An
operation is issued only after the previous one has completed") the line waits and the foreground agent goes on (the
model's choice, log entry 8). Rule R337 and U12 refuse a second thread of control on CMD; what counts as one is the model's
choice, log entry 13: a CMD or BUSTX line of the run while the client is inside a host command (`Pos.inHostCommand`, Idle
among it, the sending of one packet not). -/
def Obligations.StepRunsDecodedInstruction : Prop :=
  ∀ (s : State) (f : Format) (bytes more : List Byte) (rest : List Input) (i : Instr),
    s.input = .word f bytes :: rest → decode s.cfg f bytes = .ok (i, more) →
      (s.intrudes f = true → step s = .refused .secondThread) ∧
      (s.intrudes f = false → s.admits f = true → step s = exec i { s with input := keepWord f more rest }) ∧
      (s.intrudes f = false → s.admits f = false → step s = .next s.foregroundTurn)

/-- Rule R106: a CMD line stands for the micro-steps of its operation taken one after the other, up to the point where
it completes or holds: the same state is reached by presenting the operation and taking micro-steps one at a time, and
no micro-step is enabled there. -/
def Obligations.CmdRunsToItsHold : Prop :=
  ∀ (s t : State) (i : Instr) (p : Program), s.op = none → programOf s.cfg i = some p → exec i s = .next t →
    t.microStep = none ∧ ∃ n, t = (s.issue .script p).afterTurns n

/-- Rules R62, R290, R296: no condition of the spec is a fault, so every instruction of the table goes on from every state.
That it answers a next state, the same one, also where its agent has no step (halted, interface held, event not enabled)
is the model's choice, log entries 8 and 16. -/
def Obligations.ExecAlwaysGoesOn : Prop :=
  ∀ (i : Instr) (s : State), ∃ t, exec i s = .next t

/-! ## FIFO channel operations (40_fifo_ops.md) -/

/-- Rules R132, R136, R137: a timed get with a byte there takes the oldest byte, whatever `t`; with nothing there and
`t = 0` it answers `Timeout` at once. `TMO` is armed, no flag is set. -/
def Obligations.RawGetTakesOldestByteOrPolls : Prop :=
  ∀ (s : State) (t : Byte), s.Ready →
    (¬ s.Empty .hrx →
      exec (.hrxGet t) s = .next (((s.armTimer t).dropOldest .hrx).reply .ok [s.oldest .hrx])) ∧
    (¬ s.Empty .brx →
      exec (.brxGet t) s = .next (((s.armTimer t).dropOldest .brx).reply .ok [s.oldest .brx])) ∧
    (s.Empty .hrx → exec (.hrxGet 0) s = .next ((s.armTimer 0).reply .timeout [])) ∧
    (s.Empty .brx → exec (.brxGet 0) s = .next ((s.armTimer 0).reply .timeout []))

/-- Rule R341: a timed get on an empty channel holds for exactly `t` ticks, and then answers `Timeout`. -/
def Obligations.RawGetTimesOutAfterExactlyTTicks : Prop :=
  ∀ (s : State) (t : Byte), s.Ready → t ≠ 0 →
    (s.Empty .hrx → ∃ w, exec (.hrxGet t) s = .next w ∧ w = (s.armTimer t).holding [.get .host .raw] [] none ∧
      (∀ k, k < t.toNat → (w.afterTicks k).microStep = none) ∧
      (w.afterTicks t.toNat).microStep = some ((s.armTimer 0).reply .timeout [])) ∧
    (s.Empty .brx → ∃ w, exec (.brxGet t) s = .next w ∧ w = (s.armTimer t).holding [.get .bus .raw] [] none ∧
      (∀ k, k < t.toNat → (w.afterTicks k).microStep = none) ∧
      (w.afterTicks t.toNat).microStep = some ((s.armTimer 0).reply .timeout []))

/-- Rules R67, R132, R136, R137, R141, R142: a byte that arrives while a timed get holds on the empty channel of its link
(on the bus, in `Receive`) is the byte it gets. -/
def Obligations.HeldGetReceivesArrival : Prop :=
  ∀ (s w : State) (t b : Byte), s.Ready → t ≠ 0 →
    (s.Empty .hrx → (s.chan .hrx).get ≤ (s.chan .hrx).put → 0 < s.cap .hrx → exec (.hrxGet t) s = .next w →
      ∃ w', exec (.evHrx b) w = .next w' ∧
        w'.microStep = some ((((s.armTimer t).push .hrx b).dropOldest .hrx).reply .ok [b])) ∧
    (s.Empty .brx → (s.chan .brx).get ≤ (s.chan .brx).put → 0 < s.cap .brx → s.dir = .receive →
      exec (.brxGet t) s = .next w →
      ∃ w', exec (.evBrx b) w = .next w' ∧
        w'.microStep = some ((((s.armTimer t).push .brx b).dropOldest .brx).reply .ok [b]))

/-- Rules R133, R138: the untimed get takes the oldest byte, or holds on an empty channel; `TMO` is not touched. -/
def Obligations.UntimedWaitTakesByteOrHolds : Prop :=
  ∀ (s : State), s.Ready →
    (¬ s.Empty .hrx → exec .hrxWait s = .next ((s.dropOldest .hrx).reply .ok [s.oldest .hrx])) ∧
    (s.Empty .hrx → exec .hrxWait s = .next (s.holding [.getUntimed .raw] [] none))

/-- Rules R139, R140: a flush moves the get index up to the put index and changes nothing else. -/
def Obligations.FlushEmptiesTheChannel : Prop :=
  ∀ (s : State), s.Ready →
    exec .hrxFlush s = .next ((s.flushChan .hrx).reply .ok []) ∧
    exec .brxFlush s = .next ((s.flushChan .brx).reply .ok []) ∧
    (s.flushChan .hrx).contents .hrx = [] ∧ (s.flushChan .brx).contents .brx = []

/-- Rules R131, R134, R135: a put to a channel with room pushes; a put to a full channel holds and stores nothing. -/
def Obligations.PutPushesOrHolds : Prop :=
  ∀ (s : State) (b : Byte), s.Ready →
    (¬ s.Full .htx → exec (.htxPut b) s = .next ((s.push .htx b).reply .ok [])) ∧
    (s.Full .htx → exec (.htxPut b) s = .next (s.holding [.put .host b .keep] [] none)) ∧
    (¬ s.Full .btx → exec (.btxPut b) s = .next ((s.push .btx b).reply .ok [])) ∧
    (s.Full .btx → exec (.btxPut b) s = .next (s.holding [.put .bus b .keep] [] none))

/-- Rules R73, R131, R143, R145, R335: a held put is released by the load of its transmitter; on the bus in `Receive` the
load is not enabled, and no step but RESET ends the hold. In a weakly fair run (rule R73) every put, raw or of a codec, is
released: on the host link always, on the bus link where `DIR = Transmit`. That an event which is not enabled answers the
same state is the model's choice, log entry 8; what a release is, log entry 23. -/
def Obligations.HeldPutIsReleasedByLoad : Prop :=
  (∀ (s w : State) (b : Byte), s.Ready →
    (s.Full .htx → 0 < s.cap .htx → s.htxShift = none → exec (.htxPut b) s = .next w →
      ∃ w', exec .evHtxLoad w = .next w' ∧ w'.microStep = some (((s.loadShift .host).push .htx b).reply .ok [])) ∧
    (s.Full .btx → 0 < s.cap .btx → s.btxShift = none → exec (.btxPut b) s = .next w → s.dir = .transmit →
      ∃ w', exec .evBtxLoad w = .next w' ∧ w'.microStep = some (((s.loadShift .bus).push .btx b).reply .ok [])) ∧
    (s.Full .btx → exec (.btxPut b) s = .next w → s.dir = .receive →
      exec .evBtxLoad w = .next w ∧ w.microStep = none)) ∧
  (∀ (s t : State) (m : Micro), s.waitsAt = some m → m.putsTo .bus = true → s.dir = .receive → s.Full .btx →
    (∀ rest, s.input ≠ .word .resetLine [] :: rest) → step s = .next t →
      t.op = s.op ∧ t.dir = .receive ∧ t.Full .btx ∧ t.microStep = none) ∧
  (∀ (r : Run) (n : Nat) (m : Micro) (l : Link), r.Steps → r.Fair → (r.state n).waitsAt = some m →
    m.putsTo l = true → 0 < (r.state n).cap (txChan l) → (l = .bus → (r.state n).dir = .transmit) → r.Releases n)

/-- Rules R66, R67: bytes that arrive on the host link while there is room are got in arrival order, each exactly
once, behind those already held. -/
def Obligations.HostBytesAreDeliveredInOrder : Prop :=
  ∀ (s : State) (bs : List Byte) (t : Byte), s.Ready → s.ChannelOk .hrx → s.Room .hrx bs.length →
    ∃ w, execAll (bs.map Instr.evHrx ++ List.replicate (s.len .hrx + bs.length) (.hrxGet t)) s = .next w ∧
      w.cmdOut = s.cmdOut ++ (s.contents .hrx ++ bs).map (fun b => { code := .ok, results := [b] }) ∧
      w.contents .hrx = [] ∧ w.status = s.status

/-! ## Events (rule R293) -/

/-- Rules R141, R142: an arriving byte is pushed, or dropped at a full channel with the overflow bit of its link; a byte
on the bus line while `DIR = Transmit` is ignored. -/
def Obligations.ArrivalsPushOrOverflow : Prop :=
  ∀ (s : State) (b : Byte), s.halt = false →
    (¬ s.Full .hrx → exec (.evHrx b) s = .next (s.push .hrx b)) ∧
    (s.Full .hrx → exec (.evHrx b) s = .next { s with status := s.status ||| 0x10 }) ∧
    (s.dir = .transmit → exec (.evBrx b) s = .next s) ∧
    (s.dir = .receive → ¬ s.Full .brx → exec (.evBrx b) s = .next (s.push .brx b)) ∧
    (s.dir = .receive → s.Full .brx → exec (.evBrx b) s = .next { s with status := s.status ||| 0x20 })

/-- Rules R143 to R146: a transmitter takes the oldest byte of its channel when its slot is empty, and emits it when it
is done; the bus transmitter takes and drives bytes in `Transmit` only, and a byte in flight that completes in `Receive`
is lost. An event that is not enabled is no step: nothing changes (log entry 8). -/
def Obligations.TransmittersDrain : Prop :=
  ∀ (s : State), s.halt = false →
    (¬ s.Empty .htx → s.htxShift = none →
      exec .evHtxLoad s = .next { s.dropOldest .htx with htxShift := some (s.oldest .htx) }) ∧
    (s.Empty .htx ∨ s.htxShift ≠ none → exec .evHtxLoad s = .next s) ∧
    (∀ b, s.htxShift = some b → exec .evHtxDone s = .next { s with hostOut := s.hostOut ++ [b], htxShift := none }) ∧
    (s.htxShift = none → exec .evHtxDone s = .next s) ∧
    (s.dir = .transmit → ¬ s.Empty .btx → s.btxShift = none →
      exec .evBtxLoad s = .next { s.dropOldest .btx with btxShift := some (s.oldest .btx) }) ∧
    (s.dir = .receive ∨ s.Empty .btx ∨ s.btxShift ≠ none → exec .evBtxLoad s = .next s) ∧
    (∀ b, s.btxShift = some b → s.dir = .transmit →
      exec .evBtxDone s = .next { s with busOut := s.busOut ++ [b], btxShift := none }) ∧
    (∀ b, s.btxShift = some b → s.dir = .receive → exec .evBtxDone s = .next { s with btxShift := none }) ∧
    (s.btxShift = none → exec .evBtxDone s = .next s)

/-- Rule R215: a tick decrements the countdown and stops at 0; it sets no flag. -/
def Obligations.TickStopsAtZero : Prop :=
  ∀ (s : State), s.halt = false →
    (s.tmo ≠ 0 → exec .evTick s = .next { s with tmo := s.tmo - 1 }) ∧ (s.tmo = 0 → exec .evTick s = .next s)

/-- Rules R29, R220, R296: an unmapped event sets the latch and leaves all other state; while `HALT = 1` no agent but RESET
has a step: neither the foreground agent nor the operation in progress has one, and every row but RESET and the CMD rows
leaves the state as it is. A CMD row at most stays presented on a free interface, and takes no micro-step there (the
model's choice, log entry 8). -/
def Obligations.UnmappedEventHaltsTheBlock : Prop :=
  ∀ (s : State),
    exec .evUnmapped s = .next { s with halt := true } ∧
    (s.halt = true →
      s.microStep = none ∧ s.foregroundStep = none ∧
      (∀ i, i ≠ .reset → programOf s.cfg i = none → exec i s = .next s) ∧
      (∀ i p, programOf s.cfg i = some p →
        exec i s = .next (s.issue .script p) ∧ (s.issue .script p).microStep = none ∧
        (s.op ≠ none → s.issue .script p = s)))

/-- Rules R36, R221: what RESET leaves, from every state, the halted one too. An operation in progress is abandoned with no
outcome: no answer is added to those on CMD. -/
def Obligations.ResetRestoresEveryElement : Prop :=
  ∀ (s : State), ∃ t, exec .reset s = .next t ∧
    (∀ c, (t.chan c).get = 0 ∧ (t.chan c).put = 0 ∧ t.contents c = []) ∧
    t.htxShift = none ∧ t.btxShift = none ∧ t.dir = .receive ∧ t.tmo = 0 ∧ t.status = 0x00 ∧
    t.hcTxSum = 0x00 ∧ t.hcRxSum = 0x00 ∧ t.bcTxSum = 0x00 ∧ t.bcRxSum = 0x00 ∧ t.halt = false ∧
    t.op = none ∧ t.cmdOut <+: s.cmdOut ∧
    t.hostOut = [] ∧ t.busOut = [] ∧ t.client.readTable = [] ∧ t.client.writeTable = [] ∧ t.client.retry = 0 ∧
    t.client.pos = .cycleStart ∧ t.cfg = s.cfg ∧ t.input = s.input

/-- Rule R36: the reset state holds the values the spec gives. -/
def Obligations.ResetStateHoldsSpecValues : Prop :=
  let t := State.reset
  (∀ c, (t.chan c).get = 0 ∧ (t.chan c).put = 0) ∧
  t.htxShift = none ∧ t.btxShift = none ∧ t.dir = .receive ∧ t.tmo = 0 ∧ t.status = 0x00 ∧
  t.hcTxSum = 0x00 ∧ t.hcRxSum = 0x00 ∧ t.bcTxSum = 0x00 ∧ t.bcRxSum = 0x00 ∧ t.halt = false ∧ t.op = none ∧
  t.hostOut = [] ∧ t.busOut = [] ∧ t.client.readTable = [] ∧ t.client.writeTable = [] ∧ t.client.retry = 0 ∧
  t.client.pos = .cycleStart

/-! ## Host codec (41_host_codec.md) -/

/-- Rules R160, R161, R162: the host framer on a channel with room, and its holds on a full one (nothing is stored while
it holds). -/
def Obligations.HostFramerQueuesAndAccumulates : Prop :=
  ∀ (s : State) (b : Byte) (acc : Bool), s.Ready →
    (¬ s.Full .htx →
      exec (.hcTxStart b) s = .next { (s.push .htx b).reply .ok [] with hcTxSum := b } ∧
      exec (.hcTxByte b acc) s =
        .next { (s.push .htx b).reply .ok [] with hcTxSum := if acc then s.hcTxSum + b else s.hcTxSum } ∧
      exec .hcTxEnd s = .next ((s.push .htx (~~~ s.hcTxSum)).reply .ok [])) ∧
    (s.Full .htx → ∀ i, i = .hcTxStart b ∨ i = .hcTxByte b acc ∨ i = .hcTxEnd →
      ∃ w, exec i s = .next w ∧ w.op ≠ none ∧ w.microStep = none ∧ w.htx = s.htx ∧ w.status = s.status ∧ w.tmo = s.tmo)

/-- Rules R94, R102, R160 to R162: a packet sent with every byte accumulated ends in the complement of the sum of the
bytes before it, whatever the sum held. -/
def Obligations.HostPacketEndsInItsChecksum : Prop :=
  ∀ (s : State) (instr : Byte) (ds : List Byte), s.Ready → s.ChannelOk .htx → s.Room .htx (ds.length + 2) →
    ∃ t, execAll (.hcTxStart instr :: ds.map (fun d => .hcTxByte d true) ++ [.hcTxEnd]) s = .next t ∧
      t.contents .htx = s.contents .htx ++ (instr :: ds) ++ [~~~ (byteSum (instr :: ds))] ∧
      t.cmdOut = s.cmdOut ++ List.replicate (ds.length + 2) { code := .ok, results := [] }

/-- Rules R163, R164, R291: `HC_RX_START` and `HC_RX_BYTE` take the oldest byte and start or accumulate the sum; with
nothing there `HC_RX_START` holds, and `HC_RX_BYTE` arms `T_HOST_RX` and holds until the countdown is 0, when it sets
`HostTimeout` and answers `Timeout`, in two micro-steps. -/
def Obligations.HostBytesAreReadAndAccumulated : Prop :=
  ∀ (s : State) (acc : Bool), s.Ready →
    (¬ s.Empty .hrx →
      exec .hcRxStart s = .next { (s.dropOldest .hrx).reply .ok [s.oldest .hrx] with hcRxSum := s.oldest .hrx } ∧
      exec (.hcRxByte acc) s =
        .next { ((s.armTimer s.cfg.tHostRx).dropOldest .hrx).reply .ok [s.oldest .hrx] with
          hcRxSum := if acc then s.hcRxSum + s.oldest .hrx else s.hcRxSum }) ∧
    (s.Empty .hrx →
      (∃ w, exec .hcRxStart s = .next w ∧ w.op ≠ none ∧ w.microStep = none ∧ w.hrx = s.hrx ∧ w.tmo = s.tmo) ∧
      (s.cfg.tHostRx ≠ 0 →
        exec (.hcRxByte acc) s = .next ((s.armTimer s.cfg.tHostRx).holding [.get .host (.byte acc)] [] none)) ∧
      (s.cfg.tHostRx = 0 →
        exec (.hcRxByte acc) s = .next { (s.armTimer 0).reply .timeout [] with status := s.status ||| 0x01 }) ∧
      (s.tmo = 0 →
        (s.holding [.get .host (.byte acc)] [] none).afterTurns 2 =
          { s.reply .timeout [] with status := s.status ||| 0x01 }))

/-- Rules R165, R291: the checksum byte of a host packet is read and validated, or its read holds and times out. -/
def Obligations.HostChecksumIsValidated : Prop :=
  ∀ (s : State), s.Ready →
    (¬ s.Empty .hrx → s.oldest .hrx = ~~~ s.hcRxSum →
      exec .hcRxEnd s = .next (((s.armTimer s.cfg.tHostRx).dropOldest .hrx).reply .ok [])) ∧
    (¬ s.Empty .hrx → s.oldest .hrx ≠ ~~~ s.hcRxSum →
      exec .hcRxEnd s =
        .next { ((s.armTimer s.cfg.tHostRx).dropOldest .hrx).reply .checksum [] with status := s.status ||| 0x40 }) ∧
    (s.Empty .hrx → s.cfg.tHostRx ≠ 0 →
      exec .hcRxEnd s = .next ((s.armTimer s.cfg.tHostRx).holding [.get .host .check] [] none)) ∧
    (s.Empty .hrx → s.cfg.tHostRx = 0 →
      exec .hcRxEnd s = .next { (s.armTimer 0).reply .timeout [] with status := s.status ||| 0x01 }) ∧
    (s.Empty .hrx → s.tmo = 0 →
      (s.holding [.get .host .check] [] none).afterTurns 2 = { s.reply .timeout [] with status := s.status ||| 0x01 })

/-- Rule R167: the transmit and receive sides of the host codec are independent, and touch nothing of the bus side. -/
def Obligations.HostCodecFrame : Prop :=
  ∀ (s t : State),
    (∀ i, (∃ b, i = .hcTxStart b) ∨ (∃ b a, i = .hcTxByte b a) ∨ i = .hcTxEnd → exec i s = .next t →
      t = { s with htx := t.htx, hcTxSum := t.hcTxSum, op := t.op, cmdOut := t.cmdOut }) ∧
    (∀ i, i = .hcRxStart ∨ (∃ a, i = .hcRxByte a) ∨ i = .hcRxEnd → exec i s = .next t →
      t = { s with hrx := t.hrx, hcRxSum := t.hcRxSum, tmo := t.tmo, status := t.status, op := t.op, cmdOut := t.cmdOut })

/-! ## Bus codec (42_bus_codec.md) -/

/-- Rules R180, R181, R182: the bus framer's start queues the two sync bytes, the id, the length byte and the
instruction byte, and the sum covers the last three; a parameter byte is queued and always accumulated; the end queues
the checksum, arms `T_BUS_DRAIN` and waits for the drain (with `T_BUS_DRAIN = 0` the wait ends at once in `Timeout`, the
bytes staying queued). On a full channel each holds with nothing stored; a start that fills the channel holds with the
bytes queued so far, the sum covering those of them it has to. -/
def Obligations.BusFramerQueuesAndAccumulates : Prop :=
  ∀ (s : State) (id n instr b : Byte), s.Ready → s.ChannelOk .btx →
    (s.Room .btx 5 →
      exec (.bcTxStart id n instr) s =
        .next { (((((s.push .btx 0xFF).push .btx 0xFF).push .btx id).push .btx (n + 2)).push .btx instr).reply .ok [] with
          bcTxSum := id + (n + 2) + instr }) ∧
    (∀ k, k < 5 → s.len .btx + k = s.cap .btx →
      ∃ w, exec (.bcTxStart id n instr) s = .next w ∧ w.op ≠ none ∧ w.microStep = none ∧
        w.contents .btx = s.contents .btx ++ [0xFF, 0xFF, id, n + 2, instr].take k ∧
        (0 < k → w.bcTxSum = byteSum ([id, n + 2, instr].take (k - 2))) ∧
        w = { s with btx := w.btx, bcTxSum := w.bcTxSum, op := w.op }) ∧
    (s.Full .btx → ∀ i, i = .bcTxByte b ∨ i = .bcTxEnd →
      ∃ w, exec i s = .next w ∧ w.op ≠ none ∧ w.microStep = none ∧ w = { s with op := w.op }) ∧
    (s.Room .btx 1 →
      exec (.bcTxByte b) s = .next { (s.push .btx b).reply .ok [] with bcTxSum := s.bcTxSum + b } ∧
      (s.cfg.tBusDrain ≠ 0 →
        exec .bcTxEnd s =
          .next (((s.push .btx (~~~ s.bcTxSum)).armTimer s.cfg.tBusDrain).holding [.awaitDrain] [] none)) ∧
      (s.cfg.tBusDrain = 0 →
        exec .bcTxEnd s = .next
          { ((s.push .btx (~~~ s.bcTxSum)).armTimer 0).reply .timeout [] with status := s.status ||| 0x02 }))

/-- Rule R182: the drain wait: `Ok` once drained, even with the countdown at 0; `BusTimeout` and `Timeout` in one
micro-step when the countdown is 0 and the path is not drained; else it holds. -/
def Obligations.DrainWaitPrefersDrained : Prop :=
  ∀ (s : State), s.halt = false →
    (s.Drained .bus → (s.holding [.awaitDrain] [] none).microStep = some (s.reply .ok [])) ∧
    (¬ s.Drained .bus → s.tmo = 0 →
      (s.holding [.awaitDrain] [] none).microStep = some { s.reply .timeout [] with status := s.status ||| 0x02 }) ∧
    (¬ s.Drained .bus → s.tmo ≠ 0 → (s.holding [.awaitDrain] [] none).microStep = none)

/-- Rule R183: a whole packet in `BRX`: the header is taken as it comes, every parameter byte is consumed and summed,
the first `expected` of them are stored, and a bad sync byte or a count other than `expected` sets
`InvalidBusResponse`. -/
def Obligations.BusPacketIsReceivedBestEffort : Prop :=
  ∀ (s : State) (expected s1 s2 id len err : Byte) (ps more : List Byte), s.Ready →
    s.contents .brx = s1 :: s2 :: id :: len :: err :: ps ++ more → ps.length = (len - 2).toNat →
    ∃ t, exec (.bcRxPacket expected) s = .next t ∧ t.op = none ∧
      t.cmdOut = s.cmdOut ++ [⟨.ok, id :: len :: err :: u8 (min ps.length expected.toNat) :: ps.take expected.toNat⟩] ∧
      t.contents .brx = more ∧ t.bcRxSum = byteSum (id :: len :: err :: ps) ∧ t.tmo = s.cfg.tBusRx ∧
      t.status = (if s1 ≠ 0xFF ∨ s2 ≠ 0xFF ∨ len - 2 ≠ expected then s.status ||| 0x08 else s.status)

/-- Rules R183, R185: a packet that stops, among its header bytes or among its parameters: the operation holds for
`T_BUS_RX` ticks after its last byte (none, where that is 0), no tick earlier, and then sets `BusTimeout` and answers
`Timeout` in two micro-steps with what was received, header fields not received reading 0. What was consumed stays
consumed and summed; a bad sync byte is flagged once both are read, the count once the header is. -/
def Obligations.BusPacketTimeoutIsPartial : Prop :=
  ∀ (s : State) (expected : Byte), s.Ready →
    let partialAnswer (bs fields params : List Byte) (flags : Byte) : Prop :=
      ∃ w, exec (.bcRxPacket expected) s = .next w ∧
        (∀ k, k < s.cfg.tBusRx.toNat → (w.afterTicks k).microStep = none ∧ (w.afterTicks k).op ≠ none) ∧
        let t := (w.afterTicks s.cfg.tBusRx.toNat).afterTurns 2
        t.op = none ∧ t.tmo = 0 ∧ t.contents .brx = [] ∧ t.bcRxSum = byteSum (bs.drop 2) ∧
        t.cmdOut = s.cmdOut ++ [⟨.timeout, fields ++ u8 params.length :: params⟩] ∧
        t.status = s.status ||| flags ||| 0x02
    (∀ bs : List Byte, bs.length < 5 → s.contents .brx = bs →
      partialAnswer bs [bs.getD 2 0, bs.getD 3 0, 0] []
        (if 2 ≤ bs.length ∧ (bs.getD 0 0 ≠ 0xFF ∨ bs.getD 1 0 ≠ 0xFF) then 0x08 else 0x00)) ∧
    (∀ (s1 s2 id len err : Byte) (ps : List Byte), s.contents .brx = s1 :: s2 :: id :: len :: err :: ps → ps.length < (len - 2).toNat →
      partialAnswer (s1 :: s2 :: id :: len :: err :: ps) [id, len, err] (ps.take expected.toNat)
        (if s1 ≠ 0xFF ∨ s2 ≠ 0xFF ∨ len - 2 ≠ expected then 0x08 else 0x00))

/-- Rules R184, R185, R291: the checksum byte of a bus packet is read and validated, or its read holds and times out. -/
def Obligations.BusChecksumIsValidated : Prop :=
  ∀ (s : State), s.Ready →
    (¬ s.Empty .brx → s.oldest .brx = ~~~ s.bcRxSum →
      exec .bcRxEnd s = .next (((s.armTimer s.cfg.tBusRx).dropOldest .brx).reply .ok [])) ∧
    (¬ s.Empty .brx → s.oldest .brx ≠ ~~~ s.bcRxSum →
      exec .bcRxEnd s =
        .next { ((s.armTimer s.cfg.tBusRx).dropOldest .brx).reply .checksum [] with status := s.status ||| 0x80 }) ∧
    (s.Empty .brx → s.cfg.tBusRx ≠ 0 →
      exec .bcRxEnd s = .next ((s.armTimer s.cfg.tBusRx).holding [.get .bus .check] [] none)) ∧
    (s.Empty .brx → s.cfg.tBusRx = 0 →
      exec .bcRxEnd s = .next { (s.armTimer 0).reply .timeout [] with status := s.status ||| 0x02 }) ∧
    (s.Empty .brx → s.tmo = 0 →
      (s.holding [.get .bus .check] [] none).afterTurns 2 = { s.reply .timeout [] with status := s.status ||| 0x02 })

/-- Rule R186: no bus codec operation reads or writes `DIR`; the two sides use separate sums (rule R187). -/
def Obligations.BusCodecFrame : Prop :=
  ∀ (s t : State),
    (∀ i, (∃ id n b, i = .bcTxStart id n b) ∨ (∃ b, i = .bcTxByte b) ∨ i = .bcTxEnd → exec i s = .next t →
      t = { s with btx := t.btx, bcTxSum := t.bcTxSum, tmo := t.tmo, status := t.status, op := t.op, cmdOut := t.cmdOut }) ∧
    (∀ i, (∃ e, i = .bcRxPacket e) ∨ i = .bcRxEnd → exec i s = .next t →
      t = { s with brx := t.brx, bcRxSum := t.bcRxSum, tmo := t.tmo, status := t.status, op := t.op, cmdOut := t.cmdOut })

/-! ## Arbiter, timer, status (43_arbiter_timer_status.md) -/

/-- Rules R210, R211, R213: the direction register is written and the operation never holds; arming loads the
countdown. -/
def Obligations.ArbiterAndCountdownOperations : Prop :=
  ∀ (s : State) (t : Byte), s.Ready →
    exec .dirTx s = .next { s.reply .ok [] with dir := .transmit } ∧
    exec .dirRx s = .next { s.reply .ok [] with dir := .receive } ∧
    exec (.tmoArm t) s = .next { s.reply .ok [] with tmo := t }

/-- Rules R73, R132, R182, R214: `TMO_WAIT` completes at once at 0, and else after as many ticks as `TMO` held when it was
issued; it sets no flag. In a weakly fair run it is always released, and so is every other wait the countdown bounds (rule
R73: "every timed wait eventually completes"); what a release is, and that it is less than completion, log entry 23. -/
def Obligations.CooldownLastsAsManyTicks : Prop :=
  (∀ (s : State), s.Ready →
    (s.tmo = 0 → exec .tmoWait s = .next (s.reply .ok [])) ∧
    (s.tmo ≠ 0 → ∃ w, exec .tmoWait s = .next w ∧ w = s.holding [.awaitExpiry] [] none ∧
      (∀ k, k < s.tmo.toNat → (w.afterTicks k).microStep = none) ∧
      (w.afterTicks s.tmo.toNat).microStep = some { s.reply .ok [] with tmo := 0 })) ∧
  (∀ (r : Run) (n : Nat) (m : Micro), r.Steps → r.Fair → (r.state n).waitsAt = some m → m.timed = true → r.Releases n)

/-- Rules R216 to R219: the four operations on the status register. -/
def Obligations.StatusOperations : Prop :=
  ∀ (s : State) (m : Byte), s.Ready →
    exec .stRead s = .next (s.reply .ok [s.status]) ∧
    exec .stReset s = .next { s.reply .ok [] with status := 0x00 } ∧
    exec (.stSet m) s = .next { s.reply .ok [] with status := s.status ||| m } ∧
    exec (.stClr m) s = .next { s.reply .ok [] with status := s.status &&& ~~~ m }

/-! ## Rules of the whole machine -/

/-- Rule R27: "A set bit stays set until cleared: no rule clears a bit as a side effect": no CMD operation but
`ST_RESET` and `ST_CLR`, no event and no arriving packet clears a bit, from any state. -/
def Obligations.StatusBitsAreSticky : Prop :=
  ∀ (s t : State) (i : Instr), i.format = .cmd ∨ i.format = .evt ∨ i.format = .busRx → i ≠ .stReset →
    (∀ m, i ≠ .stClr m) → exec i s = .next t → s.status &&& t.status = s.status

/-- Rules R23, R25: each index of a channel has one writing side; among the CMD operations, the events and arriving
packets, only `DIR_TX` and `DIR_RX` write `DIR`. -/
def Obligations.IndicesAndDirectionHaveOneWriter : Prop :=
  ∀ (s t : State) (i : Instr), exec i s = .next t →
    (i.format = .cmd →
      t.hrx.put = s.hrx.put ∧ t.hrx.buf = s.hrx.buf ∧ t.brx.put = s.brx.put ∧ t.brx.buf = s.brx.buf ∧
      t.htx.get = s.htx.get ∧ t.btx.get = s.btx.get) ∧
    (i.format = .evt →
      t.hrx.get = s.hrx.get ∧ t.brx.get = s.brx.get ∧ t.htx.put = s.htx.put ∧ t.htx.buf = s.htx.buf ∧
      t.btx.put = s.btx.put ∧ t.btx.buf = s.btx.buf) ∧
    (i.format = .cmd ∨ i.format = .evt ∨ i.format = .busRx → i ≠ .dirTx → i ≠ .dirRx → t.dir = s.dir)

/-- Rule R298: the asynchronous events never touch a sum, the direction, an operation, an answer or the client, and set
no status bit but the two overflow bits. -/
def Obligations.EventsStayInTheirContext : Prop :=
  ∀ (s t : State) (i : Instr), i.format = .evt → exec i s = .next t →
    t = { s with
      hrx := t.hrx, htx := t.htx, brx := t.brx, btx := t.btx, htxShift := t.htxShift, btxShift := t.btxShift,
      tmo := t.tmo, status := t.status, halt := t.halt, hostOut := t.hostOut, busOut := t.busOut } ∧
    (t.status = s.status ∨ t.status = s.status ||| 0x10 ∨ t.status = s.status ||| 0x20)

/-- Rule R291: the cause table: an instruction sets no status bit but those it is a cause of, from any state. -/
def Obligations.FlagsHaveTheirCauses : Prop :=
  ∀ (s t : State) (i : Instr), exec i s = .next t → t.status &&& ~~~ s.status &&& ~~~ causesOf i = 0

/-- Rule R292: a CMD operation answers at most once, with `Timeout` only where it waits with a bound and with `Checksum`
only where it validates a checksum byte. -/
def Obligations.OutcomesAreThoseOfTheOperation : Prop :=
  ∀ (s t : State) (i : Instr), i.format = .cmd → exec i s = .next t →
    t.cmdOut = s.cmdOut ∨
    ∃ a, t.cmdOut = s.cmdOut ++ [a] ∧ t.op = none ∧ (a.code = .timeout → canTimeOut i = true) ∧
      (a.code = .checksum → i = .hcRxEnd ∨ i = .bcRxEnd)

/-- The storing operations write one slot, that of the put index, and every other slot of every channel reads as
before (rules R130, R134, R135, R160 to R162, R181). -/
def Obligations.StoringOperationsWriteOneSlot : Prop :=
  ∀ (s t : State) (i : Instr) (c : Chan) (b : Byte), s.Ready → ¬ s.Full c →
    (c = .htx ∧ (i = .htxPut b ∨ i = .hcTxStart b ∨ (∃ a, i = .hcTxByte b a) ∨ i = .hcTxEnd ∧ b = ~~~ s.hcTxSum)) ∨
    (c = .btx ∧ (i = .btxPut b ∨ i = .bcTxByte b ∨ i = .bcTxEnd ∧ b = ~~~ s.bcTxSum)) →
    exec i s = .next t →
      t.slot c ((s.chan c).put % s.cap c) = b ∧
      (∀ c' j, c' ≠ c ∨ j ≠ (s.chan c).put % s.cap c → t.slot c' j = s.slot c' j) ∧
      (t.chan c).put = (s.chan c).put + 1 ∧ (t.chan c).get = (s.chan c).get ∧ ∀ c', c' ≠ c → t.chan c' = s.chan c'

/-- The CMD operations that store nothing leave every slot of every channel as it reads, from any state. -/
def Obligations.NonStoringOperationsLeaveStorage : Prop :=
  ∀ (s t : State) (i : Instr), s.op = none →
    i ∈ [Instr.hrxWait, .hrxFlush, .brxFlush, .hcRxStart, .hcRxEnd, .bcRxEnd, .dirTx, .dirRx, .tmoWait, .stRead,
      .stReset] ∨ (∃ b, i = .hrxGet b ∨ i = .brxGet b ∨ i = .bcRxPacket b ∨ i = .tmoArm b ∨ i = .stSet b ∨ i = .stClr b) ∨
      (∃ a, i = .hcRxByte a) →
    exec i s = .next t → ∀ c j, t.slot c j = s.slot c j

/-! ## Invariants -/

/-- The reset state meets the invariants, and its parameters (log entry 1) are admissible. -/
def Obligations.ResetStateMeetsInvariants : Prop :=
  State.reset.ChannelsInv ∧ State.reset.RetryInv ∧ State.reset.TablesInv ∧ State.reset.ReadInv ∧
    State.reset.cfg.capsAdmissible

/-- Rule R21: "Invariant, preserved by every rule of this spec and true after reset: 0 <= len(c) <= CAP_c", with the
storage canonical and every slot of the live window written. -/
def Obligations.StepKeepsChannelsSound : Prop :=
  State.reset.ChannelsInv ∧ ∀ (s t : State), s.ChannelsInv → step s = .next t → t.ChannelsInv

/-- Rule R246: "Reported retry count never exceeds 3 in any single host command": every step keeps the bound. -/
def Obligations.StepKeepsRetryBound : Prop :=
  ∀ (s t : State), s.RetryInv → step s = .next t → t.RetryInv

/-- Rule R241: both format tables stay legal. -/
def Obligations.StepKeepsTablesLegal : Prop :=
  ∀ (s t : State), s.TablesInv → step s = .next t → t.TablesInv

/-- Rule R250: "ReadData always returns exactly totalBytes[Read] payload bytes regardless of mid-transaction bus
failures": every step keeps the byte count of `READ_DATA` (`State.ReadInv`), which says so of the response it sends. -/
def Obligations.StepKeepsReadPayloadExact : Prop :=
  ∀ (s t : State), s.ReadInv → step s = .next t → t.ReadInv

/-! ## The reference client (45_client_sequencer.md) -/

/-- Rules R242, R243: the cycle the client runs by itself when `b` is the oldest byte from the host is the host command
row `b` decodes to, taken with the byte off the channel: the flags and the retry counter are reset, `HC_RX_SUM` starts
with `b`, and the procedure of that row runs. -/
def Obligations.DispatcherRunsTheDecodedCommand : Prop :=
  ∀ (s : State) (b : Byte) (more : List Byte), s.ClientReady → s.contents .hrx = b :: more →
    let u := (s.dropOldest .hrx).dispatched b (fun k => k.route s.cfg b)
    (∀ n, s.clientIssue.runForeground (n + 3) = u.runForeground n) ∧
    exec (decodeHostByte b).instr (s.dropOldest .hrx) = .next (u.runForeground foregroundFuel)

/-- Rule R246: a transaction is retried iff the error byte carries the checksum bit or the checksum was wrong, and
fewer than 3 retries have been used; the retry counter moves with each retry. -/
def Obligations.RetryPolicy : Prop :=
  ∀ (c : Config) (k : Client) (t : Txn) (f : TxnFor) (rid err : Byte) (data : List Byte) (a : Answer),
    k.pos = .txn (.check rid err data) t f → a.code ≠ .timeout →
      ((err &&& c.errCksumMask ≠ 0 ∨ a.code = .checksum) → k.retry < 3 →
        (k.react c a).pos = .txn .retry t f ∧ (k.react c a).retry = k.retry ∧
        clientProgram c (k.react c a) = stClrProgram 0x80 ∧
        ∀ a', ((k.react c a).react c a').retry = k.retry + 1 ∧ ((k.react c a).react c a').pos = .txn .dirTx t f) ∧
      ((err &&& c.errCksumMask ≠ 0 ∨ a.code = .checksum) → 3 ≤ k.retry →
        (k.react c a) = { k with pos := txnDone c k f (.checksumFailure rid err data) }) ∧
      (err &&& c.errCksumMask = 0 → a.code = .ok →
        (k.react c a) = { k with pos := txnDone c k f (.success rid err data) })

/-- Rule R250: no block of an entry that ends at or before the virtual register reads it: start address and length of
the physical read end at 54 at most, and a block trimmed to nothing is a ping. -/
def Obligations.NoReadCoversTheVirtualRegister : Prop :=
  ∀ (c : Config) (l : ReadLoop), 0 < l.rem → l.addr + l.rem ≤ 55 →
    ∃ t l' virt phys, readBlock c l = .txn .dirTx t (.read l' virt phys) ∧ l.addr + phys ≤ 54 ∧
      (phys = 0 → t.instr = c.biPing ∧ t.params = []) ∧
      (phys ≠ 0 → t.instr = c.biRead ∧ t.params = [u8 l.addr, u8 phys]) ∧ phys ≤ 20 ∧
      l'.addr = l.addr + (phys + if virt then 1 else 0) ∧ l'.rem + (phys + if virt then 1 else 0) = l.rem

/-- Rules R99, R106, R108, R180 to R182: each BUSTX row turns the line to `Transmit`, queues its whole packet with its
checksum, and waits for the drain; so does a line of a framed packet whose instruction byte or parameters are no row's ("The
block treats `id` and `instr` as opaque bytes"). That a line of a sent packet is `BUS_SEND` is the model's reading, log
entry 11. -/
def Obligations.BusSendQueuesThePacket : Prop :=
  ∀ (s : State) (id instr : Byte) (params : List Byte), s.ClientReady → s.ChannelOk .btx →
    s.Room .btx (params.length + 6) → s.cfg.tBusDrain ≠ 0 →
    let sent (t : State) (rest : List Input) : Prop :=
      t.AwaitsDrain ∧ t.dir = .transmit ∧ t.contents .btx = s.contents .btx ++ busTxBytes id instr params ∧
      t = { s with
        btx := t.btx, bcTxSum := t.bcTxSum, dir := t.dir, tmo := t.tmo, op := t.op, cmdOut := t.cmdOut,
        client := { s.client with pos := t.client.pos }, input := rest }
    (∀ i,
      (i = .biPing id ∧ instr = s.cfg.biPing ∧ params = []) ∨
      (∃ a l, i = .biRead id a l ∧ instr = s.cfg.biRead ∧ params = [a, l]) ∨
      (∃ a d, i = .biRegWrite id a d ∧ instr = s.cfg.biRegWrite ∧ params = a :: d) ∨
      (i = .biAction ∧ id = busBroadcastId ∧ instr = s.cfg.biAction ∧ params = []) →
      i.wf = true → ∃ t, exec i s = .next t ∧ sent t s.input) ∧
    (∀ rest e, params.length ≤ 255 → s.input = .word .busTx (busTxBytes id instr params) :: rest →
      decode s.cfg .busTx (busTxBytes id instr params) = .error e → ∃ t, step s = .next t ∧ sent t rest)

/-- Rules R100, R103 (c), R142: the bytes of a bus reply, whatever its sync bytes, arrive in order in `Receive` while there
is room, and are lost in `Transmit`; so do bytes on the bus line that make no whole packet. That a line of the bus is the
arrival of its bytes with nothing between them is the model's reading, log entry 11. -/
def Obligations.BusReplyArrivesInOrder : Prop :=
  ∀ (s : State) (bytes : List Byte), s.halt = false →
    let arrived (t : State) (rest : List Input) : Prop :=
      (s.dir = .receive → s.ChannelOk .brx → s.Room .brx bytes.length →
        t.contents .brx = s.contents .brx ++ bytes ∧ t = { s with brx := t.brx, input := rest }) ∧
      (s.dir = .transmit → t = { s with input := rest })
    (∀ (head : BusHead) (err cks : Byte) (params : List Byte),
      bytes = [head.s1, head.s2, head.id, u8 params.length + 2, err] ++ params ++ [cks] →
      ∃ t, exec (.busReply head err params cks) s = .next t ∧ arrived t s.input) ∧
    (∀ rest e, s.input = .word .busRx bytes :: rest → decode s.cfg .busRx bytes = .error e →
      ∃ t, step s = .next t ∧ arrived t rest)

/-- Rules R247, R252: `PING(255)` is a trivial success and `PING(254)` an invalid host command, both without bus traffic:
the status response is queued, and for 254 the cooldown then runs (with `T_COOLDOWN = 0` it is over at once). -/
def Obligations.PingWithoutBusTraffic : Prop :=
  ∀ (s : State) (addr cks : Byte) (more : List Byte), addr = 0xFF ∨ addr = 0xFE → s.ClientReady →
    s.contents .hrx = addr :: cks :: more → s.ChannelOk .htx → s.Room .htx 7 →
    let st := checkedStatus [0xF0, addr] cks ||| (if addr = 0xFE then 0x04 else 0x00)
    ∃ t, exec .ping s = .next t ∧ t.contents .htx = s.contents .htx ++ statusResponse s.client 0xF0 st 0x00 ∧
      t.status = st ∧
      (addr = 0xFF → t.op = none ∧ t.client = { s.client with retry := 0 } ∧ t.contents .hrx = more ∧ t.brx = s.brx) ∧
      (addr = 0xFE → t.CoolsDown { s.client with retry := 0 } more s.brx) ∧
      t = { s with
        hrx := t.hrx, htx := t.htx, brx := t.brx, tmo := t.tmo, status := t.status, hcTxSum := t.hcTxSum,
        hcRxSum := t.hcRxSum, op := t.op, cmdOut := t.cmdOut, client := t.client }

/-- Rules R245 to R247: a ping of a device turns the line to `Transmit`, queues the ping packet and waits for the drain.
From any state in which the client so waits: if `BTX` does not drain in time, `BusTimeout` is reported. If it is drained,
the line is turned to `Receive`; with no reply for `T_BUS_RX` ticks, `BusTimeout` is reported; a reply with a wrong
checksum, or that reports one, is answered with the same packet again while fewer than 3 retries have been used; else the
status is reported, and of the replied id it says `InvalidBusResponse` iff it is not the address (the bit is also set by a
bad sync byte or by parameters, which a ping does not expect: rule R183). -/
def Obligations.PingOfADeviceAsksAndReports : Prop :=
  ∀ (s : State) (addr : Byte), addr.toNat ≤ 253 →
    let asked (t : State) : Prop := t.AwaitsDrain ∧ t.dir = .transmit ∧
      t.contents .btx = s.contents .btx ++ busTxBytes addr s.cfg.biPing []
    (∀ cks more, s.ClientReady → s.contents .hrx = addr :: cks :: more → s.ChannelOk .btx → s.Room .btx 6 →
      s.cfg.tBusDrain ≠ 0 →
      ∃ t, exec .ping s = .next t ∧ asked t ∧ t.contents .hrx = more ∧
        t.client = { s.client with retry := 0, pos := .txn .close (pingTxn s.cfg addr) (.ping addr) } ∧
        t.status = checkedStatus [0xF0, addr] cks ∧ t.htx = s.htx ∧ t.brx = s.brx) ∧
    (s.halt = false → s.op = some { owner := .client, todo := [.awaitDrain], results := [], packet := none } →
      s.client.pos = .txn .close (pingTxn s.cfg addr) (.ping addr) → s.ChannelOk .htx → s.Room .htx 7 →
      let v := s.runForeground foregroundFuel
      (¬ s.Drained .bus → s.tmo = 0 → v.Reported s 0xF0 (s.status ||| 0x02)) ∧
      (s.Drained .bus → s.Empty .brx → v.dir = .receive ∧
        (∀ k, k < s.cfg.tBusRx.toNat → (v.afterTicks k).foregroundStep = none) ∧
        ((v.afterTicks s.cfg.tBusRx.toNat).runForeground foregroundFuel).Reported s 0xF0 (s.status ||| 0x02) ∧
        (∀ (head : BusHead) (err cks : Byte) (ps : List Byte), s.cfg.tBusRx ≠ 0 → ps.length ≤ 255 → s.ChannelOk .brx →
          s.Room .brx (ps.length + 6) →
          let cksOk := cks = checksumOf (head.id :: (u8 ps.length + 2) :: err :: ps)
          let bad := err &&& s.cfg.errCksumMask ≠ 0 ∨ ¬ cksOk
          let st := s.status ||| (if head.s1 ≠ 0xFF ∨ head.s2 ≠ 0xFF ∨ ps ≠ [] then 0x08 else 0x00)
          ∃ w, exec (.busReply head err ps cks) v = .next w ∧
            let u := w.runForeground foregroundFuel
            u.contents .brx = [] ∧
            (bad → s.client.retry < 3 → s.ChannelOk .btx → s.Room .btx 6 → s.cfg.tBusDrain ≠ 0 →
              asked u ∧ u.client = { s.client with retry := s.client.retry + 1 } ∧ u.status = st &&& ~~~0x80 ∧
              u.htx = s.htx) ∧
            (¬ bad ∨ 3 ≤ s.client.retry →
              u.dir = .receive ∧
              u.Reported s 0xF0
                (st ||| (if cksOk then 0x00 else 0x80) ||| (if head.id = addr then 0x00 else 0x08))))))

/-- Rule R252: both INVALID rows force the invalid-command flag, report it with the offending byte echoed, and arm and
wait out the cooldown; no byte is read. From any state in which the client waits out a cooldown (the one `PING(254)` or a
failed `SET_*_FORMAT` started too, whatever has arrived meanwhile): it waits for exactly the ticks left, and then both RX
channels are flushed, no status bit is set, and the client is at the start of a cycle. -/
def Obligations.InvalidPathReportsCoolsDownAndFlushes : Prop :=
  (∀ (s : State) (i : Instr) (b : Byte), i = .invalidReserved b ∨ i = .invalidBadSync b → s.ClientReady →
    s.ChannelOk .htx → s.Room .htx 7 →
    ∃ t, exec i s = .next t ∧ t.CoolsDown { s.client with retry := 0 } (s.contents .hrx) s.brx ∧ t.status = 0x04 ∧
      t.contents .htx = s.contents .htx ++ statusResponse s.client b 0x04 0x00 ∧
      t = { s with
        hrx := t.hrx, htx := t.htx, brx := t.brx, tmo := t.tmo, status := t.status, hcTxSum := t.hcTxSum, hcRxSum := b,
        op := t.op, cmdOut := t.cmdOut, client := t.client }) ∧
  (∀ (s : State), s.halt = false → s.client.pos = .coolWait →
    s.op = some { owner := .client, todo := [.awaitExpiry], results := [], packet := none } →
    (∀ k, k < s.tmo.toNat → (s.afterTicks k).foregroundStep = none) ∧
    (s.afterTicks s.tmo.toNat).runForeground foregroundFuel = s.recovered)

/-- Rules R248, R249: a valid `SET_*_FORMAT` replaces its table wholesale and leaves the other; the response is
queued. -/
def Obligations.SetFormatReplacesTheTable : Prop :=
  ∀ (s : State) (d : TableSel) (es : List Entry) (cks : Byte) (more : List Byte), s.ClientReady → tableValid es →
    s.contents .hrx = u8 es.length :: es.flatMap Entry.bytes ++ cks :: more → s.ChannelOk .htx → s.Room .htx 7 →
    let i : Instr := match d with | .read => .setReadFormat | .write => .setWriteFormat
    let st := checkedStatus (formatInstr d :: u8 es.length :: es.flatMap Entry.bytes) cks
    ∃ t, exec i s = .next t ∧ t.client = { s.client.setTable d es with retry := 0 } ∧ t.op = none ∧
      t.contents .hrx = more ∧ t.status = st ∧
      t.contents .htx = s.contents .htx ++ statusResponse s.client (formatInstr d) st 0x00 ∧
      t.busOut = s.busOut ∧ t.btx = s.btx ∧ t.brx = s.brx ∧ t.dir = s.dir

/-- Rules R248, R249, R252, R253: a `SET_*_FORMAT` that fails leaves the table of its direction empty. More than 32 entries
announced, or an illegal entry behind legal ones: `InvalidHostCommand` is set and reported, nothing behind the
violating byte is consumed, and the cooldown runs (with `T_COOLDOWN = 0` it is over at once, and what is left is flushed). A byte that does not come for `T_HOST_RX` ticks, wherever in the command:
`HostTimeout` is set and reported, without the cooldown. -/
def Obligations.FailedSetFormatEmptiesTheTable : Prop :=
  ∀ (s : State) (d : TableSel), s.ClientReady → s.ChannelOk .htx → s.Room .htx 7 →
    let i : Instr := match d with | .read => .setReadFormat | .write => .setWriteFormat
    let refusedWith (more : List Byte) : Prop :=
      ∃ t, exec i s = .next t ∧ t.CoolsDown { s.client.setTable d [] with retry := 0 } more s.brx ∧ t.status = 0x04 ∧
        t.contents .htx = s.contents .htx ++ statusResponse s.client (formatInstr d) 0x04 0x00
    let timesOut : Prop :=
      ∃ w, exec i s = .next w ∧
        (∀ k, k < s.cfg.tHostRx.toNat → (w.afterTicks k).foregroundStep = none ∧ (w.afterTicks k).op ≠ none) ∧
        let t := (w.afterTicks s.cfg.tHostRx.toNat).runForeground foregroundFuel
        t.op = none ∧ t.client = { s.client.setTable d [] with retry := 0 } ∧ t.status = 0x01 ∧ t.contents .hrx = [] ∧
        t.contents .htx = s.contents .htx ++ statusResponse s.client (formatInstr d) 0x01 0x00
    (∀ (count : Byte) (more : List Byte), 32 < count.toNat → s.contents .hrx = count :: more → refusedWith more) ∧
    (∀ (count : Byte) (es : List Entry) (e : Entry) (more : List Byte), count.toNat ≤ 32 →
      es.length < count.toNat → (∀ e' ∈ es, e'.valid) → ¬ e.valid →
      s.contents .hrx = count :: es.flatMap Entry.bytes ++ e.bytes ++ more → refusedWith more) ∧
    (s.contents .hrx = [] → timesOut) ∧
    (∀ (count : Byte) (es : List Entry) (part : List Byte), count.toNat ≤ 32 → (∀ e' ∈ es, e'.valid) →
      s.contents .hrx = count :: es.flatMap Entry.bytes ++ part →
      es.length < count.toNat ∧ part.length < 3 ∨ es.length = count.toNat ∧ part = [] → timesOut)

/-- Rules R244, R250: `READ_DATA` over a table with no byte to read answers at once with no payload. Else it turns the line
to `Transmit` and queues the packet of the first block of the first entry that has one ("an entry with `length = 0` causes
no bus traffic"), and waits for the drain; with `T_BUS_DRAIN = 0` the wait fails at once, and the response is all sentinels.
With `PayloadFirst`, that `HTX` already holds the opening byte 0xF3 while the client waits is the model's choice, log entry
22. -/
def Obligations.ReadDataStartsWithTheFirstBlock : Prop :=
  ∀ (s : State) (cks : Byte) (more : List Byte), s.ClientReady → s.contents .hrx = cks :: more → s.ChannelOk .htx →
    let st := checkedStatus [0xF3] cks
    ((∀ e ∈ s.client.readTable, e.length.toNat = 0) → s.Room .htx 7 →
      ∃ t, exec .readData s = .next t ∧ t.contents .htx = s.contents .htx ++ statusResponse s.client 0xF3 st 0x00 ∧
        t.contents .hrx = more ∧ t.op = none ∧ t.client = { s.client with retry := 0 } ∧ t.status = st ∧
        t.busOut = s.busOut ∧ t.btx = s.btx) ∧
    (∀ empties e es, s.client.readTable = empties ++ e :: es → (∀ x ∈ empties, x.length.toNat = 0) → e.valid →
      0 < e.length.toNat → s.ChannelOk .btx → s.Room .btx 8 →
      let blk := min e.length.toNat 20
      let phys := if e.startAddr.toNat + blk = 55 then blk - 1 else blk
      let packet := if phys = 0 then busTxBytes e.deviceId s.cfg.biPing []
        else busTxBytes e.deviceId s.cfg.biRead [e.startAddr, u8 phys]
      (s.cfg.tBusDrain ≠ 0 → s.Room .htx 1 →
        ∃ t, exec .readData s = .next t ∧ t.AwaitsDrain ∧ t.dir = .transmit ∧ t.contents .hrx = more ∧
          t.contents .btx = s.contents .btx ++ packet ∧
          t.contents .htx = s.contents .htx ++ (if s.cfg.readOrder = .payloadFirst then [0xF3] else [])) ∧
      (s.cfg.tBusDrain = 0 → tableValid s.client.readTable → s.Room .htx (totalBytesOf s.client.readTable + 7) →
        ∃ t, exec .readData s = .next t ∧ t.op = none ∧ t.dir = .transmit ∧ t.contents .hrx = more ∧
          t.contents .btx = s.contents .btx ++ packet ∧ t.status = st ||| 0x02 ∧
          t.contents .htx = s.contents .htx ++ readResponse s.cfg.readOrder s.client (st ||| 0x02) 0x00
            (List.replicate (totalBytesOf s.client.readTable) sentinel) ∧
          t.client = { s.client with retry := 0 }))

/-- Rule R251: `WRITE_DATA` over an empty table reads the checksum and sends the one broadcast commit; over a table, it
reads the first entry's payload from the host first and then queues the register write. -/
def Obligations.WriteDataReadsThenWrites : Prop :=
  ∀ (s : State), s.ClientReady → s.ChannelOk .btx → s.cfg.tBusDrain ≠ 0 →
    (∀ cks more, s.client.writeTable = [] → s.contents .hrx = cks :: more → s.Room .btx 6 →
      ∃ t, exec .writeData s = .next t ∧ t.AwaitsDrain ∧ t.dir = .transmit ∧ t.contents .hrx = more ∧
        t.contents .btx = s.contents .btx ++ busTxBytes busBroadcastId s.cfg.biAction [] ∧
        t.status = checkedStatus [0xF4] cks ∧ t.htx = s.htx) ∧
    (∀ e es data more, s.client.writeTable = e :: es → data.length = e.length.toNat →
      s.contents .hrx = data ++ more → s.Room .btx (data.length + 7) →
      ∃ t, exec .writeData s = .next t ∧ t.AwaitsDrain ∧ t.dir = .transmit ∧ t.contents .hrx = more ∧
        t.contents .btx = s.contents .btx ++ busTxBytes e.deviceId s.cfg.biRegWrite (e.startAddr :: data) ∧
        t.status = 0x00 ∧ t.htx = s.htx)
end

