-- ==== Sys2Proof/Laws/Step.lean ====
section
/-!
SUPPORT. Laws/Step.lean: what a step can do, said once: `step_keeps` packages the case analysis over the lines of a run,
and `exec_cmd`, `exec_host`, `exec_busTx` give the meanings of the rows of the foreground agent by their format.
-/

namespace Sys2Proof.Machine

/-- Every CMD row is its program run to its hold (Machine/Fetch.lean's `programOf` is the table of the programs). -/
theorem exec_cmd {s : State} {i : Instr} {p : Program} (h : programOf s.cfg i = some p) : exec i s = s.command p := by
  cases i <;> simp only [programOf, Option.some.injEq, reduceCtorEq] at h <;> subst h <;> rfl

/-- The CMD rows are those with a program. -/
theorem programOf_isSome {c : Config} {i : Instr} (h : i.format = .cmd) : ∃ p, programOf c i = some p := by
  cases i <;> first | exact ⟨_, rfl⟩ | simp [Instr.format] at h

theorem programOf_none {c : Config} {i : Instr} (h : i.format ≠ .cmd) : programOf c i = none := by
  cases i <;> first | rfl | simp [Instr.format] at h

/-- What a host instruction byte decodes to, with the byte each command has (rule R95). -/
theorem decodeHostByte_cases (b : Byte) :
    (decodeHostByte b = .ping ∧ b = 0xF0) ∨ (decodeHostByte b = .setReadFormat ∧ b = 0xF1) ∨
    (decodeHostByte b = .setWriteFormat ∧ b = 0xF2) ∨ (decodeHostByte b = .readData ∧ b = 0xF3) ∨
    (decodeHostByte b = .writeData ∧ b = 0xF4) ∨ (decodeHostByte b = .reserved b ∧ 0xF5 ≤ b.toNat) ∨
    (decodeHostByte b = .badSync b ∧ b.toNat < 0xF0) := by
  have hb : b.toNat < 256 := b.isLt
  have lift : ∀ n : Nat, n < 256 → b.toNat = n → b = BitVec.ofNat 8 n := by
    intro n hn h
    apply BitVec.eq_of_toNat_eq
    simp only [BitVec.toNat_ofNat]
    omega
  by_cases h : b.toNat / 16 ≠ 0xF
  · exact .inr (.inr (.inr (.inr (.inr (.inr ⟨by simp only [decodeHostByte, if_pos h], by omega⟩)))))
  · have hd : decodeHostByte b = match b.toNat % 16 with
        | 0 => .ping | 1 => .setReadFormat | 2 => .setWriteFormat | 3 => .readData | 4 => .writeData
        | _ => .reserved b := if_neg h
    rw [hd]
    split
    · exact .inl ⟨rfl, lift 0xF0 (by omega) (by omega)⟩
    · exact .inr (.inl ⟨rfl, lift 0xF1 (by omega) (by omega)⟩)
    · exact .inr (.inr (.inl ⟨rfl, lift 0xF2 (by omega) (by omega)⟩))
    · exact .inr (.inr (.inr (.inl ⟨rfl, lift 0xF3 (by omega) (by omega)⟩)))
    · exact .inr (.inr (.inr (.inr (.inl ⟨rfl, lift 0xF4 (by omega) (by omega)⟩))))
    · rename_i h0 h1 h2 h3 h4
      have : 0xF5 ≤ b.toNat := by
        have h0' : b.toNat % 16 ≠ 0 := h0
        have h1' : b.toNat % 16 ≠ 1 := h1
        have h2' : b.toNat % 16 ≠ 2 := h2
        have h3' : b.toNat % 16 ≠ 3 := h3
        have h4' : b.toNat % 16 ≠ 4 := h4
        omega
      exact .inr (.inr (.inr (.inr (.inr (.inl ⟨rfl, this⟩)))))

/-- A host command row is the cycle the dispatcher routes its instruction byte to. -/
theorem exec_host (s : State) (b : Byte) :
    exec (decodeHostByte b).instr s = s.takeCommand b (fun k => k.route s.cfg b) := by
  rcases decodeHostByte_cases b with ⟨h, rfl⟩ | ⟨h, rfl⟩ | ⟨h, rfl⟩ | ⟨h, rfl⟩ | ⟨h, rfl⟩ | ⟨h, _⟩ | ⟨h, _⟩ <;>
    simp only [Client.route, h] <;> rfl

/-- A BUSTX row is the sending of a packet by the client. -/
theorem exec_busTx {s : State} {i : Instr} (h : i.format = .busTx) :
    ∃ id instr params, exec i s = s.takeUp (fun k => k.startBusSend id instr params) := by
  cases i <;> simp only [Instr.format, reduceCtorEq] at h
  · exact ⟨_, _, _, rfl⟩
  · exact ⟨_, _, _, rfl⟩
  · exact ⟨_, _, _, rfl⟩
  · exact ⟨_, _, _, rfl⟩

/-- What stands on an interface decodes to a row of that interface. -/
theorem decode_format {c : Config} {f : Format} {bs rest : List Byte} {i : Instr} (h : decode c f bs = .ok (i, rest)) :
    i.format = f := by
  cases f <;> simp only [decode] at h
  case cmd =>
    unfold decodeCmd at h
    split at h
    · cases h
    · split at h
      all_goals
        try simp only [noOperand, oneOperand, accOperand] at h
        repeat' split at h
        all_goals first
          | (cases h; done)
          | (cases h; rfl)
          | (simp only [Except.map] at h; split at h <;> cases h; rfl)
  case evt =>
    unfold decodeEvt at h
    split at h
    · cases h
    · split at h
      all_goals
        try simp only [noOperand, oneOperand] at h
        repeat' split at h
        all_goals first
          | (cases h; done)
          | (cases h; rfl)
  case resetLine =>
    unfold decodeReset at h
    split at h
    · cases h; rfl
    · cases h
  case hostPkt =>
    unfold decodeHost at h
    split at h
    · cases h
    · simp only [Except.ok.injEq, Prod.mk.injEq] at h
      rw [← h.1]
      cases decodeHostByte _ <;> rfl
  case busTx =>
    unfold decodeBusTx at h
    split at h
    · cases h
    · cases hi : busTxInstr c _ _ _ with
      | error e => rw [hi] at h; simp [Except.map] at h
      | ok j =>
        rw [hi] at h
        simp only [Except.map, Except.ok.injEq, Prod.mk.injEq] at h
        rw [← h.1]
        unfold busTxInstr at hi
        repeat' split at hi
        all_goals first
          | (cases hi; done)
          | (cases hi; rfl)
  case busRx =>
    unfold decodeBusRx at h
    split at h
    · cases h
    · simp only at h
      split at h
      · cases h
      · cases h; rfl
    · cases h

/-- What a line that is taken up, waits or is refused can lead to. -/
theorem State.takeLine_cases {s t : State} {f : Format} {taken : Host.Outcome State Fault Refusal}
    (h : s.takeLine f taken = .next t) : taken = .next t ∨ t = s.foregroundTurn := by
  unfold State.takeLine at h
  split at h
  · cases h
  · split at h
    · exact .inl h
    · cases h; exact .inr rfl

/-- A free foreground agent takes every line up: it is no second thread, and nothing waits. -/
theorem State.takeLine_free {s : State} (h : s.ForegroundFree) (f : Format) (taken : Host.Outcome State Fault Refusal) :
    s.takeLine f taken = taken := by
  cases f <;> simp [State.takeLine, State.intrudes, State.admits, Pos.inHostCommand, h.1, h.2]

/-- What the arrival of each byte on the bus line keeps, the arrival of many keeps. -/
theorem State.busFeed_keeps {P : State → Prop} (hbyte : ∀ s b, P s → P (s.busLineByte b)) (bs : List Byte) :
    ∀ s : State, P s → P (s.busFeed bs) := by
  induction bs with
  | nil => exact fun _ h => h
  | cons b bs ih => exact fun s h => ih _ (hbyte s b h)

/-- What a line that is no row of the table can lead to. -/
theorem fetchOther_cases {f : Format} {bytes : List Byte} {rest : List Input} {e : DecodeError} {s t : State}
    (h : fetchOther f bytes rest e s = .next t) :
    t = { s with input := rest }.busFeed bytes ∨ t = s.foregroundTurn ∨
    ∃ id instr params l, { s with input := l }.takeUp (fun k => k.startBusSend id instr params) = .next t := by
  unfold fetchOther at h
  split at h
  · cases h; exact .inl rfl
  · cases h; exact .inl rfl
  · split at h
    · cases h
    · rcases State.takeLine_cases h with h | h
      · exact .inr (.inr ⟨_, _, _, _, h⟩)
      · exact .inr (.inl h)
  all_goals cases h

/-- The row a host instruction byte decodes to, from the decoder. -/
theorem decode_host {c : Config} {bs rest : List Byte} {i : Instr} (h : decode c .hostPkt bs = .ok (i, rest)) :
    ∃ b, bs = b :: rest ∧ i = (decodeHostByte b).instr := by
  simp only [decode] at h
  unfold decodeHost at h
  split at h
  · cases h
  · rename_i b r
    simp only [Except.ok.injEq, Prod.mk.injEq] at h
    exact ⟨b, by rw [h.2], h.1.symm⟩

/-- What every kind of action keeps, a step keeps: a change of the lines still to come, an operation presented on a free
interface, a micro-step, the opening of a host command cycle, the start of a packet's sending, an event, an arriving
packet or RESET, and a refreshed analog sample. -/
theorem step_keeps {P : State → Prop}
    (hinput : ∀ s l, P s → P { s with input := l })
    (hissue : ∀ s w p, P s → s.op = none → (w = .client → p = clientProgram s.cfg s.client) → P (s.issue w p))
    (hmicro : ∀ s t, P s → s.microStep = some t → P t)
    (hhost : ∀ s b, P s → s.ClientReady → P (s.dispatched b (fun k => k.route s.cfg b)))
    (hsend : ∀ s id instr params, P s → s.ClientReady →
      P { s with client := s.client.startBusSend id instr params })
    (hevent : ∀ s t i, P s → i.format = .evt ∨ i.format = .busRx ∨ i.format = .resetLine → exec i s = .next t → P t)
    (hanalog : ∀ s a v, P s → P { s with client := s.client.setAnalog a v })
    {s t : State} (h : P s) (hst : step s = .next t) : P t := by
  have hpresent : ∀ s w p, P s → (w = .client → p = clientProgram s.cfg s.client) → P (s.issue w p) := by
    intro s w p h hw
    by_cases ho : s.op = none
    · exact hissue _ _ _ h ho hw
    · rw [State.issue_held _ _ _ ho]; exact h
  have hclient : ∀ s, P s → P s.clientIssue := by
    intro s h
    unfold State.clientIssue
    split
    · exact h
    · exact hpresent _ _ _ h (fun _ => rfl)
  have hfg : ∀ s t, P s → s.foregroundStep = some t → P t := by
    intro s t h hf
    unfold State.foregroundStep at hf
    split at hf
    · cases hf
    · split at hf
      · exact hmicro _ _ h hf
      · rename_i ho
        split at hf
        · cases hf
        · cases hf; exact hclient _ h
  have hrun : ∀ n s, P s → P (s.runForeground n) := by
    intro n
    induction n with
    | zero => intro s h; exact h
    | succ n ih =>
      intro s h
      unfold State.runForeground
      split
      · rename_i s' hs'; exact ih _ (hfg _ _ h hs')
      · exact h
  have hop : ∀ n s, P s → P (s.runOp n) := fun n s h => State.runOp_keeps hmicro n s h
  have hturn : ∀ s, P s → P s.foregroundTurn := by
    intro s h
    unfold State.foregroundTurn
    cases hf : s.foregroundStep with
    | none => exact h
    | some t => exact hfg _ _ h hf
  have htake : ∀ id instr ps s t, P s → s.takeUp (fun k => k.startBusSend id instr ps) = .next t → P t := by
    intro id instr ps s t h he
    unfold State.takeUp at he
    cases he
    split
    · rename_i hr; exact hrun _ _ (hsend _ _ _ _ h hr)
    · exact h
  have hexec : ∀ (f : Format) bytes more i s t, decode s.cfg f bytes = .ok (i, more) → P s → exec i s = .next t → P t := by
    intro f bytes more i s t hd h he
    have hf := decode_format hd
    cases f with
    | cmd =>
      obtain ⟨p, hp⟩ := programOf_isSome (c := s.cfg) hf
      rw [exec_cmd hp] at he
      unfold State.command at he
      split at he
      · cases he; exact h
      · rename_i ho; cases he
        exact hop _ _ (hissue _ _ _ h ho (by intro hw; cases hw))
    | evt => exact hevent _ _ _ h (.inl hf) he
    | resetLine => exact hevent _ _ _ h (.inr (.inr hf)) he
    | busRx => exact hevent _ _ _ h (.inr (.inl hf)) he
    | hostPkt =>
      obtain ⟨b, _, rfl⟩ := decode_host hd
      rw [exec_host] at he
      unfold State.takeCommand at he
      cases he
      split
      · rename_i hr; exact hrun _ _ (hhost _ _ h hr)
      · exact h
    | busTx =>
      obtain ⟨id, instr, ps, hx⟩ := exec_busTx (s := s) hf
      exact htake _ _ _ _ _ h (hx ▸ he)
  have hother : ∀ f bytes rest e s t, P s → fetchOther f bytes rest e s = .next t → P t := by
    intro f bytes rest e s t h he
    rcases fetchOther_cases he with rfl | rfl | ⟨id, instr, ps, l, ht⟩
    · exact State.busFeed_keeps (fun s b h => hevent s _ (.evBrx b) h (.inl rfl) rfl) _ _ (hinput _ _ h)
    · exact hturn _ h
    · exact htake _ _ _ _ _ (hinput _ l h) ht
  unfold step nextLine at hst
  split at hst
  · cases hst; exact h
  · rename_i f bytes rest hin
    unfold fetchWord at hst
    split at hst
    · exact hother _ _ _ _ _ _ h hst
    · rename_i i more hd
      rcases State.takeLine_cases hst with he | rfl
      · exact hexec f bytes more i { s with input := keepWord f more rest } _ hd (hinput _ _ h) he
      · exact hturn _ h
  · rename_i bytes rest hin
    unfold fetchIssue at hst
    split at hst
    · exact hother _ _ _ _ _ _ h hst
    · simp only at hst
      split at hst
      · rcases State.takeLine_cases hst with he | rfl
        · cases he
          exact hpresent _ _ _ (hinput _ _ h) (by intro hw; cases hw)
        · exact hturn _ h
      · cases hst; exact hinput _ _ h
  · cases hst
    have h' := hinput s (by assumption) h
    unfold State.opTurn
    cases hm : State.microStep _ with
    | none => exact h'
    | some u => exact hmicro _ _ h' hm
  · rename_i rest hin; cases hst; exact hclient _ (hinput s rest h)
  · cases hst; exact hrun _ _ (hinput _ _ h)
  · cases hst
    rename_i a v rest hin
    have := hanalog _ a v (hinput s rest h)
    exact this

end Sys2Proof.Machine
end

