-- ==== Sys2Proof/Laws/Client.lean ====
section
/-!
SUPPORT. Laws/Client.lean: what a micro-step does to the operation in progress and to the client (`microStep_op`): the
operation goes on, or it answers and the client takes the answer.
-/

namespace Sys2Proof.Machine

/-- The locals of `BC_RX_PACKET` after a micro-step: the same count asked for, and never more stored than that. -/
def PacketKept (p p' : Option PacketLocals) : Prop :=
  ∀ q, p = some q → ∃ q', p' = some q' ∧ q'.expected = q.expected ∧
    (q.params.length ≤ q.expected.toNat → q'.params.length ≤ q.expected.toNat)

theorem PacketKept.refl (p : Option PacketLocals) : PacketKept p p := fun q h => ⟨q, h, rfl, id⟩

theorem PacketKept.withPacket (o : Op) (f : PacketLocals → PacketLocals)
    (h : ∀ q, (f q).expected = q.expected ∧
      (q.params.length ≤ q.expected.toNat → (f q).params.length ≤ q.expected.toNat)) :
    PacketKept o.packet (o.withPacket f).packet := by
  intro q hq
  exact ⟨f q, by simp [Op.withPacket, hq], (h q).1, (h q).2⟩

theorem useByte_op (s : State) (l : Link) (o : Op) (b : Byte) (u : GetUse) :
    ∃ (w : State) (o' : Op), s.useByte l o b u = w.proceed o' ∧ w.client = s.client ∧ w.cfg = s.cfg ∧
      o'.owner = o.owner ∧ PacketKept o.packet o'.packet := by
  cases u <;> simp only [State.useByte]
  case raw => exact ⟨_, _, rfl, rfl, rfl, rfl, .refl _⟩
  case byte acc => cases acc <;> exact ⟨_, _, rfl, by simp, by simp, rfl, .refl _⟩
  case start => exact ⟨_, _, rfl, by simp, by simp, rfl, .refl _⟩
  case check => split <;> exact ⟨_, _, rfl, rfl, rfl, rfl, .refl _⟩
  case sync1 => exact ⟨_, _, rfl, rfl, rfl, rfl, .withPacket _ _ (fun q => ⟨rfl, id⟩)⟩
  case sync2 => split <;> exact ⟨_, _, rfl, rfl, rfl, rfl, .refl _⟩
  case id => exact ⟨_, _, rfl, by simp, by simp, rfl, .withPacket _ _ (fun q => ⟨rfl, fun h => h⟩)⟩
  case len => exact ⟨_, _, rfl, by simp, by simp, rfl, .withPacket _ _ (fun q => ⟨rfl, fun h => h⟩)⟩
  case err => exact ⟨_, _, rfl, by simp, by simp, rfl, .withPacket o (fun p => { p with err := b })
      (fun q => ⟨rfl, fun h => h⟩)⟩
  case param =>
    refine ⟨_, _, rfl, by simp, by simp, rfl, .withPacket _ _ (fun q => ?_)⟩
    unfold PacketLocals.store
    split
    · exact ⟨rfl, fun _ => by simp; omega⟩
    · exact ⟨rfl, fun h => h⟩

theorem getTimedOut_op (s : State) (l : Link) (o : Op) (u : GetUse) :
    ∃ (o' : Op), (s.getTimedOut l o u = s.proceed o' ∨ ∃ code, s.getTimedOut l o u = s.answer o' code) ∧
      o'.owner = o.owner ∧ PacketKept o.packet o'.packet := by
  cases u
  case raw => exact ⟨o, .inr ⟨.timeout, rfl⟩, rfl, .refl _⟩
  all_goals exact ⟨{ o with todo := [.fail (timeoutMask l) .timeout] }, .inl rfl, rfl, .refl _⟩

/-- A micro-step leaves the client and the parameters, keeps the operation's issuer and the count it asked for, and the
operation goes on or answers. -/
theorem Micro.run_op {m : Micro} {o : Op} {s t : State} (h : m.run o s = some t) :
    ∃ (w : State) (o' : Op), (t = w.proceed o' ∨ ∃ code, t = w.answer o' code) ∧ w.client = s.client ∧ w.cfg = s.cfg ∧
      o'.owner = o.owner ∧ PacketKept o.packet o'.packet := by
  cases m <;> simp only [Micro.run] at h
  case put l b u =>
    split at h
    · cases h
    · cases h; exact ⟨_, _, .inl rfl, by simp, by simp, rfl, .refl _⟩
  case putChecksum l =>
    split at h
    · cases h
    · cases h; exact ⟨_, _, .inl rfl, by simp, by simp, rfl, .refl _⟩
  case arm t => cases h; exact ⟨_, _, .inl rfl, rfl, rfl, rfl, .refl _⟩
  case armPacket t => cases h; exact ⟨_, _, .inl rfl, by simp, by simp, rfl, .refl _⟩
  case get l u =>
    split at h
    · cases h
      obtain ⟨w, o', h5, h1, h2, h3, h4⟩ := useByte_op (s.dropOldest (rxChan l)) l o (s.oldest (rxChan l)) u
      exact ⟨w, o', .inl h5, by simpa using h1, by simpa using h2, h3, h4⟩
    · split at h
      · cases h
        obtain ⟨o', h1, h2, h3⟩ := getTimedOut_op s l o u
        exact ⟨s, o', h1, rfl, rfl, h2, h3⟩
      · cases h
  case getUntimed u =>
    split at h
    · cases h
    · cases h
      obtain ⟨w, o', h5, h1, h2, h3, h4⟩ := useByte_op (s.dropOldest .hrx) .host o (s.oldest .hrx) u
      exact ⟨w, o', .inl h5, by simpa using h1, by simpa using h2, h3, h4⟩
  case flush l => cases h; exact ⟨_, _, .inl rfl, by simp, by simp, rfl, .refl _⟩
  case direction d => cases h; exact ⟨_, _, .inl rfl, rfl, rfl, rfl, .refl _⟩
  case awaitExpiry =>
    split at h
    · cases h; exact ⟨_, _, .inl rfl, rfl, rfl, rfl, .refl _⟩
    · cases h
  case awaitDrain =>
    split at h
    · cases h; exact ⟨_, _, .inl rfl, rfl, rfl, rfl, .refl _⟩
    · split at h
      · cases h; exact ⟨_, _, .inr ⟨_, rfl⟩, by simp, by simp, rfl, .refl _⟩
      · cases h
  case readStatus => cases h; exact ⟨_, _, .inl rfl, rfl, rfl, rfl, .refl _⟩
  case resetStatus => cases h; exact ⟨_, _, .inl rfl, by simp, by simp, rfl, .refl _⟩
  case setStatus m => cases h; exact ⟨_, _, .inl rfl, by simp, by simp, rfl, .refl _⟩
  case clearStatus m => cases h; exact ⟨_, _, .inl rfl, by simp, by simp, rfl, .refl _⟩
  case fail m code => cases h; exact ⟨_, _, .inr ⟨code, rfl⟩, by simp, by simp, rfl, .refl _⟩

theorem State.proceed_cases (w : State) (o : Op) :
    w.proceed o = { w with op := some o } ∨ w.proceed o = w.answer o .ok := by
  unfold State.proceed; split
  · exact .inr rfl
  · exact .inl rfl

/-- What a micro-step does to the client and the operation: the operation goes on, or it answers, and where the client
issued it the client takes the answer. -/
theorem State.microStep_op {s t : State} (h : s.microStep = some t) :
    ∃ (o o' : Op), s.op = some o ∧ o'.owner = o.owner ∧ PacketKept o.packet o'.packet ∧ t.cfg = s.cfg ∧
      ((t.op = some o' ∧ t.client = s.client) ∨
        (t.op = none ∧ ∃ code, t.client = match o.owner with
          | .script => s.client
          | .client => s.client.react s.cfg { code := code, results := o'.answerBytes })) := by
  have key : ∀ (w : State) (o o' : Op), w.client = s.client → w.cfg = s.cfg → o'.owner = o.owner →
      ∀ code, (w.answer o' code).cfg = s.cfg ∧ (w.answer o' code).op = none ∧
        (w.answer o' code).client = match o.owner with
          | .script => s.client
          | .client => s.client.react s.cfg { code := code, results := o'.answerBytes } := by
    intro w o o' h1 h2 h3 code
    unfold State.answer
    rw [h3]
    cases o.owner with
    | script => exact ⟨h2, rfl, h1⟩
    | client => exact ⟨h2, rfl, by simp only [h1, h2]⟩
  unfold State.microStep at h
  split at h
  · cases h
  · split at h
    · cases h
    · rename_i o ho
      split at h
      · cases h
        obtain ⟨k1, k2, k3⟩ := key s o o rfl rfl rfl .ok
        exact ⟨o, o, ho, rfl, .refl _, k1, .inr ⟨k2, _, k3⟩⟩
      · obtain ⟨w, o', hc, h1, h2, h3, h4⟩ := Micro.run_op h
        rcases hc with rfl | ⟨code, rfl⟩
        · rcases w.proceed_cases o' with hp | hp
          · rw [hp]; exact ⟨o, o', ho, h3, h4, h2, .inl ⟨rfl, h1⟩⟩
          · rw [hp]
            obtain ⟨k1, k2, k3⟩ := key w o o' h1 h2 h3 .ok
            exact ⟨o, o', ho, h3, h4, k1, .inr ⟨k2, _, k3⟩⟩
        · obtain ⟨k1, k2, k3⟩ := key w o o' h1 h2 h3 code
          exact ⟨o, o', ho, h3, h4, k1, .inr ⟨k2, _, k3⟩⟩

end Sys2Proof.Machine
end

