-- ==== Sys2Proof/Laws/PerInstr.lean ====
section
/-!
SUPPORT. Laws/PerInstr.lean: the per-instruction family `EncodedLength`: the encoding of a well-formed instruction has
the length its format gives it (rules R90, R91, R99, R100, R104, R105), and never more than `maxInstrBytes` bytes. One
lemma for each constructor of `Instr`.
-/

namespace Sys2Proof.Laws.EncodedLength

/-- The number of bytes of an instruction: rules R91, R92 and R105 fix it by the first byte; one instruction byte on the
host link (rule R95); six framing bytes and the parameters of a bus packet (rules R99, R100). -/
def bytesOf : Instr → Nat
  | .hrxGet _ => 2
  | .hrxWait => 1
  | .hrxFlush => 1
  | .htxPut _ => 2
  | .brxGet _ => 2
  | .brxFlush => 1
  | .btxPut _ => 2
  | .hcTxStart _ => 2
  | .hcTxByte _ _ => 3
  | .hcTxEnd => 1
  | .hcRxStart => 1
  | .hcRxByte _ => 2
  | .hcRxEnd => 1
  | .bcTxStart _ _ _ => 4
  | .bcTxByte _ => 2
  | .bcTxEnd => 1
  | .bcRxPacket _ => 2
  | .bcRxEnd => 1
  | .dirTx => 1
  | .dirRx => 1
  | .tmoArm _ => 2
  | .tmoWait => 1
  | .stRead => 1
  | .stReset => 1
  | .stSet _ => 2
  | .stClr _ => 2
  | .evHrx _ => 2
  | .evHtxLoad => 1
  | .evHtxDone => 1
  | .evBrx _ => 2
  | .evBtxLoad => 1
  | .evBtxDone => 1
  | .evTick => 1
  | .evUnmapped => 1
  | .reset => 0
  | .ping => 1
  | .setReadFormat => 1
  | .setWriteFormat => 1
  | .readData => 1
  | .writeData => 1
  | .invalidReserved _ => 1
  | .invalidBadSync _ => 1
  | .biPing _ => 6
  | .biRead _ _ _ => 8
  | .biRegWrite _ _ data => 7 + data.length
  | .biAction => 6
  | .busReply _ _ params _ => 6 + params.length

/-- The family: what it says of one instruction. -/
def Statement (i : Instr) : Prop :=
  ∀ c : Config, i.wf = true → (encode c i).length = bytesOf i ∧ (encode c i).length ≤ maxInstrBytes

theorem hrxGet (a : Byte) : Statement (.hrxGet a) :=
  fun _ _ => ⟨rfl, Nat.le_of_ble_eq_true rfl⟩

theorem hrxWait : Statement .hrxWait :=
  fun _ _ => ⟨rfl, Nat.le_of_ble_eq_true rfl⟩

theorem hrxFlush : Statement .hrxFlush :=
  fun _ _ => ⟨rfl, Nat.le_of_ble_eq_true rfl⟩

theorem htxPut (a : Byte) : Statement (.htxPut a) :=
  fun _ _ => ⟨rfl, Nat.le_of_ble_eq_true rfl⟩

theorem brxGet (a : Byte) : Statement (.brxGet a) :=
  fun _ _ => ⟨rfl, Nat.le_of_ble_eq_true rfl⟩

theorem brxFlush : Statement .brxFlush :=
  fun _ _ => ⟨rfl, Nat.le_of_ble_eq_true rfl⟩

theorem btxPut (a : Byte) : Statement (.btxPut a) :=
  fun _ _ => ⟨rfl, Nat.le_of_ble_eq_true rfl⟩

theorem hcTxStart (a : Byte) : Statement (.hcTxStart a) :=
  fun _ _ => ⟨rfl, Nat.le_of_ble_eq_true rfl⟩

theorem hcTxByte (b : Byte) (acc : Bool) : Statement (.hcTxByte b acc) :=
  fun _ _ => ⟨rfl, Nat.le_of_ble_eq_true rfl⟩

theorem hcTxEnd : Statement .hcTxEnd :=
  fun _ _ => ⟨rfl, Nat.le_of_ble_eq_true rfl⟩

theorem hcRxStart : Statement .hcRxStart :=
  fun _ _ => ⟨rfl, Nat.le_of_ble_eq_true rfl⟩

theorem hcRxByte (acc : Bool) : Statement (.hcRxByte acc) :=
  fun _ _ => ⟨rfl, Nat.le_of_ble_eq_true rfl⟩

theorem hcRxEnd : Statement .hcRxEnd :=
  fun _ _ => ⟨rfl, Nat.le_of_ble_eq_true rfl⟩

theorem bcTxStart (a b c : Byte) : Statement (.bcTxStart a b c) :=
  fun _ _ => ⟨rfl, Nat.le_of_ble_eq_true rfl⟩

theorem bcTxByte (a : Byte) : Statement (.bcTxByte a) :=
  fun _ _ => ⟨rfl, Nat.le_of_ble_eq_true rfl⟩

theorem bcTxEnd : Statement .bcTxEnd :=
  fun _ _ => ⟨rfl, Nat.le_of_ble_eq_true rfl⟩

theorem bcRxPacket (a : Byte) : Statement (.bcRxPacket a) :=
  fun _ _ => ⟨rfl, Nat.le_of_ble_eq_true rfl⟩

theorem bcRxEnd : Statement .bcRxEnd :=
  fun _ _ => ⟨rfl, Nat.le_of_ble_eq_true rfl⟩

theorem dirTx : Statement .dirTx :=
  fun _ _ => ⟨rfl, Nat.le_of_ble_eq_true rfl⟩

theorem dirRx : Statement .dirRx :=
  fun _ _ => ⟨rfl, Nat.le_of_ble_eq_true rfl⟩

theorem tmoArm (a : Byte) : Statement (.tmoArm a) :=
  fun _ _ => ⟨rfl, Nat.le_of_ble_eq_true rfl⟩

theorem tmoWait : Statement .tmoWait :=
  fun _ _ => ⟨rfl, Nat.le_of_ble_eq_true rfl⟩

theorem stRead : Statement .stRead :=
  fun _ _ => ⟨rfl, Nat.le_of_ble_eq_true rfl⟩

theorem stReset : Statement .stReset :=
  fun _ _ => ⟨rfl, Nat.le_of_ble_eq_true rfl⟩

theorem stSet (a : Byte) : Statement (.stSet a) :=
  fun _ _ => ⟨rfl, Nat.le_of_ble_eq_true rfl⟩

theorem stClr (a : Byte) : Statement (.stClr a) :=
  fun _ _ => ⟨rfl, Nat.le_of_ble_eq_true rfl⟩

theorem evHrx (a : Byte) : Statement (.evHrx a) :=
  fun _ _ => ⟨rfl, Nat.le_of_ble_eq_true rfl⟩

theorem evHtxLoad : Statement .evHtxLoad :=
  fun _ _ => ⟨rfl, Nat.le_of_ble_eq_true rfl⟩

theorem evHtxDone : Statement .evHtxDone :=
  fun _ _ => ⟨rfl, Nat.le_of_ble_eq_true rfl⟩

theorem evBrx (a : Byte) : Statement (.evBrx a) :=
  fun _ _ => ⟨rfl, Nat.le_of_ble_eq_true rfl⟩

theorem evBtxLoad : Statement .evBtxLoad :=
  fun _ _ => ⟨rfl, Nat.le_of_ble_eq_true rfl⟩

theorem evBtxDone : Statement .evBtxDone :=
  fun _ _ => ⟨rfl, Nat.le_of_ble_eq_true rfl⟩

theorem evTick : Statement .evTick :=
  fun _ _ => ⟨rfl, Nat.le_of_ble_eq_true rfl⟩

theorem evUnmapped : Statement .evUnmapped :=
  fun _ _ => ⟨rfl, Nat.le_of_ble_eq_true rfl⟩

theorem reset : Statement .reset :=
  fun _ _ => ⟨rfl, Nat.le_of_ble_eq_true rfl⟩

theorem ping : Statement .ping :=
  fun _ _ => ⟨rfl, Nat.le_of_ble_eq_true rfl⟩

theorem setReadFormat : Statement .setReadFormat :=
  fun _ _ => ⟨rfl, Nat.le_of_ble_eq_true rfl⟩

theorem setWriteFormat : Statement .setWriteFormat :=
  fun _ _ => ⟨rfl, Nat.le_of_ble_eq_true rfl⟩

theorem readData : Statement .readData :=
  fun _ _ => ⟨rfl, Nat.le_of_ble_eq_true rfl⟩

theorem writeData : Statement .writeData :=
  fun _ _ => ⟨rfl, Nat.le_of_ble_eq_true rfl⟩

theorem invalidReserved (a : Byte) : Statement (.invalidReserved a) :=
  fun _ _ => ⟨rfl, Nat.le_of_ble_eq_true rfl⟩

theorem invalidBadSync (a : Byte) : Statement (.invalidBadSync a) :=
  fun _ _ => ⟨rfl, Nat.le_of_ble_eq_true rfl⟩

theorem biPing (a : Byte) : Statement (.biPing a) := by
  intro c _
  simp [encode, busTxBytes, bytesOf, maxInstrBytes]

theorem biRead (a b c : Byte) : Statement (.biRead a b c) := by
  intro c _
  simp [encode, busTxBytes, bytesOf, maxInstrBytes]

theorem biRegWrite (id startAddr : Byte) (data : List Byte) : Statement (.biRegWrite id startAddr data) := by
  intro c h
  have h' : data.length ≤ 254 := by simpa [Instr.wf] using h
  simp [encode, busTxBytes, bytesOf, maxInstrBytes]
  omega

theorem biAction : Statement .biAction := by
  intro c _
  simp [encode, busTxBytes, bytesOf, maxInstrBytes]

theorem busReply (head : BusHead) (err : Byte) (params : List Byte) (cks : Byte) :
    Statement (.busReply head err params cks) := by
  intro c h
  have h' : params.length ≤ 255 := by simpa [Instr.wf] using h
  simp [encode, busRxBytes, bytesOf, maxInstrBytes]
  omega

end Sys2Proof.Laws.EncodedLength
end

