-- ==== Sys2Proof/Laws/Runs.lean ====
section
/-!
SUPPORT. Laws/Runs.lean: the lemmas a proof about runs cites: that the enabling of rule R73's events is that of their
meanings, what a step with an event in front does (`step_nextEvent`), everything a step can do while an operation holds
(`step_of_held`), and that every state starts a weakly fair run (`exists_fair_run`).
-/

namespace Sys2Proof.Machine

/-- An event that is not enabled changes nothing. -/
theorem FairEvent.exec_disabled {s : State} {e : FairEvent} (h : ¬ s.Enables e) : exec e.instr s = .next s := by
  cases e with
  | load l => cases l <;> simp_all [State.Enables, FairEvent.instr, exec, execEvHtxLoad, execEvBtxLoad]
  | done l =>
    cases l <;> simp_all [State.Enables, FairEvent.instr, exec, execEvHtxDone, execEvBtxDone]
  | tick => simp_all [State.Enables, FairEvent.instr, exec, execEvTick]

/-- What an enabled load does, rules R143 and R145. -/
theorem FairEvent.exec_load {s : State} {l : Link} (h : s.Enables (.load l)) :
    exec (FairEvent.load l).instr s = .next (s.loadShift l) := by
  cases l <;> simp_all [State.Enables, FairEvent.instr, exec, execEvHtxLoad, execEvBtxLoad]

/-- A completion leaves the in-flight slot empty, rules R144 and R146. -/
theorem FairEvent.exec_done {s t : State} {l : Link} (hh : s.halt = false)
    (h : exec (FairEvent.done l).instr s = .next t) : t.shift l = none := by
  cases l <;> simp only [FairEvent.instr, exec, execEvHtxDone, execEvBtxDone, hh] at h <;> cases h <;>
    simp only [Bool.false_eq_true, if_false] <;> split <;> simp_all [State.shift, State.setShift]

/-- What a tick does to a countdown that has not run out, rule R215. -/
theorem FairEvent.exec_tick {s : State} (hh : s.halt = false) (ht : s.tmo ≠ 0) :
    exec FairEvent.tick.instr s = .next { s with tmo := s.tmo - 1 } := by
  simp only [FairEvent.instr, exec, execEvTick, hh, ht, Bool.false_eq_true, if_false]

/-- A step with an event in front of the run is that event. -/
theorem step_nextEvent {s : State} {i : Instr} (h : s.nextEvent = some i) :
    ∃ l, step s = exec i { s with input := l } := by
  unfold State.nextEvent at h
  split at h
  · rename_i bytes rest hin
    split at h
    · rename_i j more hd
      cases h
      refine ⟨keepWord .evt more rest, ?_⟩
      simp [step, nextLine, hin, fetchWord, hd, State.takeLine, State.intrudes, State.admits]
    · cases h
  · cases h

/-- What a step leaves of the transmit side of a link while an operation holds: nothing is put, the slot may empty, or the
transmitter loads. -/
def TxKept (s t : State) (l : Link) : Prop :=
  (t.len (txChan l) = s.len (txChan l) ∧ (t.shift l = s.shift l ∨ t.shift l = none)) ∨
  (s.CanLoad l ∧ (l = .bus → s.dir = .transmit) ∧ t.len (txChan l) = s.len (txChan l) - 1)

/-- What a step that is not RESET leaves while an operation holds. -/
structure HeldKept (s t : State) : Prop where
  cfg : t.cfg = s.cfg
  op : t.op = s.op
  dir : t.dir = s.dir
  tmo : t.tmo.toNat ≤ s.tmo.toNat
  tx : ∀ l, TxKept s t l

theorem HeldKept.refl (s : State) : HeldKept s s :=
  ⟨rfl, rfl, rfl, Nat.le_refl _, fun _ => .inl ⟨rfl, .inl rfl⟩⟩

/-- The lines still to come are no part of what is kept. -/
theorem HeldKept.of_input {s t : State} {l : List Input} (h : HeldKept { s with input := l } t) : HeldKept s t :=
  ⟨h.cfg, h.op, h.dir, h.tmo, fun k => by cases k <;> exact h.tx _⟩

theorem HeldKept.trans {s t u : State} (h : HeldKept s t) (h' : HeldKept t u)
    (htx : ∀ l, u.len (txChan l) = t.len (txChan l) ∧ u.shift l = t.shift l) : HeldKept s u :=
  ⟨h'.cfg.trans h.cfg, h'.op.trans h.op, h'.dir.trans h.dir, Nat.le_trans h'.tmo h.tmo, fun l => by
    rcases h.tx l with ⟨h1, h2⟩ | ⟨h1, h2, h3⟩
    · exact .inl ⟨(htx l).1.trans h1, by rw [(htx l).2]; exact h2⟩
    · exact .inr ⟨h1, h2, (htx l).1.trans h3⟩⟩

/-- A byte that arrives touches no transmit side. -/
theorem HeldKept.arrive (s : State) (l : Link) (b : Byte) : HeldKept s (s.arrive l b) ∧
    ∀ l', (s.arrive l b).len (txChan l') = s.len (txChan l') ∧ (s.arrive l b).shift l' = s.shift l' := by
  have key : ∀ l', (s.arrive l b).len (txChan l') = s.len (txChan l') ∧ (s.arrive l b).shift l' = s.shift l' := by
    intro l'
    unfold State.arrive
    split
    · exact ⟨rfl, by cases l' <;> rfl⟩
    · refine ⟨State.push_len_other s (by cases l <;> cases l' <;> simp [txChan, rxChan]) b, ?_⟩
      cases l' <;> simp [State.shift]
  refine ⟨⟨?_, ?_, ?_, ?_, fun l' => .inl ⟨(key l').1, .inl (key l').2⟩⟩, key⟩ <;> unfold State.arrive <;> split <;> first | rfl | simp

theorem HeldKept.busLineByte (s : State) (b : Byte) : HeldKept s (s.busLineByte b) ∧
    ∀ l, (s.busLineByte b).len (txChan l) = s.len (txChan l) ∧ (s.busLineByte b).shift l = s.shift l := by
  unfold State.busLineByte
  split
  · exact ⟨.refl s, fun _ => ⟨rfl, rfl⟩⟩
  · split
    · exact ⟨.refl s, fun _ => ⟨rfl, rfl⟩⟩
    · exact HeldKept.arrive s .bus b

theorem HeldKept.busFeed (s : State) (bs : List Byte) : HeldKept s (s.busFeed bs) :=
  State.busFeed_keeps (P := HeldKept s)
    (fun u b h => h.trans (HeldKept.busLineByte u b).1 (HeldKept.busLineByte u b).2) bs s (.refl s)

/-- The transmitter of a link that may load, loads. -/
theorem HeldKept.load {s : State} {l : Link} (h : s.CanLoad l) (hd : l = .bus → s.dir = .transmit) :
    HeldKept s (s.loadShift l) := by
  refine ⟨by simp [State.loadShift], by simp [State.loadShift], by simp [State.loadShift], by simp [State.loadShift],
    fun l' => ?_⟩
  by_cases hl : l' = l
  · subst hl
    refine .inr ⟨h, hd, ?_⟩
    cases l'
    · exact State.len_dropOldest s .htx
    · exact State.len_dropOldest s .btx
  · refine .inl ⟨?_, .inl ?_⟩ <;> cases l <;> cases l' <;> simp_all [State.loadShift, State.len, State.dropOldest,
      State.setShift, State.chan, State.setChan, txChan, State.shift]

/-- What an event or a packet that arrives leaves. -/
theorem HeldKept.event {s t : State} {i : Instr} (hi : i.format = .evt ∨ i.format = .busRx) (h : exec i s = .next t) :
    HeldKept s t := by
  cases i <;> simp only [Instr.format, reduceCtorEq, or_self] at hi
  case evHrx b =>
    cases h
    split
    · exact .refl s
    · exact (HeldKept.arrive s .host b).1
  case evBrx b => cases h; exact (HeldKept.busLineByte s b).1
  case busReply => cases h; exact HeldKept.busFeed s _
  case evHtxLoad =>
    cases h
    split
    · rename_i hc; exact HeldKept.load hc.2 (by simp)
    · exact .refl s
  case evBtxLoad =>
    cases h
    split
    · rename_i hc; exact HeldKept.load hc.2.2 (fun _ => hc.2.1)
    · exact .refl s
  case evHtxDone =>
    cases h
    split
    · exact .refl s
    · split
      · exact .refl s
      · refine ⟨rfl, rfl, rfl, Nat.le_refl _, fun l => .inl ⟨?_, ?_⟩⟩ <;> cases l <;>
          simp [State.shift, State.setShift, State.emit, State.len, State.chan]
  case evBtxDone =>
    cases h
    split
    · exact .refl s
    · split
      · exact .refl s
      · refine ⟨?_, ?_, ?_, ?_, fun l => .inl ⟨?_, ?_⟩⟩ <;> split <;> (try cases l) <;>
          simp [State.shift, State.setShift, State.emit, State.len, State.chan, txChan]
  case evTick =>
    cases h
    split
    · exact .refl s
    · split
      · exact .refl s
      · rename_i h0
        refine ⟨rfl, rfl, rfl, ?_, fun l => .inl ⟨rfl, .inl (by cases l <;> rfl)⟩⟩
        have : s.tmo.toNat ≠ 0 := fun h => h0 (BitVec.eq_of_toNat_eq h)
        have h1 : (s.tmo - 1).toNat = (2 ^ 8 - 1 + s.tmo.toNat) % 2 ^ 8 := BitVec.toNat_sub s.tmo 1
        have := s.tmo.isLt
        simp only [h1]
        omega
  case evUnmapped => cases h; exact ⟨rfl, rfl, rfl, Nat.le_refl _, fun l => .inl ⟨by cases l <;> rfl, .inl (by cases l <;> rfl)⟩⟩

/-- When a micro-step holds, rules R131 to R133, R182, R214. -/
def Micro.Holds (s : State) : Micro → Prop
  | .put l _ _ | .putChecksum l => s.Full (txChan l)
  | .get l _ => s.Empty (rxChan l) ∧ s.tmo ≠ 0
  | .getUntimed _ => s.Empty .hrx
  | .awaitExpiry => s.tmo ≠ 0
  | .awaitDrain => ¬ s.Drained .bus ∧ s.tmo ≠ 0
  | .arm _ | .armPacket _ | .flush _ | .direction _ | .readStatus | .resetStatus | .setStatus _ | .clearStatus _ => False
  | .fail _ _ => False

theorem Micro.run_eq_none {m : Micro} {o : Op} {s : State} : m.run o s = none ↔ m.Holds s := by
  cases m <;> simp only [Micro.run, Micro.Holds, reduceCtorEq, ite_eq_left_iff, ite_eq_right_iff]
  case get l u =>
    by_cases h : s.Empty (rxChan l)
    · rw [if_neg (not_not.mpr h)]
      by_cases h' : s.tmo = 0
      · rw [if_pos h']; exact ⟨nofun, fun hc => absurd h' hc.2⟩
      · rw [if_neg h']; exact ⟨fun _ => ⟨h, h'⟩, fun _ => rfl⟩
    · rw [if_pos h]; exact ⟨nofun, fun hc => absurd hc.1 h⟩
  case awaitDrain =>
    by_cases h : s.Drained .bus
    · rw [if_pos h]; exact ⟨nofun, fun hc => absurd h hc.1⟩
    · rw [if_neg h]
      by_cases h' : s.tmo = 0
      · rw [if_pos h']; exact ⟨nofun, fun hc => absurd h' hc.2⟩
      · rw [if_neg h']; exact ⟨fun _ => ⟨h, h'⟩, fun _ => rfl⟩
  all_goals simp

/-- An operation holds, or the block is halted, exactly where the foreground agent has no micro-step of it. -/
theorem State.microStep_eq_none {s : State} {o : Op} (ho : s.op = some o) :
    s.microStep = none ↔ s.halt = true ∨ ∃ m rest, o.todo = m :: rest ∧ m.Holds s := by
  unfold State.microStep
  by_cases hh : s.halt = true
  · simp [hh]
  · rw [if_neg hh, ho]
    cases hd : o.todo with
    | nil => simp [hh, hd]
    | cons m rest => simp [hh, hd, Micro.run_eq_none]

/-- Everything a step can do while an operation holds: RESET, or what `HeldKept` says (the foreground agent and the client
have no step; a second operation waits or is refused). -/
theorem step_of_held {s t : State} (ho : s.op ≠ none) (hm : s.microStep = none) (h : step s = .next t) :
    ((∃ rest, s.input = .word .resetLine [] :: rest) ∧ t.op = none) ∨ HeldKept s t := by
  obtain ⟨o, hop⟩ := Option.ne_none_iff_exists'.mp ho
  have hms : ∀ l, State.microStep { s with input := l } = none := fun l =>
    (State.microStep_eq_none (s := { s with input := l }) hop).mpr ((State.microStep_eq_none hop).mp hm)
  have hfg : ∀ l, State.foregroundStep { s with input := l } = none := by
    intro l
    have := hms l
    unfold State.foregroundStep
    split
    · rfl
    · split
      · exact this
      · rename_i hn; exact absurd hn ho
  have hinput : ∀ l, HeldKept s { s with input := l } := fun l =>
    ⟨rfl, rfl, rfl, Nat.le_refl _, fun l => .inl ⟨by cases l <;> rfl, .inl (by cases l <;> rfl)⟩⟩
  have hissue : ∀ l w p, State.issue { s with input := l } w p = { s with input := l } :=
    fun l w p => State.issue_held { s with input := l } w p ho
  have hturn : HeldKept s s.foregroundTurn := by
    have : s.foregroundStep = none := hfg s.input
    rw [State.foregroundTurn, this]
    exact .refl s
  have htake : ∀ l start, ∀ t, State.takeUp { s with input := l } start = .next t → HeldKept s t := by
    intro l start t h
    unfold State.takeUp at h
    rw [if_neg (fun hc => ho hc.2.1)] at h
    cases h; exact hinput l
  have hother : ∀ f bytes rest e, fetchOther f bytes rest e s = .next t → HeldKept s t := by
    intro f bytes rest e h
    rcases fetchOther_cases h with rfl | rfl | ⟨id, instr, params, l, h⟩
    · exact (HeldKept.busFeed { s with input := rest } bytes).of_input
    · exact hturn
    · exact htake _ _ _ h
  unfold step nextLine at h
  split at h
  · cases h; exact .inr (.refl s)
  · rename_i f bytes rest hin
    unfold fetchWord at h
    split at h
    · exact .inr (hother _ _ _ _ h)
    · rename_i i more hd
      have hf := decode_format hd
      rcases State.takeLine_cases h with he | rfl
      · cases f with
        | cmd =>
          obtain ⟨p, hp⟩ := programOf_isSome (c := s.cfg) hf
          rw [exec_cmd (s := { s with input := keepWord .cmd more rest }) hp,
            State.command_held { s with input := keepWord .cmd more rest } _ ho] at he
          cases he; exact .inr (hinput _)
        | evt => exact .inr (HeldKept.event (.inl hf) he).of_input
        | busRx => exact .inr (HeldKept.event (.inr hf) he).of_input
        | resetLine =>
          cases bytes with
          | nil => cases hd; cases he; exact .inl ⟨⟨rest, hin⟩, rfl⟩
          | cons b bs => simp [decode, decodeReset] at hd
        | hostPkt =>
          obtain ⟨b, _, rfl⟩ := decode_host hd
          rw [exec_host] at he
          unfold State.takeCommand at he
          rw [if_neg (fun hc => ho hc.2.1)] at he
          cases he; exact .inr (hinput _)
        | busTx =>
          obtain ⟨id, instr, ps, hx⟩ := exec_busTx (s := { s with input := keepWord .busTx more rest }) hf
          exact .inr (htake _ _ _ (hx ▸ he))
      · exact .inr hturn
  · rename_i bytes rest hin
    unfold fetchIssue at h
    split at h
    · exact .inr (hother _ _ _ _ h)
    · simp only at h
      split at h
      · rcases State.takeLine_cases h with he | rfl
        · cases he; rw [hissue]; exact .inr (hinput _)
        · exact .inr hturn
      · cases h; exact .inr (hinput _)
  · cases h; rw [State.opTurn, hms]; exact .inr (hinput _)
  · cases h
    unfold State.clientIssue
    split
    · exact .inr (hinput _)
    · rw [hissue]; exact .inr (hinput _)
  · cases h; rw [State.runForeground_hold (hfg _)]; exact .inr (hinput _)
  · cases h
    exact .inr ⟨rfl, rfl, rfl, Nat.le_refl _, fun l => .inl ⟨by cases l <;> rfl, .inl (by cases l <;> rfl)⟩⟩

/-- The byte of an event that has no data (rule R105). -/
def FairEvent.code : FairEvent → Byte
  | .load .host => 0x81
  | .done .host => 0x82
  | .load .bus => 0x84
  | .done .bus => 0x85
  | .tick => 0x86

/-- The schedule that names the five events in turn. -/
def fairTurn (n : Nat) : FairEvent :=
  match n % 5 with
  | 0 => .load .host
  | 1 => .done .host
  | 2 => .load .bus
  | 3 => .done .bus
  | _ => .tick

/-- The states of that schedule from `s` on, each event put in front of whatever run `s` has. -/
def fairState (s : State) : Nat → State
  | 0 => s
  | n + 1 =>
    match exec (fairTurn n).instr (fairState s n) with
    | .next t => t
    | .fault _ => fairState s n
    | .refused _ => fairState s n

/-- The run of the five events in turn. -/
def fairRun (s : State) : Run :=
  { state := fairState s, line := fun n => some (.word .evt [(fairTurn n).code]) }

theorem FairEvent.decode_code (c : Config) (e : FairEvent) : decode c .evt [e.code] = .ok (e.instr, []) := by
  cases e with
  | load l => cases l <;> rfl
  | done l => cases l <;> rfl
  | tick => rfl

/-- The events answer a next state. -/
theorem FairEvent.exec_next (e : FairEvent) (s : State) : ∃ t, exec e.instr s = .next t := by
  cases e with
  | load l => cases l <;> exact ⟨_, rfl⟩
  | done l => cases l <;> exact ⟨_, rfl⟩
  | tick => exact ⟨_, rfl⟩

theorem fairRun_steps (s : State) : (fairRun s).Steps := by
  intro n
  obtain ⟨t, ht⟩ := (fairTurn n).exec_next (fairState s n)
  have h1 : (fairRun s).state (n + 1) = t := by simp only [fairRun, fairState, ht]
  rw [h1]
  have hd : decode (fairState s n).cfg .evt [(fairTurn n).code] = .ok ((fairTurn n).instr, []) := FairEvent.decode_code _ _
  have : step ((fairRun s).before n) = exec (fairTurn n).instr (fairState s n) := by
    simp [Run.before, fairRun, State.offered, step, nextLine, fetchWord, hd, State.takeLine, State.intrudes, State.admits,
      keepWord]
  rw [this, ht]

theorem fairRun_fair (s : State) : (fairRun s).Fair := by
  intro e n _
  have turn : ∃ m, n ≤ m ∧ fairTurn m = e := by
    cases e with
    | load l => cases l; exacts [⟨5 * n, by omega, by simp [fairTurn]⟩, ⟨5 * n + 2, by omega, by simp [fairTurn]⟩]
    | done l => cases l; exacts [⟨5 * n + 1, by omega, by simp [fairTurn]⟩, ⟨5 * n + 3, by omega, by simp [fairTurn]⟩]
    | tick => exact ⟨5 * n + 4, by omega, by simp [fairTurn]⟩
  obtain ⟨m, hm, rfl⟩ := turn
  refine ⟨m, hm, ?_⟩
  simp [Run.Takes, Run.before, fairRun, State.offered, State.nextEvent, FairEvent.decode_code]

/-- Every state starts a weakly fair run, so that a statement about fair runs speaks of every state. -/
theorem exists_fair_run (s : State) : ∃ r : Run, r.Steps ∧ r.Fair ∧ r.state 0 = s :=
  ⟨fairRun s, fairRun_steps s, fairRun_fair s, rfl⟩

/-- In that run an untimed get on an empty `HRX` holds for ever, as rule R73 allows: nothing is assumed of the arrivals. -/
theorem fairRun_untimed_holds {s : State} {o : Op} {u : GetUse} {rest : List Micro} (ho : s.op = some o)
    (ht : o.todo = .getUntimed u :: rest) (he : s.Empty .hrx) (n : Nat) : (fairState s n).microStep = none := by
  have keep : ∀ e t (w : State), exec (FairEvent.instr e) w = .next t → t.op = w.op ∧ t.hrx = w.hrx := by
    intro e t w h
    cases e with
    | tick => cases h; (repeat' split) <;> exact ⟨rfl, rfl⟩
    | load l => cases l <;> cases h <;> (repeat' split) <;> exact ⟨rfl, rfl⟩
    | done l => cases l <;> cases h <;> (repeat' split) <;> exact ⟨rfl, rfl⟩
  have all : ∀ n, (fairState s n).op = s.op ∧ (fairState s n).hrx = s.hrx := by
    intro n
    induction n with
    | zero => exact ⟨rfl, rfl⟩
    | succ n ih =>
      obtain ⟨t, ht⟩ := (fairTurn n).exec_next (fairState s n)
      obtain ⟨h1, h2⟩ := keep _ _ _ ht
      simp only [fairState, ht]
      exact ⟨h1.trans ih.1, h2.trans ih.2⟩
  refine (State.microStep_eq_none ((all n).1.trans ho)).mpr (.inr ⟨_, rest, ht, ?_⟩)
  show (fairState s n).hrx.put - (fairState s n).hrx.get = 0
  rw [(all n).2]
  exact he

/-- The operation in progress, from the micro-step it waits at. -/
theorem State.waitsAt_cases {s : State} {m : Micro} (h : s.waitsAt = some m) :
    ∃ o rest, s.op = some o ∧ o.todo = m :: rest := by
  unfold State.waitsAt at h
  cases ho : s.op with
  | none => rw [ho] at h; cases h
  | some o =>
    rw [ho] at h
    cases ht : o.todo with
    | nil => simp [ht] at h
    | cons a rest => exact ⟨o, rest, rfl, by simpa [ht] using h⟩

/-- An operation that is never released holds at every later point. -/
theorem Run.held_of_not_releases {r : Run} {n m : Nat} (h : ¬ r.Releases n) (hm : n ≤ m) :
    (r.state m).halt = false ∧ (r.state m).op = (r.state n).op ∧ (r.state m).microStep = none := by
  by_contra hc
  refine h ⟨m, hm, ?_⟩
  by_contra h2
  simp only [not_or, not_not] at h2
  exact hc ⟨by simpa using h2.1, h2.2⟩

/-- What each later step of the run leaves of an operation that is never released. -/
theorem Run.kept_of_not_releases {r : Run} {n m : Nat} (hs : r.Steps) (h : ¬ r.Releases n) (hop : (r.state n).op ≠ none)
    (hm : n ≤ m) : HeldKept (r.state m) (r.state (m + 1)) := by
  obtain ⟨_, h2, h3⟩ := Run.held_of_not_releases h hm
  obtain ⟨_, h2', _⟩ := Run.held_of_not_releases h (Nat.le_succ_of_le hm)
  have hb : ∃ l, r.before m = { r.state m with input := l } := by
    unfold Run.before State.offered; cases r.line m <;> exact ⟨_, rfl⟩
  obtain ⟨l, hb⟩ := hb
  have hst := hs m
  rw [hb] at hst
  have ho : (r.state m).op ≠ none := h2 ▸ hop
  obtain ⟨o, hoo⟩ := Option.ne_none_iff_exists'.mp ho
  have h3' : State.microStep { r.state m with input := l } = none :=
    (State.microStep_eq_none (s := { r.state m with input := l }) hoo).mpr ((State.microStep_eq_none hoo).mp h3)
  rcases step_of_held (s := { r.state m with input := l }) ho h3' hst with h | h
  · exact absurd (h2'.symm.trans h.2) hop
  · exact h.of_input

/-- A step of the run that takes an event is the meaning of the event. -/
theorem Run.exec_of_takes {r : Run} {n : Nat} {e : FairEvent} (hs : r.Steps) (h : r.Takes n e) :
    ∃ l, exec e.instr { r.state n with input := l } = .next (r.state (n + 1)) := by
  obtain ⟨l, hl⟩ := step_nextEvent h
  rw [hs n] at hl
  unfold Run.before State.offered at hl
  cases hx : r.line n <;> rw [hx] at hl <;> exact ⟨l, hl.symm⟩

end Sys2Proof.Machine
end

