-- ==== Sys2Proof/Tests/Slice0.lean ====
section
/-!
SUPPORT. Tests/Slice0.lean: our own tests. First the well-formedness checks, the decoder on words written out from the
tables of 30_encoding.md, and the two entries of the host; then one step of each instruction on a small state, the
expected values from the examples of the instruction's rule or from 95_test_vectors.md (the source stands at each); last,
a state and operands that meet the hypotheses of each statement of Certificates/Slice0/Obligations.lean (`wit_…`).
-/

namespace Sys2Proof.Tests

open Sys2Proof Sys2Proof.Machine

/-! ### Helpers -/

/-- The reset state with bytes pushed to a channel. -/
def holds (c : Chan) (bs : List Byte) : State := bs.foldl (fun s b => s.push c b) State.reset

/-- The same, with both RX channels and both TX channels given. -/
def bridge (hrx htx brx btx : List Byte) : State :=
  btx.foldl (fun s b => s.push .btx b) (brx.foldl (fun s b => s.push .brx b)
    (htx.foldl (fun s b => s.push .htx b) (holds .hrx hrx)))

/-- Every capacity 4, as the examples of 40_fifo_ops.md have it. -/
def cap4 : Config := { Config.customary with capHrx := 4, capHtx := 4, capBrx := 4, capBtx := 4 }

/-- The reset state with capacities 4 and bytes pushed to a channel. -/
def small (c : Chan) (bs : List Byte) : State := bs.foldl (fun s b => s.push c b) { State.reset with cfg := cap4 }

/-- The analog samples of the worked scenarios: 7A 50 30. -/
def probes : Client := { Client.reset with supply := 0x7A, secondary := 0x50, thermal := 0x30 }

/-- The reset state with those samples and bytes from the host. -/
def talking (hrx : List Byte) : State := { holds .hrx hrx with client := probes }

/-- A look at the state an outcome goes on with. -/
def view {α : Type} (o : Host.Outcome State Fault Refusal) (f : State → α) : Option α :=
  match o with
  | .next t => some (f t)
  | .fault _ => none
  | .refused _ => none

/-! ### Well-formedness: an ill-formed term for each check -/

theorem test_wf_refuses_unreserved : (Instr.invalidReserved 0xF4).wf = false := by decide
theorem test_wf_refuses_good_sync : (Instr.invalidBadSync 0xF0).wf = false := by decide
theorem test_wf_refuses_long_write : (Instr.biRegWrite 1 0 (List.replicate 255 0)).wf = false := by decide +kernel
theorem test_wf_refuses_long_reply : (Instr.busReply { id := 1 } 0 (List.replicate 256 0) 0).wf = false := by decide +kernel

/-! ### Decoding: rule R92, byte for byte -/

theorem test_decode_fifo :
    decode cap4 .cmd [0x00, 0x05] = .ok (.hrxGet 0x05, []) ∧ decode cap4 .cmd [0x01] = .ok (.hrxWait, []) ∧
    decode cap4 .cmd [0x02] = .ok (.hrxFlush, []) ∧ decode cap4 .cmd [0x03, 0x41] = .ok (.htxPut 0x41, []) ∧
    decode cap4 .cmd [0x04, 0x03] = .ok (.brxGet 0x03, []) ∧ decode cap4 .cmd [0x05] = .ok (.brxFlush, []) ∧
    decode cap4 .cmd [0x06, 0xFF] = .ok (.btxPut 0xFF, []) := ⟨rfl, rfl, rfl, rfl, rfl, rfl, rfl⟩

theorem test_decode_host_codec :
    decode cap4 .cmd [0x10, 0xF0] = .ok (.hcTxStart 0xF0, []) ∧
    decode cap4 .cmd [0x11, 0x7A, 0x01] = .ok (.hcTxByte 0x7A true, []) ∧
    decode cap4 .cmd [0x11, 0x7A, 0x00] = .ok (.hcTxByte 0x7A false, []) ∧
    decode cap4 .cmd [0x12] = .ok (.hcTxEnd, []) ∧ decode cap4 .cmd [0x13] = .ok (.hcRxStart, []) ∧
    decode cap4 .cmd [0x14, 0x01] = .ok (.hcRxByte true, []) ∧ decode cap4 .cmd [0x15] = .ok (.hcRxEnd, []) :=
  ⟨rfl, rfl, rfl, rfl, rfl, rfl, rfl⟩

theorem test_decode_bus_codec :
    decode cap4 .cmd [0x20, 0x01, 0x02, 0x03] = .ok (.bcTxStart 0x01 0x02 0x03, []) ∧
    decode cap4 .cmd [0x21, 0x2B] = .ok (.bcTxByte 0x2B, []) ∧ decode cap4 .cmd [0x22] = .ok (.bcTxEnd, []) ∧
    decode cap4 .cmd [0x23, 0x01] = .ok (.bcRxPacket 0x01, []) ∧ decode cap4 .cmd [0x24] = .ok (.bcRxEnd, []) :=
  ⟨rfl, rfl, rfl, rfl, rfl⟩

theorem test_decode_system :
    decode cap4 .cmd [0x30] = .ok (.dirTx, []) ∧ decode cap4 .cmd [0x31] = .ok (.dirRx, []) ∧
    decode cap4 .cmd [0x32, 0x0A] = .ok (.tmoArm 0x0A, []) ∧ decode cap4 .cmd [0x33] = .ok (.tmoWait, []) ∧
    decode cap4 .cmd [0x34] = .ok (.stRead, []) ∧ decode cap4 .cmd [0x35] = .ok (.stReset, []) ∧
    decode cap4 .cmd [0x36, 0x04] = .ok (.stSet 0x04, []) ∧ decode cap4 .cmd [0x37, 0x80] = .ok (.stClr 0x80, []) :=
  ⟨rfl, rfl, rfl, rfl, rfl, rfl, rfl, rfl⟩

/-! Rule R105. -/

theorem test_decode_events :
    decode cap4 .evt [0x80, 0xF0] = .ok (.evHrx 0xF0, []) ∧ decode cap4 .evt [0x81] = .ok (.evHtxLoad, []) ∧
    decode cap4 .evt [0x82] = .ok (.evHtxDone, []) ∧ decode cap4 .evt [0x83, 0xFF] = .ok (.evBrx 0xFF, []) ∧
    decode cap4 .evt [0x84] = .ok (.evBtxLoad, []) ∧ decode cap4 .evt [0x85] = .ok (.evBtxDone, []) ∧
    decode cap4 .evt [0x86] = .ok (.evTick, []) ∧ decode cap4 .evt [0x87] = .ok (.evUnmapped, []) ∧
    decode cap4 .resetLine [] = .ok (.reset, []) := ⟨rfl, rfl, rfl, rfl, rfl, rfl, rfl, rfl, rfl⟩

/-! Rule R95. -/

theorem test_decode_host :
    decode cap4 .hostPkt [0xF0] = .ok (.ping, []) ∧ decode cap4 .hostPkt [0xF1] = .ok (.setReadFormat, []) ∧
    decode cap4 .hostPkt [0xF2] = .ok (.setWriteFormat, []) ∧ decode cap4 .hostPkt [0xF3] = .ok (.readData, []) ∧
    decode cap4 .hostPkt [0xF4] = .ok (.writeData, []) ∧
    decode cap4 .hostPkt [0xF5] = .ok (.invalidReserved 0xF5, []) ∧
    decode cap4 .hostPkt [0xEF] = .ok (.invalidBadSync 0xEF, []) := ⟨rfl, rfl, rfl, rfl, rfl, rfl, rfl⟩

/-! Rules R99, R100, R108: the packets of 95_test_vectors.md (B1, B2, B3, P8 and the reply of R183's example). -/

theorem test_decode_bus_ping : decode cap4 .busTx [0xFF, 0xFF, 0x01, 0x02, 0x01, 0xFB] = .ok (.biPing 0x01, []) := rfl
theorem test_decode_bus_read :
    decode cap4 .busTx [0xFF, 0xFF, 0x01, 0x04, 0x02, 0x2B, 0x01, 0xCC] = .ok (.biRead 0x01 0x2B 0x01, []) := rfl
theorem test_decode_bus_write :
    decode cap4 .busTx [0xFF, 0xFF, 0x01, 0x05, 0x04, 0x1E, 0x11, 0x22, 0xA4] =
      .ok (.biRegWrite 0x01 0x1E [0x11, 0x22], []) := rfl
theorem test_decode_bus_action : decode cap4 .busTx [0xFF, 0xFF, 0xFE, 0x02, 0x05, 0xFA] = .ok (.biAction, []) := rfl
theorem test_decode_bus_reply :
    decode cap4 .busRx [0xFF, 0xFF, 0x01, 0x03, 0x00, 0x20, 0xDB] = .ok (.busReply { id := 0x01 } 0x00 [0x20] 0xDB, []) := rfl

/-- Rule R103 (c): "a sync byte other than 0xFF" is non-fatal. -/
theorem test_decode_bus_reply_bad_sync :
    decode cap4 .busRx [0xFE, 0x00, 0x01, 0x02, 0x00, 0xFC] =
      .ok (.busReply { s1 := 0xFE, s2 := 0x00, id := 0x01 } 0x00 [] 0xFC, []) := rfl

/-! Rule R103: what is unassigned is refused by name. -/

theorem test_decode_refuses_opcode : decode cap4 .cmd [0x07] = .error (.unassignedOpcode 0x07) := rfl
theorem test_decode_refuses_event : decode cap4 .evt [0x88] = .error (.reservedEvent 0x88) := rfl
theorem test_decode_refuses_acc : decode cap4 .cmd [0x14, 0x02] = .error (.unassignedAccumulate 0x02) := rfl
theorem test_decode_refuses_truncated : decode cap4 .cmd [0x20, 0x01] = .error .truncated := rfl
theorem test_decode_refuses_bad_checksum :
    decode cap4 .busTx [0xFF, 0xFF, 0x01, 0x02, 0x01, 0xFA] = .error .badChecksum := rfl

/-! The entries of the host: a row's word, and its first step after reset. -/

theorem test_table_hrx_get : decodeTableWord 16 0x0500 = some (.hrxGet 0x05) := by decide
theorem test_table_bc_tx_start : decodeTableWord 32 0x03020120 = some (.bcTxStart 0x01 0x02 0x03) := by decide
theorem test_table_ping : decodeTableWord 8 0xF0 = some .ping := by decide
theorem test_first_step_dir_tx :
    view (step (State.reset.withFetchWord 8 0x30)) (fun t => (t.dir, t.input)) = some (.transmit, []) := by
  decide +kernel
theorem test_first_step_ev_hrx :
    view (step (State.reset.withFetchWord 16 0x4180)) (fun t => (t.contents .hrx, t.input)) = some ([0x41], []) := by
  decide +kernel

/-! Lines that are no row: rules R99, R142 and R337 with U12. -/

theorem test_step_short_bus_bytes_arrive :
    view (step { State.reset with input := [.word .busRx [0xFF, 0xFE, 0x01]] }) (fun t => (t.contents .brx, t.input)) =
      some ([0xFF, 0xFE, 0x01], []) := by decide
theorem test_step_opaque_bus_packet_is_sent :
    view (step { State.reset with input := [.word .busTx [0xFF, 0xFF, 0x01, 0x02, 0x06, 0xF6]] })
      (fun t => (t.contents .btx, t.dir)) = some ([0xFF, 0xFF, 0x01, 0x02, 0x06, 0xF6], .transmit) := by decide
theorem test_step_refuses_second_thread :
    step { State.reset with client := { Client.reset with pos := .pingAddr }, input := [.word .cmd [0x30]] } =
      .refused .secondThread := rfl

/-! ### One step of each instruction -/

/-- Rule R136: "`HRX` holds `{0x41}`; `HRX_GET 5 -> Ok(0x41)`; `HRX` empty, `TMO = 5`". -/
theorem test_hrx_get :
    view (exec (.hrxGet 5) (holds .hrx [0x41])) (fun t => (t.cmdOut, t.contents .hrx, t.tmo)) =
      some ([⟨.ok, [0x41]⟩], [], 5) := by decide

/-- Rule R138: the byte 0xF3 is there. -/
theorem test_hrx_wait :
    view (exec .hrxWait (holds .hrx [0xF3])) (fun t => (t.cmdOut, t.tmo)) = some ([⟨.ok, [0xF3]⟩], 0) := by
  decide

/-- Rule R139: "`HRX.get = 2`, `HRX.put = 5`; `HRX_FLUSH -> Ok`; `HRX.get = 5`, `len = 0`". -/
theorem test_hrx_flush :
    view (exec .hrxFlush { State.reset with hrx := { buf := [], get := 2, put := 5 } })
      (fun t => (t.hrx.get, t.len .hrx)) = some (5, 0) := by decide

/-- Rule R134: "now `HTX.buf[0] = 0x41`, `HTX.put = 1`, `len = 1`". -/
theorem test_htx_put :
    view (exec (.htxPut 0x41) State.reset) (fun t => (t.slot .htx 0, t.htx.put, t.len .htx)) = some (0x41, 1, 1) := by
  decide

/-- Rule R137: `BRX` empty: three ticks are waited for. -/
theorem test_brx_get :
    view (exec (.brxGet 3) State.reset) (fun t => (t.cmdOut, t.tmo)) = some ([], 3) := by decide

/-- Rule R140: "`BRX.get = 0`, `BRX.put = 4` (full at `CAP_BRX = 4`); `BRX.get = 4`, `len = 0`". -/
theorem test_brx_flush :
    view (exec .brxFlush (small .brx [1, 2, 3, 4])) (fun t => (t.brx.get, t.len .brx)) = some (4, 0) := by
  decide

/-- Rule R135: "`BTX` holding 3 of 4 bytes; `BTX_PUT 0xFF -> Ok`; `len = 4`, `full(BTX)`". -/
theorem test_btx_put :
    view (exec (.btxPut 0xFF) (small .btx [1, 2, 3])) (fun t => (t.len .btx, decide (t.Full .btx))) =
      some (4, true) := by decide

/-- Rule R160: "`HTX` gains `0xF0`; `HC_TX_SUM = 0xF0`". -/
theorem test_hc_tx_start :
    view (exec (.hcTxStart 0xF0) { State.reset with hcTxSum := 0x77 }) (fun t => (t.contents .htx, t.hcTxSum)) =
      some ([0xF0], 0xF0) := by decide

/-- Rule R161: "`HC_TX_SUM = u8(0xF0 + 0x7A) = 0x6A`". -/
theorem test_hc_tx_byte :
    view (exec (.hcTxByte 0x7A true) { State.reset with hcTxSum := 0xF0 }) (fun t => (t.contents .htx, t.hcTxSum)) =
      some ([0x7A], 0x6A) := by decide

/-- Rule R162: "`HC_TX_SUM = 0xEA`; `HC_TX_END -> Ok` queues `0x15`". -/
theorem test_hc_tx_end :
    view (exec .hcTxEnd { State.reset with hcTxSum := 0xEA }) (fun t => (t.contents .htx, t.hcTxSum)) =
      some ([0x15], 0xEA) := by decide

/-- Rule R163: "`HC_RX_START -> Ok(0xF0)`; `HC_RX_SUM = 0xF0`". -/
theorem test_hc_rx_start :
    view (exec .hcRxStart { holds .hrx [0xF0] with hcRxSum := 0x33 }) (fun t => (t.cmdOut, t.hcRxSum)) =
      some ([⟨.ok, [0xF0]⟩], 0xF0) := by decide

/-- Rule R164: "`HC_RX_SUM = 0xF0`, `HRX` holds `{0x64}`; `HC_RX_BYTE 1 -> Ok(0x64)`; `HC_RX_SUM = 0x54`". -/
theorem test_hc_rx_byte :
    view (exec (.hcRxByte true) { holds .hrx [0x64] with hcRxSum := 0xF0 }) (fun t => (t.cmdOut, t.hcRxSum)) =
      some ([⟨.ok, [0x64]⟩], 0x54) := by decide

/-- Rule R165: "`HC_RX_SUM = 0x00` expects 0xFF". -/
theorem test_hc_rx_end :
    view (exec .hcRxEnd (holds .hrx [0xFF])) (fun t => (t.cmdOut, t.status)) = some ([⟨.ok, []⟩], 0x00) := by
  decide

/-- Rule R165: another byte: `Checksum` and `HostChecksumError`. -/
theorem test_hc_rx_end_mismatch :
    view (exec .hcRxEnd (holds .hrx [0xFE])) (fun t => (t.cmdOut, t.status)) = some ([⟨.checksum, []⟩], 0x40) := by
  decide

/-- Rule R180: "queues `FF FF 01 02 01`; `BC_TX_SUM = 0x04`". -/
theorem test_bc_tx_start :
    view (exec (.bcTxStart 0x01 0 0x01) State.reset) (fun t => (t.contents .btx, t.bcTxSum)) =
      some ([0xFF, 0xFF, 0x01, 0x02, 0x01], 0x04) := by decide

/-- Rule R181: "`BC_TX_SUM = 0x07`), `BC_TX_BYTE 0x2B -> Ok` gives `BC_TX_SUM = 0x32`". -/
theorem test_bc_tx_byte :
    view (exec (.bcTxByte 0x2B) { State.reset with bcTxSum := 0x07 }) (fun t => (t.contents .btx, t.bcTxSum)) =
      some ([0x2B], 0x32) := by decide

/-- Rule R182: "`BC_TX_SUM = 0x04`; `BC_TX_END` queues `0xFB`", then waits for the drain. -/
theorem test_bc_tx_end :
    view (exec .bcTxEnd { State.reset with bcTxSum := 0x04 }) (fun t => (t.contents .btx, t.bcTxSum, t.cmdOut, t.tmo)) =
      some ([0xFB], 0x04, [], 10) := by decide

/-- Rule R183: its example. -/
theorem test_bc_rx_packet :
    view (exec (.bcRxPacket 1) (holds .brx [0xFF, 0xFF, 0x01, 0x03, 0x00, 0x20, 0xDB]))
      (fun t => (t.cmdOut, t.bcRxSum, t.contents .brx)) =
      some ([⟨.ok, [0x01, 0x03, 0x00, 0x01, 0x20]⟩], 0x24, [0xDB]) := by decide

/-- Rule R183: `paramCount > expected`: the rest is consumed, discarded and flagged. -/
theorem test_bc_rx_packet_excess :
    view (exec (.bcRxPacket 0) (holds .brx [0xFF, 0xFF, 0x01, 0x03, 0x00, 0x20, 0xDB]))
      (fun t => (t.cmdOut, t.status, t.contents .brx)) =
      some ([⟨.ok, [0x01, 0x03, 0x00, 0x00]⟩], 0x08, [0xDB]) := by decide

/-- Rule R184: "`BC_RX_SUM = 0x24`, `BRX` holds `{0xDB}`; `BC_RX_END -> Ok`". -/
theorem test_bc_rx_end :
    view (exec .bcRxEnd { holds .brx [0xDB] with bcRxSum := 0x24 }) (fun t => (t.cmdOut, t.status)) =
      some ([⟨.ok, []⟩], 0x00) := by decide

/-- Rule R184: "with `{0xDA}`, `-> Checksum` and `STATUS.BusChecksumError = 1`". -/
theorem test_bc_rx_end_mismatch :
    view (exec .bcRxEnd { holds .brx [0xDA] with bcRxSum := 0x24 }) (fun t => (t.cmdOut, t.status)) =
      some ([⟨.checksum, []⟩], 0x80) := by decide

/-- Rules R210, R211: their examples, DIR-OUT 1 and 0. -/
theorem test_dir_tx : view (exec .dirTx State.reset) (fun t => t.dirOut) = some true := by decide
theorem test_dir_rx :
    view (exec .dirRx { State.reset with dir := .transmit }) (fun t => t.dirOut) = some false := by decide

/-- Rule R213: "`TMO_ARM 10 -> Ok`; `TMO = 10`". -/
theorem test_tmo_arm : view (exec (.tmoArm 10) State.reset) (fun t => t.tmo) = some 10 := by decide

/-- Rule R214: "`TMO = 2`; `TMO_WAIT` holds". -/
theorem test_tmo_wait :
    view (exec .tmoWait { State.reset with tmo := 2 }) (fun t => (t.cmdOut, t.op.isSome)) = some ([], true) := by
  decide

/-- Rules R216 to R219: their examples. -/
theorem test_st_read :
    view (exec .stRead { State.reset with status := 0x82 }) (fun t => (t.cmdOut, t.status)) =
      some ([⟨.ok, [0x82]⟩], 0x82) := by decide
theorem test_st_reset : view (exec .stReset { State.reset with status := 0x14 }) (fun t => t.status) = some 0x00 := by
  decide
theorem test_st_set : view (exec (.stSet 0x04) State.reset) (fun t => t.status) = some 0x04 := by decide
theorem test_st_clr :
    view (exec (.stClr 0x80) { State.reset with status := 0x88 }) (fun t => t.status) = some 0x08 := by decide

/-- Rule R141: "`HRX` full with `{1, 2, 3, 4}`; `@ EV_HRX 5`; `HRX` still `{1, 2, 3, 4}`, `STATUS.HostOverflow = 1`". -/
theorem test_ev_hrx_overflow :
    view (exec (.evHrx 5) (small .hrx [1, 2, 3, 4])) (fun t => (t.contents .hrx, t.status)) =
      some ([1, 2, 3, 4], 0x10) := by decide

/-- Rule R142: its example, in both directions. -/
theorem test_ev_brx : view (exec (.evBrx 0xFF) State.reset) (fun t => t.contents .brx) = some [0xFF] := by
  decide
theorem test_ev_brx_transmit :
    view (exec (.evBrx 0xFF) { State.reset with dir := .transmit }) (fun t => (t.contents .brx, t.status)) =
      some ([], 0x00) := by decide

/-- Rule R143: "`HTX` holds `{0xF0, 0x00}`, shift empty; `HTX` holds `{0x00}`, `HTX.shift = 0xF0`". -/
theorem test_ev_htx_load :
    view (exec .evHtxLoad (holds .htx [0xF0, 0x00])) (fun t => (t.contents .htx, t.htxShift)) =
      some ([0x00], some 0xF0) := by decide

/-- Rule R144: "`HOST_OUT` gains `0xF0`; shift empty". -/
theorem test_ev_htx_done :
    view (exec .evHtxDone { State.reset with htxShift := some 0xF0 }) (fun t => (t.hostOut, t.htxShift)) =
      some ([0xF0], none) := by decide

/-- Rule R145: "`DIR = Transmit`, `BTX` holds `{0xFF, 0xFF, 0x01}`; `BTX` holds `{0xFF, 0x01}`, `BTX.shift = 0xFF`". -/
theorem test_ev_btx_load :
    view (exec .evBtxLoad { holds .btx [0xFF, 0xFF, 0x01] with dir := .transmit })
      (fun t => (t.contents .btx, t.btxShift)) = some ([0xFF, 0x01], some 0xFF) := by decide

/-- Rule R146: "`DIR = Transmit`, `BTX.shift = 0xFB`; `BUS_OUT` gains `0xFB`"; in `Receive` the byte is lost. -/
theorem test_ev_btx_done :
    view (exec .evBtxDone { State.reset with dir := .transmit, btxShift := some 0xFB })
      (fun t => (t.busOut, t.btxShift)) = some ([0xFB], none) := by decide
theorem test_ev_btx_done_lost :
    view (exec .evBtxDone { State.reset with btxShift := some 0xFB }) (fun t => (t.busOut, t.btxShift)) =
      some ([], none) := by decide

/-- Rule R215: "`TMO = 1`; `@ EV_TICK`; `TMO = 0`; `@ EV_TICK`; `TMO = 0`". -/
theorem test_ev_tick : view (exec .evTick { State.reset with tmo := 1 }) (fun t => t.tmo) = some 0 := by decide
theorem test_ev_tick_at_zero : view (exec .evTick State.reset) (fun t => t.tmo) = some 0 := by decide

/-- Rule R220: HALT-OUT = 1. -/
theorem test_ev_unmapped : view (exec .evUnmapped State.reset) (fun t => t.haltOut) = some true := by decide

/-- Rule R221: also from the halted state. -/
theorem test_reset :
    view (exec .reset { small .hrx [1] with halt := true, status := 0xFF, dir := .transmit })
      (fun t => (t.halt, t.status, t.dir, t.len .hrx)) = some (false, 0x00, .receive, 0) := by decide

/-- Program P1 of 95_test_vectors.md: `PING(255)` is answered `F0 00 00 7A 50 30 15`. -/
theorem test_ping :
    view (exec .ping (talking [0xFF, 0x10])) (fun t => (t.contents .htx, t.op)) =
      some ([0xF0, 0x00, 0x00, 0x7A, 0x50, 0x30, 0x15], none) := by decide

/-- Rules R248, R252: `SET_READ_FORMAT` with entryCount 33: InvalidHostCommand, the table left with 0 entries. -/
theorem test_set_read_format :
    view (exec .setReadFormat { talking [0x21] with client := { probes with readTable := [⟨1, 2, 3⟩] } })
      (fun t => (t.client.readTable, t.status)) = some ([], 0x04) := by decide

/-- Program P8: the entry (1, 0x1E, 2) is taken into the write table. -/
theorem test_set_write_format :
    view (exec .setWriteFormat (talking [0x01, 0x01, 0x1E, 0x02, 0xEB]))
      (fun t => (t.client.writeTable, t.client.readTable, t.status)) = some ([⟨0x01, 0x1E, 0x02⟩], [], 0x00) := by
  decide

/-- Program P6: over the entry (1, 52, 3) the first packet is `FF FF 01 04 02 34 02 C2`. -/
theorem test_read_data :
    view (exec .readData { talking [0x0C] with client := { probes with readTable := [⟨1, 52, 3⟩] } })
      (fun t => (t.contents .btx, t.dir)) = some ([0xFF, 0xFF, 0x01, 0x04, 0x02, 0x34, 0x02, 0xC2], .transmit) := by
  decide

/-- Program P8: the payload 11 22 gives the packet `FF FF 01 05 04 1E 11 22 A4`. -/
theorem test_write_data :
    view (exec .writeData { talking [0x11, 0x22] with client := { probes with writeTable := [⟨0x01, 0x1E, 0x02⟩] } })
      (fun t => t.contents .btx) = some [0xFF, 0xFF, 0x01, 0x05, 0x04, 0x1E, 0x11, 0x22, 0xA4] := by decide

/-- Program P7: the byte 55 is answered `55 04 00 7A 50 30 AC`. -/
theorem test_invalid_bad_sync :
    view (exec (.invalidBadSync 0x55) (talking [])) (fun t => (t.contents .htx, t.tmo)) =
      some ([0x55, 0x04, 0x00, 0x7A, 0x50, 0x30, 0xAC], 3) := by decide

/-- Rule R252: the offending byte is echoed. -/
theorem test_invalid_reserved :
    view (exec (.invalidReserved 0xF5) (talking [])) (fun t => ((t.contents .htx).head?, t.status)) =
      some (some 0xF5, 0x04) := by decide

/-- Vector B1. -/
theorem test_bi_ping :
    view (exec (.biPing 0x01) State.reset) (fun t => (t.contents .btx, t.dir)) =
      some ([0xFF, 0xFF, 0x01, 0x02, 0x01, 0xFB], .transmit) := by decide

/-- Vector B2. -/
theorem test_bi_read :
    view (exec (.biRead 0x01 0x2B 0x01) State.reset) (fun t => (t.contents .btx, t.bcTxSum)) =
      some ([0xFF, 0xFF, 0x01, 0x04, 0x02, 0x2B, 0x01, 0xCC], 0x33) := by decide

/-- Program P8. -/
theorem test_bi_reg_write :
    view (exec (.biRegWrite 0x01 0x1E [0x11, 0x22]) State.reset) (fun t => t.contents .btx) =
      some [0xFF, 0xFF, 0x01, 0x05, 0x04, 0x1E, 0x11, 0x22, 0xA4] := by decide

/-- Vector B3. -/
theorem test_bi_action :
    view (exec .biAction State.reset) (fun t => t.contents .btx) = some [0xFF, 0xFF, 0xFE, 0x02, 0x05, 0xFA] := by
  decide

/-- The reply of rule R183's example, as it arrives. -/
theorem test_bus_reply :
    view (exec (.busReply { id := 0x01 } 0x00 [0x20] 0xDB) State.reset) (fun t => t.contents .brx) =
      some [0xFF, 0xFF, 0x01, 0x03, 0x00, 0x20, 0xDB] := by decide

/-! ### Witnesses: states and operands that meet the hypotheses of the statements

`∃ t, exec i s = .next t` and the like are met by evaluation. Where a statement has clauses over a range, the values
stand at its ends. -/

/-- A state of the host's side: three bytes received. -/
def heard : State := holds .hrx [1, 2, 3]

/-- A full channel of each kind, capacities 4. -/
def fullHrx : State := small .hrx [1, 2, 3, 4]
def fullHtx : State := small .htx [1, 2, 3, 4]
def fullBrx : State := small .brx [1, 2, 3, 4]
def fullBtx : State := small .btx [1, 2, 3, 4]

/-- Parameters with every timeout 0. -/
def noTime : Config := { Config.customary with tHostRx := 0, tBusRx := 0, tBusDrain := 0 }

theorem wit_DecodeOfEncodeGivesInstruction :
    (Instr.biRegWrite 0xFE 0xFF (List.replicate 254 0xFF)).wf = true ∧
    (Instr.busReply { id := 0xFF } 0xFF (List.replicate 255 0xFF) 0xFF).wf = true ∧
    (Instr.invalidReserved 0xF5).wf = true ∧ (Instr.invalidBadSync 0xEF).wf = true ∧
    Config.customary.busCodesDiffer ∧ Instr.reset.wf = true ∧ Instr.reset.format = .resetLine := by decide +kernel

theorem wit_DecodedBytesAreTheEncoding :
    decode cap4 .busTx [0xFF, 0xFF, 0xFE, 0x02, 0x05, 0xFA, 0x11] = .ok (.biAction, [0x11]) ∧
    decode cap4 .hostPkt [0xFF] = .ok (.invalidReserved 0xFF, []) := ⟨rfl, rfl⟩

theorem wit_UnassignedCodesAreRefused :
    (0x07#8).toNat ∉ [0x00, 0x01, 0x02, 0x03, 0x04, 0x05, 0x06, 0x10, 0x11, 0x12, 0x13, 0x14, 0x15, 0x20, 0x21, 0x22,
      0x23, 0x24, 0x30, 0x31, 0x32, 0x33, 0x34, 0x35, 0x36, 0x37] ∧
    (0xFF#8).toNat ∉ [0x00, 0x01, 0x02, 0x03, 0x04, 0x05, 0x06, 0x10, 0x11, 0x12, 0x13, 0x14, 0x15, 0x20, 0x21, 0x22,
      0x23, 0x24, 0x30, 0x31, 0x32, 0x33, 0x34, 0x35, 0x36, 0x37] ∧
    (0x7F#8).toNat ∉ [0x80, 0x81, 0x82, 0x83, 0x84, 0x85, 0x86, 0x87] ∧
    (0x88#8).toNat ∉ [0x80, 0x81, 0x82, 0x83, 0x84, 0x85, 0x86, 0x87] ∧
    ({ State.reset with input := [.word .cmd [0x07], .turn] } : State).input = .word .cmd (0x07 :: []) :: [.turn] := by decide

theorem wit_HostByteRoutesByNibbles :
    (0xEF#8).extractLsb' 4 4 ≠ 0xF#4 ∧ (0xF0#8).extractLsb' 4 4 = 0xF#4 ∧ (0xF0#8).extractLsb' 0 4 = 0x0#4 ∧
    (0xF1#8).extractLsb' 0 4 = 0x1#4 ∧ (0xF2#8).extractLsb' 0 4 = 0x2#4 ∧ (0xF3#8).extractLsb' 0 4 = 0x3#4 ∧
    (0xF4#8).extractLsb' 0 4 = 0x4#4 ∧ 5 ≤ ((0xF5#8).extractLsb' 0 4).toNat ∧
    5 ≤ ((0xFF#8).extractLsb' 0 4).toNat := by decide

theorem wit_StepRunsDecodedInstruction :
    let s : State := { heard with input := [.word .cmd [0x30, 0x31], .turn] }
    decode s.cfg .cmd [0x30, 0x31] = .ok (.dirTx, [0x31]) ∧ s.intrudes .cmd = false ∧ s.admits .cmd = true ∧
    ({ s with op := some ⟨.script, [.awaitExpiry], [], none⟩ } : State).intrudes .cmd = false ∧
    ({ s with op := some ⟨.script, [.awaitExpiry], [], none⟩ } : State).admits .cmd = false ∧
    ({ s with client := { Client.reset with pos := .idle } } : State).intrudes .cmd = true :=
  ⟨rfl, by decide, by decide, by decide, by decide, by decide⟩

theorem wit_CmdRunsToItsHold :
    State.reset.op = none ∧ programOf State.reset.cfg (.hrxGet 5) = some (hrxGetProgram 5) ∧
    ∃ t, exec (.hrxGet 5) State.reset = .next t := ⟨rfl, rfl, _, rfl⟩

theorem wit_RawGetTakesOldestByteOrPolls :
    heard.Ready ∧ ¬ heard.Empty .hrx ∧ heard.Empty .brx ∧ ¬ fullBrx.Empty .brx ∧ fullBrx.Empty .hrx ∧ fullBrx.Ready := by
  decide

theorem wit_RawGetTimesOutAfterExactlyTTicks :
    State.reset.Ready ∧ State.reset.Empty .hrx ∧ State.reset.Empty .brx ∧ (1 : Byte) ≠ 0 ∧ (255 : Byte) ≠ 0 := by decide

theorem wit_HeldGetReceivesArrival :
    State.reset.Ready ∧ (1 : Byte) ≠ 0 ∧ State.reset.Empty .hrx ∧ (State.reset.chan .hrx).get ≤ (State.reset.chan .hrx).put ∧
    0 < State.reset.cap .hrx ∧ State.reset.Empty .brx ∧ (State.reset.chan .brx).get ≤ (State.reset.chan .brx).put ∧
    0 < State.reset.cap .brx ∧ State.reset.dir = .receive ∧
    (∃ w, exec (.hrxGet 1) State.reset = .next w) ∧ ∃ w, exec (.brxGet 1) State.reset = .next w :=
  ⟨by decide, by decide, by decide, by decide, by decide, by decide, by decide, by decide, rfl, ⟨_, rfl⟩, _, rfl⟩

theorem wit_UntimedWaitTakesByteOrHolds :
    heard.Ready ∧ ¬ heard.Empty .hrx ∧ State.reset.Ready ∧ State.reset.Empty .hrx := by decide

theorem wit_FlushEmptiesTheChannel : fullHrx.Ready ∧ fullBrx.Ready := by decide

theorem wit_PutPushesOrHolds :
    State.reset.Ready ∧ ¬ State.reset.Full .htx ∧ ¬ State.reset.Full .btx ∧ fullHtx.Ready ∧ fullHtx.Full .htx ∧
    fullBtx.Ready ∧ fullBtx.Full .btx := by decide

theorem wit_HeldPutIsReleasedByLoad :
    (fullHtx.Ready ∧ fullHtx.Full .htx ∧ 0 < fullHtx.cap .htx ∧ fullHtx.htxShift = none ∧
      ∃ w, exec (.htxPut 9) fullHtx = .next w) ∧
    (let s : State := { fullBtx with dir := .transmit };
      s.Ready ∧ s.Full .btx ∧ 0 < s.cap .btx ∧ s.btxShift = none ∧ s.dir = .transmit ∧
      ∃ w, exec (.btxPut 9) s = .next w) ∧
    (fullBtx.Ready ∧ fullBtx.Full .btx ∧ fullBtx.dir = .receive ∧ ∃ w, exec (.btxPut 9) fullBtx = .next w) :=
  ⟨⟨by decide, by decide, by decide, rfl, _, rfl⟩, ⟨by decide, by decide, by decide, rfl, rfl, _, rfl⟩,
    by decide, by decide, rfl, _, rfl⟩

/-- A step that is no RESET, from a put that holds on a full BTX in `Receive`. -/
theorem wit_HeldPutIsReleasedByLoad_receive :
    let s : State := { fullBtx.holding [.put .bus 9 .keep] [] none with input := [.word .evt [0x84]] }
    s.waitsAt = some (.put .bus 9 .keep) ∧ (Micro.put .bus 9 .keep).putsTo .bus = true ∧ s.dir = .receive ∧
      s.Full .btx ∧ (∀ rest, s.input ≠ .word .resetLine [] :: rest) ∧ ∃ t, step s = .next t :=
  ⟨rfl, rfl, rfl, by decide, (by intro rest h; cases h), _, rfl⟩

/-- A weakly fair run with a put that holds on each link. -/
theorem wit_HeldPutIsReleasedByLoad_fair :
    (let r := fairRun (fullHtx.holding [.put .host 9 .keep] [] none);
      r.Steps ∧ r.Fair ∧ (r.state 0).waitsAt = some (.put .host 9 .keep) ∧ 0 < (r.state 0).cap (txChan .host)) ∧
    (let r := fairRun (({ fullBtx with dir := .transmit } : State).holding [.putChecksum .bus] [] none);
      r.Steps ∧ r.Fair ∧ (r.state 0).waitsAt = some (.putChecksum .bus) ∧ 0 < (r.state 0).cap (txChan .bus) ∧
        (r.state 0).dir = .transmit) :=
  ⟨⟨fairRun_steps _, fairRun_fair _, rfl, by decide⟩, fairRun_steps _, fairRun_fair _, rfl, by decide, rfl⟩

theorem wit_HostBytesAreDeliveredInOrder :
    (small .hrx [1]).Ready ∧ (small .hrx [1]).ChannelOk .hrx ∧ (small .hrx [1]).Room .hrx [2, 3, 4].length := by decide

theorem wit_ArrivalsPushOrOverflow :
    State.reset.halt = false ∧ ¬ State.reset.Full .hrx ∧ ¬ State.reset.Full .brx ∧ State.reset.dir = .receive ∧
    fullHrx.Full .hrx ∧ fullBrx.Full .brx ∧ fullBrx.dir = .receive ∧
    ({ fullBrx with dir := .transmit } : State).dir = .transmit := by decide

theorem wit_TransmittersDrain :
    fullHtx.halt = false ∧ ¬ fullHtx.Empty .htx ∧ fullHtx.htxShift = none ∧ State.reset.Empty .htx ∧
    ({ fullHtx with htxShift := some 7 } : State).htxShift = some 7 ∧ ¬ fullBtx.Empty .btx ∧
    ({ fullBtx with dir := .transmit, btxShift := some 7 } : State).btxShift = some 7 ∧ fullBtx.btxShift = none := by
  decide

theorem wit_TickStopsAtZero :
    ({ State.reset with tmo := 255 } : State).halt = false ∧ ({ State.reset with tmo := 255 } : State).tmo ≠ 0 ∧
    State.reset.tmo = 0 := by decide

theorem wit_UnmappedEventHaltsTheBlock :
    ({ heard with halt := true } : State).halt = true ∧ Instr.ping ≠ Instr.reset ∧
    programOf heard.cfg .ping = none ∧ programOf heard.cfg .hrxWait = some hrxWaitProgram ∧
    ({ heard with op := some ⟨.script, [.awaitExpiry], [], none⟩ } : State).op ≠ none := by decide

theorem wit_HostFramerQueuesAndAccumulates :
    (small .htx [1, 2, 3]).Ready ∧ ¬ (small .htx [1, 2, 3]).Full .htx ∧ fullHtx.Ready ∧ fullHtx.Full .htx := by decide

theorem wit_HostPacketEndsInItsChecksum :
    (small .htx [1]).Ready ∧ (small .htx [1]).ChannelOk .htx ∧ (small .htx [1]).Room .htx ([0xFF].length + 2) ∧
    (small .htx [1, 2]).Room .htx (([] : List Byte).length + 2) := by decide

theorem wit_HostBytesAreReadAndAccumulated :
    heard.Ready ∧ ¬ heard.Empty .hrx ∧ State.reset.Ready ∧ State.reset.Empty .hrx ∧ State.reset.cfg.tHostRx ≠ 0 ∧
    State.reset.tmo = 0 ∧ ({ State.reset with cfg := noTime } : State).Ready ∧
    ({ State.reset with cfg := noTime } : State).Empty .hrx ∧ noTime.tHostRx = 0 := by decide

theorem wit_HostChecksumIsValidated :
    heard.Ready ∧ ¬ heard.Empty .hrx ∧ heard.oldest .hrx ≠ ~~~ heard.hcRxSum ∧
    (holds .hrx [0xFF]).Ready ∧ ¬ (holds .hrx [0xFF]).Empty .hrx ∧
    (holds .hrx [0xFF]).oldest .hrx = ~~~ (holds .hrx [0xFF]).hcRxSum ∧ State.reset.Ready ∧ State.reset.Empty .hrx ∧
    State.reset.cfg.tHostRx ≠ 0 ∧ State.reset.tmo = 0 ∧ ({ State.reset with cfg := noTime } : State).Ready ∧
    ({ State.reset with cfg := noTime } : State).Empty .hrx ∧ noTime.tHostRx = 0 := by decide

theorem wit_HostCodecFrame :
    (∃ t, exec .hcTxEnd heard = .next t) ∧ (∃ t, exec (.hcRxByte true) heard = .next t) := ⟨⟨_, rfl⟩, _, rfl⟩

/-- A capacity 8 for the bus transmit side. -/
def eight (bs : List Byte) : State :=
  bs.foldl (fun s b => s.push .btx b) { State.reset with cfg := { Config.customary with capBtx := 8 } }

theorem wit_BusFramerQueuesAndAccumulates :
    (eight [1, 2, 3]).Ready ∧ (eight [1, 2, 3]).ChannelOk .btx ∧ (eight [1, 2, 3]).Room .btx 5 ∧
    (eight [1, 2, 3, 4, 5, 6, 7]).Room .btx 1 ∧ (eight [1]).cfg.tBusDrain ≠ 0 ∧ noTime.tBusDrain = 0 ∧
    (eight [1, 2, 3, 4]).len .btx + 4 = (eight [1, 2, 3, 4]).cap .btx ∧ fullBtx.Ready ∧ fullBtx.ChannelOk .btx ∧
    fullBtx.Full .btx ∧ fullBtx.len .btx + 0 = fullBtx.cap .btx := by decide

theorem wit_DrainWaitPrefersDrained :
    State.reset.halt = false ∧ State.reset.Drained .bus ∧ ¬ fullBtx.Drained .bus ∧ fullBtx.tmo = 0 ∧
    ¬ ({ State.reset with btxShift := some 1, tmo := 1 } : State).Drained .bus := by decide

/-- A reply of `n` parameters in BRX, its sync bytes, length and error byte given. -/
theorem wit_BusPacketIsReceivedBestEffort :
    (holds .brx [0xFF, 0xFE, 1, 3, 0, 0x20, 0xDB]).Ready ∧
    (holds .brx [0xFF, 0xFE, 1, 3, 0, 0x20, 0xDB]).contents .brx = 0xFF :: 0xFE :: 1 :: 3 :: 0 :: [0x20] ++ [0xDB] ∧
    ([0x20] : List Byte).length = ((3 : Byte) - 2).toNat ∧
    (holds .brx [0xFF, 0xFF, 1, 2, 0]).contents .brx = 0xFF :: 0xFF :: 1 :: 2 :: 0 :: [] ++ [] ∧
    ([] : List Byte).length = ((2 : Byte) - 2).toNat := by decide

theorem wit_BusPacketTimeoutIsPartial :
    (holds .brx [0xFF, 0xFE, 0x01, 0x02]).Ready ∧
    (holds .brx [0xFF, 0xFE, 0x01, 0x02]).contents .brx = [0xFF, 0xFE, 0x01, 0x02] ∧
    ([0xFF, 0xFE, 0x01, 0x02] : List Byte).length < 5 ∧ State.reset.contents .brx = [] ∧
    (let s : State := { holds .brx [0xFE, 0xFF, 1, 0, 0, 0x20] with cfg := noTime };
      s.Ready ∧ s.contents .brx = 0xFE :: 0xFF :: 1 :: 0 :: 0 :: [0x20] ∧
      ([0x20] : List Byte).length < ((0 : Byte) - 2).toNat) := by decide

theorem wit_BusChecksumIsValidated :
    (holds .brx [0xDB]).Ready ∧ ¬ (holds .brx [0xDB]).Empty .brx ∧
    (holds .brx [0xFF]).oldest .brx = ~~~ (holds .brx [0xFF]).bcRxSum ∧
    (holds .brx [0xDB]).oldest .brx ≠ ~~~ (holds .brx [0xDB]).bcRxSum ∧ State.reset.Empty .brx ∧
    State.reset.cfg.tBusRx ≠ 0 ∧ ({ State.reset with cfg := noTime } : State).Empty .brx ∧ noTime.tBusRx = 0 := by decide

theorem wit_BusCodecFrame :
    (∃ t, exec .bcTxEnd heard = .next t) ∧ (∃ t, exec .bcRxEnd (holds .brx [1]) = .next t) := ⟨⟨_, rfl⟩, _, rfl⟩

theorem wit_ArbiterAndCountdownOperations : State.reset.Ready := by decide

theorem wit_CooldownLastsAsManyTicks :
    State.reset.Ready ∧ State.reset.tmo = 0 ∧ ({ State.reset with tmo := 255 } : State).Ready ∧
    ({ State.reset with tmo := 255 } : State).tmo ≠ 0 := by decide

theorem wit_CooldownLastsAsManyTicks_fair :
    let r := fairRun (({ State.reset with tmo := 255 } : State).holding [.awaitExpiry] [] none)
    r.Steps ∧ r.Fair ∧ (r.state 0).waitsAt = some .awaitExpiry ∧ Micro.awaitExpiry.timed = true :=
  ⟨fairRun_steps _, fairRun_fair _, rfl, rfl⟩

/-- Rule R73, D24: a run in which no tick ever comes is a run of the machine, and not a fair one. -/
theorem test_silent_run_is_not_fair :
    let r : Run := { state := fun _ => State.reset, line := fun _ => none }
    r.Steps ∧ ¬ r.Fair :=
  ⟨fun _ => rfl, fun h => by
    obtain ⟨m, _, hm⟩ := h .tick 0 (fun _ _ => ⟨rfl, trivial⟩)
    cases hm⟩

theorem wit_StatusOperations : ({ State.reset with status := 0xFF } : State).Ready := by decide

theorem wit_StatusBitsAreSticky :
    Instr.hcRxEnd.format = .cmd ∧ Instr.hcRxEnd ≠ .stReset ∧ (∀ m, Instr.hcRxEnd ≠ .stClr m) ∧
    ∃ t, exec .hcRxEnd { heard with status := 0xFF } = .next t := ⟨rfl, by decide, by intro m; simp, _, rfl⟩

theorem wit_IndicesAndDirectionHaveOneWriter :
    (∃ t, exec (.htxPut 1) heard = .next t) ∧ (Instr.htxPut 1).format = .cmd ∧ Instr.htxPut 1 ≠ .dirTx ∧
    Instr.htxPut 1 ≠ .dirRx ∧ (∃ t, exec .evHtxLoad fullHtx = .next t) ∧ Instr.evHtxLoad.format = .evt :=
  ⟨⟨_, rfl⟩, rfl, by decide, by decide, ⟨_, rfl⟩, rfl⟩

theorem wit_EventsStayInTheirContext :
    Instr.evTick.format = .evt ∧ ∃ t, exec .evTick { heard with tmo := 1 } = .next t := ⟨rfl, _, rfl⟩

theorem wit_FlagsHaveTheirCauses : ∃ t, exec .hcRxEnd heard = .next t := ⟨_, rfl⟩

theorem wit_OutcomesAreThoseOfTheOperation :
    Instr.hcRxEnd.format = .cmd ∧ ∃ t, exec .hcRxEnd heard = .next t := ⟨rfl, _, rfl⟩

theorem wit_StoringOperationsWriteOneSlot :
    (small .htx [1, 2, 3]).Ready ∧ ¬ (small .htx [1, 2, 3]).Full .htx ∧
    (∃ t, exec (.htxPut 9) (small .htx [1, 2, 3]) = .next t) ∧ (small .btx []).Ready ∧ ¬ (small .btx []).Full .btx ∧
    ∃ t, exec .bcTxEnd (small .btx []) = .next t := ⟨by decide, by decide, ⟨_, rfl⟩, by decide, by decide, _, rfl⟩

theorem wit_NonStoringOperationsLeaveStorage :
    fullHrx.op = none ∧ ∃ t, exec (.hrxGet 1) fullHrx = .next t := ⟨rfl, _, rfl⟩

theorem wit_StepKeepsChannelsSound :
    let s : State := { fullHrx with input := [.word .evt [0x80, 5]] }
    s.ChannelsInv ∧ ∃ t, step s = .next t :=
  ⟨by intro c; cases c <;> decide, _, rfl⟩

theorem wit_StepKeepsRetryBound :
    let k : Client := { probes with
      retry := 2, pos := .txn .retry { id := 1, instr := 1, params := [], expected := 0 } (.ping 1) }
    let s : State := { heard with client := k, input := [.resume] }
    s.RetryInv ∧ ∃ t, step s = .next t := ⟨⟨by decide, by intro _ _ _; decide⟩, _, rfl⟩

theorem wit_StepKeepsTablesLegal :
    let k : Client := { probes with
      readTable := [⟨253, 54, 1⟩], pos := .formatEntry .write 32 [253, 0] [] }
    let s : State := { holds .hrx [55] with client := k, input := [.resume] }
    s.TablesInv ∧ ∃ t, step s = .next t := by
  refine ⟨⟨by decide, by decide, by decide, by decide, ?_⟩, _, rfl⟩
  intro e he; cases he

/-- The client waits for the reply of a 2-byte read of the entry (1, 52, 3). -/
theorem wit_StepKeepsReadPayloadExact :
    let l : ReadLoop := { payload := [], device := 1, addr := 55, rem := 0, rest := [] }
    let k : Client := { probes with
      readTable := [⟨1, 52, 3⟩]
      pos := .txn .packet { id := 1, instr := 2, params := [52, 2], expected := 2 } (.read l true 2) }
    let s : State := { holds .brx [0xAA] with
      client := k
      op := some ⟨.client, [.get .bus .param, .get .bus .param], [], some { expected := 2 }⟩
      input := [.resume] }
    s.ReadInv ∧ ∃ t, step s = .next t := by
  refine ⟨⟨⟨by decide, by decide, by decide, by intro _ _ _ h; cases h⟩, ?_⟩, _, rfl⟩
  intro o ho _
  cases ho
  exact ⟨_, rfl, rfl, by decide⟩

theorem wit_DispatcherRunsTheDecodedCommand :
    (talking [0xF3, 0x0C]).ClientReady ∧ (talking [0xF3, 0x0C]).contents .hrx = 0xF3 :: [0x0C] := by decide

/-- The retry policy at its ends: 2 retries used, 3 used, and a clean reply. -/
theorem wit_RetryPolicy :
    (0x10 : Byte) &&& Config.customary.errCksumMask ≠ 0 ∧ (0x04 : Byte) &&& Config.customary.errCksumMask = 0 ∧
    Code.checksum ≠ Code.timeout ∧ Code.ok ≠ Code.timeout ∧ (2 : Nat) < 3 ∧ 3 ≤ (3 : Nat) := by decide

theorem wit_NoReadCoversTheVirtualRegister :
    let l : ReadLoop := { payload := [], device := 1, addr := 54, rem := 1, rest := [] }
    0 < l.rem ∧ l.addr + l.rem ≤ 55 := by decide

theorem wit_BusSendQueuesThePacket :
    (Instr.biRegWrite 1 0x1E [0x11]).wf = true ∧ (eight []).ClientReady ∧ (eight []).ChannelOk .btx ∧
    (eight []).Room .btx ([0x1E, 0x11].length + 6) ∧ (eight []).cfg.tBusDrain ≠ 0 ∧ (eight [1, 2]).Room .btx 6 ∧
    decode (eight []).cfg .busTx (busTxBytes 1 0x06 []) = .error (.unknownBusPacket 0x06) := by decide

theorem wit_BusReplyArrivesInOrder :
    let s : State := { State.reset with cfg := { Config.customary with capBrx := 8 } }
    s.halt = false ∧ s.dir = .receive ∧ s.ChannelOk .brx ∧ s.Room .brx [0xFE, 0xFF, 1, 4, 0, 1, 2, 0xF7].length ∧
    [0xFE, 0xFF, 1, 4, 0, 1, 2, 0xF7] = [0xFE, 0xFF, 1, u8 [(1 : Byte), 2].length + 2, 0] ++ [1, 2] ++ [0xF7#8] ∧
    decode s.cfg .busRx [0xFF, 0xFF, 1] = .error .truncated ∧ fullBtx.halt = false ∧
    ({ fullBtx with dir := .transmit } : State).dir = .transmit := by decide

/-- A bridge with 8 bytes of HTX, one of them taken. -/
def answering (hrx : List Byte) : State :=
  { bridge hrx [0x99] [] [] with client := probes, cfg := { Config.customary with capHtx := 8 } }

theorem wit_PingWithoutBusTraffic :
    (answering [0xFF, 0x10]).ClientReady ∧ (answering [0xFF, 0x10]).contents .hrx = 0xFF :: 0x10 :: [] ∧
    (answering [0xFE, 0x11]).contents .hrx = 0xFE :: 0x11 :: [] ∧ (answering []).ChannelOk .htx ∧
    (answering []).Room .htx 7 ∧ (answering []).cfg.tCooldown ≠ 0 := by decide

/-- The client waits for the drain of a ping of device 1, BTX drained or still holding a byte, the countdown run out. -/
def pinging (btx : List Byte) : State :=
  { bridge [] [0x99] [] btx with
    dir := .transmit, op := some { owner := .client, todo := [.awaitDrain], results := [], packet := none },
    client := { probes with pos := .txn .close (pingTxn Config.customary 1) (.ping 1) } }

theorem wit_PingOfADeviceAsksAndReports :
    (253#8).toNat ≤ 253 ∧ (talking [253, 1]).ClientReady ∧ (talking [253, 1]).contents .hrx = 253 :: 1 :: [] ∧
    (talking [253, 1]).ChannelOk .btx ∧ (talking [253, 1]).Room .btx 6 ∧ (talking []).cfg.tBusDrain ≠ 0 := by decide

/-- The wait for the drain: run out, or drained, and then a reply with or without a wrong checksum. -/
theorem wit_PingOfADeviceAsksAndReports_reply :
    (1#8).toNat ≤ 253 ∧ (pinging []).halt = false ∧
    (pinging []).op = some { owner := .client, todo := [.awaitDrain], results := [], packet := none } ∧
    (pinging []).client.pos = .txn .close (pingTxn (pinging []).cfg 1) (.ping 1) ∧ (pinging []).ChannelOk .htx ∧
    (pinging []).Room .htx 7 ∧ ¬ (pinging [7]).Drained .bus ∧ (pinging [7]).tmo = 0 ∧ (pinging []).Drained .bus ∧
    (pinging []).Empty .brx ∧ (pinging []).cfg.tBusRx ≠ 0 ∧ ([] : List Byte).length ≤ 255 ∧ (pinging []).ChannelOk .brx ∧
    (pinging []).Room .brx (([] : List Byte).length + 6) ∧ (pinging []).client.retry < 3 ∧ (pinging []).ChannelOk .btx ∧
    (pinging []).Room .btx 6 ∧ (pinging []).cfg.tBusDrain ≠ 0 ∧ (0xFC#8) = checksumOf [1, u8 ([] : List Byte).length + 2, 0] ∧
    (0x00#8) ≠ checksumOf [1, u8 ([] : List Byte).length + 2, 0] := by decide

theorem wit_InvalidPathReportsCoolsDownAndFlushes :
    (answering []).ClientReady ∧ (answering []).ChannelOk .htx ∧ (answering []).Room .htx 7 ∧
    (answering []).cfg.tCooldown ≠ 0 ∧
    (let w : State := { bridge [1, 2] [] [3] [] with
        tmo := 255, op := some { owner := .client, todo := [.awaitExpiry], results := [], packet := none },
        client := { probes with pos := .coolWait } };
      w.halt = false ∧ w.client.pos = .coolWait ∧
        w.op = some { owner := .client, todo := [.awaitExpiry], results := [], packet := none }) := by decide

theorem wit_SetFormatReplacesTheTable :
    (answering [1, 253, 54, 1, 0x55]).ClientReady ∧ tableValid [⟨253, 54, 1⟩] ∧
    (answering [1, 253, 54, 1, 0x55]).contents .hrx =
      u8 [(⟨253, 54, 1⟩ : Entry)].length :: [(⟨253, 54, 1⟩ : Entry)].flatMap Entry.bytes ++ 0x55 :: [] ∧
    tableValid [] ∧ (answering [0, 0x0E]).contents .hrx = u8 ([] : List Entry).length :: [] ++ 0x0E :: [] ∧
    (answering []).ChannelOk .htx ∧ (answering []).Room .htx 7 := by decide

theorem wit_FailedSetFormatEmptiesTheTable :
    (answering [33]).ClientReady ∧ (answering []).ChannelOk .htx ∧ (answering []).Room .htx 7 ∧
    (answering []).cfg.tCooldown ≠ 0 ∧ 32 < (33#8).toNat ∧ (answering [33]).contents .hrx = 33 :: [] ∧
    (2#8).toNat ≤ 32 ∧ Entry.valid ⟨253, 54, 1⟩ ∧ ¬ Entry.valid ⟨253, 54, 2⟩ ∧
    (answering [2, 253, 54, 1, 253, 54, 2, 9]).contents .hrx =
      2 :: [(⟨253, 54, 1⟩ : Entry)].flatMap Entry.bytes ++ (⟨253, 54, 2⟩ : Entry).bytes ++ [9] ∧
    (answering []).contents .hrx = [] ∧
    (answering [1, 253, 54]).contents .hrx = 1 :: ([] : List Entry).flatMap Entry.bytes ++ [253, 54] ∧
    (answering [0]).contents .hrx = 0 :: ([] : List Entry).flatMap Entry.bytes ++ [] := by decide

theorem wit_ReadDataStartsWithTheFirstBlock :
    (answering [0x0C]).ClientReady ∧ (answering [0x0C]).contents .hrx = 0x0C :: [] ∧
    (∀ e ∈ (answering [0x0C]).client.readTable, e.length.toNat = 0) ∧ (answering []).ChannelOk .htx ∧
    (answering []).Room .htx 7 ∧
    (let e : Entry := ⟨253, 54, 1⟩;
      let s : State := { talking [0x0C] with client := { probes with readTable := [⟨1, 0, 0⟩] ++ [e] } };
      s.ClientReady ∧ s.contents .hrx = 0x0C :: [] ∧ (∀ x ∈ [(⟨1, 0, 0⟩ : Entry)], x.length.toNat = 0) ∧ e.valid ∧
      0 < e.length.toNat ∧ s.ChannelOk .btx ∧ s.Room .btx 8 ∧ s.cfg.tBusDrain ≠ 0 ∧
      s.ChannelOk .htx ∧ s.Room .htx 1 ∧
      ({ s with cfg := { s.cfg with tBusDrain := 0 } } : State).ClientReady ∧ tableValid s.client.readTable ∧
      s.Room .htx (totalBytesOf s.client.readTable + 7)) := by decide

theorem wit_WriteDataReadsThenWrites :
    (talking [0x0B]).ClientReady ∧ (talking [0x0B]).ChannelOk .btx ∧ (talking [0x0B]).cfg.tBusDrain ≠ 0 ∧
    (talking [0x0B]).client.writeTable = [] ∧ (talking [0x0B]).contents .hrx = 0x0B :: [] ∧
    (talking [0x0B]).Room .btx 6 ∧
    (let s : State := { talking [0x11, 0x22, 0x33] with client := { probes with writeTable := [⟨1, 0x1E, 2⟩] } };
      s.ClientReady ∧ ([0x11, 0x22] : List Byte).length = (Entry.length ⟨1, 0x1E, 2⟩).toNat ∧
      s.contents .hrx = [0x11, 0x22] ++ [0x33] ∧ s.Room .btx ([0x11, 0x22].length + 7)) := by decide

end Sys2Proof.Tests
end

section
/-!
PROOFS of the scope statements: what a step makes of a line that decodes to an instruction (O6), and the invariants in the
state after reset (O44), each from a lemma about every state with reset channels or a reset client.
-/

namespace Sys2Proof.Machine

/-! ### A line in front of the run -/

/-- Rule R337, U12: what a second thread of control would do does not matter. -/
theorem State.takeLine_intrudes {s : State} {f : Format} (hi : s.intrudes f = true)
    (taken : Host.Outcome State Fault Refusal) : s.takeLine f taken = .refused .secondThread :=
  if_pos hi

/-- A line its agent can take up is taken up. -/
theorem State.takeLine_admits {s : State} {f : Format} (hi : s.intrudes f = false) (ha : s.admits f = true)
    (taken : Host.Outcome State Fault Refusal) : s.takeLine f taken = taken := by
  simp only [State.takeLine, hi, ha, Bool.false_eq_true, if_false, if_true]

/-- A line that has to wait leaves the turn to the foreground agent (log entry 8). -/
theorem State.takeLine_waits {s : State} {f : Format} (hi : s.intrudes f = false) (ha : s.admits f = false)
    (taken : Host.Outcome State Fault Refusal) : s.takeLine f taken = .next s.foregroundTurn := by
  simp only [State.takeLine, hi, ha, Bool.false_eq_true, if_false]

/-- A step at a line that decodes offers the meaning of its instruction to the agent of the interface. -/
theorem step_word {s : State} {f : Format} {bytes more : List Byte} {rest : List Input} {i : Instr}
    (hin : s.input = .word f bytes :: rest) (hd : decode s.cfg f bytes = .ok (i, more)) :
    step s = s.takeLine f (exec i { s with input := keepWord f more rest }) := by
  simp only [step, nextLine, hin, fetchWord, hd]

/-- Settles O6: the step is `takeLine` of the decoded instruction's meaning, whose three branches are the three cases. -/
theorem stepRunsDecodedInstruction : Obligations.StepRunsDecodedInstruction := by
  intro s f bytes more rest i hin hd
  rw [step_word hin hd]
  exact ⟨fun hi => State.takeLine_intrudes hi _, fun hi ha => State.takeLine_admits hi ha _,
    fun hi ha => State.takeLine_waits hi ha _⟩

/-! ### The state after reset -/

/-- Rule R9: an admissible capacity is positive. -/
theorem Config.cap_pos {c : Config} (h : c.capsAdmissible) (ch : Chan) : 0 < c.cap ch := by
  obtain ⟨k, -, hk⟩ := h ch
  exact hk ▸ Nat.two_pow_pos k

/-- Rule R21 "true after reset": with reset channels there is nothing stored and no live window. -/
theorem State.channelsInv_of_reset {s : State} (hcap : ∀ c, 0 < s.cap c) (hch : ∀ c, s.chan c = Channel.reset) :
    s.ChannelsInv := by
  intro c
  have hlen : s.len c = 0 := by simp [State.len, hch c, Channel.reset]
  refine ⟨hcap c, ⟨?_, ?_⟩, ⟨?_, ?_⟩, ?_⟩
  · simp [hch c, Channel.reset]
  · exact hlen ▸ Nat.zero_le _
  · rw [hch c]; rfl
  · simp [hch c, Channel.reset]
  · intro k hk
    exact absurd hk (by omega)

/-- Rules R36, R246: a reset client has used no retry. -/
theorem State.retryInv_of_reset {s : State} (h : s.client = Client.reset) : s.RetryInv := by
  simp [State.RetryInv, h, Client.reset]

/-- Rules R36, R241: the tables of a reset client are empty. -/
theorem State.tablesInv_of_reset {s : State} (h : s.client = Client.reset) : s.TablesInv := by
  simp [State.TablesInv, h, Client.reset, formatSoFar, tableValid]

/-- Rules R36, R250: a reset client is inside no `READ_DATA`. -/
theorem State.readInv_of_reset {s : State} (h : s.client = Client.reset) : s.ReadInv := by
  simp [State.ReadInv, h, Client.reset, readCount, packetBound]

/-- The capacities of log entry 1 are `2 ^ 6`. -/
theorem Config.customary_capsAdmissible : Config.customary.capsAdmissible := by
  intro ch
  exact ⟨6, by decide, by cases ch <;> rfl⟩

/-- Settles O44: the channels and the client of the reset state are reset ones. -/
theorem resetStateMeetsInvariants : Obligations.ResetStateMeetsInvariants :=
  ⟨State.channelsInv_of_reset (Config.cap_pos Config.customary_capsAdmissible) (fun c => by cases c <;> rfl),
    State.retryInv_of_reset rfl, State.tablesInv_of_reset rfl, State.readInv_of_reset rfl,
    Config.customary_capsAdmissible⟩

end Sys2Proof.Machine
end

section
/-!
PROOFS of the state statements (10_state.md): the channel invariant (O45), fail-stop (O20), sticky status bits (O37), the
one writer of each index and of DIR (O38), and reset (O21, O22).

Three things are said once and used by all of them: what an event can do to the block (`EventEffect`, beside
`BlockEffect` for a micro-step), what an update keeps of a sound channel (`Channel.Sound`), and which micro-steps an
operation can come to from its program (`Op.Within`).
-/

namespace Sys2Proof.Machine

/-! ### What an event can do -/

/-- Every change an event makes to the block. -/
inductive EventEffect (s : State) : State → Prop where
  | none : EventEffect s s
  | arrive (l : Link) (b : Byte) : EventEffect s (s.arrive l b)
  | load (l : Link) (h : s.CanLoad l) : EventEffect s (s.loadShift l)
  | sent (l : Link) (b : Byte) : EventEffect s ((s.emit l b).setShift l none)
  | lost : EventEffect s (s.setShift .bus none)
  | tick : EventEffect s (s.armTimer (s.tmo - 1))
  | halt : EventEffect s { s with halt := true }

/-- Rule R142: a byte on the bus line arrives or changes nothing. -/
theorem EventEffect.busLineByte (s : State) (b : Byte) : EventEffect s (s.busLineByte b) := by
  unfold State.busLineByte
  split
  · exact .none
  · split
    · exact .none
    · exact .arrive .bus b

/-- What the row of an event can do, by its rule (R141 to R146, R215, R220). -/
theorem EventEffect.of_exec {s t : State} {i : Instr} (hi : i.format = .evt) (h : exec i s = .next t) :
    EventEffect s t := by
  cases i <;> simp only [Instr.format, reduceCtorEq] at hi
  case evHrx b =>
    cases h
    split
    · exact .none
    · exact .arrive .host b
  case evBrx b => cases h; exact .busLineByte s b
  case evHtxLoad =>
    cases h
    split
    · rename_i hc; exact .load .host hc.2
    · exact .none
  case evBtxLoad =>
    cases h
    split
    · rename_i hc; exact .load .bus hc.2.2
    · exact .none
  case evHtxDone =>
    cases h
    split
    · exact .none
    · split
      · exact .none
      · exact .sent .host _
  case evBtxDone =>
    cases h
    split
    · exact .none
    · split
      · exact .none
      · split
        · exact .sent .bus _
        · exact .lost
  case evTick =>
    cases h
    split
    · exact .none
    · split
      · exact .none
      · exact .tick
  case evUnmapped => cases h; exact .halt

/-- What every event effect keeps, the row of an event and the arrival of a packet keep. -/
theorem exec_event_keeps {P : State → Prop} (heff : ∀ s t, P s → EventEffect s t → P t) {s t : State} {i : Instr}
    (hi : i.format = .evt ∨ i.format = .busRx) (hs : P s) (h : exec i s = .next t) : P t := by
  rcases hi with hi | hi
  · exact heff s t hs (.of_exec hi h)
  · cases i <;> simp only [Instr.format, reduceCtorEq] at hi
    case busReply =>
      cases h
      exact State.busFeed_keeps (fun s b hs => heff s _ hs (.busLineByte s b)) _ s hs

/-! ### The channel invariant -/

/-- What rules R21 and R36 ask of one channel of capacity `cap`. -/
def Channel.Sound (cap : Nat) (ch : Channel) : Prop :=
  0 < cap ∧ (ch.get ≤ ch.put ∧ ch.put - ch.get ≤ cap) ∧ (ch.buf.wf = true ∧ ∀ e ∈ ch.buf, e.1 < cap) ∧
    ∀ k, k < ch.put - ch.get → (ch.buf.read ((ch.get + k) % cap)).isSome = true

theorem State.channelsInv_iff {s : State} : s.ChannelsInv ↔ ∀ c, (s.chan c).Sound (s.cap c) := Iff.rfl

/-- A producer's step, rule R130: the slot of the put index is written, and the live window ends one slot further. -/
theorem Channel.Sound.push {cap : Nat} {ch : Channel} (h : ch.Sound cap) (hroom : ch.put - ch.get < cap) (b : Byte) :
    Channel.Sound cap { ch with buf := ch.buf.write (ch.put % cap) b, put := ch.put + 1 } := by
  obtain ⟨hcap, ⟨hle, hlen⟩, ⟨hwf, hslots⟩, hwin⟩ := h
  refine ⟨hcap, ⟨?_, ?_⟩, ⟨Memory.wf_write _ b hwf, fun e he => ?_⟩, fun k hk => ?_⟩
  · simp only; omega
  · simp only; omega
  · rcases Memory.mem_write he with rfl | he
    · exact Nat.mod_lt _ hcap
    · exact hslots e he
  · simp only at hk ⊢
    by_cases hslot : (ch.get + k) % cap = ch.put % cap
    · rw [hslot, Memory.read_write_same]; rfl
    · rw [Memory.read_write_other _ b hslot]
      have hne : ch.get + k ≠ ch.put := fun he => hslot (he ▸ rfl)
      exact hwin k (by omega)

/-- A consumer's step, a pop or a flush: the live window starts further on and ends where it did. -/
theorem Channel.Sound.consume {cap : Nat} {ch : Channel} (h : ch.Sound cap) {g : Nat} (hget : ch.get ≤ g)
    (hput : g ≤ ch.put) : Channel.Sound cap { ch with get := g } := by
  obtain ⟨hcap, ⟨hle, hlen⟩, hstore, hwin⟩ := h
  refine ⟨hcap, ⟨hput, ?_⟩, hstore, fun k hk => ?_⟩
  · simp only; omega
  · simp only at hk ⊢
    have hshift : g + k = ch.get + (g - ch.get + k) := by omega
    rw [hshift]
    exact hwin _ (by omega)

namespace State.ChannelsInv

variable {s t : State}

/-- The invariant is one of the channels and their capacities alone. -/
theorem of_chan_eq (h : s.ChannelsInv) (hch : ∀ c, t.chan c = s.chan c) (hcap : ∀ c, t.cap c = s.cap c) :
    t.ChannelsInv :=
  State.channelsInv_iff.2 fun c => by rw [hch c, hcap c]; exact h c

theorem setChan (h : s.ChannelsInv) {c : Chan} {ch : Channel} (hch : ch.Sound (s.cap c)) :
    (s.setChan c ch).ChannelsInv := by
  refine State.channelsInv_iff.2 fun c' => ?_
  have hcap : (s.setChan c ch).cap c' = s.cap c' := by simp [State.cap]
  rw [hcap]
  by_cases hc : c' = c
  · subst hc; rw [State.setChan_chan_same]; exact hch
  · rw [State.setChan_chan_other s hc]; exact h c'

theorem push (h : s.ChannelsInv) {c : Chan} (hfull : ¬ s.Full c) (b : Byte) : (s.push c b).ChannelsInv :=
  have hlen : s.len c ≤ s.cap c := (h c).2.1.2
  h.setChan (Channel.Sound.push (h c) (Nat.lt_of_le_of_ne hlen hfull) b)

theorem dropOldest (h : s.ChannelsInv) {c : Chan} (hne : ¬ s.Empty c) : (s.dropOldest c).ChannelsInv := by
  have hput : (s.chan c).get + 1 ≤ (s.chan c).put := by
    simp only [State.Empty, State.len] at hne
    omega
  exact h.setChan (Channel.Sound.consume (h c) (Nat.le_succ _) hput)

theorem flushChan (h : s.ChannelsInv) (c : Chan) : (s.flushChan c).ChannelsInv :=
  have hle : (s.chan c).get ≤ (s.chan c).put := (h c).2.1.1
  h.setChan (Channel.Sound.consume (h c) hle (Nat.le_refl _))

/-- Rules R141, R142: at a full channel the byte is dropped, so no push finds the channel full. -/
theorem arrive (h : s.ChannelsInv) (l : Link) (b : Byte) : (s.arrive l b).ChannelsInv := by
  unfold State.arrive
  split
  · exact h.of_chan_eq (State.raise_chan s _) (State.raise_cap s _)
  · rename_i hfull; exact h.push hfull b

theorem blockEffect (h : s.ChannelsInv) (he : BlockEffect s t) : t.ChannelsInv := by
  cases he with
  | none => exact h
  | put l b v hfull => exact (h.push hfull b).of_chan_eq (State.setTxSum_chan _ l v) (State.setTxSum_cap _ l v)
  | arm t => exact h.of_chan_eq (State.armTimer_chan s t) (State.armTimer_cap s t)
  | armPacket t => exact h.of_chan_eq (fun c => by simp) (fun c => by simp)
  | got l v hne => exact (h.dropOldest hne).of_chan_eq (State.setRxSum_chan _ l v) (State.setRxSum_cap _ l v)
  | flush l => exact h.flushChan (rxChan l)
  | direction d => exact h.of_chan_eq (State.setDir_chan s d) (State.setDir_cap s d)
  | raise m => exact h.of_chan_eq (State.raise_chan s m) (State.raise_cap s m)
  | clear m => exact h.of_chan_eq (State.clearFlags_chan s m) (State.clearFlags_cap s m)

theorem microStep (h : s.ChannelsInv) (hm : s.microStep = some t) : t.ChannelsInv := by
  obtain ⟨-, o, -, u, hu, hend⟩ := State.microStep_cases hm
  obtain ⟨o', a, k, rfl⟩ := hend.eq
  exact (h.blockEffect hu).of_chan_eq (fun _ => rfl) (fun _ => rfl)

theorem eventEffect (h : s.ChannelsInv) (he : EventEffect s t) : t.ChannelsInv := by
  cases he with
  | none => exact h
  | arrive l b => exact h.arrive l b
  | load l hload => exact (h.dropOldest hload.1).of_chan_eq (State.setShift_chan _ l _) (State.setShift_cap _ l _)
  | sent l b => exact h.of_chan_eq (fun c => by simp) (fun c => by simp)
  | lost => exact h.of_chan_eq (State.setShift_chan s _ _) (State.setShift_cap s _ _)
  | tick => exact h.of_chan_eq (State.armTimer_chan s _) (State.armTimer_cap s _)
  | halt => exact h.of_chan_eq (fun _ => rfl) (fun _ => rfl)

/-- Rule R36: RESET keeps the capacities and empties every channel. -/
theorem afterReset (h : s.ChannelsInv) : s.afterReset.ChannelsInv :=
  State.channelsInv_of_reset (fun c => (h c).1) (fun c => by cases c <;> rfl)

end State.ChannelsInv

/-- Settles O45: the micro-steps, the events and RESET keep the invariant, and nothing else a step does touches a channel
or a capacity. -/
theorem stepKeepsChannelsSound : Obligations.StepKeepsChannelsSound := by
  refine ⟨resetStateMeetsInvariants.1, fun s t hs hst => step_keeps (P := State.ChannelsInv)
    ?input ?issue ?micro ?host ?send ?event ?analog hs hst⟩
  case input => exact fun s l h => h.of_chan_eq (fun _ => rfl) (fun _ => rfl)
  case issue =>
    intro s w p h ho _
    rw [State.issue_free s w p ho]
    exact h.of_chan_eq (fun _ => rfl) (fun _ => rfl)
  case micro => exact fun s t h hm => h.microStep hm
  case host => exact fun s b h _ => h.of_chan_eq (State.dispatched_chan s b _) (State.dispatched_cap s b _)
  case send => exact fun s id instr params h _ => h.of_chan_eq (fun _ => rfl) (fun _ => rfl)
  case analog => exact fun s a v h => h.of_chan_eq (fun _ => rfl) (fun _ => rfl)
  case event =>
    intro s t i h hi hx
    rcases or_assoc.2 hi with hi | hi
    · exact exec_event_keeps (fun _ _ h he => h.eventEffect he) hi h hx
    · cases i <;> simp only [Instr.format, reduceCtorEq] at hi
      case reset => cases hx; exact h.afterReset

/-! ### The halted state -/

section Halted

variable {s : State}

theorem State.foregroundStep_halted (h : s.halt = true) : s.foregroundStep = none := if_pos h

theorem State.takeUp_halted (h : s.halt = true) (start : Client → Client) : s.takeUp start = .next s := by
  simp [State.takeUp, h]

theorem State.takeCommand_halted (h : s.halt = true) (b : Byte) (start : Client → Client) :
    s.takeCommand b start = .next s := by
  simp [State.takeCommand, h]

theorem State.busLineByte_halted (h : s.halt = true) (b : Byte) : s.busLineByte b = s := if_pos h

theorem State.latch_halted (h : s.halt = true) : { s with halt := true } = s := by rw [← h]

/-- Bytes on the bus line are lost in the halted state, one after the other. -/
theorem State.busFeed_halted (h : s.halt = true) (bs : List Byte) : s.busFeed bs = s :=
  State.busFeed_keeps (P := (· = s)) (fun _ b hu => hu ▸ State.busLineByte_halted h b) bs s rfl

/-- Presenting an operation does not lift the latch. -/
theorem State.issue_halt (s : State) (w : Owner) (p : Program) : (s.issue w p).halt = s.halt := by
  by_cases ho : s.op = none
  · rw [State.issue_free s w p ho]
  · rw [State.issue_held s w p ho]

/-- Log entry 8: in the halted state an operation is presented and takes no micro-step. -/
theorem State.command_halted (h : s.halt = true) (p : Program) : s.command p = .next (s.issue .script p) := by
  by_cases ho : s.op = none
  · rw [State.command_free s p ho, State.runOp_hold (State.microStep_halted ((State.issue_halt s _ p).trans h))]
  · rw [State.command_held s p ho, State.issue_held s _ p ho]

theorem exec_busTx_halted (h : s.halt = true) {i : Instr} (hi : i.format = .busTx) : exec i s = .next s := by
  obtain ⟨id, instr, params, hx⟩ := exec_busTx (s := s) hi
  rw [hx, State.takeUp_halted h]

/-- Rules R29, R220: every row but RESET and the CMD rows leaves the halted state as it is. -/
theorem exec_halted (h : s.halt = true) {i : Instr} (hreset : i ≠ .reset) (hcmd : programOf s.cfg i = none) :
    exec i s = .next s := by
  have hfmt : i.format ≠ .cmd := fun hf => by
    obtain ⟨p, hp⟩ := programOf_isSome (c := s.cfg) hf
    exact absurd (hp.symm.trans hcmd) (by simp)
  have hdisabled : ∀ e : FairEvent, exec e.instr s = .next s := fun e =>
    FairEvent.exec_disabled fun he => absurd (h.symm.trans he.1) (by decide)
  cases i <;> simp only [Instr.format, ne_eq, not_true_eq_false, reduceCtorEq, not_false_eq_true] at hfmt hreset
  case evHrx b => exact congrArg _ (if_pos h)
  case evBrx b => exact congrArg _ (State.busLineByte_halted h b)
  case evHtxLoad => exact hdisabled (.load .host)
  case evHtxDone => exact hdisabled (.done .host)
  case evBtxLoad => exact hdisabled (.load .bus)
  case evBtxDone => exact hdisabled (.done .bus)
  case evTick => exact hdisabled .tick
  case evUnmapped => exact congrArg _ (State.latch_halted h)
  case busReply => exact congrArg _ (State.busFeed_halted h _)
  case biPing | biRead | biRegWrite | biAction => exact exec_busTx_halted h rfl
  all_goals exact State.takeCommand_halted h _ _

end Halted

/-- Settles O20: the latch is the whole effect of the event, and with it set no agent has a step. -/
theorem unmappedEventHaltsTheBlock : Obligations.UnmappedEventHaltsTheBlock := by
  refine fun s => ⟨rfl, fun h => ⟨State.microStep_halted h, State.foregroundStep_halted h,
    fun i hreset hcmd => exec_halted h hreset hcmd, fun i p hp => ⟨?_, ?_, State.issue_held s _ p⟩⟩⟩
  · rw [exec_cmd hp, State.command_halted h]
  · exact State.microStep_halted ((State.issue_halt s _ p).trans h)

/-! ### The micro-steps an operation can come to -/

/-- The micro-steps an operation may get beside those of its program: the parameter reads of `BC_RX_PACKET`, and what sets
a flag. -/
def Micro.spawned : Micro → Bool
  | .arm _ | .get _ _ | .setStatus _ | .fail _ _ => true
  | _ => false

/-- Every micro-step still to do is one that `q` admits. -/
def Op.Within (q : Micro → Bool) (o : Op) : Prop := ∀ m ∈ o.todo, q m = true

/-- The operation in progress, if any, has only micro-steps to do that `q` admits. -/
def State.OpWithin (q : Micro → Bool) (s : State) : Prop := ∀ o, s.op = some o → o.Within q

section Within

variable {q : Micro → Bool} {s t : State} {o : Op}

theorem State.OpWithin.answer (s : State) (o : Op) (code : Code) : (s.answer o code).OpWithin q := by
  obtain ⟨k, hk⟩ := s.answer_eq o code
  intro o' ho'
  rw [hk] at ho'
  cases ho'

theorem State.OpWithin.proceed (s : State) (h : o.Within q) : (s.proceed o).OpWithin q := by
  rcases State.proceed_cases s o with hp | hp
  · rw [hp]; intro o' ho'; cases ho'; exact h
  · rw [hp]; exact .answer s o .ok

/-- A micro-step of the operation in progress answers, or runs the first micro-step it has still to do. -/
theorem State.microStep_run (h : s.microStep = some t) :
    ∃ o, s.op = some o ∧ (t = s.answer o .ok ∨
      ∃ m rest, o.todo = m :: rest ∧ m.run { o with todo := rest } s = some t) := by
  unfold State.microStep at h
  split at h
  · cases h
  · split at h
    · cases h
    · rename_i o ho
      refine ⟨o, ho, ?_⟩
      split at h
      · cases h; exact .inl rfl
      · rename_i m rest htodo; exact .inr ⟨m, rest, htodo, h⟩

variable (hq : ∀ m, m.spawned = true → q m = true)
include hq

theorem paramReads_within (t : Byte) (n : Nat) : ∀ m ∈ paramReads t n, q m = true := by
  induction n with
  | zero => intro m hm; cases hm
  | succ n ih =>
    simp only [paramReads, List.forall_mem_cons]
    exact ⟨hq _ rfl, hq _ rfl, ih⟩

theorem State.OpWithin.useByte (s : State) (l : Link) (h : o.Within q) (b : Byte) (u : GetUse) :
    (s.useByte l o b u).OpWithin q := by
  cases u <;> simp only [State.useByte]
  case check =>
    split
    · exact .proceed _ h
    · exact .proceed _ (List.forall_mem_singleton.2 (hq _ rfl))
  case sync2 =>
    split
    · exact .proceed _ (List.forall_mem_cons.2 ⟨hq _ rfl, h⟩)
    · exact .proceed _ h
  case err =>
    refine .proceed _ (List.forall_mem_append.2 ⟨?_, h⟩)
    split
    · exact List.forall_mem_cons.2 ⟨hq _ rfl, paramReads_within hq _ _⟩
    · exact paramReads_within hq _ _
  all_goals exact .proceed _ h

theorem State.OpWithin.getTimedOut (s : State) (l : Link) (o : Op) (u : GetUse) : (s.getTimedOut l o u).OpWithin q := by
  cases u with
  | raw => exact .answer s o .timeout
  | _ => exact .proceed s (List.forall_mem_singleton.2 (hq _ rfl))

theorem Micro.run_within {m : Micro} (ho : o.Within q) (h : m.run o s = some t) : t.OpWithin q := by
  cases m <;> simp only [Micro.run] at h
  case get l u =>
    split at h
    · cases h; exact .useByte hq _ l ho _ u
    · split at h
      · cases h; exact .getTimedOut hq s l o u
      · cases h
  case getUntimed u =>
    split at h
    · cases h
    · cases h; exact .useByte hq _ .host ho _ u
  case awaitDrain =>
    split at h
    · cases h; exact .proceed s ho
    · split at h
      · cases h; exact .answer _ o .timeout
      · cases h
  case put | putChecksum =>
    split at h
    · cases h
    · cases h; exact .proceed _ ho
  case awaitExpiry =>
    split at h
    · cases h; exact .proceed _ ho
    · cases h
  case fail => cases h; exact .answer _ o _
  all_goals cases h; exact .proceed _ ho

/-- What a completed operation's answer and every micro-step that `q` admits keep, an operation keeps whose program `q`
admits. -/
theorem State.command_keeps_within {P : State → Prop} (hop : ∀ s o, P s → P { s with op := o })
    (hanswer : ∀ s o code, P s → P (s.answer o code))
    (hrun : ∀ s t m o, P s → q m = true → m.run o s = some t → P t)
    {p : Program} (hp : ∀ m ∈ p.todo, q m = true) (hs : P s) (h : s.command p = .next t) : P t := by
  have hmicro : ∀ s t, P s ∧ s.OpWithin q → s.microStep = some t → P t ∧ t.OpWithin q := by
    rintro s t ⟨hs, hw⟩ hm
    obtain ⟨o, ho, rfl | ⟨m, rest, htodo, hr⟩⟩ := State.microStep_run hm
    · exact ⟨hanswer s o .ok hs, .answer s o .ok⟩
    · have hall : q m = true ∧ ∀ m' ∈ rest, q m' = true := by
        have := hw o ho
        rwa [Op.Within, htodo, List.forall_mem_cons] at this
      exact ⟨hrun s t m _ hs hall.1 hr, Micro.run_within hq (o := { o with todo := rest }) hall.2 hr⟩
  by_cases ho : s.op = none
  · rw [State.command_free s p ho, State.issue_free s _ p ho] at h
    cases h
    exact (State.runOp_keeps hmicro opFuel _ ⟨hop s _ hs, fun o ho => by cases ho; exact hp⟩).1
  · rw [State.command_held s p ho] at h
    cases h
    exact hs

end Within

/-! ### Sticky status bits -/

/-- The bits of STATUS set in `s` are set in `t`. -/
def StatusKept (s t : State) : Prop := s.status &&& t.status = s.status

namespace StatusKept

variable {s t u : State}

theorem of_eq (h : t.status = s.status) : StatusKept s t := by simp [StatusKept, h]

theorem refl (s : State) : StatusKept s s := of_eq rfl

theorem trans (h : StatusKept s t) (h' : StatusKept t u) : StatusKept s u := by
  unfold StatusKept at *
  rw [← h, BitVec.and_assoc, h']

/-- A flagged condition sets its bit and clears none (rules R27, R290). -/
theorem raise (s : State) (m : Byte) : StatusKept s (s.raise m) := by
  unfold StatusKept State.raise
  ext i hi
  simp +contextual

theorem arrive (s : State) (l : Link) (b : Byte) : StatusKept s (s.arrive l b) := by
  unfold State.arrive
  split
  · exact .raise s _
  · exact .of_eq (by simp [State.push])

theorem eventEffect (h : EventEffect s t) : StatusKept s t := by
  cases h with
  | none => exact .refl s
  | arrive l b => exact .arrive s l b
  | load l _ => exact .of_eq (by simp [State.loadShift])
  | sent l b => exact .of_eq (by simp)
  | lost => exact .of_eq (by simp)
  | tick => exact .of_eq rfl
  | halt => exact .of_eq rfl

theorem ends (h : Ends t u) : StatusKept t u := by
  obtain ⟨o, a, k, rfl⟩ := h.eq
  exact .of_eq rfl

end StatusKept

/-! ### What the micro-steps that do not name STATUS or DIR leave of them -/

section Registers

variable (s : State) (o : Op)

@[simp] theorem State.answer_status (code : Code) : (s.answer o code).status = s.status := by
  obtain ⟨k, hk⟩ := s.answer_eq o code
  rw [hk]

@[simp] theorem State.answer_dir (code : Code) : (s.answer o code).dir = s.dir := by
  obtain ⟨k, hk⟩ := s.answer_eq o code
  rw [hk]

@[simp] theorem State.proceed_status : (s.proceed o).status = s.status := by
  rcases s.proceed_cases o with hp | hp <;> simp [hp]

@[simp] theorem State.proceed_dir : (s.proceed o).dir = s.dir := by
  rcases s.proceed_cases o with hp | hp <;> simp [hp]

variable (l : Link) (b : Byte) (u : GetUse)

@[simp] theorem State.useByte_status : (s.useByte l o b u).status = s.status := by
  obtain ⟨v, o', hv⟩ := useByte_ends s l o b u
  simp [hv]

@[simp] theorem State.useByte_dir : (s.useByte l o b u).dir = s.dir := by
  obtain ⟨v, o', hv⟩ := useByte_ends s l o b u
  simp [hv]

@[simp] theorem State.getTimedOut_status : (s.getTimedOut l o u).status = s.status := by
  obtain ⟨o', a, k, hk⟩ := (getTimedOut_ends s l o u).eq
  rw [hk]

@[simp] theorem State.getTimedOut_dir : (s.getTimedOut l o u).dir = s.dir := by
  obtain ⟨o', a, k, hk⟩ := (getTimedOut_ends s l o u).eq
  rw [hk]

end Registers

/-- The micro-steps of `ST_RESET` and `ST_CLR` (rules R217, R219). -/
def Micro.clearsFlags : Micro → Bool
  | .resetStatus | .clearStatus _ => true
  | _ => false

/-- The micro-step of `DIR_TX` and `DIR_RX` (rules R210, R211). -/
def Micro.setsDir : Micro → Bool
  | .direction _ => true
  | _ => false

theorem Micro.clearsFlags_of_spawned {m : Micro} (h : m.spawned = true) : (!m.clearsFlags) = true := by
  cases m <;> simp_all [Micro.spawned, Micro.clearsFlags]

theorem Micro.setsDir_of_spawned {m : Micro} (h : m.spawned = true) : (!m.setsDir) = true := by
  cases m <;> simp_all [Micro.spawned, Micro.setsDir]

/-- Rule R27: every micro-step but those of `ST_RESET` and `ST_CLR` raises flags or leaves them. -/
theorem Micro.run_statusKept {m : Micro} {o : Op} {s t : State} (hm : m.clearsFlags = false)
    (h : m.run o s = some t) : StatusKept s t := by
  cases m <;> simp only [Micro.run] at h
  case resetStatus | clearStatus => cases hm
  case setStatus m => cases h; exact (StatusKept.raise s m).trans (.of_eq (by simp))
  case fail m code => cases h; exact (StatusKept.raise s m).trans (.of_eq (by simp))
  case awaitDrain =>
    split at h
    · cases h; exact .of_eq (by simp)
    · split at h
      · cases h; exact (StatusKept.raise s busTimeoutMask).trans (.of_eq (by simp))
      · cases h
  case get l u =>
    split at h
    · cases h; exact .of_eq (by simp)
    · split at h
      · cases h; exact .of_eq (by simp)
      · cases h
  case put | putChecksum | getUntimed | awaitExpiry =>
    split at h <;> cases h
    exact .of_eq (by simp)
  all_goals cases h; exact .of_eq (by simp)

/-- Rule R25: every micro-step but those of `DIR_TX` and `DIR_RX` leaves the direction. -/
theorem Micro.run_dir {m : Micro} {o : Op} {s t : State} (hm : m.setsDir = false) (h : m.run o s = some t) :
    t.dir = s.dir := by
  cases m <;> simp only [Micro.run] at h
  case direction => cases hm
  case get l u =>
    split at h
    · cases h; simp
    · split at h <;> cases h
      simp
  case awaitDrain =>
    split at h
    · cases h; simp
    · split at h <;> cases h
      simp
  case put | putChecksum | getUntimed | awaitExpiry =>
    split at h <;> cases h
    simp
  all_goals cases h; simp

/-! ### Which programs name STATUS or DIR -/

/-- No row but `ST_RESET` and `ST_CLR` has a micro-step that clears a flag. -/
theorem programOf_keepsFlags {c : Config} {i : Instr} {p : Program} (h : programOf c i = some p) (hreset : i ≠ .stReset)
    (hclr : ∀ m, i ≠ .stClr m) : p.todo.all (fun m => !m.clearsFlags) = true := by
  cases i <;> simp only [programOf, Option.some.injEq, reduceCtorEq] at h <;> subst h
  case stReset => exact absurd rfl hreset
  case stClr m => exact absurd rfl (hclr m)
  all_goals rfl

/-- No row but `DIR_TX` and `DIR_RX` has a micro-step that sets the direction. -/
theorem programOf_keepsDir {c : Config} {i : Instr} {p : Program} (h : programOf c i = some p) (htx : i ≠ .dirTx)
    (hrx : i ≠ .dirRx) : p.todo.all (fun m => !m.setsDir) = true := by
  cases i <;> simp only [programOf, Option.some.injEq, reduceCtorEq] at h <;> subst h
  case dirTx => exact absurd rfl htx
  case dirRx => exact absurd rfl hrx
  all_goals rfl

/-- Settles O37: a CMD row's micro-steps and those they lead to only raise flags, and so do the events. -/
theorem statusBitsAreSticky : Obligations.StatusBitsAreSticky := by
  intro s t i hi hreset hclr h
  rcases hi with hi | hi
  · obtain ⟨p, hp⟩ := programOf_isSome (c := s.cfg) hi
    rw [exec_cmd hp] at h
    exact State.command_keeps_within (q := fun m => !m.clearsFlags) (P := StatusKept s)
      (fun m hm => Micro.clearsFlags_of_spawned hm)
      (fun u o hu => hu) (fun u o code hu => hu.trans (.of_eq (by simp)))
      (fun u v m o hu hm hr => hu.trans (Micro.run_statusKept (by simpa using hm) hr))
      (List.all_eq_true.1 (programOf_keepsFlags hp hreset hclr)) (.refl s) h
  · exact exec_event_keeps (P := StatusKept s) (fun u v hu he => hu.trans (.eventEffect he)) hi (.refl s) h

/-! ### One writer for each index and for DIR -/

/-- Rule R23, the foreground's side: of a receive channel it writes the get index alone, and of a transmit channel not
the get index. -/
def ForegroundSide (s t : State) : Prop :=
  ∀ l, (t.chan (rxChan l)).put = (s.chan (rxChan l)).put ∧ (t.chan (rxChan l)).buf = (s.chan (rxChan l)).buf ∧
    (t.chan (txChan l)).get = (s.chan (txChan l)).get

/-- Rule R23, the side of the asynchronous agents: of a receive channel they do not write the get index, and of a transmit
channel they write the get index alone. -/
def EventSide (s t : State) : Prop :=
  ∀ l, (t.chan (rxChan l)).get = (s.chan (rxChan l)).get ∧ (t.chan (txChan l)).put = (s.chan (txChan l)).put ∧
    (t.chan (txChan l)).buf = (s.chan (txChan l)).buf

/-- A replaced channel that agrees with the old one in `f` leaves `f` of every channel. -/
theorem State.setChan_agrees {α : Type} (f : Channel → α) (s : State) (c c' : Chan) {ch : Channel}
    (h : f ch = f (s.chan c)) : f ((s.setChan c ch).chan c') = f (s.chan c') := by
  by_cases hc : c' = c
  · rw [hc, State.setChan_chan_same, h]
  · rw [State.setChan_chan_other s hc]

theorem rxChan_ne_txChan (l l' : Link) : rxChan l ≠ txChan l' := by cases l <;> cases l' <;> decide

namespace ForegroundSide

variable {s t u : State}

theorem of_chan_eq (h : ∀ c, t.chan c = s.chan c) : ForegroundSide s t := fun l => by simp [h]

theorem refl (s : State) : ForegroundSide s s := of_chan_eq fun _ => rfl

theorem trans (h : ForegroundSide s t) (h' : ForegroundSide t u) : ForegroundSide s u := fun l => by
  obtain ⟨hput, hbuf, hget⟩ := h l
  obtain ⟨hput', hbuf', hget'⟩ := h' l
  exact ⟨hput'.trans hput, hbuf'.trans hbuf, hget'.trans hget⟩

/-- A put is the producer's of a transmit channel. -/
theorem push (s : State) (l : Link) (b : Byte) : ForegroundSide s (s.push (txChan l) b) := fun l' =>
  have hrx := State.push_chan_other s (rxChan_ne_txChan l' l) b
  ⟨congrArg _ hrx, congrArg _ hrx, State.setChan_agrees Channel.get s _ _ rfl⟩

/-- A pop is the consumer's of a receive channel. -/
theorem dropOldest (s : State) (l : Link) : ForegroundSide s (s.dropOldest (rxChan l)) := fun l' =>
  ⟨State.setChan_agrees Channel.put s _ _ rfl, State.setChan_agrees Channel.buf s _ _ rfl,
    congrArg _ (State.dropOldest_chan_other s (rxChan_ne_txChan l l').symm)⟩

/-- A flush is the consumer's of a receive channel. -/
theorem flushChan (s : State) (l : Link) : ForegroundSide s (s.flushChan (rxChan l)) := fun l' =>
  ⟨State.setChan_agrees Channel.put s _ _ rfl, State.setChan_agrees Channel.buf s _ _ rfl,
    congrArg _ (State.flushChan_chan_other s (rxChan_ne_txChan l l').symm)⟩

theorem blockEffect (h : BlockEffect s t) : ForegroundSide s t := by
  cases h with
  | put l b v _ => exact (push s l b).trans (of_chan_eq (State.setTxSum_chan _ l v))
  | got l v _ => exact (dropOldest s l).trans (of_chan_eq (State.setRxSum_chan _ l v))
  | flush l => exact flushChan s l
  | _ => exact of_chan_eq fun c => by simp

theorem microStep (h : s.microStep = some t) : ForegroundSide s t := by
  obtain ⟨-, o, -, u, hu, hend⟩ := State.microStep_cases h
  obtain ⟨o', a, k, rfl⟩ := hend.eq
  exact (blockEffect hu).trans (of_chan_eq fun _ => rfl)

theorem command {p : Program} (h : s.command p = .next t) : ForegroundSide s t :=
  State.command_keeps (P := ForegroundSide s) (fun _ _ hu => hu) (fun _ _ hu hm => hu.trans (microStep hm)) (refl s) h

end ForegroundSide

namespace EventSide

variable {s t : State}

theorem of_chan_eq (h : ∀ c, t.chan c = s.chan c) : EventSide s t := fun l => by simp [h]

/-- An arrival is the producer's of a receive channel. -/
theorem arrive (s : State) (l : Link) (b : Byte) : EventSide s (s.arrive l b) := by
  unfold State.arrive
  split
  · exact of_chan_eq (State.raise_chan s _)
  · intro l'
    have htx := State.push_chan_other s (rxChan_ne_txChan l l').symm b
    exact ⟨State.setChan_agrees Channel.get s _ _ rfl, congrArg _ htx, congrArg _ htx⟩

/-- A load is the consumer's of a transmit channel. -/
theorem loadShift (s : State) (l : Link) : EventSide s (s.loadShift l) := fun l' => by
  simp only [State.loadShift, State.setShift_chan]
  exact ⟨congrArg _ (State.dropOldest_chan_other s (rxChan_ne_txChan l' l)),
    State.setChan_agrees Channel.put s _ _ rfl, State.setChan_agrees Channel.buf s _ _ rfl⟩

theorem eventEffect (h : EventEffect s t) : EventSide s t := by
  cases h with
  | arrive l b => exact arrive s l b
  | load l _ => exact loadShift s l
  | halt => exact of_chan_eq fun _ => rfl
  | _ => exact of_chan_eq fun c => by simp

end EventSide

/-- Rule R25: the CMD rows but `DIR_TX` and `DIR_RX`, the events and the arriving packets leave the direction. -/
theorem exec_dir {s t : State} {i : Instr} (hi : i.format = .cmd ∨ i.format = .evt ∨ i.format = .busRx)
    (htx : i ≠ .dirTx) (hrx : i ≠ .dirRx) (h : exec i s = .next t) : t.dir = s.dir := by
  rcases hi with hi | hi
  · obtain ⟨p, hp⟩ := programOf_isSome (c := s.cfg) hi
    rw [exec_cmd hp] at h
    exact State.command_keeps_within (q := fun m => !m.setsDir) (P := fun u => u.dir = s.dir)
      (fun m hm => Micro.setsDir_of_spawned hm)
      (fun u o hu => hu) (fun u o code hu => (State.answer_dir u o code).trans hu)
      (fun u v m o hu hm hr => (Micro.run_dir (by simpa using hm) hr).trans hu)
      (List.all_eq_true.1 (programOf_keepsDir hp htx hrx)) rfl h
  · exact (HeldKept.event hi h).dir

/-- Settles O38: the two sides of rule R23 for the CMD rows and the events, read off link by link, and `exec_dir`. -/
theorem indicesAndDirectionHaveOneWriter : Obligations.IndicesAndDirectionHaveOneWriter := by
  intro s t i h
  refine ⟨fun hi => ?_, fun hi => ?_, fun hi htx hrx => exec_dir hi htx hrx h⟩
  · obtain ⟨p, hp⟩ := programOf_isSome (c := s.cfg) hi
    have hside : ForegroundSide s t := .command (exec_cmd hp ▸ h)
    obtain ⟨hput, hbuf, hget⟩ := hside .host
    obtain ⟨bput, bbuf, bget⟩ := hside .bus
    exact ⟨hput, hbuf, bput, bbuf, hget, bget⟩
  · have hside : EventSide s t := .eventEffect (.of_exec hi h)
    obtain ⟨hget, hput, hbuf⟩ := hside .host
    obtain ⟨bget, bput, bbuf⟩ := hside .bus
    exact ⟨hget, bget, hput, hbuf, bput, bbuf⟩

/-! ### Reset -/

theorem State.reset_chan (c : Chan) : State.reset.chan c = Channel.reset := by cases c <;> rfl

/-- Rule R36: RESET leaves the channels of the reset state. -/
theorem State.afterReset_chan (s : State) (c : Chan) : s.afterReset.chan c = Channel.reset := by cases c <;> rfl

/-- A channel with reset indices holds nothing. -/
theorem State.contents_of_reset {s : State} {c : Chan} (h : s.chan c = Channel.reset) : s.contents c = [] := by
  have hlen : s.len c = 0 := by simp [State.len, h, Channel.reset]
  simp [State.contents, hlen]

/-- Settles O21: RESET is `State.afterReset`, from every state. -/
theorem resetRestoresEveryElement : Obligations.ResetRestoresEveryElement := by
  intro s
  refine ⟨s.afterReset, rfl, fun c => ?_, rfl, rfl, rfl, rfl, rfl, rfl, rfl, rfl, rfl, rfl, rfl, ⟨s.cmdOut, rfl⟩, rfl,
    rfl, rfl, rfl, rfl, rfl, rfl, rfl⟩
  have hch := s.afterReset_chan c
  exact ⟨by rw [hch]; rfl, by rw [hch]; rfl, State.contents_of_reset hch⟩

/-- Settles O22: each element of `State.reset` is the value rule R36 gives it. -/
theorem resetStateHoldsSpecValues : Obligations.ResetStateHoldsSpecValues := by
  refine ⟨fun c => ?_, rfl, rfl, rfl, rfl, rfl, rfl, rfl, rfl, rfl, rfl, rfl, rfl, rfl, rfl, rfl, rfl, rfl⟩
  rw [State.reset_chan]
  exact ⟨rfl, rfl⟩

end Sys2Proof.Machine
end

section
/-!
PROOFS of the memory statements (20_memory.md), first part: every row answers a next state (O8), and a CMD line is its
micro-steps taken one by one up to the hold (O7).

Two things are said once and used by all the statements about CMD operations after this: a micro-step lessens what is left
to do (`State.turnsLeft`), so the fuel of a CMD line never ends it; and `exec_eq_of_turns`, by which a row's meaning is any chain
of single micro-steps (`Turns`) that ends where none is enabled.
-/

namespace Sys2Proof.Machine

/-! ### Every row goes on -/

theorem State.command_next (s : State) (p : Program) : ∃ t, s.command p = .next t := by
  by_cases ho : s.op = none
  · exact ⟨_, s.command_free p ho⟩
  · exact ⟨_, s.command_held p ho⟩

/-- Settles O8: a CMD row is `State.command`; an event, RESET and a procedure of the client answer by definition. -/
theorem execAlwaysGoesOn : Obligations.ExecAlwaysGoesOn := by
  intro i s
  by_cases hi : i.format = .cmd
  · obtain ⟨p, hp⟩ := programOf_isSome (c := s.cfg) hi
    rw [exec_cmd hp]
    exact s.command_next p
  · cases i
    case hrxGet | hrxWait | hrxFlush | htxPut | brxGet | brxFlush | btxPut => exact absurd rfl hi
    case hcTxStart | hcTxByte | hcTxEnd | hcRxStart | hcRxByte | hcRxEnd => exact absurd rfl hi
    case bcTxStart | bcTxByte | bcTxEnd | bcRxPacket | bcRxEnd => exact absurd rfl hi
    case dirTx | dirRx | tmoArm | tmoWait | stRead | stReset | stSet | stClr => exact absurd rfl hi
    all_goals exact ⟨_, rfl⟩

/-! ### What an operation has left to do -/

/-- At least as many micro-steps as the use of a byte can add: the failure path or the flag (one); for the error byte of a
packet the flag and, for each of at most 255 parameter bytes, an arming and a read, which can itself time out. -/
def GetUse.turns : GetUse → Nat
  | .raw => 0
  | .err => 1 + 3 * 255
  | .byte _ | .start | .check | .sync1 | .sync2 | .id | .len | .param => 1

/-- The micro-steps a micro-step stands for, those it can lead to counted in. -/
def Micro.turns : Micro → Nat
  | .get _ u | .getUntimed u => 1 + u.turns
  | _ => 1

/-- A bound on the micro-steps from a list of them to the end of its operation. -/
def turnsOf (ms : List Micro) : Nat := (ms.map Micro.turns).sum

/-- A bound on the micro-steps the operation in progress has left, the answer counted in. -/
def State.turnsLeft (s : State) : Nat :=
  match s.op with
  | none => 0
  | some o => turnsOf o.todo + 1

theorem Micro.turns_pos (m : Micro) : 0 < m.turns := by cases m <;> simp [Micro.turns]

@[simp] theorem turnsOf_nil : turnsOf [] = 0 := rfl

@[simp] theorem turnsOf_cons (m : Micro) (ms : List Micro) : turnsOf (m :: ms) = m.turns + turnsOf ms := by
  simp [turnsOf]

@[simp] theorem turnsOf_append (ms ms' : List Micro) : turnsOf (ms ++ ms') = turnsOf ms + turnsOf ms' := by
  simp [turnsOf]

theorem turnsOf_paramReads (t : Byte) (n : Nat) : turnsOf (paramReads t n) = 3 * n := by
  induction n with
  | zero => rfl
  | succ n ih => simp only [paramReads, turnsOf_cons, ih, Micro.turns, GetUse.turns]; omega

theorem State.answer_turnsLeft (s : State) (o : Op) (code : Code) : (s.answer o code).turnsLeft = 0 := by
  obtain ⟨k, hk⟩ := s.answer_eq o code
  rw [hk]
  rfl

theorem State.proceed_turnsLeft (s : State) (o : Op) : (s.proceed o).turnsLeft ≤ turnsOf o.todo + 1 := by
  rcases s.proceed_cases o with hp | hp
  · rw [hp]; exact Nat.le_refl _
  · rw [hp, State.answer_turnsLeft]; exact Nat.zero_le _

theorem State.useByte_turnsLeft (s : State) (l : Link) (o : Op) (b : Byte) (u : GetUse) :
    (s.useByte l o b u).turnsLeft ≤ turnsOf o.todo + 1 + u.turns := by
  cases u <;> simp only [State.useByte]
  case check =>
    split
    · exact (State.proceed_turnsLeft s o).trans (Nat.le_add_right _ _)
    · exact (State.proceed_turnsLeft s _).trans (by simp [Micro.turns, GetUse.turns])
  case sync2 =>
    split
    · exact (State.proceed_turnsLeft s _).trans (by simp [Micro.turns, GetUse.turns]; omega)
    · exact (State.proceed_turnsLeft s o).trans (Nat.le_add_right _ _)
  case err =>
    refine (State.proceed_turnsLeft _ _).trans ?_
    have hcount := (paramCount ((o.packet.map PacketLocals.len).getD 0)).isLt
    split <;> simp [turnsOf_paramReads, Micro.turns, GetUse.turns] <;> omega
  all_goals exact (State.proceed_turnsLeft _ _).trans (Nat.le_add_right _ _)

theorem State.getTimedOut_turnsLeft (s : State) (l : Link) (o : Op) (u : GetUse) :
    (s.getTimedOut l o u).turnsLeft ≤ 1 + u.turns := by
  cases u
  case raw => exact (State.answer_turnsLeft s o .timeout).trans_le (Nat.zero_le _)
  all_goals
    exact (State.proceed_turnsLeft s { o with todo := [.fail (timeoutMask l) .timeout] }).trans
      (by simp [Micro.turns, GetUse.turns])

/-- A micro-step leaves less to do than it stands for. -/
theorem Micro.run_turnsLeft {m : Micro} {o : Op} {s t : State} (h : m.run o s = some t) :
    t.turnsLeft ≤ turnsOf o.todo + m.turns := by
  have hproceed : ∀ u : State, (u.proceed o).turnsLeft ≤ turnsOf o.todo + 1 := fun u => u.proceed_turnsLeft o
  cases m <;> simp only [Micro.run] at h
  case get l u =>
    split at h
    · cases h; exact (State.useByte_turnsLeft _ l o _ u).trans_eq (Nat.add_assoc _ _ _)
    · split at h <;> cases h
      exact (State.getTimedOut_turnsLeft s l o u).trans (Nat.le_add_left _ _)
  case getUntimed u =>
    split at h <;> cases h
    exact (State.useByte_turnsLeft _ .host o _ u).trans_eq (Nat.add_assoc _ _ _)
  case awaitDrain =>
    split at h
    · cases h; exact hproceed s
    · split at h <;> cases h
      rw [State.answer_turnsLeft]; exact Nat.zero_le _
  case put | putChecksum | awaitExpiry =>
    split at h <;> cases h
    exact hproceed _
  case fail => cases h; rw [State.answer_turnsLeft]; exact Nat.zero_le _
  case readStatus => cases h; exact State.proceed_turnsLeft _ _
  all_goals cases h; exact hproceed _

theorem State.microStep_turnsLeft {s t : State} (h : s.microStep = some t) : t.turnsLeft < s.turnsLeft := by
  obtain ⟨o, ho, rfl | ⟨m, rest, htodo, hr⟩⟩ := State.microStep_run h
  · rw [State.answer_turnsLeft]; simp [State.turnsLeft, ho]
  · have hle : t.turnsLeft ≤ turnsOf rest + m.turns := Micro.run_turnsLeft hr
    have hs : s.turnsLeft = m.turns + turnsOf rest + 1 := by simp [State.turnsLeft, ho, htodo]
    omega

/-- Log entry 18: the fuel of a CMD line is more than any row's operation takes. -/
theorem programOf_turns {c : Config} {i : Instr} {p : Program} (h : programOf c i = some p) :
    turnsOf p.todo + 1 ≤ opFuel := by
  cases i <;> simp only [programOf, Option.some.injEq, reduceCtorEq] at h <;> subst h
  case bcRxPacket => simp [bcRxPacketProgram, Micro.turns, GetUse.turns, opFuel]
  all_goals exact Nat.le_of_ble_eq_true rfl

/-! ### A CMD line as a chain of micro-steps -/

/-- `t` is reached from `s` by micro-steps of the operation in progress, taken one at a time (rule R68). -/
def Turns : State → State → Prop := Relation.ReflTransGen fun s t => s.microStep = some t

theorem Turns.refl (s : State) : Turns s s := Relation.ReflTransGen.refl

theorem Turns.trans {s t u : State} (h : Turns s t) (h' : Turns t u) : Turns s u := Relation.ReflTransGen.trans h h'

theorem Turns.step {s t : State} (h : s.microStep = some t) : Turns s t := Relation.ReflTransGen.single h

/-- With enough fuel a run to the hold ends where micro-steps taken singly end. -/
theorem State.runOp_of_turns {s t : State} (h : Turns s t) (ht : t.microStep = none) :
    ∀ n, s.turnsLeft ≤ n → s.runOp n = t := by
  induction h using Relation.ReflTransGen.head_induction_on with
  | refl => exact fun n _ => State.runOp_hold ht
  | head hm _ ih =>
    intro n hn
    have hlt := State.microStep_turnsLeft hm
    obtain ⟨k, rfl⟩ : ∃ k, n = k + 1 := ⟨n - 1, by omega⟩
    rw [State.runOp_step hm]
    exact ih k (by omega)

/-- With enough fuel a run ends at a hold. -/
theorem State.microStep_runOp (n : Nat) : ∀ s : State, s.turnsLeft ≤ n → (s.runOp n).microStep = none := by
  induction n with
  | zero =>
    intro s hn
    have ho : s.op = none := by
      cases ho : s.op with
      | none => rfl
      | some o => simp [State.turnsLeft, ho] at hn
    exact State.microStep_idle ho
  | succ n ih =>
    intro s hn
    cases hm : s.microStep with
    | none => rw [State.runOp_hold hm]; exact hm
    | some t =>
      have hlt := State.microStep_turnsLeft hm
      rw [State.runOp_step hm]
      exact ih t (by omega)

/-- Where nothing is enabled the remaining single micro-steps change nothing, so a run is its micro-steps taken singly. -/
theorem State.runOp_eq_afterTurns (n : Nat) : ∀ s : State, s.runOp n = s.afterTurns n := by
  induction n with
  | zero => exact fun s => rfl
  | succ n ih =>
    intro s
    rw [State.afterTurns, State.opTurn, ← ih]
    cases hm : s.microStep with
    | none => rw [State.runOp_hold hm, Option.getD_none, State.runOp_hold hm]
    | some t => rw [State.runOp_step hm, Option.getD_some]

/-- What a CMD row has left to do when it is presented. -/
theorem State.issue_turnsLeft {s : State} {i : Instr} {p : Program} (ho : s.op = none)
    (hp : programOf s.cfg i = some p) (w : Owner) : (s.issue w p).turnsLeft ≤ opFuel := by
  rw [State.issue_free s w p ho]
  exact programOf_turns hp

/-- Settles O7: the run of the line is `opFuel` single micro-steps, which is enough to come to the hold. -/
theorem cmdRunsToItsHold : Obligations.CmdRunsToItsHold := by
  intro s t i p ho hp h
  rw [exec_cmd hp, State.command_free s p ho] at h
  cases h
  exact ⟨State.microStep_runOp _ _ (State.issue_turnsLeft ho hp _), opFuel, State.runOp_eq_afterTurns _ _⟩

/-! ### One micro-step from where an operation stands -/

theorem State.holding_eq_proceed (s : State) (m : Micro) (ms : List Micro) (r : List Byte) (p : Option PacketLocals) :
    s.holding (m :: ms) r p = s.proceed ⟨.script, m :: ms, r, p⟩ := rfl

/-- An operation of the run's own with nothing left to do has answered `Ok`. -/
theorem State.proceed_script_nil (s : State) (r : List Byte) (p : Option PacketLocals) :
    s.proceed ⟨.script, [], r, p⟩ = s.reply .ok (Op.answerBytes ⟨.script, [], r, p⟩) := rfl

/-- The use of a byte overwrites the operation that was in progress. -/
theorem State.useByte_of_op (s : State) (x : Option Op) (l : Link) (o : Op) (b : Byte) (u : GetUse) :
    { s with op := x }.useByte l o b u = s.useByte l o b u := by
  cases u
  case byte acc => cases acc <;> cases l <;> rfl
  all_goals cases l <;> rfl

/-- The operation in progress is no operand of a micro-step: what it does is in `o`. -/
theorem Micro.run_of_op (m : Micro) (o : Op) (s : State) (x : Option Op) : m.run o { s with op := x } = m.run o s := by
  have huse := fun c => State.useByte_of_op (s.dropOldest c) x
  cases m
  case get l u => cases l <;> simp only [Micro.run] <;> rw [← huse] <;> cases u <;> rfl
  case getUntimed u => simp only [Micro.run]; rw [← huse]; rfl
  case put l b u => cases l <;> rfl
  case putChecksum l | flush l => cases l <;> rfl
  all_goals rfl

section Standing

variable {s t : State} {w : Owner} {m : Micro} {ms : List Micro} {r : List Byte} {p : Option PacketLocals}

/-- The micro-step of an operation that stands at it. -/
theorem State.microStep_proceed (hh : s.halt = false) :
    (s.proceed ⟨w, m :: ms, r, p⟩).microStep = m.run ⟨w, ms, r, p⟩ s :=
  (State.microStep_cons (s := { s with op := some ⟨w, m :: ms, r, p⟩ }) hh rfl).trans (Micro.run_of_op m _ s _)

theorem Turns.run (hh : s.halt = false) (h : m.run ⟨w, ms, r, p⟩ s = some t) : Turns (s.proceed ⟨w, m :: ms, r, p⟩) t :=
  .step ((State.microStep_proceed hh).trans h)

/-- Where its micro-step holds the operation has none enabled. -/
theorem State.microStep_proceed_holds (hh : s.halt = false) (h : m.Holds s) :
    (s.proceed ⟨w, m :: ms, r, p⟩).microStep = none :=
  (State.microStep_proceed hh).trans (Micro.run_eq_none.2 h)

/-- Rule R132: a get with a byte there takes the oldest, whatever the countdown. -/
theorem Micro.run_get {l : Link} {u : GetUse} {o : Op} (h : ¬ s.Empty (rxChan l)) :
    (Micro.get l u).run o s = some ((s.dropOldest (rxChan l)).useByte l o (s.oldest (rxChan l)) u) := if_pos h

/-- Rule R131: a put with room pushes. -/
theorem Micro.run_put {l : Link} {b : Byte} {u : SumUse} {o : Op} (h : ¬ s.Full (txChan l)) :
    (Micro.put l b u).run o s = some (((s.push (txChan l) b).setTxSum l (u.apply (s.txSum l) b)).proceed o) := if_neg h

end Standing

/-- A CMD row on a free interface is any chain of its micro-steps that ends where none is enabled. -/
theorem exec_eq_of_turns {s t : State} {i : Instr} {p : Program} {m : Micro} {ms : List Micro} (ho : s.op = none)
    (hp : programOf s.cfg i = some p) (htodo : p.todo = m :: ms)
    (h : Turns (s.proceed ⟨.script, m :: ms, [], p.packet⟩) t) (ht : t.microStep = none) : exec i s = .next t := by
  have hissue : s.issue .script p = s.proceed ⟨.script, m :: ms, [], p.packet⟩ := by
    rw [State.issue_free s _ p ho, htodo, State.proceed_cons]
  rw [exec_cmd hp, State.command_free s p ho,
    State.runOp_of_turns (hissue ▸ h) ht _ (State.issue_turnsLeft ho hp _)]

end Sys2Proof.Machine
end

section
/-!
PROOFS of the memory statements, second part: the CMD rows that store nothing leave every slot (O43).
-/

namespace Sys2Proof.Machine

/-! ### What the micro-steps that store nothing leave of the storage -/

section Slots

variable (s : State) (o : Op) (c : Chan) (j : Nat)

@[simp] theorem State.answer_slot (code : Code) : (s.answer o code).slot c j = s.slot c j := by
  obtain ⟨k, hk⟩ := s.answer_eq o code
  rw [hk]
  rfl

@[simp] theorem State.proceed_slot : (s.proceed o).slot c j = s.slot c j := by
  rcases s.proceed_cases o with hp | hp
  · rw [hp]; rfl
  · rw [hp, State.answer_slot]

@[simp] theorem State.useByte_slot (l : Link) (b : Byte) (u : GetUse) : (s.useByte l o b u).slot c j = s.slot c j := by
  obtain ⟨v, o', hv⟩ := useByte_ends s l o b u
  simp [hv]

@[simp] theorem State.getTimedOut_slot (l : Link) (u : GetUse) : (s.getTimedOut l o u).slot c j = s.slot c j := by
  obtain ⟨o', a, k, hk⟩ := (getTimedOut_ends s l o u).eq
  rw [hk]
  rfl

end Slots

/-- The micro-steps that push: the puts of rule R131. -/
def Micro.stores : Micro → Bool
  | .put _ _ _ | .putChecksum _ => true
  | _ => false

theorem Micro.stores_of_spawned {m : Micro} (h : m.spawned = true) : (!m.stores) = true := by
  cases m <;> simp_all [Micro.spawned, Micro.stores]

/-- Rules R63, R130: "`pop` leaves the slot's byte in place"; every micro-step but a put leaves every slot as it reads. -/
theorem Micro.run_slot {m : Micro} {o : Op} {s t : State} (hm : m.stores = false) (h : m.run o s = some t) (c : Chan)
    (j : Nat) : t.slot c j = s.slot c j := by
  cases m <;> simp only [Micro.run] at h
  case put | putChecksum => cases hm
  case get l u =>
    split at h
    · cases h; simp
    · split at h <;> cases h
      simp
  case awaitDrain =>
    split at h
    · cases h; simp
    · split at h <;> cases h
      simp
  case getUntimed | awaitExpiry =>
    split at h <;> cases h
    simp
  all_goals cases h; simp

/-- A program without a put leaves every slot of every channel as it reads, whatever it comes to. -/
theorem State.command_slot {s t : State} {p : Program} (hp : ∀ m ∈ p.todo, (!m.stores) = true)
    (h : s.command p = .next t) (c : Chan) (j : Nat) : t.slot c j = s.slot c j :=
  State.command_keeps_within (q := fun m => !m.stores) (P := fun u => u.slot c j = s.slot c j)
    (fun _ hm => Micro.stores_of_spawned hm)
    (fun _ _ hu => hu) (fun u o code hu => (State.answer_slot u o c j code).trans hu)
    (fun _ _ _ _ hu hm hr => (Micro.run_slot (by simpa using hm) hr c j).trans hu) hp rfl h

/-- A CMD row whose program has no put leaves every slot of every channel as it reads. -/
theorem exec_slot {s t : State} {i : Instr} {p : Program} (hp : programOf s.cfg i = some p)
    (hall : p.todo.all (fun m => !m.stores) = true) (h : exec i s = .next t) (c : Chan) (j : Nat) :
    t.slot c j = s.slot c j :=
  State.command_slot (List.all_eq_true.1 hall) (exec_cmd hp ▸ h) c j

/-- Settles O43: none of the rows named has a put in its program. -/
theorem nonStoringOperationsLeaveStorage : Obligations.NonStoringOperationsLeaveStorage := by
  intro s t i _ hi h
  rcases hi with hi | ⟨b, hi⟩ | ⟨a, rfl⟩
  · simp only [List.mem_cons, List.not_mem_nil, or_false] at hi
    rcases hi with rfl | rfl | rfl | rfl | rfl | rfl | rfl | rfl | rfl | rfl | rfl <;> exact exec_slot rfl rfl h
  · rcases hi with rfl | rfl | rfl | rfl | rfl | rfl <;> exact exec_slot rfl rfl h
  · exact exec_slot rfl rfl h

end Sys2Proof.Machine
end

section
/-!
PROOFS of the memory statements, third part: the raw gets and puts of either link, their holds, and what releases them
(O11, O16, the first two parts of O15).
-/

namespace Sys2Proof.Machine

/-! ### An answer ends an operation -/

section Reply

variable (s : State) (code : Code) (r : List Byte)

theorem State.reply_microStep : (s.reply code r).microStep = none := State.microStep_idle rfl

@[simp] theorem State.reply_holding (m : List Micro) (r' : List Byte) (p : Option PacketLocals) :
    (s.holding m r' p).reply code r = s.reply code r := rfl

end Reply

/-! ### A channel does not see the operation in progress -/

section Holding

variable (s : State) (m : List Micro) (r : List Byte) (p : Option PacketLocals)

theorem State.holding_push (c : Chan) (b : Byte) : (s.holding m r p).push c b = (s.push c b).holding m r p := by
  cases c <;> rfl

theorem State.holding_loadShift (l : Link) : (s.holding m r p).loadShift l = (s.loadShift l).holding m r p := by
  cases l <;> rfl

end Holding

/-! ### The raw gets -/

section Get

variable {s : State} {l : Link} {i : Instr} {t : Byte}

/-- A byte that is used raw is the answer of an operation of the run's own. -/
theorem State.useByte_raw (s : State) (l : Link) (b : Byte) :
    s.useByte l ⟨.script, [], [], none⟩ b .raw = s.reply .ok [b] := rfl

theorem Turns.arm {w : Owner} {ms : List Micro} {r : List Byte} {p : Option PacketLocals} (hh : s.halt = false) :
    Turns (s.proceed ⟨w, .arm t :: ms, r, p⟩) ((s.armTimer t).proceed ⟨w, ms, r, p⟩) := .run hh rfl

/-- Rules R136, R137: with a byte there a raw get takes the oldest, whatever `t`. -/
theorem exec_get_takes (hr : s.Ready) (hp : programOf s.cfg i = some { todo := [.arm t, .get l .raw] })
    (hne : ¬ s.Empty (rxChan l)) :
    exec i s = .next (((s.armTimer t).dropOldest (rxChan l)).reply .ok [s.oldest (rxChan l)]) := by
  obtain ⟨hh, ho⟩ := hr
  have hget : ¬ (s.armTimer t).Empty (rxChan l) := by simpa [State.Empty] using hne
  refine exec_eq_of_turns ho hp rfl ((Turns.arm hh).trans (.run hh ?_)) (State.reply_microStep _ _ _)
  rw [Micro.run_get hget, State.useByte_raw, State.armTimer_oldest]

/-- Rules R132, R136, R137: with nothing there, and a bound that is not 0, it holds. -/
theorem exec_get_holds (hr : s.Ready) (hp : programOf s.cfg i = some { todo := [.arm t, .get l .raw] })
    (he : s.Empty (rxChan l)) (ht : t ≠ 0) :
    exec i s = .next ((s.armTimer t).holding [.get l .raw] [] none) := by
  obtain ⟨hh, ho⟩ := hr
  have hget : (s.armTimer t).Empty (rxChan l) := by simpa [State.Empty] using he
  exact exec_eq_of_turns ho hp rfl (.arm hh) (State.microStep_proceed_holds hh ⟨hget, ht⟩)

/-- A push on an empty channel is the byte its next pop takes. -/
theorem State.oldest_push_empty {c : Chan} (b : Byte) (hle : (s.chan c).get ≤ (s.chan c).put) (he : s.Empty c)
    (hcap : 0 < s.cap c) : ¬ (s.push c b).Empty c ∧ (s.push c b).oldest c = b := by
  have hlen : s.len c = 0 := he
  have hnil : s.contents c = [] := List.length_eq_zero_iff.1 ((s.length_contents c).trans he)
  have hcons : (s.push c b).contents c = [b] := by rw [s.contents_push b hle (by omega), hnil]; rfl
  obtain ⟨hne, hold, -⟩ := State.contents_cons _ hcons
  exact ⟨hne, hold⟩

/-- Rules R67, R132: the byte that arrives at an empty channel is the one a get that holds there answers with. -/
theorem microStep_get_of_arrive (b : Byte) (hh : s.halt = false)
    (hle : (s.chan (rxChan l)).get ≤ (s.chan (rxChan l)).put) (he : s.Empty (rxChan l)) (hcap : 0 < s.cap (rxChan l)) :
    ((s.holding [.get l .raw] [] none).arrive l b).microStep =
      some (((s.push (rxChan l) b).dropOldest (rxChan l)).reply .ok [b]) := by
  have hroom : ¬ (s.holding [.get l .raw] [] none).Full (rxChan l) := by
    simp only [State.Full, State.Empty, State.holding_len, State.holding_cap] at he ⊢
    omega
  obtain ⟨hne, hold⟩ := State.oldest_push_empty b hle he hcap
  rw [State.arrive, if_neg hroom, State.holding_push, State.holding_eq_proceed,
    State.microStep_proceed ((State.push_halt s _ b).trans hh), Micro.run_get hne, hold, State.useByte_raw]

/-- A raw get that is issued on the empty channel of a link and then finds a byte that arrived. -/
theorem get_answers_arrival {w : State} (b : Byte) (hr : s.Ready)
    (hp : programOf s.cfg i = some { todo := [.arm t, .get l .raw] }) (ht : t ≠ 0) (he : s.Empty (rxChan l))
    (hle : (s.chan (rxChan l)).get ≤ (s.chan (rxChan l)).put) (hcap : 0 < s.cap (rxChan l)) (h : exec i s = .next w) :
    w.halt = false ∧ w.dir = s.dir ∧
      (w.arrive l b).microStep = some ((((s.armTimer t).push (rxChan l) b).dropOldest (rxChan l)).reply .ok [b]) := by
  rw [exec_get_holds hr hp he ht] at h
  cases h
  exact ⟨hr.1, rfl, microStep_get_of_arrive b hr.1 (by simpa using hle) (by simpa [State.Empty] using he)
    (by simpa using hcap)⟩

end Get

/-- Rule R141 where the block is not halted. -/
theorem exec_evHrx {s : State} (hh : s.halt = false) (b : Byte) : exec (.evHrx b) s = .next (s.arrive .host b) := by
  simp [exec, execEvHrx, hh]

/-- Rule R142 in `Receive`, where the block is not halted. -/
theorem exec_evBrx {s : State} (hh : s.halt = false) (hd : s.dir = .receive) (b : Byte) :
    exec (.evBrx b) s = .next (s.arrive .bus b) := by
  simp [exec, execEvBrx, State.busLineByte, hh, hd]

/-- Settles O11: the get holds on its empty channel, and the event pushes the byte it then finds there. -/
theorem heldGetReceivesArrival : Obligations.HeldGetReceivesArrival := by
  intro s w t b hr ht
  refine ⟨fun he hle hcap h => ?_, fun he hle hcap hdir h => ?_⟩
  · obtain ⟨hh, -, hm⟩ := get_answers_arrival (l := .host) b hr rfl ht he hle hcap h
    exact ⟨_, exec_evHrx hh b, hm⟩
  · obtain ⟨hh, hd, hm⟩ := get_answers_arrival (l := .bus) b hr rfl ht he hle hcap h
    exact ⟨_, exec_evBrx hh (hd.trans hdir) b, hm⟩

/-! ### Arrivals and gets in order -/

theorem execAll_append {s u : State} {is : List Instr} (js : List Instr) (h : execAll is s = .next u) :
    execAll (is ++ js) s = execAll js u := by
  induction is generalizing s with
  | nil => cases h; rfl
  | cons i is ih =>
    simp only [List.cons_append, execAll] at h ⊢
    cases hx : exec i s with
    | next v => rw [hx] at h; exact ih h
    | fault r => rw [hx] at h; cases h
    | refused r => rw [hx] at h; cases h

/-- Rules R66, R141: bytes that arrive with room stand behind those held, in arrival order; no answer, no flag. -/
theorem execAll_evHrx (bs : List Byte) : ∀ s : State, s.Ready → s.ChannelOk .hrx → s.Room .hrx bs.length →
    ∃ w, execAll (bs.map Instr.evHrx) s = .next w ∧ w.Ready ∧ w.contents .hrx = s.contents .hrx ++ bs ∧
      w.cmdOut = s.cmdOut ∧ w.status = s.status := by
  induction bs with
  | nil => exact fun s hr _ _ => ⟨s, rfl, hr, by simp, rfl, rfl⟩
  | cons b bs ih =>
    intro s hr hok hroom
    have hlen := s.len_push b hok.1
    simp only [State.Room, List.length_cons] at hroom
    have harrive : s.arrive .host b = s.push .hrx b := if_neg fun hf => by
      simp only [State.Full, rxChan] at hf
      omega
    obtain ⟨w, hw, hrw, hcw, how, hsw⟩ := ih (s.push .hrx b) ⟨hr.1, hr.2⟩
      ⟨by simp only [State.push_chan_same]; exact Nat.le_succ_of_le hok.1, by rw [State.push_cap]; omega⟩
      (by simp only [State.Room, State.push_cap]; omega)
    refine ⟨w, ?_, hrw, ?_, how, hsw⟩
    · simp only [List.map_cons, execAll, exec_evHrx hr.1, harrive, hw]
    · rw [hcw, s.contents_push b hok.1 (by omega), List.append_assoc, List.singleton_append]

/-- Rules R67, R136: as many gets as the channel holds bytes answer them, oldest first, and leave it empty. -/
theorem execAll_hrxGet (t : Byte) (bs : List Byte) : ∀ s : State, s.Ready → s.contents .hrx = bs →
    ∃ w, execAll (List.replicate bs.length (.hrxGet t)) s = .next w ∧
      w.cmdOut = s.cmdOut ++ bs.map (fun b => { code := .ok, results := [b] }) ∧ w.contents .hrx = [] ∧
      w.status = s.status := by
  induction bs with
  | nil => exact fun s _ hc => ⟨s, rfl, by simp, hc, rfl⟩
  | cons b bs ih =>
    intro s hr hc
    obtain ⟨hne, hold, hrest⟩ := s.contents_cons hc
    obtain ⟨w, hw, how, hcw, hsw⟩ := ih (((s.armTimer t).dropOldest .hrx).reply .ok [b]) ⟨hr.1, rfl⟩ hrest
    refine ⟨w, ?_, ?_, hcw, hsw⟩
    · have hget : exec (.hrxGet t) s = .next (((s.armTimer t).dropOldest .hrx).reply .ok [b]) :=
        hold ▸ exec_get_takes (l := .host) hr rfl hne
      simp only [List.length_cons, List.replicate_succ, execAll, hget, hw]
    · rw [how]
      simp [State.reply]

/-- Settles O16: the arrivals queue the bytes behind those held, and the gets answer what is then held. -/
theorem hostBytesAreDeliveredInOrder : Obligations.HostBytesAreDeliveredInOrder := by
  intro s bs t hr hok hroom
  obtain ⟨u, hu, hru, hcu, hou, hsu⟩ := execAll_evHrx bs s hr hok hroom
  obtain ⟨w, hw, how, hcw, hsw⟩ := execAll_hrxGet t _ u hru hcu
  refine ⟨w, ?_, hou ▸ how, hcw, hsw.trans hsu⟩
  rw [execAll_append _ hu, ← hw, List.length_append, State.length_contents]

/-! ### The raw puts -/

section Put

variable {s : State} {l : Link} {i : Instr} {b : Byte}

/-- Rules R131, R134, R135: on a full channel a raw put holds. -/
theorem exec_put_holds (hr : s.Ready) (hp : programOf s.cfg i = some { todo := [.put l b .keep] })
    (hf : s.Full (txChan l)) : exec i s = .next (s.holding [.put l b .keep] [] none) :=
  exec_eq_of_turns hr.2 hp rfl (.refl _) (State.microStep_proceed_holds hr.1 hf)

theorem State.loadShift_len (s : State) (l : Link) : (s.loadShift l).len (txChan l) = s.len (txChan l) - 1 := by
  rw [State.loadShift, State.setShift_len, State.len_dropOldest]

theorem State.loadShift_cap (s : State) (l : Link) (c : Chan) : (s.loadShift l).cap c = s.cap c := by
  rw [State.loadShift, State.setShift_cap, State.dropOldest_cap]

/-- A transmitter takes a byte of a full channel when its slot is empty. -/
theorem State.canLoad_of_full (hf : s.Full (txChan l)) (hcap : 0 < s.cap (txChan l)) (hs : s.shift l = none) :
    s.CanLoad l := ⟨fun he => by simp only [State.Full, State.Empty] at *; omega, hs⟩

/-- Rules R131, R143, R145: once the transmitter has taken a byte of the full channel, a put that held there pushes. -/
theorem microStep_put_of_load (hh : s.halt = false) (hf : s.Full (txChan l)) (hcap : 0 < s.cap (txChan l)) :
    ((s.holding [.put l b .keep] [] none).loadShift l).microStep =
      some (((s.loadShift l).push (txChan l) b).reply .ok []) := by
  have hroom : ¬ (s.loadShift l).Full (txChan l) := by
    simp only [State.Full, State.loadShift_len, State.loadShift_cap] at hf ⊢
    omega
  have hhl : (s.loadShift l).halt = false := by simpa [State.loadShift] using hh
  rw [State.holding_loadShift, State.holding_eq_proceed, State.microStep_proceed hhl, Micro.run_put hroom]
  simp only [SumUse.apply]
  rw [← State.push_txSum (s.loadShift l) (txChan l) b l, State.setTxSum_self, State.proceed_script_nil]
  rfl

/-- A raw put that is issued on the full channel of a link, and then the load of its transmitter. -/
theorem put_pushes_after_load {w : State} (hr : s.Ready) (hp : programOf s.cfg i = some { todo := [.put l b .keep] })
    (hf : s.Full (txChan l)) (hcap : 0 < s.cap (txChan l)) (hs : s.shift l = none)
    (hd : l = .bus → s.dir = .transmit) (h : exec i s = .next w) :
    ∃ w', exec (FairEvent.load l).instr w = .next w' ∧
      w'.microStep = some (((s.loadShift l).push (txChan l) b).reply .ok []) := by
  rw [exec_put_holds hr hp hf] at h
  cases h
  have hload : (s.holding [.put l b .keep] [] none).Enables (.load l) :=
    ⟨hr.1, hd, State.canLoad_of_full (by simpa [State.Full] using hf) (by simpa using hcap) (by simpa using hs)⟩
  exact ⟨_, FairEvent.exec_load hload, microStep_put_of_load hr.1 hf hcap⟩

/-- Rules R145, R335: in `Receive` the load is no step of the block, so the put goes on holding. -/
theorem put_holds_in_receive {w : State} (hr : s.Ready) (hp : programOf s.cfg i = some { todo := [.put .bus b .keep] })
    (hf : s.Full .btx) (hd : s.dir = .receive) (h : exec i s = .next w) :
    exec .evBtxLoad w = .next w ∧ w.microStep = none := by
  rw [exec_put_holds (l := .bus) hr hp hf] at h
  cases h
  refine ⟨FairEvent.exec_disabled (e := .load .bus) fun he => ?_, State.microStep_proceed_holds hr.1 hf⟩
  exact Direction.noConfusion (hd.symm.trans (he.2.1 rfl))

end Put

/-! ### A put on a full channel, raw or of a codec -/

/-- A micro-step that puts to a link holds exactly where the channel is full (rule R131). -/
theorem Micro.holds_of_putsTo {m : Micro} {l : Link} (h : m.putsTo l = true) (s : State) :
    m.Holds s ↔ s.Full (txChan l) := by
  cases m <;> simp only [Micro.putsTo, Bool.false_eq_true, decide_eq_true_eq] at h <;> subst h <;> exact Iff.rfl

/-- The operation in progress holds where the micro-step it waits at does. -/
theorem State.microStep_of_waitsAt {s : State} {m : Micro} (hw : s.waitsAt = some m) (hm : m.Holds s) :
    s.microStep = none := by
  obtain ⟨o, rest, ho, htodo⟩ := State.waitsAt_cases hw
  exact (State.microStep_eq_none ho).2 (.inr ⟨m, rest, htodo, hm⟩)

/-- Rule R335: what a step leaves of a full BTX whose transmitter may not load. -/
theorem HeldKept.full_btx {s t : State} (h : HeldKept s t) (hd : s.dir = .receive) (hf : s.Full .btx) : t.Full .btx := by
  have hcap : t.cap .btx = s.cap .btx := congrArg (Config.cap · .btx) h.cfg
  rcases h.tx .bus with ⟨hlen, -⟩ | ⟨-, hdir, -⟩
  · exact hlen.trans (hf.trans hcap.symm)
  · exact Direction.noConfusion (hd.symm.trans (hdir rfl))

/-- Rule R335: a put that holds on a full BTX in `Receive` holds after every step but RESET. -/
theorem step_keeps_put_in_receive {s t : State} {m : Micro} (hw : s.waitsAt = some m) (hm : m.putsTo .bus = true)
    (hd : s.dir = .receive) (hf : s.Full .btx) (hreset : ∀ rest, s.input ≠ .word .resetLine [] :: rest)
    (hst : step s = .next t) : t.op = s.op ∧ t.dir = .receive ∧ t.Full .btx ∧ t.microStep = none := by
  have hnone : s.microStep = none := State.microStep_of_waitsAt hw ((Micro.holds_of_putsTo hm s).2 hf)
  have hop : s.op ≠ none := by
    obtain ⟨o, rest, ho, -⟩ := State.waitsAt_cases hw
    simp [ho]
  rcases step_of_held hop hnone hst with ⟨⟨rest, hin⟩, -⟩ | hk
  · exact absurd hin (hreset rest)
  · have hft := hk.full_btx hd hf
    have hwt : t.waitsAt = some m := by rw [State.waitsAt, hk.op]; exact hw
    exact ⟨hk.op, hk.dir.trans hd, hft, State.microStep_of_waitsAt hwt ((Micro.holds_of_putsTo hm t).2 hft)⟩

end Sys2Proof.Machine
end

section
/-!
PROOFS of the memory statements, fourth part: what rule R73's weak fairness makes of the waits (O15, O35). The argument is
by contradiction in each: a wait that is never released holds at every later point (`Run.holds_of_not_releases`), so an
event that would release it stays enabled, is taken, and changes what the hold rests on.
-/

namespace Sys2Proof.Machine

/-! ### A run in which a wait is never released -/

section Waiting

variable {r : Run} {n k : Nat} {m : Micro}

theorem State.op_of_waitsAt {s : State} (hw : s.waitsAt = some m) : s.op ≠ none := by
  obtain ⟨o, rest, ho, -⟩ := State.waitsAt_cases hw
  simp [ho]

/-- A wait that is never released holds at every later point of the run. -/
theorem Run.holds_of_not_releases (h : ¬ r.Releases n) (hw : (r.state n).waitsAt = some m) (hk : n ≤ k) :
    (r.state k).halt = false ∧ m.Holds (r.state k) := by
  obtain ⟨hh, hop, hnone⟩ := Run.held_of_not_releases h hk
  obtain ⟨o, rest, ho, htodo⟩ := State.waitsAt_cases hw
  rcases (State.microStep_eq_none (hop.trans ho)).1 hnone with hh' | ⟨m', rest', htodo', hm⟩
  · exact absurd hh' (by simp [hh])
  · obtain ⟨rfl, -⟩ := List.cons.inj (htodo.symm.trans htodo')
    exact ⟨hh, hm⟩

/-- While a wait is never released, the parameters and the direction stay. -/
theorem Run.cfg_dir_of_not_releases (hs : r.Steps) (h : ¬ r.Releases n) (hw : (r.state n).waitsAt = some m)
    (hk : n ≤ k) : (r.state k).cfg = (r.state n).cfg ∧ (r.state k).dir = (r.state n).dir := by
  induction k, hk using Nat.le_induction with
  | base => exact ⟨rfl, rfl⟩
  | succ k hk ih =>
    have hkept := Run.kept_of_not_releases hs h (State.op_of_waitsAt hw) hk
    exact ⟨hkept.cfg.trans ih.1, hkept.dir.trans ih.2⟩

end Waiting

/-! ### The countdown -/

section Countdown

variable {s t : State}

/-- A countdown that has not run out is one less after a tick, as a number too. -/
theorem toNat_tick {t : Byte} (h : t ≠ 0) : (t - 1).toNat + 1 = t.toNat := by bv_omega

/-- Rule R215: a tick that finds the countdown running lowers it. -/
theorem tmo_lt_of_tick (hh : s.halt = false) (ht : s.tmo ≠ 0) (h : exec FairEvent.tick.instr s = .next t) :
    t.tmo.toNat < s.tmo.toNat := by
  rw [FairEvent.exec_tick hh ht] at h
  cases h
  exact Nat.lt_of_succ_le (toNat_tick ht).le

/-- Rule R215: ticks that do not run past 0 lower the countdown by their number and touch nothing else. -/
theorem State.afterTicks_eq (k : Nat) : ∀ s : State, s.halt = false → k ≤ s.tmo.toNat →
    s.afterTicks k = s.armTimer (s.tmo - u8 k) := by
  induction k with
  | zero => intro s _ _; simp [State.afterTicks, State.armTimer]
  | succ k ih =>
    intro s hh hk
    have ht : s.tmo ≠ 0 := by rintro h0; simp [h0] at hk
    have htick : exec .evTick s = .next (s.armTimer (s.tmo - 1)) := FairEvent.exec_tick hh ht
    have hnat := toNat_tick ht
    simp only [State.afterTicks, htick]
    rw [ih (s.armTimer (s.tmo - 1)) hh (by simp only [State.armTimer_tmo]; omega)]
    have hsub : s.tmo - 1 - u8 k = s.tmo - u8 (k + 1) := by bv_omega
    simp only [State.armTimer, hsub]

end Countdown

/-- Rule R214: with the countdown running `TMO_WAIT` holds, and ends with the tick that runs it out. -/
theorem microStep_awaitExpiry_of_ticks {s : State} (hh : s.halt = false) {k : Nat} (hk : k ≤ s.tmo.toNat) :
    ((s.holding [.awaitExpiry] [] none).afterTicks k).microStep =
      if k < s.tmo.toNat then none else some ((s.armTimer 0).reply .ok []) := by
  have hw : (s.holding [.awaitExpiry] [] none).afterTicks k =
      (s.armTimer (s.tmo - u8 k)).proceed ⟨.script, [.awaitExpiry], [], none⟩ := State.afterTicks_eq k _ hh hk
  have hleft : (s.tmo - u8 k).toNat = s.tmo.toNat - k := by bv_omega
  rw [hw]
  split
  · refine State.microStep_proceed_holds hh fun h0 : s.tmo - u8 k = 0 => ?_
    rw [h0] at hleft
    simp at hleft
    omega
  · have h0 : s.tmo - u8 k = 0 := BitVec.eq_of_toNat_eq (by simp; omega)
    rw [h0, State.microStep_proceed (s := s.armTimer 0) hh]
    rfl

/-- The timed waits hold only while the countdown runs (rules R132, R182, R214). -/
theorem Micro.tmo_of_timed_holds {m : Micro} {s : State} (ht : m.timed = true) (h : m.Holds s) : s.tmo ≠ 0 := by
  cases m <;> simp only [Micro.timed, Bool.false_eq_true] at ht
  case get => exact h.2
  case awaitExpiry => exact h
  case awaitDrain => exact h.2

/-- Rule R73: ticks come until the countdown has run out, so no timed wait goes on for ever. -/
theorem Run.releases_of_timed {r : Run} {n : Nat} {m : Micro} (hs : r.Steps) (hfair : r.Fair)
    (hw : (r.state n).waitsAt = some m) (ht : m.timed = true) : r.Releases n := by
  by_contra hnot
  have hrunning : ∀ k, n ≤ k → (r.state k).halt = false ∧ (r.state k).tmo ≠ 0 := fun k hk =>
    have ⟨hh, hm⟩ := Run.holds_of_not_releases hnot hw hk
    ⟨hh, Micro.tmo_of_timed_holds ht hm⟩
  have hticks : ∀ k, n ≤ k → ∃ j, k ≤ j ∧ r.Takes j .tick := fun k hk =>
    hfair .tick k fun j hj => ⟨(hrunning j (hk.trans hj)).1, trivial⟩
  have hmono : ∀ k j, n ≤ k → k ≤ j → (r.state j).tmo.toNat ≤ (r.state k).tmo.toNat := by
    intro k j hk hj
    induction j, hj using Nat.le_induction with
    | base => exact Nat.le_refl _
    | succ j hj ih =>
      exact (Run.kept_of_not_releases hs hnot (State.op_of_waitsAt hw) (hk.trans hj)).tmo.trans ih
  have hout : ∀ c k, n ≤ k → (r.state k).tmo.toNat ≤ c → False := by
    intro c
    induction c with
    | zero => exact fun k hk hc => (hrunning k hk).2 (BitVec.eq_of_toNat_eq (by simpa using hc))
    | succ c ih =>
      intro k hk hc
      obtain ⟨j, hj, htake⟩ := hticks k hk
      obtain ⟨l, hx⟩ := Run.exec_of_takes hs htake
      obtain ⟨hh, ht0⟩ := hrunning j (hk.trans hj)
      have hlt : (r.state (j + 1)).tmo.toNat < (r.state j).tmo.toNat :=
        tmo_lt_of_tick (s := { r.state j with input := l }) hh ht0 hx
      have := hmono k j hk hj
      exact ih (j + 1) (by omega) (by omega)
  exact hout _ n (Nat.le_refl _) (Nat.le_refl _)

/-- Settles O35: the ticks after which `TMO_WAIT` goes on, and `Run.releases_of_timed`. -/
theorem cooldownLastsAsManyTicks : Obligations.CooldownLastsAsManyTicks := by
  refine ⟨fun s hr => ⟨fun h0 => ?_, fun hne => ?_⟩, fun r n m hs hfair hw ht => Run.releases_of_timed hs hfair hw ht⟩
  · exact exec_eq_of_turns hr.2 (p := tmoWaitProgram) rfl rfl (.run hr.1 (if_pos h0)) (State.reply_microStep s .ok [])
  · refine ⟨_, exec_eq_of_turns hr.2 (p := tmoWaitProgram) rfl rfl (.refl _) (State.microStep_proceed_holds hr.1 hne),
      rfl, fun k hk => ?_, ?_⟩
    · exact (microStep_awaitExpiry_of_ticks hr.1 hk.le).trans (if_pos hk)
    · exact (microStep_awaitExpiry_of_ticks hr.1 le_rfl).trans (if_neg (lt_irrefl _))

/-! ### The transmitters -/

section Transmit

variable {r : Run} {n k : Nat} {l : Link}

/-- The line still to come is no part of what enables an event. -/
theorem State.enables_of_input {s : State} {i : List Input} {e : FairEvent} (h : s.Enables e) :
    { s with input := i }.Enables e := by
  cases e with
  | load l => cases l <;> exact h
  | done l => cases l <;> exact h
  | tick => exact h

/-- The completion of a transmitter that is taken leaves its slot empty (rules R144, R146). -/
theorem Run.shift_of_takes_done (hs : r.Steps) (h : r.Takes k (.done l)) (hh : (r.state k).halt = false) :
    (r.state (k + 1)).shift l = none := by
  obtain ⟨i, hx⟩ := Run.exec_of_takes hs h
  exact FairEvent.exec_done (s := { r.state k with input := i }) hh hx

/-- A load that is taken where it is enabled leaves room in its channel (rules R143, R145). -/
theorem Run.not_full_of_takes_load (hs : r.Steps) (h : r.Takes k (.load l)) (he : (r.state k).Enables (.load l))
    (hf : (r.state k).Full (txChan l)) : ¬ (r.state (k + 1)).Full (txChan l) := by
  obtain ⟨i, hx⟩ := Run.exec_of_takes hs h
  rw [FairEvent.exec_load (State.enables_of_input he)] at hx
  have hnext : r.state (k + 1) = State.loadShift { r.state k with input := i } l := by injection hx with hx; exact hx.symm
  have hlen : State.len { r.state k with input := i } (txChan l) = (r.state k).len (txChan l) := by cases l <;> rfl
  have hcap : State.cap { r.state k with input := i } (txChan l) = (r.state k).cap (txChan l) := rfl
  have hne : (r.state k).len (txChan l) ≠ 0 := he.2.2.1
  simp only [hnext, State.Full, State.loadShift_len, State.loadShift_cap, hlen, hcap] at hf ⊢
  omega

end Transmit

/-- A step between two states with a full channel is no load of it, so an empty slot stays empty. -/
theorem TxKept.shift_none {s t : State} {l : Link} (h : TxKept s t l) (hs : s.Full (txChan l)) (ht : t.Full (txChan l))
    (hcap : t.cap (txChan l) = s.cap (txChan l)) (hshift : s.shift l = none) : t.shift l = none := by
  rcases h with ⟨-, h | h⟩ | ⟨hload, -, hlen⟩
  · exact h.trans hshift
  · exact h
  · have hne : s.len (txChan l) ≠ 0 := hload.1
    simp only [State.Full] at hs ht
    omega

/-- Rule R73: the transmitter's slot empties, its load is then enabled for good and is taken, so a put that waits at a full
channel does not wait for ever. -/
theorem Run.releases_of_put {r : Run} {n : Nat} {m : Micro} {l : Link} (hs : r.Steps) (hfair : r.Fair)
    (hw : (r.state n).waitsAt = some m) (hm : m.putsTo l = true) (hcap : 0 < (r.state n).cap (txChan l))
    (hdir : l = .bus → (r.state n).dir = .transmit) : r.Releases n := by
  by_contra hnot
  have hheld : ∀ k, n ≤ k → (r.state k).halt = false ∧ (r.state k).Full (txChan l) := fun k hk =>
    have ⟨hh, hhold⟩ := Run.holds_of_not_releases hnot hw hk
    ⟨hh, (Micro.holds_of_putsTo hm _).1 hhold⟩
  have hsame : ∀ k, n ≤ k → (r.state k).cap (txChan l) = (r.state n).cap (txChan l) ∧
      (r.state k).dir = (r.state n).dir := fun k hk =>
    have ⟨hcfg, hd⟩ := Run.cfg_dir_of_not_releases hs hnot hw hk
    ⟨congrArg (Config.cap · (txChan l)) hcfg, hd⟩
  obtain ⟨k, hk, hempty⟩ : ∃ k, n ≤ k ∧ (r.state k).shift l = none := by
    by_contra hfilled
    obtain ⟨k, hk, htake⟩ := hfair (.done l) n fun k hk => ⟨(hheld k hk).1, fun h => hfilled ⟨k, hk, h⟩⟩
    exact hfilled ⟨k + 1, Nat.le_succ_of_le hk, Run.shift_of_takes_done hs htake (hheld k hk).1⟩
  have hstays : ∀ j, k ≤ j → (r.state j).shift l = none := by
    intro j hj
    induction j, hj using Nat.le_induction with
    | base => exact hempty
    | succ j hj ih =>
      have hnj := hk.trans hj
      have hkept := Run.kept_of_not_releases hs hnot (State.op_of_waitsAt hw) hnj
      exact (hkept.tx l).shift_none (hheld j hnj).2 (hheld (j + 1) (Nat.le_succ_of_le hnj)).2
        (congrArg (Config.cap · (txChan l)) hkept.cfg) ih
  have hloads : ∀ j, k ≤ j → (r.state j).Enables (.load l) := fun j hj =>
    have hnj := hk.trans hj
    ⟨(hheld j hnj).1, fun hl => (hsame j hnj).2.trans (hdir hl),
      State.canLoad_of_full (hheld j hnj).2 ((hsame j hnj).1 ▸ hcap) (hstays j hj)⟩
  obtain ⟨j, hj, htake⟩ := hfair (.load l) k hloads
  have hnj := hk.trans hj
  exact Run.not_full_of_takes_load hs htake (hloads j hj) (hheld j hnj).2 (hheld (j + 1) (Nat.le_succ_of_le hnj)).2

/-- Settles O15: a raw put and the load of its transmitter, the hold in `Receive`, and `Run.releases_of_put`. -/
theorem heldPutIsReleasedByLoad : Obligations.HeldPutIsReleasedByLoad := by
  refine ⟨fun s w b hr => ⟨fun hf hcap hs h => ?_, fun hf hcap hs h hd => ?_, fun hf h hd => ?_⟩,
    fun s t m hw hm hd hf hreset hst => step_keeps_put_in_receive hw hm hd hf hreset hst,
    fun r n m l hs hfair hw hm hcap hdir => Run.releases_of_put hs hfair hw hm hcap hdir⟩
  · exact put_pushes_after_load (l := .host) hr rfl hf hcap hs nofun h
  · exact put_pushes_after_load (l := .bus) hr rfl hf hcap hs (fun _ => hd) h
  · exact put_holds_in_receive hr rfl hf hd h

end Sys2Proof.Machine
end

section
/-!
PROOFS of the memory statements, fifth part: the reception of a whole packet (O30), byte by byte. `Receiving` says where
the block stands between two byte reads of `BC_RX_PACKET`; each read of rule R183 has its lemma, and the statement is the
chain of them.
-/

namespace Sys2Proof.Machine

/-! ### The locals of the operation, and its flag -/

/-- Rules R72, R183: of the parameter bytes, those that fit into `expected` are stored. -/
theorem PacketLocals.params_foldl_store (ps : List Byte) : ∀ p : PacketLocals, p.params.length ≤ p.expected.toNat →
    ps.foldl PacketLocals.store p = { p with params := p.params ++ ps.take (p.expected.toNat - p.params.length) } := by
  induction ps with
  | nil => intro p _; simp
  | cons b ps ih =>
    intro p hp
    rw [List.foldl_cons]
    by_cases hroom : p.params.length < p.expected.toNat
    · have hstore : p.store b = { p with params := p.params ++ [b] } := if_pos hroom
      obtain ⟨n, hn⟩ : ∃ n, p.expected.toNat - p.params.length = n + 1 := ⟨_, (Nat.succ_pred (by omega)).symm⟩
      have hn' : p.expected.toNat - (p.params ++ [b]).length = n := by simp; omega
      rw [hstore, ih _ (by simp; omega)]
      simp only [hn, hn', List.take_succ_cons, List.append_assoc, List.singleton_append]
    · have hstore : p.store b = p := if_neg hroom
      have hfull : p.expected.toNat - p.params.length = 0 := by omega
      rw [hstore, ih p hp, hfull, List.take_zero, List.take_zero]

/-- A bit that either of two checks sets. -/
theorem ite_or_mask (bad bad' : Prop) [Decidable bad] [Decidable bad'] (st m : Byte) :
    (if bad' then (if bad then st ||| m else st) ||| m else if bad then st ||| m else st) =
      if bad ∨ bad' then st ||| m else st := by
  by_cases h : bad <;> by_cases h' : bad' <;> simp [h, h', BitVec.or_assoc]

/-! ### Between two byte reads -/

/-- `BC_RX_PACKET`, issued in `s`, has got to `u`: `left` is still in BRX, `sum` is what the codec has added up and `st` is
STATUS; the countdown was armed for the last byte, and nothing has been answered. -/
structure Receiving (s u : State) (left : List Byte) (sum st : Byte) : Prop where
  halt : u.halt = false
  cfg : u.cfg = s.cfg
  cmdOut : u.cmdOut = s.cmdOut
  tmo : u.tmo = s.cfg.tBusRx
  left : u.contents .brx = left
  sum : u.bcRxSum = sum
  status : u.status = st

namespace Receiving

variable {s u : State} {bs : List Byte} {b sum st : Byte}

/-- The byte has been taken off the channel. -/
theorem dropOldest (h : Receiving s u (b :: bs) sum st) : Receiving s (u.dropOldest .brx) bs sum st :=
  ⟨h.halt, h.cfg, h.cmdOut, h.tmo, (u.contents_cons h.left).2.2, h.sum, h.status⟩

/-- The byte has been added to the sum. -/
theorem add (h : Receiving s u bs sum st) (b : Byte) :
    Receiving s (u.setRxSum .bus (u.rxSum .bus + b)) bs (sum + b) st :=
  ⟨h.halt, h.cfg, h.cmdOut, h.tmo, h.left, congrArg (· + b) h.sum, h.status⟩

/-- Rule R132: a get with a byte there takes it. -/
theorem turns_get (h : Receiving s u (b :: bs) sum st) (use : GetUse) (w : Owner) (ms : List Micro) (r : List Byte)
    (p : PacketLocals) :
    Turns (u.proceed ⟨w, .get .bus use :: ms, r, some p⟩)
      ((u.dropOldest .brx).useByte .bus ⟨w, ms, r, some p⟩ b use) := by
  obtain ⟨hne, hold, -⟩ := u.contents_cons h.left
  exact hold ▸ .run h.halt (Micro.run_get hne)

/-- Rule R185: each byte is awaited with the countdown armed anew; a byte that is there is taken. -/
theorem turns_read (h : Receiving s u (b :: bs) sum st) (use : GetUse) :
    ∃ v, Receiving s v bs sum st ∧ ∀ w ms r p,
      Turns (u.proceed ⟨w, .arm s.cfg.tBusRx :: .get .bus use :: ms, r, some p⟩)
        (v.useByte .bus ⟨w, ms, r, some p⟩ b use) := by
  have harmed : Receiving s (u.armTimer s.cfg.tBusRx) (b :: bs) sum st :=
    ⟨h.halt, h.cfg, h.cmdOut, rfl, h.left, h.sum, h.status⟩
  exact ⟨_, harmed.dropOldest, fun w ms r p => (Turns.arm h.halt).trans (harmed.turns_get use w ms r p)⟩

/-- Rule R183: where a check fails `InvalidBusResponse` is set, in a micro-step of its own, and the reception goes on. -/
theorem turns_flag (h : Receiving s u bs sum st) (bad : Prop) [Decidable bad] :
    ∃ v, Receiving s v bs sum (if bad then st ||| 0x08 else st) ∧ ∀ w ms r p,
      Turns (u.proceed ⟨w, if bad then .setStatus invalidBusResponseMask :: ms else ms, r, some p⟩)
        (v.proceed ⟨w, ms, r, some p⟩) := by
  by_cases hbad : bad
  · simp only [if_pos hbad]
    exact ⟨u.raise invalidBusResponseMask,
      ⟨h.halt, h.cfg, h.cmdOut, h.tmo, h.left, h.sum, congrArg (· ||| 0x08) h.status⟩,
      fun w ms r p => .run h.halt rfl⟩
  · simp only [if_neg hbad]
    exact ⟨u, h, fun w ms r p => .refl _⟩

/-! ### The reads of rule R183 -/

/-- The second sync byte, and the check of both. -/
theorem turns_sync2 (h : Receiving s u (b :: bs) sum st) (s1 : Byte) :
    ∃ v, Receiving s v bs sum (if s1 ≠ 0xFF ∨ b ≠ 0xFF then st ||| 0x08 else st) ∧ ∀ w ms r p, p.s1 = s1 →
      Turns (u.proceed ⟨w, .arm s.cfg.tBusRx :: .get .bus .sync2 :: ms, r, some p⟩) (v.proceed ⟨w, ms, r, some p⟩) := by
  obtain ⟨v, hv, hread⟩ := h.turns_read .sync2
  obtain ⟨v', hv', hflag⟩ := hv.turns_flag (s1 ≠ 0xFF ∨ b ≠ 0xFF)
  refine ⟨v', hv', fun w ms r p hp => (hread w ms r p).trans ?_⟩
  have huse : v.useByte .bus ⟨w, ms, r, some p⟩ b .sync2 =
      v.proceed ⟨w, if s1 ≠ 0xFF ∨ b ≠ 0xFF then .setStatus invalidBusResponseMask :: ms else ms, r, some p⟩ := by
    simp only [State.useByte, Option.map_some, Option.getD_some, hp]
    split <;> rfl
  exact huse ▸ hflag w ms r p

/-- The id. -/
theorem turns_id (h : Receiving s u (b :: bs) sum st) :
    ∃ v, Receiving s v bs (sum + b) st ∧ ∀ w ms r p,
      Turns (u.proceed ⟨w, .arm s.cfg.tBusRx :: .get .bus .id :: ms, r, some p⟩)
        (v.proceed ⟨w, ms, r, some { p with id := b }⟩) := by
  obtain ⟨v, hv, hread⟩ := h.turns_read .id
  exact ⟨_, hv.add b, hread⟩

/-- The length byte. -/
theorem turns_len (h : Receiving s u (b :: bs) sum st) :
    ∃ v, Receiving s v bs (sum + b) st ∧ ∀ w ms r p,
      Turns (u.proceed ⟨w, .arm s.cfg.tBusRx :: .get .bus .len :: ms, r, some p⟩)
        (v.proceed ⟨w, ms, r, some { p with len := b }⟩) := by
  obtain ⟨v, hv, hread⟩ := h.turns_read .len
  exact ⟨_, hv.add b, hread⟩

/-- The error byte, the check of the count, and the reads of as many parameters as the length byte announces. -/
theorem turns_err (h : Receiving s u (b :: bs) sum st) (len expected : Byte) :
    ∃ v, Receiving s v bs (sum + b) (if len - 2 ≠ expected then st ||| 0x08 else st) ∧ ∀ w r p,
      p.len = len → p.expected = expected →
      Turns (u.proceed ⟨w, [.arm s.cfg.tBusRx, .get .bus .err], r, some p⟩)
        (v.proceed ⟨w, paramReads s.cfg.tBusRx (len - 2).toNat, r, some { p with err := b }⟩) := by
  obtain ⟨v, hv, hread⟩ := h.turns_read .err
  obtain ⟨v', hv', hflag⟩ := (hv.add b).turns_flag (len - 2 ≠ expected)
  refine ⟨v', hv', fun w r p hlen hexp => (hread w [] r p).trans ?_⟩
  have huse : v.useByte .bus ⟨w, [], r, some p⟩ b .err =
      (v.setRxSum .bus (v.rxSum .bus + b)).proceed
        ⟨w, if len - 2 ≠ expected then .setStatus invalidBusResponseMask :: paramReads s.cfg.tBusRx (len - 2).toNat
          else paramReads s.cfg.tBusRx (len - 2).toNat, r, some { p with err := b }⟩ := by
    simp only [State.useByte, Op.withPacket, Option.map_some, Option.getD_some, List.append_nil, hv.cfg, hlen, hexp]
    rfl
  exact huse ▸ hflag w _ r _

/-- The parameters: all are consumed and summed, those that fit are stored. -/
theorem turns_params {more : List Byte} (ps : List Byte) : ∀ {u : State} {sum : Byte},
    Receiving s u (ps ++ more) sum st →
    ∃ v, Receiving s v more (sum + byteSum ps) st ∧ ∀ w r p,
      Turns (u.proceed ⟨w, paramReads s.cfg.tBusRx ps.length, r, some p⟩)
        (v.proceed ⟨w, [], r, some (ps.foldl PacketLocals.store p)⟩) := by
  induction ps with
  | nil =>
    intro u sum h
    exact ⟨u, by simpa [byteSum] using h, fun w r p => .refl _⟩
  | cons b ps ih =>
    intro u sum h
    obtain ⟨v, hv, hread⟩ := turns_read (bs := ps ++ more) h .param
    obtain ⟨v', hv', hrest⟩ := ih (hv.add b)
    refine ⟨v', ?_, fun w r p => (hread w _ r p).trans (hrest w r (p.store b))⟩
    rw [byteSum, ← BitVec.add_assoc]
    exact hv'

/-- From the issue of `BC_RX_PACKET` with a whole packet in BRX to its last parameter. -/
theorem turns_packet {expected s1 s2 id len err : Byte} {ps more : List Byte} (hh : s.halt = false)
    (hc : s.contents .brx = s1 :: s2 :: id :: len :: err :: ps ++ more) (hps : ps.length = (len - 2).toNat)
    (w : Owner) (r : List Byte) :
    ∃ v, Receiving s v more (byteSum (id :: len :: err :: ps))
        (if s1 ≠ 0xFF ∨ s2 ≠ 0xFF ∨ len - 2 ≠ expected then s.status ||| 0x08 else s.status) ∧
      Turns (s.proceed ⟨w, (bcRxPacketProgram s.cfg expected).todo, r, some { expected := expected }⟩)
        (v.proceed ⟨w, [], r, some ⟨expected, s1, id, len, err, ps.take expected.toNat⟩⟩) := by
  have h0 : Receiving s ((s.armTimer s.cfg.tBusRx).setRxSum .bus 0)
      (s1 :: s2 :: id :: len :: err :: (ps ++ more)) 0 s.status := ⟨hh, rfl, rfl, rfl, hc, rfl, rfl⟩
  have harm : Turns (s.proceed ⟨w, (bcRxPacketProgram s.cfg expected).todo, r, some { expected := expected }⟩)
      (((s.armTimer s.cfg.tBusRx).setRxSum .bus 0).proceed
        ⟨w, (bcRxPacketProgram s.cfg expected).todo.tail, r, some { expected := expected }⟩) := .run hh rfl
  obtain ⟨v2, h2, hsync2⟩ := h0.dropOldest.turns_sync2 s1
  obtain ⟨v3, h3, hid⟩ := h2.turns_id
  obtain ⟨v4, h4, hlen⟩ := h3.turns_len
  obtain ⟨v5, h5, herr⟩ := h4.turns_err len expected
  obtain ⟨v6, h6, hparams⟩ := turns_params ps h5
  have hstored : ps.foldl PacketLocals.store ⟨expected, s1, id, len, err, []⟩ =
      ⟨expected, s1, id, len, err, ps.take expected.toNat⟩ := PacketLocals.params_foldl_store ps _ (Nat.zero_le _)
  have hsum : 0 + id + len + err + byteSum ps = byteSum (id :: len :: err :: ps) := by
    simp [byteSum, BitVec.add_assoc]
  have hflags := (ite_or_mask (s1 ≠ 0xFF ∨ s2 ≠ 0xFF) (len - 2 ≠ expected) s.status 0x08).trans
    (if_congr or_assoc rfl rfl)
  refine ⟨v6, ?_, ?_⟩
  · rw [← hsum, ← hflags]
    exact h6
  · refine harm.trans ((h0.turns_get .sync1 w _ r _).trans ((hsync2 w _ r _ rfl).trans ((hid w _ r _).trans
      ((hlen w _ r _).trans ((herr w r _ rfl rfl).trans ?_)))))
    rw [← hps, ← hstored]
    exact hparams w r _

end Receiving

/-- Settles O30: the chain of reads ends with nothing left to do, and the answer is the operation's locals. -/
theorem busPacketIsReceivedBestEffort : Obligations.BusPacketIsReceivedBestEffort := by
  intro s expected s1 s2 id len err ps more hr hc hps
  obtain ⟨v, hv, hturns⟩ := Receiving.turns_packet (expected := expected) hr.1 hc hps .script []
  refine ⟨_, exec_eq_of_turns hr.2 (p := bcRxPacketProgram s.cfg expected) rfl rfl hturns (State.reply_microStep v .ok _),
    rfl, ?_, hv.left, hv.sum, hv.tmo, hv.status⟩
  have hlen : (ps.take expected.toNat).length = min ps.length expected.toNat := by
    rw [List.length_take, Nat.min_comm]
  rw [← hv.cmdOut, ← hlen]
  rfl

end Sys2Proof.Machine
end

section
/-!
PROOFS of the encoding statements (30_encoding.md), first part: the decoder and the encoder undo each other (O1, O2), and
the codes and words of the tables (O3, O4). The rows of the bus are one frame with the instruction byte and parameters in
it: what is said of `busTxFrame` and of `busTxInstr` apart is put together for the four rows.
-/

namespace Sys2Proof

variable {c : Config} {i : Instr} {rest : List Byte}

/-! ### The length byte of a packet -/

/-- Rule R101: the length byte tells the parameter count, as long as that is a byte. -/
theorem paramCount_lengthByte {n : Nat} (h : n ≤ 255) : (paramCount (lengthByte (u8 n))).toNat = n := by
  simp only [paramCount, lengthByte, u8]
  bv_omega

/-- Rule R101: every length byte is that of the count it tells. -/
theorem lengthByte_paramCount (len : Byte) : lengthByte (u8 (paramCount len).toNat) = len := by
  simp only [paramCount, lengthByte, u8]
  bv_omega

/-- A byte behind `n` others: there are `n`, and they are what `take` gives. -/
theorem length_take_of_drop {bs rest : List Byte} {n : Nat} {b : Byte} (h : bs.drop n = b :: rest) :
    (bs.take n).length = n ∧ bs = bs.take n ++ b :: rest := by
  have hlen : (bs.drop n).length = rest.length + 1 := by rw [h, List.length_cons]
  rw [List.length_drop] at hlen
  exact ⟨List.length_take_of_le (by omega), by rw [← h, List.take_append_drop]⟩

/-! ### Encoded rows decode to themselves -/

/-- Rules R91, R92: the first byte of an encoded CMD row selects the row, and its operands stand behind it. -/
theorem decodeCmd_encode (hi : i.format = .cmd) : decodeCmd (encode c i ++ rest) = .ok (i, rest) := by
  cases i <;> simp only [Instr.format, reduceCtorEq] at hi
  case hcTxByte b acc => cases acc <;> rfl
  case hcRxByte acc => cases acc <;> rfl
  all_goals rfl

/-- Rule R105. -/
theorem decodeEvt_encode (hi : i.format = .evt) : decodeEvt (encode c i ++ rest) = .ok (i, rest) := by
  cases i <;> simp only [Instr.format, reduceCtorEq] at hi
  all_goals rfl

/-- Rule R95: the two INVALID rows are the bytes that no other row has. -/
theorem decodeHost_encode (hi : i.format = .hostPkt) (hwf : i.wf = true) :
    decodeHost (encode c i ++ rest) = .ok (i, rest) := by
  cases i <;> simp only [Instr.format, reduceCtorEq] at hi
  case invalidReserved b =>
    have hb : 0xF5 ≤ b.toNat := by simpa only [Instr.wf, decide_eq_true_eq] using hwf
    have hd : decodeHostByte b = .reserved b := by
      rcases Machine.decodeHostByte_cases b with ⟨_, rfl⟩ | ⟨_, rfl⟩ | ⟨_, rfl⟩ | ⟨_, rfl⟩ | ⟨_, rfl⟩ | ⟨h, _⟩ | ⟨_, hlt⟩
      case inr.inr.inr.inr.inr.inl => exact h
      case inr.inr.inr.inr.inr.inr => omega
      all_goals exact absurd hb (by decide)
    simp only [encode, List.singleton_append, decodeHost, hd, HostCommand.instr]
  case invalidBadSync b =>
    have hb : b.toNat < 0xF0 := by simpa only [Instr.wf, decide_eq_true_eq] using hwf
    have hd : decodeHostByte b = .badSync b := if_pos (by omega)
    simp only [encode, List.singleton_append, decodeHost, hd, HostCommand.instr]
  all_goals rfl

/-- Rules R99, R101, R102: a packet is read back out of its frame. -/
theorem busTxFrame_busTxBytes (id instr : Byte) {params : List Byte} (h : params.length ≤ 255) :
    busTxFrame (busTxBytes id instr params ++ rest) = .ok ((id, instr, params), rest) := by
  have hcount := paramCount_lengthByte h
  simp [busTxFrame, busTxBytes, hcount]

/-- Rules R100, R101: a reply is read back, whatever its sync and checksum bytes. -/
theorem decodeBusRx_busRxBytes (head : BusHead) (err cks : Byte) {params : List Byte} (h : params.length ≤ 255) :
    decodeBusRx (busRxBytes head err params cks ++ rest) = .ok (.busReply head err params cks, rest) := by
  have hcount := paramCount_lengthByte h
  simp [decodeBusRx, busRxBytes, hcount]

/-- Rule R108: what a BUSTX row puts into the frame selects that row, where the instruction bytes differ. -/
theorem decodeBusTx_encode (hi : i.format = .busTx) (hwf : i.wf = true) (hc : c.busCodesDiffer) :
    decodeBusTx c (encode c i ++ rest) = .ok (i, rest) := by
  obtain ⟨-, -, hpa, hrw, -, -⟩ := hc
  have hrow : ∀ {id instr params}, params.length ≤ 255 → busTxInstr c id instr params = .ok i →
      decodeBusTx c (busTxBytes id instr params ++ rest) = .ok (i, rest) := by
    intro id instr params hlen hx
    simp only [decodeBusTx, busTxFrame_busTxBytes id instr hlen, hx, Except.map]
  cases i <;> simp only [Instr.format, reduceCtorEq] at hi
  case biPing id => exact hrow (by simp) (by simp [busTxInstr])
  case biRead id a l => exact hrow (by simp) (by simp [busTxInstr])
  case biAction => exact hrow (by simp) (by simp [busTxInstr, hpa.symm])
  case biRegWrite id a data =>
    have hdata : data.length ≤ 254 := by simpa only [Instr.wf, decide_eq_true_eq] using hwf
    refine hrow (by rw [List.length_cons]; omega) ?_
    rcases data with _ | ⟨d, _ | ⟨e, ds⟩⟩ <;> simp [busTxInstr, hrw.symm]

/-- Settles O1, one interface at a time. -/
theorem decodeOfEncodeGivesInstruction : Obligations.DecodeOfEncodeGivesInstruction := by
  intro c i rest hwf hc hreset
  cases hi : i.format with
  | cmd => exact decodeCmd_encode hi
  | evt => exact decodeEvt_encode hi
  | hostPkt => exact decodeHost_encode hi hwf
  | busTx => exact decodeBusTx_encode hi hwf hc
  | resetLine =>
    cases i <;> simp only [Instr.format, reduceCtorEq] at hi
    rw [hreset rfl]
    rfl
  | busRx =>
    cases i <;> simp only [Instr.format, reduceCtorEq] at hi
    exact decodeBusRx_busRxBytes _ _ _ (by simpa only [Instr.wf, decide_eq_true_eq] using hwf)

/-! ### Decoded bytes are the encoding of their row -/

/-- The rows that check nothing of their operands: those of CMD, EVT and RESET (rule R103). -/
theorem Instr.wf_of_format (hi : i.format = .cmd ∨ i.format = .evt ∨ i.format = .resetLine) : i.wf = true := by
  cases i <;> simp only [Instr.format, reduceCtorEq, or_self] at hi
  all_goals rfl

/-- Rule R103 (e): an accumulate operand that is accepted is the one that is written. -/
theorem encodeAcc_of_decodeAcc {b : Byte} {acc : Bool} (h : decodeAcc b = .ok acc) : encodeAcc acc = b := by
  unfold decodeAcc at h
  split at h
  · rename_i hb; cases h; exact hb.symm
  · split at h
    · rename_i hb; cases h; exact hb.symm
    · cases h

section Operands

variable {op : Byte} {k : Nat} {r : List Byte} (hop : op.toNat = k)

include hop

theorem encode_of_noOperand {i₀ : Instr} (he : encode c i₀ = [u8 k]) (h : noOperand i₀ r = .ok (i, rest)) :
    encode c i ++ rest = op :: r := by
  cases h
  rw [he, ← hop, u8, BitVec.ofNat_toNat, BitVec.setWidth_eq, List.singleton_append]

theorem encode_of_oneOperand {f : Byte → Instr} (he : ∀ a, encode c (f a) = [u8 k, a])
    (h : oneOperand f r = .ok (i, rest)) : encode c i ++ rest = op :: r := by
  cases r <;> cases h
  rw [he, ← hop, u8, BitVec.ofNat_toNat, BitVec.setWidth_eq, List.cons_append, List.singleton_append]

theorem encode_of_accOperand {f : Bool → Instr} {front : List Byte}
    (he : ∀ acc, encode c (f acc) = u8 k :: front ++ [encodeAcc acc])
    (h : accOperand f r = .ok (i, rest)) : encode c i ++ rest = op :: front ++ r := by
  cases r with
  | nil => cases h
  | cons a r =>
    simp only [accOperand, Except.map] at h
    split at h <;> cases h
    rename_i acc hacc
    rw [he, ← hop, u8, BitVec.ofNat_toNat, BitVec.setWidth_eq, encodeAcc_of_decodeAcc hacc]
    simp

end Operands

/-- Rules R91, R92: an accepted CMD line opens with the bytes of its row. -/
theorem encode_of_decodeCmd {bs : List Byte} (h : decodeCmd bs = .ok (i, rest)) : encode c i ++ rest = bs := by
  unfold decodeCmd at h
  split at h
  · cases h
  -- the rows in the order of rule R92: those with one operand byte, HC_TX_BYTE, HC_RX_BYTE, BC_TX_START, no row
  · split at h <;> rename_i hop
    case h_1 | h_4 | h_5 | h_7 | h_8 | h_15 | h_17 | h_21 | h_25 | h_26 =>
      exact encode_of_oneOperand hop (fun _ => rfl) h
    case h_9 =>
      split at h
      · exact encode_of_accOperand (front := [_]) hop (fun _ => rfl) h
      · cases h
    case h_12 => exact encode_of_accOperand (front := []) hop (fun _ => rfl) h
    case h_14 =>
      split at h <;> cases h
      rw [BitVec.eq_of_toNat_eq (y := 0x20) hop]
      rfl
    case h_27 => cases h
    all_goals exact encode_of_noOperand hop rfl h

/-- Rule R105. -/
theorem encode_of_decodeEvt {bs : List Byte} (h : decodeEvt bs = .ok (i, rest)) : encode c i ++ rest = bs := by
  unfold decodeEvt at h
  split at h
  · cases h
  · split at h <;> rename_i hcode
    case h_1 | h_4 => exact encode_of_oneOperand hcode (fun _ => rfl) h
    case h_9 => cases h
    all_goals exact encode_of_noOperand hcode rfl h

/-- Rule R95: a host instruction byte is the encoding of the row it selects. -/
theorem decodeHostByte_wf_encode (b : Byte) :
    (decodeHostByte b).instr.wf = true ∧ encode c (decodeHostByte b).instr = [b] := by
  rcases Machine.decodeHostByte_cases b with
    ⟨h, rfl⟩ | ⟨h, rfl⟩ | ⟨h, rfl⟩ | ⟨h, rfl⟩ | ⟨h, rfl⟩ | ⟨h, hb⟩ | ⟨h, hb⟩ <;> rw [h]
  case inr.inr.inr.inr.inr.inl | inr.inr.inr.inr.inr.inr => exact ⟨decide_eq_true hb, rfl⟩
  all_goals exact ⟨rfl, rfl⟩

/-- Rules R99, R101, R102: what a frame is read out of is that frame's bytes. -/
theorem busTxBytes_of_busTxFrame {bs params : List Byte} {id instr : Byte}
    (h : busTxFrame bs = .ok ((id, instr, params), rest)) :
    params.length ≤ 255 ∧ busTxBytes id instr params ++ rest = bs := by
  unfold busTxFrame at h
  split at h
  · cases h
  · rename_i s1 s2 id' len instr' r
    split at h
    · cases h
    · rename_i hsync
      obtain ⟨rfl, rfl⟩ : s1 = 0xFF ∧ s2 = 0xFF := by simpa only [not_or, not_not] using hsync
      simp only at h
      split at h
      · cases h
      · rename_i cks more hdrop
        split at h <;> cases h
        rename_i hcks
        obtain ⟨hlen, hr⟩ := length_take_of_drop hdrop
        have hcount := (paramCount len).isLt
        refine ⟨by omega, ?_⟩
        rw [busTxBytes, hlen, lengthByte_paramCount, ← not_not.1 hcks]
        simpa using hr.symm
  · cases h

/-- Rule R108: the row a packet selects is well formed and is written with that packet's instruction byte and parameters. -/
theorem encode_of_busTxInstr {id instr : Byte} {params : List Byte} (hlen : params.length ≤ 255)
    (h : busTxInstr c id instr params = .ok i) : i.wf = true ∧ encode c i = busTxBytes id instr params := by
  unfold busTxInstr at h
  split at h
  · rename_i hx; obtain ⟨rfl, rfl⟩ := hx; cases h; exact ⟨rfl, rfl⟩
  · split at h
    · rename_i hx; obtain ⟨rfl, rfl, rfl⟩ := hx; cases h; exact ⟨rfl, rfl⟩
    · split at h
      · split at h
        · rename_i hx; subst hx; cases h; exact ⟨rfl, rfl⟩
        · split at h <;> cases h
          rename_i hx; subst hx; exact ⟨rfl, rfl⟩
      · split at h <;> cases h
        rename_i hx
        subst hx
        rw [List.length_cons] at hlen
        exact ⟨decide_eq_true (by omega), rfl⟩
      · cases h

/-- Rules R99, R108. -/
theorem encode_of_decodeBusTx {bs : List Byte} (h : decodeBusTx c bs = .ok (i, rest)) :
    i.wf = true ∧ encode c i ++ rest = bs := by
  unfold decodeBusTx at h
  split at h
  · cases h
  · rename_i id instr params more hframe
    simp only [Except.map] at h
    split at h <;> cases h
    rename_i hinstr
    obtain ⟨hlen, hbytes⟩ := busTxBytes_of_busTxFrame hframe
    obtain ⟨hwf, henc⟩ := encode_of_busTxInstr hlen hinstr
    exact ⟨hwf, henc ▸ hbytes⟩

/-- Rules R100, R101. -/
theorem encode_of_decodeBusRx {bs : List Byte} (h : decodeBusRx bs = .ok (i, rest)) :
    i.wf = true ∧ encode c i ++ rest = bs := by
  unfold decodeBusRx at h
  split at h
  · cases h
  · rename_i s1 s2 id len err r
    simp only at h
    split at h <;> cases h
    rename_i cks hdrop
    obtain ⟨hlen, hr⟩ := length_take_of_drop hdrop
    have hcount := (paramCount len).isLt
    refine ⟨decide_eq_true (by omega), ?_⟩
    rw [encode, busRxBytes, hlen, lengthByte_paramCount]
    simpa using hr.symm
  · cases h

/-- Settles O2, one interface at a time. -/
theorem decodedBytesAreTheEncoding : Obligations.DecodedBytesAreTheEncoding := by
  intro c f bs rest i h
  have hf := Machine.decode_format h
  refine ⟨hf, ?_⟩
  cases f with
  | cmd => exact ⟨Instr.wf_of_format (.inl hf), encode_of_decodeCmd h⟩
  | evt => exact ⟨Instr.wf_of_format (.inr (.inl hf)), encode_of_decodeEvt h⟩
  | busTx => exact encode_of_decodeBusTx h
  | busRx => exact encode_of_decodeBusRx h
  | resetLine => cases bs <;> cases h; exact ⟨rfl, rfl⟩
  | hostPkt =>
    obtain ⟨b, rfl, rfl⟩ := Machine.decode_host h
    obtain ⟨hwf, henc⟩ := decodeHostByte_wf_encode (c := c) b
    exact ⟨hwf, by rw [henc, List.singleton_append]⟩

/-! ### The tables -/

/-- Rules R92, R103 (d): an opcode of no row. -/
theorem decodeCmd_unassigned {op : Byte} (h : op.toNat ∉ [0x00, 0x01, 0x02, 0x03, 0x04, 0x05, 0x06, 0x10, 0x11, 0x12,
    0x13, 0x14, 0x15, 0x20, 0x21, 0x22, 0x23, 0x24, 0x30, 0x31, 0x32, 0x33, 0x34, 0x35, 0x36, 0x37]) (r : List Byte) :
    decodeCmd (op :: r) = .error (.unassignedOpcode op) := by
  simp only [decodeCmd]
  split <;> rename_i hop
  case h_27 => rfl
  all_goals exact absurd hop (fun hk => h (by rw [hk]; decide))

/-- Rule R105 and log entry 24: a code of no event. -/
theorem decodeEvt_reserved {code : Byte} (h : code.toNat ∉ [0x80, 0x81, 0x82, 0x83, 0x84, 0x85, 0x86, 0x87])
    (r : List Byte) : decodeEvt (code :: r) = .error (.reservedEvent code) := by
  simp only [decodeEvt]
  split <;> rename_i hcode
  case h_9 => rfl
  all_goals exact absurd hcode (fun hk => h (by rw [hk]; decide))

/-- Rule R103 (d), U1: off the bus, bytes that decode to nothing refuse the step, by the decoder's reason. -/
theorem Machine.step_undecodable {s : State} {f : Format} {b : Byte} {more : List Byte} {rest : List Input}
    {e : DecodeError} (hf : f ≠ .busTx ∧ f ≠ .busRx) (hd : decode s.cfg f (b :: more) = .error e)
    (hin : s.input = .word f (b :: more) :: rest) : step s = .refused (.undecodable e) := by
  simp only [step, nextLine, hin, fetchWord, hd]
  cases f with
  | busTx => exact absurd rfl hf.1
  | busRx => exact absurd rfl hf.2
  | _ => rfl

/-- Settles O3. -/
theorem unassignedCodesAreRefused : Obligations.UnassignedCodesAreRefused := by
  intro s b more rest
  refine ⟨fun h => ?_, fun h => ?_⟩
  · have hd : decode s.cfg .cmd (b :: more) = .error (.unassignedOpcode b) := decodeCmd_unassigned h more
    exact ⟨hd, Machine.step_undecodable (by decide) hd⟩
  · have hd : decode s.cfg .evt (b :: more) = .error (.reservedEvent b) := decodeEvt_reserved h more
    exact ⟨hd, Machine.step_undecodable (by decide) hd⟩

/-- Settles O4: the decoder runs on each word. -/
theorem sampleWordsDecode : Obligations.SampleWordsDecode :=
  ⟨rfl, rfl, rfl, rfl, rfl, rfl, rfl, rfl⟩

end Sys2Proof
end

section
/-!
PROOFS of the encoding statements, second part: every step keeps both format tables legal (O47). Only `SET_FORMAT` writes
a table, and it is in work at two of the client's places alone (`formatSoFar`); so each procedure's next place is shown once
to be none of them, and what is left of the client's reaction is `SET_FORMAT` itself.
-/

namespace Sys2Proof.Machine

/-! ### The places outside `SET_FORMAT` -/

section Places

variable (c : Config) (k : Client)

theorem formatSoFar_emitThenStatus (bs : List Byte) (after : After) : formatSoFar (emitThenStatus bs after) := by
  cases bs <;> trivial

theorem formatSoFar_emitThenClose (bs : List Byte) (after : After) : formatSoFar (emitThenClose bs after) := by
  cases bs <;> trivial

theorem formatSoFar_after (after : After) : formatSoFar after.pos := by cases after <;> trivial

theorem formatSoFar_readFinish (payload : List Byte) : formatSoFar (readFinish c k payload) := by
  unfold readFinish
  cases c.readOrder with
  | statusFirst => trivial
  | payloadFirst => exact formatSoFar_emitThenStatus _ _

theorem formatSoFar_readNext (l : ReadLoop) : formatSoFar (readNext c k l) := by
  unfold readNext
  split
  · trivial
  · split
    · trivial
    · exact formatSoFar_readFinish c k _

theorem formatSoFar_readBegin (rest : List Entry) : formatSoFar (readBegin c k rest) := by
  unfold readBegin
  cases c.readOrder with
  | statusFirst => exact formatSoFar_readNext c k _
  | payloadFirst => trivial

theorem formatSoFar_readGot (l : ReadLoop) (virt : Bool) (phys : Nat) (err : Byte) (data : List Byte) :
    formatSoFar (readGot c k l virt phys err data) := by
  unfold readGot
  simp only
  split
  · trivial
  · exact formatSoFar_readNext c k _

theorem formatSoFar_writeNext (es : List Entry) : formatSoFar (writeNext c es) := by
  cases es with
  | nil => trivial
  | cons e es => simp only [writeNext]; split <;> trivial

/-- Rules R247, R250, R251: whatever a bus transaction was for, no `SET_FORMAT` follows it. -/
theorem formatSoFar_txnDone (f : TxnFor) (r : TxnResult) : formatSoFar (txnDone c k f r) := by
  cases f with
  | ping addr =>
    cases r with
    | success | checksumFailure => simp only [txnDone]; split <;> trivial
    | sendFail | timeout => trivial
  | read l virt phys =>
    cases r with
    | success rid err data => exact formatSoFar_readGot c k l virt phys err data
    | _ => exact formatSoFar_readFinish c k _
  | write rest =>
    cases r with
    | success rid err data => exact formatSoFar_writeNext c rest
    | _ => trivial
  | commit | sendOnly => trivial

end Places

/-! ### The places of `SET_FORMAT` -/

/-- Rule R98: an empty table is legal. -/
theorem tableValid_nil : tableValid [] := ⟨by decide, by simp⟩

/-- Rule R248: the entries taken and those still announced are no more than 32. -/
theorem formatSoFar_formatNext (d : TableSel) {left : Nat} {new : List Entry} (hlen : new.length + left ≤ 32)
    (hnew : ∀ e ∈ new, e.valid) : formatSoFar (formatNext d left new) := by
  cases left with
  | zero => exact ⟨hlen, hnew⟩
  | succ n => exact ⟨hlen, Nat.succ_pos n, hnew⟩

/-! ### The client -/

/-- Rule R241 of the client alone: both tables are legal, and so is what `SET_FORMAT` has taken so far. -/
def Client.TablesLegal (k : Client) : Prop :=
  tableValid k.readTable ∧ tableValid k.writeTable ∧ formatSoFar k.pos

theorem State.tablesInv_iff {s : State} : s.TablesInv ↔ s.client.TablesLegal := Iff.rfl

namespace Client.TablesLegal

variable {k : Client} {p : Pos}

/-- The client moves to another place, its tables as they are. -/
theorem moveTo (h : k.TablesLegal) (hp : formatSoFar p) : Client.TablesLegal { k with pos := p } := ⟨h.1, h.2.1, hp⟩

/-- The retry counter is no part of it. -/
theorem count (h : k.TablesLegal) (r : Nat) : Client.TablesLegal { k with retry := r } := h

/-- Rules R241, R248: one table is replaced wholesale by a legal one. -/
theorem setTable (h : k.TablesLegal) (d : TableSel) {t : List Entry} (ht : tableValid t) (hp : formatSoFar p) :
    Client.TablesLegal { k.setTable d t with pos := p } := by
  cases d with
  | read => exact ⟨ht, h.2.1, hp⟩
  | write => exact ⟨h.1, ht, hp⟩

/-- Rule R248: both ways `SET_FORMAT` fails leave the table empty. -/
theorem formatViolation (h : k.TablesLegal) (d : TableSel) : (k.formatViolation d).TablesLegal :=
  h.setTable d tableValid_nil trivial

theorem formatAbandoned (h : k.TablesLegal) (d : TableSel) : (k.formatAbandoned d).TablesLegal :=
  h.setTable d tableValid_nil trivial

/-- Rule R248: an entry is taken only where it is legal. -/
theorem formatByte (h : k.TablesLegal) (d : TableSel) {left : Nat} (got : List Byte) {new : List Entry} (b : Byte)
    (hp : formatSoFar (.formatEntry d left got new)) : (k.formatByte d left got new b).TablesLegal := by
  obtain ⟨hlen, hpos, hnew⟩ := hp
  unfold Client.formatByte
  split
  · simp only
    split
    · rename_i he
      exact h.moveTo (formatSoFar_formatNext d (by rw [List.length_append, List.length_singleton]; omega)
        (List.forall_mem_append.2 ⟨hnew, List.forall_mem_singleton.2 he⟩))
    · exact h.formatViolation d
  · exact h.moveTo (p := .formatEntry d left _ new) ⟨hlen, hpos, hnew⟩

/-- Rules R245, R246: a transaction leads to places of its own, or to what follows its result. -/
theorem txnReact (h : k.TablesLegal) (c : Config) (stage : TxnStage) (t : Txn) (f : TxnFor) (a : Answer) :
    (txnReact c k stage t f a).TablesLegal := by
  have hdone : ∀ r, Client.TablesLegal { k with pos := txnDone c k f r } := fun r =>
    h.moveTo (formatSoFar_txnDone c k f r)
  cases stage <;> simp only [Machine.txnReact]
  case dirTx | start | param | dirRx => exact h.moveTo (by trivial)
  case close =>
    split
    · exact hdone _
    · split
      · exact h.moveTo (by trivial)
      · split
        · exact hdone _
        · exact h.moveTo (by trivial)
  case packet =>
    split
    · exact h.moveTo (by trivial)
    · exact hdone _
  case check rid err data =>
    split
    · exact hdone _
    · split
      · split
        · exact h.moveTo (by trivial)
        · exact hdone _
      · exact hdone _
  case retry => exact (h.count _).moveTo (by trivial)

/-- Rule R243: a command's procedure starts outside the entries of `SET_FORMAT`. -/
theorem route (h : k.TablesLegal) (c : Config) (b : Byte) : (k.route c b).TablesLegal := by
  unfold Client.route
  split
  case h_5 => exact h.moveTo (formatSoFar_writeNext c _)
  all_goals exact h.moveTo (by trivial)

/-- Every answer the client takes leaves its tables legal. -/
theorem react (h : k.TablesLegal) (c : Config) (a : Answer) : (k.react c a).TablesLegal := by
  have hformat := h.2.2
  unfold Client.react
  cases hp : k.pos with simp only
  | cycleStart => exact (h.count 0).moveTo (by trivial)
  | idle => exact h.route c _
  | formatCount d =>
    split
    · exact h.formatAbandoned d
    · split
      · exact h.formatViolation d
      · exact h.moveTo (formatSoFar_formatNext d (by rw [List.length_nil]; omega) (by simp))
  | formatEntry d left got new =>
    split
    · exact h.formatAbandoned d
    · exact h.formatByte d got _ (hp ▸ hformat)
  | formatEnd d new =>
    rw [hp] at hformat
    split
    · exact h.formatAbandoned d
    · exact h.setTable d hformat trivial
  | readEnd => split <;> exact h.moveTo (formatSoFar_readBegin c k _)
  | readOpen l => exact h.moveTo (formatSoFar_readNext c k l)
  | txn stage t f => exact h.txnReact c stage t f a
  | statusRetry payload after => exact h.moveTo (formatSoFar_emitThenClose _ after)
  | statusEnd after => exact h.moveTo (formatSoFar_after after)
  | emit b bs f =>
    split
    case h_4 => exact h.moveTo (formatSoFar_readNext c k _)
    all_goals exact h.moveTo (by trivial)
  | pingAddr | writeEnd => split <;> exact h.moveTo (by trivial)
  | pingEnd addr =>
    split
    · exact h.moveTo (by trivial)
    · split
      · exact h.moveTo (by trivial)
      · split <;> exact h.moveTo (by trivial)
  | writeArg left data e rest =>
    split
    · exact h.moveTo (by trivial)
    · split <;> exact h.moveTo (by trivial)
  | _ => exact h.moveTo (by trivial)

end Client.TablesLegal

/-! ### The step -/

/-- A micro-step leaves the client as it is, or gives it the answer it waits for. -/
theorem State.TablesInv.microStep {s t : State} (h : s.TablesInv) (hm : s.microStep = some t) : t.TablesInv := by
  have hclient := State.tablesInv_iff.1 h
  refine State.tablesInv_iff.2 ?_
  obtain ⟨o, o', -, -, -, -, ⟨-, hk⟩ | ⟨-, code, hk⟩⟩ := State.microStep_op hm
  · exact hk ▸ hclient
  · rw [hk]
    cases o.owner with
    | script => exact hclient
    | client => exact hclient.react s.cfg _

/-- No event touches the client. -/
theorem EventEffect.client {s t : State} (h : EventEffect s t) : t.client = s.client := by
  cases h with
  | arrive l b =>
    unfold State.arrive
    split
    · rfl
    · exact State.push_client s _ b
  | load l => simp [State.loadShift]
  | sent l b => simp
  | lost => exact State.setShift_client s _ _
  | none | tick | halt => rfl

/-- Settles O47: the client alone holds the tables; it moves by the answers it takes, by the opening of a host command, by
the sending of a packet and by a refreshed sample, and RESET empties the tables. -/
theorem stepKeepsTablesLegal : Obligations.StepKeepsTablesLegal := by
  intro s t hs hst
  refine step_keeps (P := State.TablesInv) ?input ?issue ?micro ?host ?send ?event ?analog hs hst
  case input => exact fun s l h => h
  case issue =>
    intro s w p h ho _
    rw [State.issue_free s w p ho]
    exact h
  case micro => exact fun s t h hm => h.microStep hm
  case host =>
    exact fun s b h _ => (((State.tablesInv_iff.1 h).count 0).moveTo (p := .idle) trivial).route s.cfg b
  case send => exact fun s id instr params h _ => (State.tablesInv_iff.1 h).moveTo (by trivial)
  case analog => intro s a v h; cases a <;> exact h
  case event =>
    intro s t i h hi hx
    rcases or_assoc.2 hi with hi | hi
    · exact exec_event_keeps (P := State.TablesInv)
        (fun u v hu he => State.tablesInv_iff.2 (he.client ▸ State.tablesInv_iff.1 hu)) hi h hx
    · cases i <;> simp only [Instr.format, reduceCtorEq] at hi
      case reset => cases hx; exact ⟨tableValid_nil, tableValid_nil, trivial⟩

end Sys2Proof.Machine
end

section
/-!
PROOFS of the encoding statements, third part: bytes queued one after the other. `State.putAll` is what many pushes leave
of a channel; the arrival of a bus reply is that (O53), and `State.queued`, with the codec's sum and the answers beside it,
is where the puts of a packet, the run's own (O24) or the client's, have come to.
-/

namespace Sys2Proof.Machine

/-! ### Many pushes -/

/-- What `push(c, b)` leaves of a channel of capacity `cap`, rule R130. -/
def Channel.put1 (cap : Nat) (ch : Channel) (b : Byte) : Channel :=
  { ch with buf := ch.buf.write (ch.put % cap) b, put := ch.put + 1 }

/-- Bytes pushed to a channel one after the other. -/
def State.putAll (s : State) (c : Chan) (bs : List Byte) : State :=
  s.setChan c (bs.foldl (Channel.put1 (s.cap c)) (s.chan c))

section PutAll

variable (s : State) (c : Chan) (b : Byte) (bs : List Byte)

theorem State.putAll_nil : s.putAll c [] = s := by cases c <;> rfl

theorem State.putAll_push : (s.push c b).putAll c bs = s.putAll c (b :: bs) := by cases c <;> rfl

theorem State.putAll_concat : s.putAll c (bs ++ [b]) = (s.putAll c bs).push c b := by
  cases c <;> simp only [State.putAll, List.foldl_append] <;> rfl

@[simp] theorem State.putAll_cap (c' : Chan) : (s.putAll c bs).cap c' = s.cap c' := State.setChan_cap s c _ c'

end PutAll

/-- A push keeps the indices sound where there is room. -/
theorem State.ChannelOk.push {s : State} {c : Chan} (h : s.ChannelOk c) (hroom : s.Room c 1) (b : Byte) :
    (s.push c b).ChannelOk c := by
  refine ⟨?_, ?_⟩
  · rw [State.push_chan_same]
    exact Nat.le_succ_of_le h.1
  · rw [s.len_push b h.1, State.push_cap]
    exact hroom

/-- Rules R66, R130: bytes pushed with room stand behind those held, in order. -/
theorem State.putAll_spec {c : Chan} (bs : List Byte) : ∀ {s : State}, s.ChannelOk c → s.Room c bs.length →
    (s.putAll c bs).ChannelOk c ∧ (s.putAll c bs).len c = s.len c + bs.length ∧
      (s.putAll c bs).contents c = s.contents c ++ bs := by
  induction bs with
  | nil =>
    intro s hok _
    rw [State.putAll_nil, List.append_nil]
    exact ⟨hok, rfl, rfl⟩
  | cons b bs ih =>
    intro s hok hroom
    have hlen := s.len_push b hok.1
    simp only [State.Room, List.length_cons] at hroom
    have hroom' : (s.push c b).Room c bs.length := by rw [State.Room, State.push_cap]; omega
    obtain ⟨hok', hlen', hcont'⟩ := ih (hok.push (by simp only [State.Room]; omega) b) hroom'
    rw [State.putAll_push] at hok' hlen' hcont'
    refine ⟨hok', by rw [hlen', hlen, List.length_cons]; omega, ?_⟩
    rw [hcont', s.contents_push b hok.1 (by omega), List.append_assoc, List.singleton_append]

/-! ### Arrivals on the bus line -/

/-- Rule R142: in `Transmit` what is on the line is lost. -/
theorem State.busFeed_transmit (bs : List Byte) {s : State} (hd : s.dir = .transmit) : s.busFeed bs = s := by
  induction bs with
  | nil => rfl
  | cons b bs ih =>
    have hlost : s.busLineByte b = s := by simp [State.busLineByte, hd]
    rw [State.busFeed, hlost, ih]

/-- Rule R142: in `Receive` bytes that find room are pushed. -/
theorem State.busFeed_receive (bs : List Byte) : ∀ {s : State}, s.halt = false → s.dir = .receive → s.ChannelOk .brx →
    s.Room .brx bs.length → s.busFeed bs = s.putAll .brx bs := by
  induction bs with
  | nil => exact fun {s} _ _ _ _ => (s.putAll_nil .brx).symm
  | cons b bs ih =>
    intro s hh hd hok hroom
    have hlen := s.len_push b hok.1
    simp only [State.Room, List.length_cons] at hroom
    have hpush : s.busLineByte b = s.push .brx b := by
      have hfull : ¬ s.Full .brx := by simp only [State.Full]; omega
      simp [State.busLineByte, hh, hd, State.arrive, rxChan, hfull]
    rw [State.busFeed, hpush, ← State.putAll_push]
    exact ih hh hd (hok.push (by simp only [State.Room]; omega) b) (by rw [State.Room, State.push_cap]; omega)

/-- Rule R142, log entry 11: a line whose bytes make no whole packet is the arrival of its bytes. -/
theorem step_busRx_undecodable {s : State} {bytes : List Byte} {rest : List Input} {e : DecodeError}
    (hin : s.input = .word .busRx bytes :: rest) (hd : decode s.cfg .busRx bytes = .error e) :
    step s = .next ({ s with input := rest }.busFeed bytes) := by
  simp only [step, nextLine, hin, fetchWord, hd]
  cases bytes <;> rfl

/-- Settles O53: both lines are the arrival of the same bytes. -/
theorem busReplyArrivesInOrder : Obligations.BusReplyArrivesInOrder := by
  intro s bytes hh arrived
  have harrived : ∀ rest, arrived ({ s with input := rest }.busFeed bytes) rest := by
    intro rest
    refine ⟨fun hd hok hroom => ?_, fun hd => State.busFeed_transmit bytes hd⟩
    rw [State.busFeed_receive (s := { s with input := rest }) bytes hh hd hok hroom]
    exact ⟨(State.putAll_spec (s := { s with input := rest }) (c := .brx) bytes hok hroom).2.2, rfl⟩
  refine ⟨fun head err cks params hbytes => ⟨_, rfl, ?_⟩, fun rest e hin hd => ⟨_, step_busRx_undecodable hin hd, ?_⟩⟩
  · have hb : busRxBytes head err params cks = bytes := hbytes.symm
    exact hb ▸ harrived s.input
  · exact harrived rest

/-! ### Bytes a codec has queued -/

/-- An operation has completed with `Ok` and no result byte (rule R93). -/
def Answer.plain : Answer := { code := .ok, results := [] }

/-- Operations that answered `as` have queued `out` in the TX channel of a link and left its codec's sum at `sum`; the
interface is free. -/
def State.queued (s : State) (l : Link) (out : List Byte) (sum : Byte) (as : List Answer) : State :=
  { (s.putAll (txChan l) out).setTxSum l sum with op := none, cmdOut := s.cmdOut ++ as }

section Queued

variable {s : State} {l : Link} {out : List Byte} {sum b : Byte} {as : List Answer}

theorem State.queued_nil (ho : s.op = none) : s.queued l [] (s.txSum l) [] = s := by
  rw [State.queued, State.putAll_nil, List.append_nil, State.setTxSum_self, ← ho]

/-- Rule R130: a byte more. -/
theorem State.queued_push : (s.queued l out sum as).push (txChan l) b = s.queued l (out ++ [b]) sum as := by
  rw [State.queued, State.queued, State.putAll_concat]
  cases l <;> rfl

theorem State.queued_setTxSum (y : Byte) : (s.queued l out sum as).setTxSum l y = s.queued l out y as := by
  cases l <;> rfl

/-- What queueing bytes to the bus changes. -/
theorem State.queued_bus : s.queued .bus out sum as =
    { s with btx := (s.putAll .btx out).btx, bcTxSum := sum, op := none, cmdOut := s.cmdOut ++ as } := rfl

/-- What queueing bytes to the host changes. -/
theorem State.queued_host : s.queued .host out sum as =
    { s with htx := (s.putAll .htx out).htx, hcTxSum := sum, op := none, cmdOut := s.cmdOut ++ as } := rfl

@[simp] theorem State.queued_txSum : (s.queued l out sum as).txSum l = sum := by cases l <;> rfl

@[simp] theorem State.queued_halt : (s.queued l out sum as).halt = s.halt := by cases l <;> rfl

theorem State.queued_contents (hok : s.ChannelOk (txChan l)) (hroom : s.Room (txChan l) out.length) :
    (s.queued l out sum as).contents (txChan l) = s.contents (txChan l) ++ out := by
  rw [← (State.putAll_spec out hok hroom).2.2]
  cases l <;> rfl

theorem State.queued_not_full (hok : s.ChannelOk (txChan l)) (hroom : s.Room (txChan l) (out.length + 1)) :
    ¬ (s.queued l out sum as).Full (txChan l) := by
  have hlen : (s.queued l out sum as).len (txChan l) = (s.putAll (txChan l) out).len (txChan l) := by cases l <;> rfl
  have hcap : (s.queued l out sum as).cap (txChan l) = s.cap (txChan l) := by cases l <;> rfl
  have hput := (State.putAll_spec out hok (by simp only [State.Room] at hroom ⊢; omega)).2.1
  simp only [State.Full, State.Room] at hroom ⊢
  omega

section Turns

variable {w : Owner} {ms : List Micro} {r : List Byte} {p : Option PacketLocals}

/-- Rule R131: with room a put pushes, and moves its codec's sum. -/
theorem Turns.put (u : SumUse) (hh : s.halt = false) (hok : s.ChannelOk (txChan l))
    (hroom : s.Room (txChan l) (out.length + 1)) :
    Turns ((s.queued l out sum as).proceed ⟨w, .put l b u :: ms, r, p⟩)
      ((s.queued l (out ++ [b]) (u.apply sum b) as).proceed ⟨w, ms, r, p⟩) := by
  have hput := fun o : Op => Micro.run_put (b := b) (u := u) (o := o)
    (State.queued_not_full (sum := sum) (as := as) hok hroom)
  simp only [State.queued_txSum, State.queued_push, State.queued_setTxSum] at hput
  exact .run (State.queued_halt.trans hh) (hput _)

/-- Rules R162, R182: the closing put takes the complement of the sum, which it leaves. -/
theorem Turns.putChecksum (hh : s.halt = false) (hok : s.ChannelOk (txChan l))
    (hroom : s.Room (txChan l) (out.length + 1)) :
    Turns ((s.queued l out sum as).proceed ⟨w, .putChecksum l :: ms, r, p⟩)
      ((s.queued l (out ++ [~~~ sum]) sum as).proceed ⟨w, ms, r, p⟩) := by
  refine .run (State.queued_halt.trans hh) ((if_neg (State.queued_not_full hok hroom)).trans ?_)
  rw [State.queued_txSum, State.queued_push]

end Turns

/-- An operation of the run's own with nothing left to do. -/
theorem State.queued_reply :
    (s.queued l out sum as).proceed ⟨.script, [], [], none⟩ = s.queued l out sum (as ++ [.plain]) := by
  rw [State.proceed_script_nil, State.queued, State.queued, ← List.append_assoc]
  rfl

theorem exec_queued {i : Instr} {m : Micro} {y : Byte}
    (hp : programOf (s.queued l out sum as).cfg i = some { todo := [m] })
    (h : Turns ((s.queued l out sum as).proceed ⟨.script, [m], [], none⟩)
      ((s.queued l (out ++ [b]) y as).proceed ⟨.script, [], [], none⟩)) :
    exec i (s.queued l out sum as) = .next (s.queued l (out ++ [b]) y (as ++ [.plain])) := by
  rw [State.queued_reply] at h
  exact exec_eq_of_turns rfl hp rfl h (State.microStep_idle rfl)

end Queued

/-! ### A host packet sent by the run -/

section HostPacket

variable {s : State}

theorem execAll_concat {s u v : State} {is : List Instr} {i : Instr} (h : execAll is s = .next u)
    (hi : exec i u = .next v) : execAll (is ++ [i]) s = .next v := by
  rw [execAll_append _ h]
  simp only [execAll, hi]

theorem byteSum_append (bs cs : List Byte) : byteSum (bs ++ cs) = byteSum bs + byteSum cs := by
  induction bs with
  | nil => simp [byteSum]
  | cons b bs ih => rw [List.cons_append, byteSum, ih, byteSum, BitVec.add_assoc]

theorem byteSum_singleton (b : Byte) : byteSum [b] = b := BitVec.add_zero b

/-- Rules R160, R161: the start of a packet and its accumulated bytes are queued, the sum is theirs. -/
theorem execAll_hostBytes (hr : s.Ready) (instr : Byte) (hok : s.ChannelOk .htx) (ds : List Byte) :
    s.Room .htx (ds.length + 1) →
    execAll (.hcTxStart instr :: ds.map fun d => .hcTxByte d true) s =
      .next (s.queued .host (instr :: ds) (byteSum (instr :: ds)) (List.replicate (ds.length + 1) .plain)) := by
  obtain ⟨hh, ho⟩ := hr
  induction ds using List.reverseRecOn with
  | nil =>
    intro hroom
    have hx : exec (.hcTxStart instr) (s.queued .host [] (s.txSum .host) []) = _ :=
      exec_queued rfl (Turns.put .restart hh hok hroom)
    rw [State.queued_nil ho] at hx
    refine execAll_concat (is := []) rfl (hx.trans ?_)
    simp [SumUse.apply, byteSum]
  | append_singleton ds d ih =>
    intro hroom
    simp only [List.length_append, List.length_singleton] at hroom ⊢
    rw [List.map_append, ← List.cons_append, ← List.cons_append, byteSum_append, byteSum_singleton, List.replicate_succ' (n := _ + 1)]
    refine execAll_concat (ih (by simp only [State.Room] at hroom ⊢; omega)) ?_
    exact exec_queued rfl (Turns.put .add hh hok hroom)

/-- Settles O24: `HC_TX_END` queues the complement of the sum behind them. -/
theorem hostPacketEndsInItsChecksum : Obligations.HostPacketEndsInItsChecksum := by
  intro s instr ds hr hok hroom
  have hbytes := execAll_hostBytes hr instr hok ds (by simp only [State.Room] at hroom ⊢; omega)
  refine ⟨_, execAll_concat hbytes (exec_queued rfl (Turns.putChecksum hr.1 hok hroom)), ?_, ?_⟩
  · rw [List.append_assoc]
    exact State.queued_contents (l := .host) hok (by
      simp only [List.length_append, List.length_cons, List.length_nil]
      exact hroom)
  · rw [← List.replicate_succ']
    rfl

end HostPacket

end Sys2Proof.Machine
end

section
/-!
PROOFS of the encoding statements, fourth part: the reference client's operations run one after the other, up to the
packet it has sent (O52) and the pings that need no bus (O54). `Acts` is a run of the foreground agent with its fuel
counted; each operation the client issues is a chain of micro-steps (`Acts.operation`), and each part of a procedure that
several commands share (sending a packet, reading an argument, the status response, the cooldown) is one lemma.
-/

namespace Sys2Proof.Machine

/-! ### Runs of the foreground agent -/

/-- `t` is reached from `s` by at most `n` actions of the foreground agent. -/
def Acts (n : Nat) (s t : State) : Prop := ∃ m, m ≤ n ∧ ∀ k, s.runForeground (m + k) = t.runForeground k

namespace Acts

variable {s t u : State} {n n' : Nat}

theorem refl (s : State) : Acts 0 s s := ⟨0, Nat.le_refl _, fun k => by rw [Nat.zero_add]⟩

theorem trans (h : Acts n s t) (h' : Acts n' t u) : Acts (n + n') s u := by
  obtain ⟨m, hm, hs⟩ := h
  obtain ⟨m', hm', ht⟩ := h'
  exact ⟨m + m', Nat.add_le_add hm hm', fun k => by rw [Nat.add_assoc, hs, ht]⟩

theorem mono (h : Acts n s t) (hn : n ≤ n') : Acts n' s t :=
  let ⟨m, hm, hs⟩ := h
  ⟨m, hm.trans hn, hs⟩

theorem step (h : s.foregroundStep = some t) : Acts 1 s t :=
  ⟨1, Nat.le_refl _, fun k => by rw [Nat.add_comm, State.runForeground_step h]⟩

/-- With enough fuel the run ends where the actions end. -/
theorem run (h : Acts n s t) (ht : t.foregroundStep = none) (hn : n ≤ foregroundFuel) :
    s.runForeground foregroundFuel = t := by
  obtain ⟨m, hm, hs⟩ := h
  rw [← Nat.add_sub_cancel' (hm.trans hn), hs, State.runForeground_hold ht]

/-- While an operation is in progress the foreground agent's actions are its micro-steps. -/
theorem of_turns (h : Turns s t) : Acts s.turnsLeft s t := by
  induction h using Relation.ReflTransGen.head_induction_on with
  | refl => exact (refl t).mono (Nat.zero_le _)
  | @head s u hm _ ih =>
    have hlt := State.microStep_turnsLeft hm
    obtain ⟨hh, o, ho, -⟩ := State.microStep_cases hm
    have hstep : s.foregroundStep = some u := by
      rw [← hm]
      simp [State.foregroundStep, hh, ho]
    exact ((step hstep).trans ih).mono (by omega)

/-- Inside a host command the client issues the operation of its place. -/
theorem issue {m : Micro} {ms : List Micro} {p : Option PacketLocals} (hr : s.Ready) (hpos : s.client.pos ≠ .cycleStart)
    (hp : clientProgram s.cfg s.client = { todo := m :: ms, packet := p }) :
    Acts 1 s (s.proceed ⟨.client, m :: ms, [], p⟩) := by
  obtain ⟨hh, ho⟩ := hr
  refine step ?_
  simp [State.foregroundStep, hh, ho, hpos, State.clientIssue, State.issue_free s _ _ ho, hp]

/-- An operation of the client is a chain of its micro-steps. -/
theorem operation {m : Micro} {ms : List Micro} {p : Option PacketLocals} (hr : s.Ready)
    (hpos : s.client.pos ≠ .cycleStart) (hp : clientProgram s.cfg s.client = { todo := m :: ms, packet := p })
    (h : Turns (s.proceed ⟨.client, m :: ms, [], p⟩) t) : Acts (turnsOf (m :: ms) + 2) s t :=
  ((issue hr hpos hp).trans (of_turns h)).mono
    (by have := s.proceed_turnsLeft ⟨.client, m :: ms, [], p⟩; simp only at this; omega)

end Acts

/-- The client has taken the answer of the operation it issued (rule R91), and the interface is free. -/
def State.told (s : State) (code : Code) (results : List Byte) : State :=
  { s with
    op := none
    cmdOut := s.cmdOut ++ [{ code := code, results := results }]
    client := s.client.react s.cfg { code := code, results := results } }

/-- The client stands at another place of its procedures. -/
def State.atPos (s : State) (p : Pos) : State := { s with client := { s.client with pos := p } }

/-- A hold of the operation in progress stops the foreground agent. -/
theorem State.foregroundStep_held {s : State} {w : Owner} {m : Micro} {ms : List Micro} {r : List Byte}
    {p : Option PacketLocals} (hh : s.halt = false) (ho : s.op = some ⟨w, m :: ms, r, p⟩) (h : m.Holds s) :
    s.foregroundStep = none := by
  have hm : s.microStep = none := (State.microStep_cons hh ho).trans (Micro.run_eq_none.2 h)
  simp [State.foregroundStep, hh, ho, hm]

/-- Between two host commands there is nothing to do. -/
theorem State.foregroundStep_free {s : State} (h : s.ForegroundFree) : s.foregroundStep = none := by
  simp [State.foregroundStep, h.1, h.2]

/-! ### Operations of the client that queue bytes -/

section Queues

variable {s : State} {l : Link} {out out' : List Byte} {sum y b : Byte} {as : List Answer} {q : Pos}

theorem State.queued_told (code : Code) (r : List Byte)
    (hk : s.client.react s.cfg { code := code, results := r } = { s.client with pos := q }) :
    (s.queued l out sum as).told code r =
      (s.atPos q).queued l out sum (as ++ [{ code := code, results := r }]) := by
  cases l <;> simp only [State.told, State.queued, State.putAll, State.setChan, State.setTxSum, txChan, hk,
    List.append_assoc] <;> rfl

/-- Before the first byte nothing is queued. -/
theorem State.told_eq_queued (l : Link) (code : Code) (r : List Byte)
    (hk : s.client.react s.cfg { code := code, results := r } = { s.client with pos := q }) :
    s.told code r = (s.atPos q).queued l [] (s.txSum l) [{ code := code, results := r }] := by
  cases l <;> simp only [State.told, hk] <;> rfl

/-- An operation whose micro-steps queue bytes. -/
theorem Acts.queue {m : Micro} {ms : List Micro} (hh : s.halt = false) (hpos : s.client.pos ≠ .cycleStart)
    (hp : clientProgram s.cfg s.client = { todo := m :: ms })
    (hk : s.client.react s.cfg .plain = { s.client with pos := q })
    (h : Turns ((s.queued l out sum as).proceed ⟨.client, m :: ms, [], none⟩)
      ((s.queued l out' y as).proceed ⟨.client, [], [], none⟩)) :
    Acts (turnsOf (m :: ms) + 2) (s.queued l out sum as) ((s.atPos q).queued l out' y (as ++ [.plain])) := by
  have hclient : (s.queued l out sum as).client = s.client := by cases l <;> rfl
  have hcfg : (s.queued l out sum as).cfg = s.cfg := by cases l <;> rfl
  have htold : (s.queued l out' y as).proceed ⟨.client, [], [], none⟩ = _ := State.queued_told .ok [] hk
  exact Acts.operation ⟨State.queued_halt.trans hh, rfl⟩ (hclient ▸ hpos) (by rw [hclient, hcfg, hp]) (htold ▸ h)

/-- One put. -/
theorem Acts.put {u : SumUse} (hh : s.halt = false) (hok : s.ChannelOk (txChan l))
    (hroom : s.Room (txChan l) (out.length + 1)) (hpos : s.client.pos ≠ .cycleStart)
    (hp : clientProgram s.cfg s.client = { todo := [.put l b u] })
    (hk : s.client.react s.cfg .plain = { s.client with pos := q }) :
    Acts 3 (s.queued l out sum as) ((s.atPos q).queued l (out ++ [b]) (u.apply sum b) (as ++ [.plain])) :=
  Acts.queue hh hpos hp hk (Turns.put u hh hok hroom)

end Queues

/-! ### Sending a packet: the first half of a bus transaction -/

/-- A packet of rule R99 is its two sync bytes, the bytes its checksum is of, and the checksum. -/
def txnBody (t : Txn) : List Byte := t.id :: lengthByte (u8 t.params.length) :: t.instr :: t.params

theorem busTxBytes_eq (t : Txn) :
    busTxBytes t.id t.instr t.params = 0xFF :: 0xFF :: txnBody t ++ [~~~ byteSum (txnBody t)] := rfl

/-- The client has turned the line to `Transmit`, queued `bytes`, and waits at place `p` for the drain (rules R182, R210). -/
def State.draining (s : State) (bytes : List Byte) (sum : Byte) (as : List Answer) (p : Pos) : State :=
  { s with
    btx := (s.putAll .btx bytes).btx
    bcTxSum := sum
    dir := .transmit
    tmo := s.cfg.tBusDrain
    op := some ⟨.client, [.awaitDrain], [], none⟩
    cmdOut := s.cmdOut ++ as
    client := { s.client with pos := p } }

theorem State.draining_eq (s : State) (bytes : List Byte) (sum : Byte) (as : List Answer) (p : Pos) :
    ((((s.setDir .transmit).atPos p).queued .bus bytes sum as).armTimer s.cfg.tBusDrain).proceed
        ⟨.client, [.awaitDrain], [], none⟩ = s.draining bytes sum as p := by
  rw [State.queued_bus]
  rfl

/-- What it leaves as it was. -/
theorem State.draining_frame (s : State) (bytes : List Byte) (sum : Byte) (as : List Answer) (p : Pos) :
    s.draining bytes sum as p = { s with
      btx := (s.draining bytes sum as p).btx
      bcTxSum := (s.draining bytes sum as p).bcTxSum
      dir := (s.draining bytes sum as p).dir
      tmo := (s.draining bytes sum as p).tmo
      op := (s.draining bytes sum as p).op
      cmdOut := (s.draining bytes sum as p).cmdOut
      client := { s.client with pos := (s.draining bytes sum as p).client.pos } } := rfl

/-- A bus transaction that starts in `s` has come to the drain wait of its packet (rules R180 to R182, R245). -/
def State.asked (s : State) (t : Txn) (f : TxnFor) : State :=
  s.draining (busTxBytes t.id t.instr t.params) (byteSum (txnBody t)) (List.replicate (t.params.length + 2) .plain)
    (.txn .close t f)

section Asks

variable {s : State} {t : Txn} {f : TxnFor}

/-- Rule R180: the two sync bytes are not summed, the header is. -/
theorem Acts.bcTxStart {sum : Byte} {as : List Answer} {q : Pos} {id n instr : Byte} (hh : s.halt = false)
    (hok : s.ChannelOk .btx) (hroom : s.Room .btx 5) (hpos : s.client.pos ≠ .cycleStart)
    (hp : clientProgram s.cfg s.client = bcTxStartProgram id n instr)
    (hk : s.client.react s.cfg .plain = { s.client with pos := q }) :
    Acts 7 (s.queued .bus [] sum as)
      ((s.atPos q).queued .bus [0xFF, 0xFF, id, lengthByte n, instr] (byteSum [id, lengthByte n, instr]) (as ++ [.plain])) := by
  have hsum : 0 + id + lengthByte n + instr = byteSum [id, lengthByte n, instr] := by
    simp [byteSum, BitVec.add_assoc]
  have hput : ∀ {out b sum ms} (u : SumUse), out.length + 1 ≤ 5 → Turns
      ((s.queued .bus out sum as).proceed ⟨.client, .put .bus b u :: ms, [], none⟩)
      ((s.queued .bus (out ++ [b]) (u.apply sum b) as).proceed ⟨.client, ms, [], none⟩) := fun u hlen =>
    Turns.put u hh hok (show s.Room .btx _ by simp only [State.Room] at hroom ⊢; omega)
  rw [← hsum]
  exact Acts.queue hh hpos hp hk ((hput .clear (by simp)).trans ((hput .keep (by simp)).trans
    ((hput .add (by simp)).trans ((hput .add (by simp)).trans (hput .add (by simp))))))

/-- Rule R181: the parameters follow, all summed. -/
theorem Acts.params (hh : s.halt = false) (hok : s.ChannelOk .btx) (ps : List Byte) : ∀ {out : List Byte} {sum : Byte}
    {as : List Answer}, s.Room .btx (out.length + ps.length) →
    Acts (3 * ps.length) ((s.atPos (.txn (paramStage ps) t f)).queued .bus out sum as)
      ((s.atPos (.txn .close t f)).queued .bus (out ++ ps) (sum + byteSum ps)
        (as ++ List.replicate ps.length .plain)) := by
  induction ps with
  | nil =>
    intro out sum as _
    have hsum : sum + byteSum [] = sum := BitVec.add_zero sum
    rw [hsum, List.append_nil, List.length_nil, List.replicate_zero, List.append_nil]
    exact Acts.refl _
  | cons b ps ih =>
    intro out sum as hroom
    rw [List.length_cons] at hroom
    have hput : Acts 3 ((s.atPos (.txn (.param (b :: ps)) t f)).queued .bus out sum as)
        ((s.atPos (.txn (paramStage ps) t f)).queued .bus (out ++ [b]) (sum + b) (as ++ [.plain])) :=
      Acts.put (s := s.atPos (.txn (.param (b :: ps)) t f)) (u := .add) hh hok
        (show s.Room .btx _ by simp only [State.Room] at hroom ⊢; omega) (by simp [State.atPos]) rfl rfl
    have hrest := ih (out := out ++ [b]) (sum := sum + b) (as := as ++ [.plain])
      (by rw [List.length_append, List.length_singleton]; simp only [State.Room] at hroom ⊢; omega)
    rw [List.append_assoc, List.append_assoc, BitVec.add_assoc] at hrest
    exact (hput.trans hrest).mono (by rw [List.length_cons]; omega)

/-- Rule R182: the checksum, the arming, and then the drain wait. -/
theorem Acts.bcTxEnd {out : List Byte} {sum : Byte} {as : List Answer} (hh : s.halt = false) (hok : s.ChannelOk .btx)
    (hroom : s.Room .btx (out.length + 1)) :
    Acts 5 (((s.setDir .transmit).atPos (.txn .close t f)).queued .bus out sum as)
      (s.draining (out ++ [~~~ sum]) sum as (.txn .close t f)) := by
  have hturns := (Turns.putChecksum (s := (s.setDir .transmit).atPos (.txn .close t f)) (l := .bus) (sum := sum) (as := as)
    (w := .client) (ms := [.arm s.cfg.tBusDrain, .awaitDrain]) (r := []) (p := none) hh hok hroom).trans (Turns.arm hh)
  rw [State.draining_eq] at hturns
  exact Acts.operation (s := ((s.setDir .transmit).atPos (.txn .close t f)).queued .bus out sum as) ⟨hh, rfl⟩
    (fun h : Pos.txn .close t f = .cycleStart => by cases h) rfl hturns

/-- Rule R210: `DIR_TX` opens a transaction. -/
theorem Acts.dirTx (hr : s.Ready) (hpos : s.client.pos = .txn .dirTx t f) :
    Acts 3 s (((s.setDir .transmit).atPos (.txn .start t f)).queued .bus [] s.bcTxSum [.plain]) := by
  have hprog : clientProgram s.cfg s.client = dirTxProgram := by rw [clientProgram, hpos]; rfl
  have hk : (s.setDir .transmit).client.react s.cfg .plain = { s.client with pos := .txn .start t f } := by
    simp only [State.setDir_client, Client.react, hpos, txnReact]
  have hturns : Turns (s.proceed ⟨.client, [.direction .transmit], [], none⟩) ((s.setDir .transmit).told .ok []) :=
    .run hr.1 rfl
  rw [State.told_eq_queued (s := s.setDir .transmit) .bus .ok [] hk] at hturns
  exact Acts.operation hr (by rw [hpos]; simp) hprog hturns

/-- Rules R180 to R182, R245: from the start of a transaction to the drain wait. -/
theorem Acts.ask (hr : s.Ready) (hpos : s.client.pos = .txn .dirTx t f) (hok : s.ChannelOk .btx)
    (hroom : s.Room .btx (t.params.length + 6)) : Acts (3 * t.params.length + 15) s (s.asked t f) := by
  have hh := hr.1
  have hfits : ∀ {n}, n ≤ t.params.length + 6 → s.Room .btx n := fun hn => by
    simp only [State.Room] at hroom ⊢
    omega
  have hstart := Acts.bcTxStart (s := (s.setDir .transmit).atPos (.txn .start t f)) (sum := s.bcTxSum) (as := [.plain])
    (q := .txn (paramStage t.params) t f) hh hok (hfits (by omega)) (by simp [State.atPos]) rfl rfl
  have hparams := Acts.params (s := s.setDir .transmit) (t := t) (f := f) hh hok t.params
    (out := [0xFF, 0xFF, t.id, lengthByte (u8 t.params.length), t.instr])
    (sum := byteSum [t.id, lengthByte (u8 t.params.length), t.instr]) (as := [.plain, .plain])
    (hfits (by simp only [List.length_cons, List.length_nil]; omega))
  have hsum : byteSum [t.id, lengthByte (u8 t.params.length), t.instr] + byteSum t.params = byteSum (txnBody t) :=
    (byteSum_append _ _).symm
  have hclose : Acts 5 (((s.setDir .transmit).atPos (.txn .close t f)).queued .bus (0xFF :: 0xFF :: txnBody t)
      (byteSum (txnBody t)) (List.replicate (t.params.length + 2) .plain)) (s.asked t f) :=
    Acts.bcTxEnd hh hok (hfits (by simp only [txnBody, List.length_cons]; omega))
  exact ((Acts.dirTx hr hpos).trans (hstart.trans ((hsum ▸ hparams).trans hclose))).mono (by omega)

/-- Rule R182: with a bound that is not 0 the client waits, as its packet has just been queued. -/
theorem State.asked_holds (hh : s.halt = false) (hok : s.ChannelOk .btx) (hroom : s.Room .btx (t.params.length + 6))
    (hd : s.cfg.tBusDrain ≠ 0) : (s.asked t f).foregroundStep = none := by
  have hlen : (busTxBytes t.id t.instr t.params).length = t.params.length + 6 := by
    simp [busTxBytes]
  have hqueued := (State.putAll_spec (s := s) (busTxBytes t.id t.instr t.params) hok (hlen ▸ hroom)).2.1
  refine State.foregroundStep_held (m := .awaitDrain) hh rfl ⟨fun hdrained => ?_, hd⟩
  have hempty : (s.putAll .btx (busTxBytes t.id t.instr t.params)).len .btx = 0 := hdrained.1
  omega

/-- Rule R99: what is then queued is the packet. -/
theorem State.asked_contents (hok : s.ChannelOk .btx) (hroom : s.Room .btx (t.params.length + 6)) :
    (s.asked t f).contents .btx = s.contents .btx ++ busTxBytes t.id t.instr t.params := by
  have hlen : (busTxBytes t.id t.instr t.params).length = t.params.length + 6 := by
    simp [busTxBytes]
  rw [← (State.putAll_spec (c := .btx) _ hok (hlen ▸ hroom)).2.2]
  rfl

end Asks

/-- Rules R99, R106, log entry 11: a framed packet of no row is sent like one, by a free foreground agent. -/
theorem step_busTx_undecodable {s : State} {id instr : Byte} {params : List Byte} {rest : List Input} {e : DecodeError}
    (hf : s.ForegroundFree) (hlen : params.length ≤ 255)
    (hin : s.input = .word .busTx (busTxBytes id instr params) :: rest)
    (hd : decode s.cfg .busTx (busTxBytes id instr params) = .error e) :
    step s = { s with input := rest }.takeUp (fun k => k.startBusSend id instr params) := by
  have hframe := busTxFrame_busTxBytes (rest := []) id instr hlen
  rw [List.append_nil] at hframe
  simp only [step, nextLine, hin, fetchWord, hd]
  have hcons : ∃ b bs, busTxBytes id instr params = b :: bs := ⟨_, _, rfl⟩
  obtain ⟨b, bs, hb⟩ := hcons
  rw [hb] at hframe ⊢
  simp only [fetchOther, hframe, keepWord]
  exact State.takeLine_free hf _ _

/-- Settles O52: both lines start the client's transaction, whose first half ends in the drain wait. -/
theorem busSendQueuesThePacket : Obligations.BusSendQueuesThePacket := by
  intro s id instr params hr hok hroom hd sent
  let t : Txn := { id := id, instr := instr, params := params, expected := 0 }
  have hsend : params.length ≤ 255 → ∀ rest, ∃ u,
      { s with input := rest }.takeUp (fun k => k.startBusSend id instr params) = .next u ∧ sent u rest := by
    intro hlen rest
    let u : State := { s with input := rest, client := s.client.startBusSend id instr params }
    have hask : Acts (3 * params.length + 15) u (u.asked t .sendOnly) :=
      Acts.ask (t := t) ⟨hr.1, hr.2.1⟩ rfl hok hroom
    have hhold : (u.asked t .sendOnly).foregroundStep = none :=
      State.asked_holds (s := u) (t := t) hr.1 hok hroom hd
    refine ⟨u.asked t .sendOnly, ?_, ⟨rfl, rfl⟩, rfl, State.asked_contents (s := u) (t := t) hok hroom,
      u.draining_frame _ _ _ _⟩
    rw [State.takeUp_ready (s := { s with input := rest }) _ hr]
    exact congrArg _ (hask.run hhold (by simp only [foregroundFuel]; omega))
  refine ⟨fun i hi hwf => ?_, fun rest e hlen hin hdec => ?_⟩
  · rcases hi with ⟨rfl, rfl, rfl⟩ | ⟨a, l, rfl, rfl, rfl⟩ | ⟨a, d, rfl, rfl, rfl⟩ | ⟨rfl, rfl, rfl, rfl⟩
    case inr.inr.inl =>
      have hdata : d.length ≤ 254 := by simpa only [Instr.wf, decide_eq_true_eq] using hwf
      exact hsend (by rw [List.length_cons]; omega) s.input
    all_goals exact hsend (by simp) s.input
  · obtain ⟨u, hu, hsent⟩ := hsend hlen rest
    exact ⟨u, (step_busTx_undecodable hr.2 hlen hin hdec).trans hu, hsent⟩

end Sys2Proof.Machine
end

section
/-!
PROOFS of the encoding statements, fifth part: the pings that need no bus (O54), from the parts host commands share: an
argument byte and the checksum byte taken from HRX (`Hearing`), the status response (`Acts.respond`) and the cooldown of
the Invalid path (`Acts.coolDown`).
-/

namespace Sys2Proof.Machine

theorem State.told_eq {s : State} {code : Code} {r : List Byte} {q : Pos}
    (hk : s.client.react s.cfg { code := code, results := r } = { s.client with pos := q }) :
    s.told code r = { s with
      op := none
      cmdOut := s.cmdOut ++ [{ code := code, results := r }]
      client := { s.client with pos := q } } := by
  simp only [State.told, hk]

/-! ### The status response -/

/-- The bytes of a response before its checksum, rules R97, R244: the status part, then the payload. -/
def responseBody (k : Client) (instr status : Byte) (payload : List Byte) : List Byte :=
  [instr, status, u8 k.retry, k.supply, k.secondary, k.thermal] ++ payload

/-- A response the client began in `s` has got to `u`: `out` is queued and summed, and the client stands at `p`. -/
def Responding (s : State) (out : List Byte) (p : Pos) (u : State) : Prop :=
  ∃ as, u = (s.atPos p).queued .host out (byteSum out) as

namespace Responding

variable {s u : State} {out : List Byte} {p q : Pos} {payload : List Byte} {after : After}

/-- Rule R161: one byte more, accumulated. -/
theorem put (h : Responding s out p u) (b : Byte) (hh : s.halt = false) (hok : s.ChannelOk .htx)
    (hroom : s.Room .htx (out.length + 1)) (hp : p ≠ .cycleStart)
    (hprog : clientProgram s.cfg { s.client with pos := p } = hcTxByteProgram b true)
    (hk : Client.react s.cfg { s.client with pos := p } .plain = { s.client with pos := q }) :
    ∃ v, Acts 3 u v ∧ Responding s (out ++ [b]) q v := by
  obtain ⟨as, rfl⟩ := h
  have hput := Acts.put (s := s.atPos p) (l := .host) (sum := byteSum out) (b := b) (as := as) (u := .add) (q := q) hh hok
    hroom hp hprog hk
  refine ⟨_, hput, as ++ [.plain], ?_⟩
  rw [byteSum_append, byteSum_singleton]
  rfl

/-- Rule R160: the instruction byte starts the sum anew. -/
theorem start {instr : Byte} (hr : s.Ready) (hpos : s.client.pos = .statusStart instr payload after)
    (hok : s.ChannelOk .htx) (hroom : s.Room .htx 1) :
    ∃ v, Acts 3 s v ∧ Responding s [instr] (.statusRead payload after) v := by
  have hput : Acts 3 (s.queued .host [] (s.txSum .host) [])
      ((s.atPos (.statusRead payload after)).queued .host [instr] (0 + instr) [.plain]) :=
    Acts.put (u := .restart) hr.1 hok hroom (by rw [hpos]; simp) (by rw [clientProgram, hpos]; rfl)
      (by simp only [Client.react, hpos])
  have hsum : 0 + instr = byteSum [instr] := by simp [byteSum]
  rw [State.queued_nil hr.2, hsum] at hput
  exact ⟨_, hput, _, rfl⟩

/-- Rule R216: the status a response carries is the one at this micro-step. -/
theorem readStatus (h : Responding s out (.statusRead payload after) u) (hh : s.halt = false) :
    ∃ v, Acts 3 u v ∧ Responding s out (.statusByte s.status payload after) v := by
  obtain ⟨as, rfl⟩ := h
  let u := (s.atPos (.statusRead payload after)).queued .host out (byteSum out) as
  have hturns : Turns (u.proceed ⟨.client, [.readStatus], [], none⟩) (u.told .ok [s.status]) := .run hh rfl
  have htold : u.told .ok [s.status] = (s.atPos (.statusByte s.status payload after)).queued .host out (byteSum out) _ :=
    State.queued_told .ok [s.status] rfl
  have hne : u.client.pos ≠ .cycleStart := fun h : Pos.statusRead payload after = .cycleStart => by cases h
  exact ⟨_, Acts.operation (s := u) ⟨hh, rfl⟩ hne rfl hturns, _, htold⟩

/-- Rules R161, R244: the bytes behind the status part's beginning, up to the end of the packet. -/
theorem emit (hh : s.halt = false) (hok : s.ChannelOk .htx) (bs : List Byte) : ∀ {u : State} {out : List Byte},
    Responding s out (emitThenClose bs after) u → s.Room .htx (out.length + bs.length) →
    ∃ v, Acts (3 * bs.length) u v ∧ Responding s (out ++ bs) (.statusEnd after) v := by
  induction bs with
  | nil => exact fun {u out} h _ => ⟨u, Acts.refl u, by rwa [List.append_nil]⟩
  | cons b bs ih =>
    intro u out h hroom
    rw [List.length_cons] at hroom
    obtain ⟨v, hacts, hv⟩ := h.put (q := emitThenClose bs after) b hh hok
      (by simp only [State.Room] at hroom ⊢; omega) (by simp [emitThenClose]) rfl (by cases bs <;> rfl)
    obtain ⟨w, hrest, hw⟩ := ih hv (by
      rw [List.length_append, List.length_singleton]
      simp only [State.Room] at hroom ⊢
      omega)
    exact ⟨w, (hacts.trans hrest).mono (by rw [List.length_cons]; omega), by simpa using hw⟩

/-- Rule R162: the end of the packet. -/
theorem close (h : Responding s out (.statusEnd after) u) (hh : s.halt = false) (hok : s.ChannelOk .htx)
    (hroom : s.Room .htx (out.length + 1)) :
    ∃ as, Acts 3 u ((s.atPos after.pos).queued .host (out ++ [checksumOf out]) (byteSum out) as) := by
  obtain ⟨as, rfl⟩ := h
  exact ⟨_, Acts.queue (s := s.atPos (.statusEnd after)) hh (fun h : Pos.statusEnd after = .cycleStart => by cases h)
    rfl rfl (Turns.putChecksum (l := .host) hh hok hroom)⟩

end Responding

/-- Rules R97, R244: the whole status response is queued with its checksum. -/
theorem Acts.respond {s : State} {instr : Byte} {payload : List Byte} {after : After} (hr : s.Ready)
    (hpos : s.client.pos = .statusStart instr payload after) (hok : s.ChannelOk .htx)
    (hroom : s.Room .htx (payload.length + 7)) :
    let body := responseBody s.client instr s.status payload
    ∃ as, Acts (3 * payload.length + 24) s ((s.atPos after.pos).queued .host (body ++ [checksumOf body]) (byteSum body) as) := by
  have hh := hr.1
  have hfits : ∀ {n}, n ≤ payload.length + 7 → s.Room .htx n := fun hn => by
    simp only [State.Room] at hroom ⊢
    omega
  obtain ⟨v₁, hstart, h₁⟩ := Responding.start hr hpos hok (hfits (by omega))
  obtain ⟨v₂, hread, h₂⟩ := h₁.readStatus hh
  obtain ⟨v₃, hstatus, h₃⟩ := h₂.put (q := .statusRetry payload after) s.status hh hok (hfits (by simp)) (by simp) rfl rfl
  obtain ⟨v₄, hretry, h₄⟩ := h₃.put (q := emitThenClose ([s.client.supply, s.client.secondary, s.client.thermal] ++ payload)
    after) (u8 s.client.retry) hh hok (hfits (by simp)) (by simp) rfl rfl
  obtain ⟨v₅, hemit, h₅⟩ := Responding.emit hh hok _ h₄ (hfits (by simp; omega))
  obtain ⟨as, hclose⟩ := h₅.close hh hok (hfits (by simp))
  exact ⟨as, (hstart.trans (hread.trans (hstatus.trans (hretry.trans (hemit.trans hclose))))).mono (by simp; omega)⟩

/-! ### Argument bytes and the checksum of a host command -/

/-- A host command taken up in `s`, before anything but HRX, the countdown and its sum is touched: the retry counter is 0, and
the client stands at `p`. -/
def State.hearing (s : State) (hrx : Channel) (tmo status sum : Byte) (as : List Answer) (p : Pos) : State :=
  { s with
    hrx := hrx
    tmo := tmo
    status := status
    hcRxSum := sum
    op := none
    cmdOut := as
    client := { s.client with retry := 0, pos := p } }

section HearingState

variable {s : State} {hrx : Channel} {tmo status sum b : Byte} {as : List Answer} {p q : Pos} {left : List Byte}

theorem State.hearing_told {code : Code} {r : List Byte}
    (hk : Client.react s.cfg { s.client with retry := 0, pos := p } { code := code, results := r } =
      { s.client with retry := 0, pos := q }) :
    (s.hearing hrx tmo status sum as p).told code r =
      s.hearing hrx tmo status sum (as ++ [{ code := code, results := r }]) q :=
  State.told_eq (s := s.hearing hrx tmo status sum as p) hk

theorem State.hearing_raise (m : Byte) : (s.hearing hrx tmo status sum as p).raise m =
    s.hearing hrx tmo (status ||| m) sum as p := rfl

/-- Rules R132, R167: a byte that is there is taken, whatever the bound. -/
theorem Turns.hear (hh : s.halt = false) (hc : (s.hearing hrx tmo status sum as p).contents .hrx = b :: left) (use : GetUse) :
    let w := s.hearing { hrx with get := hrx.get + 1 } s.cfg.tHostRx status sum as p
    w.contents .hrx = left ∧
      Turns ((s.hearing hrx tmo status sum as p).proceed ⟨.client, [.arm s.cfg.tHostRx, .get .host use], [], none⟩)
        (w.useByte .host ⟨.client, [], [], none⟩ b use) := by
  let v := (s.hearing hrx tmo status sum as p).armTimer s.cfg.tHostRx
  obtain ⟨hne, hold, hleft⟩ := v.contents_cons (c := .hrx) hc
  have hget : Turns (v.proceed ⟨.client, [.get .host use], [], none⟩)
      ((v.dropOldest .hrx).useByte .host ⟨.client, [], [], none⟩ (v.oldest .hrx) use) :=
    .run hh (Micro.run_get (l := .host) hne)
  rw [hold] at hget
  exact ⟨hleft, (Turns.arm (s := s.hearing hrx tmo status sum as p) hh).trans hget⟩

end HearingState

/-- The command has got to `u`: it has read and summed `heard`, and `left` is still in HRX. -/
def Hearing (s : State) (heard left : List Byte) (status : Byte) (p : Pos) (u : State) : Prop :=
  ∃ hrx tmo as, u = s.hearing hrx tmo status (byteSum heard) as p ∧ u.contents .hrx = left

namespace Hearing

variable {s u : State} {heard left : List Byte} {b status : Byte} {p q : Pos}

/-- Rule R242: the cycle's opening has read the instruction byte. -/
theorem dispatched (b : Byte) {start : Client → Client} (ho : s.op = none)
    (hp : start { s.client with retry := 0, pos := .idle } = { s.client with retry := 0, pos := p }) :
    Hearing s [b] (s.contents .hrx) 0x00 p (s.dispatched b start) := by
  refine ⟨s.hrx, s.tmo, (s.dispatched b start).cmdOut, ?_, s.dispatched_contents b start .hrx⟩
  rw [byteSum_singleton, State.dispatched, hp, State.hearing, ← ho]

/-- Rule R164: an argument byte is read and summed. -/
theorem read (h : Hearing s heard (b :: left) status p u) (hh : s.halt = false) (hp : p ≠ .cycleStart)
    (hprog : clientProgram s.cfg { s.client with retry := 0, pos := p } = hcRxByteProgram s.cfg true)
    (hk : Client.react s.cfg { s.client with retry := 0, pos := p } { code := .ok, results := [b] } =
      { s.client with retry := 0, pos := q }) :
    ∃ v, Acts 5 u v ∧ Hearing s (heard ++ [b]) left status q v := by
  obtain ⟨hrx, tmo, as, rfl, hc⟩ := h
  obtain ⟨hleft, hturns⟩ := Turns.hear hh hc (.byte true)
  let w := s.hearing { hrx with get := hrx.get + 1 } s.cfg.tHostRx status (byteSum heard + b) as p
  have huse : (s.hearing { hrx with get := hrx.get + 1 } s.cfg.tHostRx status (byteSum heard) as p).useByte .host
      ⟨.client, [], [], none⟩ b (.byte true) = w.told .ok [b] := rfl
  have hsum : byteSum heard + b = byteSum (heard ++ [b]) := by rw [byteSum_append, byteSum_singleton]
  rw [huse, State.hearing_told hk, hsum] at hturns
  exact ⟨_, Acts.operation (s := s.hearing hrx tmo status (byteSum heard) as p) ⟨hh, rfl⟩ hp hprog hturns, _, _, _, rfl,
    hleft⟩

/-- Rule R165: the checksum byte is read; a wrong one sets `HostChecksumError`, and the command goes on. -/
theorem check {cks : Byte} (h : Hearing s heard (cks :: left) 0x00 p u) (hh : s.halt = false) (hp : p ≠ .cycleStart)
    (hprog : clientProgram s.cfg { s.client with retry := 0, pos := p } = hcRxEndProgram s.cfg)
    (hk : ∀ code, code ≠ .timeout → Client.react s.cfg { s.client with retry := 0, pos := p } { code := code, results := [] } =
      { s.client with retry := 0, pos := q }) :
    ∃ v, Acts 5 u v ∧ Hearing s heard left (checkedStatus heard cks) q v := by
  obtain ⟨hrx, tmo, as, rfl, hc⟩ := h
  obtain ⟨hleft, hturns⟩ := Turns.hear hh hc .check
  have hacts : ∀ {v}, Turns _ v → Acts 5 _ v := fun h =>
    Acts.operation (s := s.hearing hrx tmo 0x00 (byteSum heard) as p) ⟨hh, rfl⟩ hp hprog h
  let w := s.hearing { hrx with get := hrx.get + 1 } s.cfg.tHostRx 0x00 (byteSum heard) as p
  by_cases hm : cks = checksumOf heard
  · have huse : w.useByte .host ⟨.client, [], [], none⟩ cks .check = w.told .ok [] := if_pos hm
    rw [huse, State.hearing_told (hk .ok (by simp))] at hturns
    rw [checkedStatus, if_pos hm]
    exact ⟨_, hacts hturns, _, _, _, rfl, hleft⟩
  · have huse : w.useByte .host ⟨.client, [], [], none⟩ cks .check =
        w.proceed ⟨.client, [.fail hostChecksumErrorMask .checksum], [], none⟩ := if_neg hm
    have hfail : Turns (w.proceed ⟨.client, [.fail hostChecksumErrorMask .checksum], [], none⟩)
        ((w.raise hostChecksumErrorMask).told .checksum []) := .run hh rfl
    have hflag : (0x00 ||| hostChecksumErrorMask : Byte) = 0x40 := by decide
    rw [huse] at hturns
    rw [State.hearing_raise, State.hearing_told (hk .checksum (by simp)), hflag] at hfail
    rw [checkedStatus, if_neg hm]
    exact ⟨_, hacts (hturns.trans hfail), _, _, _, rfl, hleft⟩

/-- Rule R252: the Invalid path sets its flag before it answers. -/
theorem mark {instr : Byte} (h : Hearing s heard left status (.invalidSet instr) u) (hh : s.halt = false) :
    ∃ v, Acts 3 u v ∧ Hearing s heard left (status ||| 0x04) (.statusStart instr [] .cooldown) v := by
  obtain ⟨hrx, tmo, as, rfl, hc⟩ := h
  let w := s.hearing hrx tmo status (byteSum heard) as (.invalidSet instr)
  have hturns : Turns (w.proceed ⟨.client, [.setStatus invalidHostCommandMask], [], none⟩)
    ((w.raise invalidHostCommandMask).told .ok []) := .run hh rfl
  exact ⟨_, Acts.operation (s := w) ⟨hh, rfl⟩ (fun h : Pos.invalidSet instr = .cycleStart => by cases h) rfl hturns,
    hrx, tmo, _, rfl, hc⟩

/-- Rule R244: a plain status response follows what has been heard. -/
theorem respond {instr : Byte} {after : After} (h : Hearing s heard left status (.statusStart instr [] after) u)
    (hh : s.halt = false) (hok : s.ChannelOk .htx) (hroom : s.Room .htx 7) :
    ∃ hrx tmo as sum as', Acts 24 u ((s.hearing hrx tmo status (byteSum heard) as after.pos).queued .host
        (statusResponse s.client instr status 0x00) sum as') ∧
      (s.hearing hrx tmo status (byteSum heard) as after.pos).contents .hrx = left := by
  obtain ⟨hrx, tmo, as, rfl, hc⟩ := h
  obtain ⟨as', hacts⟩ := Acts.respond (s := s.hearing hrx tmo status (byteSum heard) as (.statusStart instr [] after))
    ⟨hh, rfl⟩ rfl hok hroom
  exact ⟨hrx, tmo, as, _, as', hacts, hc⟩

end Hearing

/-! ### The cooldown of the Invalid path -/

/-- The client has armed the cooldown and waits it out (rule R252). -/
def State.cooling (s : State) : State :=
  { s with
    tmo := s.cfg.tCooldown
    op := some ⟨.client, [.awaitExpiry], [], none⟩
    cmdOut := s.cmdOut ++ [.plain]
    client := { s.client with pos := .coolWait } }

/-- The Invalid path behind its response: the client waits, or with `T_COOLDOWN = 0` it has waited and flushed. -/
def State.cooled (s : State) : State := if s.cfg.tCooldown = 0 then s.cooling.recovered else s.cooling

section Cooldown

variable {s : State}

theorem Acts.coolArm (hr : s.Ready) (hpos : s.client.pos = .coolArm) : Acts 4 s s.cooling := by
  have hk : Client.react s.cfg s.client { code := .ok, results := [] } = { s.client with pos := .coolWait } := by
    simp only [Client.react, hpos]
  let u := (s.armTimer s.cfg.tCooldown).told .ok []
  have hu : u = { s.armTimer s.cfg.tCooldown with
      op := none
      cmdOut := s.cmdOut ++ [.plain]
      client := { s.client with pos := .coolWait } } := State.told_eq (s := s.armTimer s.cfg.tCooldown) hk
  have harm : Acts 3 s u :=
    Acts.operation (m := .arm s.cfg.tCooldown) (ms := []) (p := none) hr (by rw [hpos]; simp)
      (by rw [clientProgram, hpos]; rfl) (.run hr.1 rfl)
  rw [hu] at harm
  exact harm.trans (Acts.issue ⟨hr.1, rfl⟩ (fun h : Pos.coolWait = .cycleStart => by cases h) rfl)

/-- One flush of the client, rules R139, R140. -/
theorem Acts.flush {l : Link} {q : Pos} (hr : s.Ready) (hpos : s.client.pos ≠ .cycleStart)
    (hprog : clientProgram s.cfg s.client = { todo := [.flush l] })
    (hk : s.client.react s.cfg .plain = { s.client with pos := q }) :
    Acts 3 s { s.flushChan (rxChan l) with cmdOut := s.cmdOut ++ [.plain], client := { s.client with pos := q } } := by
  have hturns : Turns (s.proceed ⟨.client, [.flush l], [], none⟩) ((s.flushChan (rxChan l)).told .ok []) := .run hr.1 rfl
  have htold : (s.flushChan (rxChan l)).told .ok [] = _ :=
    State.told_eq (q := q) (by rw [State.flushChan_cfg, State.flushChan_client]; exact hk)
  rw [htold, State.flushChan_cmdOut, State.flushChan_client, ← hr.2, ← State.flushChan_op s (rxChan l)] at hturns
  exact Acts.operation hr hpos hprog hturns

/-- Rule R252: once the countdown is 0 both RX channels are flushed, and the client is at the start of a cycle. -/
theorem Acts.recover (hh : s.halt = false) (hpos : s.client.pos = .coolWait)
    (ho : s.op = some ⟨.client, [.awaitExpiry], [], none⟩) (ht : s.tmo = 0) : Acts 8 s s.recovered := by
  have hk : Client.react s.cfg s.client { code := .ok, results := [] } = { s.client with pos := .coolFlushHost } := by
    simp only [Client.react, hpos]
  have hwait : Acts 2 s (s.told .ok []) := by
    have hbound : s.turnsLeft = 2 := by simp [State.turnsLeft, ho, Micro.turns]
    exact hbound ▸ Acts.of_turns (.step ((State.microStep_cons hh ho).trans (if_pos ht)))
  rw [State.told_eq hk] at hwait
  let u : State := { s with op := none, cmdOut := s.cmdOut ++ [.plain], client := { s.client with pos := .coolFlushHost } }
  have hhost : Acts 3 u { u.flushChan .hrx with
      cmdOut := u.cmdOut ++ [.plain], client := { s.client with pos := .coolFlushBus } } :=
    Acts.flush (l := .host) ⟨hh, rfl⟩ (fun h : Pos.coolFlushHost = .cycleStart => by cases h) rfl rfl
  let v : State := { u.flushChan .hrx with cmdOut := u.cmdOut ++ [.plain], client := { s.client with pos := .coolFlushBus } }
  have hbus : Acts 3 v { v.flushChan .brx with
      cmdOut := v.cmdOut ++ [.plain], client := { s.client with pos := .cycleStart } } :=
    Acts.flush (l := .bus) ⟨hh, rfl⟩ (fun h : Pos.coolFlushBus = .cycleStart => by cases h) rfl rfl
  have hend : { v.flushChan .brx with cmdOut := v.cmdOut ++ [.plain], client := { s.client with pos := .cycleStart } } =
      s.recovered := by
    have hout : v.cmdOut ++ [.plain] = s.cmdOut ++ [.plain, .plain, .plain] := by simp [v, u]
    rw [hout, State.recovered, ← ht]
    rfl
  exact hwait.trans (hhost.trans (hend ▸ hbus))

/-- Rule R252: from the arming to the hold, or to the start of a cycle. -/
theorem Acts.coolDown (hr : s.Ready) (hpos : s.client.pos = .coolArm) : Acts 12 s s.cooled := by
  unfold State.cooled
  split
  · rename_i ht
    exact (Acts.coolArm hr hpos).trans (Acts.recover (s := s.cooling) hr.1 rfl rfl ht)
  · exact (Acts.coolArm hr hpos).mono (by omega)

theorem State.cooled_holds (hh : s.halt = false) : s.cooled.foregroundStep = none := by
  unfold State.cooled
  split
  · exact State.foregroundStep_free ⟨rfl, rfl⟩
  · rename_i ht
    exact State.foregroundStep_held (s := s.cooling) (m := .awaitExpiry) hh rfl ht

theorem State.cooled_coolsDown : s.cooled.CoolsDown s.client (s.contents .hrx) s.brx := by
  unfold State.cooled
  by_cases ht : s.cfg.tCooldown = 0
  · rw [if_pos ht]
    have hempty : s.cooling.recovered.contents .hrx = [] :=
      ((s.cooling.flushChan .hrx).contents_flushChan_other (c := .brx) (by simp)).trans (s.cooling.contents_flushChan .hrx)
    exact ⟨fun h => absurd ht h, fun _ => ⟨rfl, rfl, rfl, hempty, rfl⟩⟩
  · rw [if_neg ht]
    exact ⟨fun _ => ⟨⟨rfl, rfl, rfl⟩, rfl, rfl, rfl⟩, fun h => absurd h ht⟩

/-- What the cooldown and the flushes leave. -/
theorem State.cooled_frame : s.cooled = { s with
    hrx := s.cooled.hrx
    brx := s.cooled.brx
    tmo := s.cooled.tmo
    op := s.cooled.op
    cmdOut := s.cooled.cmdOut
    client := s.cooled.client } := by
  unfold State.cooled
  split <;> rfl

theorem State.cooled_htx : s.cooled.status = s.status ∧ s.cooled.contents .htx = s.contents .htx := by
  rw [s.cooled_frame]
  exact ⟨rfl, rfl⟩

end Cooldown

/-- The place of the client is no part of what the Invalid path ends in. -/
theorem State.CoolsDown.of_pos {s : State} {k : Client} {p : Pos} {more : List Byte} {brx : Channel}
    (h : s.CoolsDown { k with pos := p } more brx) : s.CoolsDown k more brx := h

/-! ### `PING` -/

section Ping

variable {s : State} {addr cks : Byte} {more : List Byte}

/-- Rule R247: the address and the checksum are read, and the client takes up what the address asks for. -/
theorem Hearing.ping {q : Pos} (hr : s.ClientReady) (hc : s.contents .hrx = addr :: cks :: more)
    (hk : ∀ code, code ≠ .timeout → Client.react s.cfg { s.client with retry := 0, pos := .pingEnd addr }
      { code := code, results := [] } = { s.client with retry := 0, pos := q }) :
    ∃ u, Acts 10 (s.dispatched 0xF0 Client.startPing) u ∧
      Hearing s [0xF0, addr] more (checkedStatus [0xF0, addr] cks) q u := by
  have hopen : Hearing s [0xF0] (addr :: cks :: more) 0x00 .pingAddr (s.dispatched 0xF0 Client.startPing) :=
    hc ▸ Hearing.dispatched 0xF0 hr.2.1 rfl
  obtain ⟨u, hread, hu⟩ := hopen.read (q := .pingEnd addr) hr.1 (by simp) rfl rfl
  obtain ⟨v, hcheck, hv⟩ := hu.check hr.1 (by simp) rfl hk
  exact ⟨v, hread.trans hcheck, hv⟩

/-- `PING` by a free client is the run of its procedure. -/
theorem exec_ping {t : State} {n : Nat} (hr : s.ClientReady) (h : Acts n (s.dispatched 0xF0 Client.startPing) t)
    (ht : t.foregroundStep = none) (hn : n ≤ foregroundFuel) : exec .ping s = .next t :=
  (State.takeCommand_ready 0xF0 Client.startPing hr).trans (congrArg _ (h.run ht hn))

/-- Settles O54: 0xFF goes from the checksum to the response; 0xFE takes the Invalid path, with the flag before the response
and the cooldown behind it. -/
theorem pingWithoutBusTraffic : Obligations.PingWithoutBusTraffic := by
  intro s addr cks more haddr hr hc hok hroom st
  have hh := hr.1
  rcases haddr with rfl | rfl
  · have hst : st = checkedStatus [0xF0, 0xFF] cks := by simp [st]
    rw [hst]
    obtain ⟨u, hping, hu⟩ := Hearing.ping (q := plainStatus 0xF0) hr hc
      (fun code hcode => by simp [Client.react, hcode])
    obtain ⟨hrx, tmo, as, sum, as', hrespond, hleft⟩ := hu.respond hh hok hroom
    let w := s.hearing hrx tmo (checkedStatus [0xF0, 0xFF] cks) (byteSum [0xF0, 0xFF]) as .cycleStart
    have hclient : ({ s.client with retry := 0, pos := .cycleStart } : Client) = { s.client with retry := 0 } := by
      rw [← hr.2.2]
    refine ⟨_, exec_ping hr (hping.trans hrespond) (State.foregroundStep_free ⟨rfl, rfl⟩) (by simp [foregroundFuel]),
      State.queued_contents (s := w) (l := .host) hok hroom, rfl, fun _ => ⟨rfl, hclient, hleft, rfl⟩,
      fun h => absurd h (by decide), ?_⟩
    rw [State.queued_host]
    rfl
  · have hst : st = checkedStatus [0xF0, 0xFE] cks ||| 0x04 := by simp [st]
    rw [hst]
    obtain ⟨u, hping, hu⟩ := Hearing.ping (q := invalidPath 0xF0) hr hc
      (fun code hcode => by simp [Client.react, hcode, busBroadcastId])
    obtain ⟨v, hmark, hv⟩ := hu.mark hh
    obtain ⟨hrx, tmo, as, sum, as', hrespond, hleft⟩ := hv.respond hh hok hroom
    let w := s.hearing hrx tmo (checkedStatus [0xF0, 0xFE] cks ||| 0x04) (byteSum [0xF0, 0xFE]) as .coolArm
    let r := w.queued .host (statusResponse s.client 0xF0 (checkedStatus [0xF0, 0xFE] cks ||| 0x04) 0x00) sum as'
    have hcool : Acts 12 r r.cooled := Acts.coolDown ⟨hh, rfl⟩ rfl
    have hcooled : r.cooled.CoolsDown { s.client with retry := 0 } more s.brx :=
      State.CoolsDown.of_pos (p := .coolArm) (hleft ▸ r.cooled_coolsDown)
    refine ⟨r.cooled, exec_ping hr (hping.trans (hmark.trans (hrespond.trans hcool))) (State.cooled_holds hh)
      (by simp [foregroundFuel]), r.cooled_htx.2.trans (State.queued_contents (s := w) (l := .host) hok hroom),
      r.cooled_htx.1, fun h => absurd h (by decide), fun _ => hcooled, ?_⟩
    rw [r.cooled_frame]
    rfl

end Ping

end Sys2Proof.Machine
end

section
/-!
PROOFS of the FIFO statements (40_fifo_ops.md): what each channel operation answers, holds at or times out with (O9, O10,
O12 to O14), the events of the two links (O17, O18), and the one slot a storing operation writes (O42).

Each operation has one rule over the link it works on; a statement about both links is two uses of it.
-/

namespace Sys2Proof.Machine

/-! ### A timed get that times out -/

/-- A countdown from `v` is out after `v` ticks and not before. -/
theorem sub_u8_eq_zero_iff {v : Byte} {k : Nat} (hk : k ≤ v.toNat) : v - u8 k = 0 ↔ k = v.toNat := by
  constructor
  · intro h; bv_omega
  · intro h; bv_omega

section TimedGet

variable {s : State} {l : Link} {i : Instr} {t : Byte}

/-- Rules R132, R136, R137: a raw get that finds nothing when the countdown is out answers `Timeout` and sets no flag. -/
theorem Micro.run_rawGet_timeout (he : s.Empty (rxChan l)) (ht : s.tmo = 0) :
    (Micro.get l .raw).run ⟨.script, [], [], none⟩ s = some (s.reply .timeout []) :=
  (if_neg (not_not.2 he)).trans (if_pos ht)

/-- Rules R132, R136, R137: with nothing there and a bound of 0 a raw get is a poll. -/
theorem exec_get_polls (hr : s.Ready) (hp : programOf s.cfg i = some { todo := [.arm 0, .get l .raw] })
    (he : s.Empty (rxChan l)) : exec i s = .next ((s.armTimer 0).reply .timeout []) := by
  obtain ⟨hh, ho⟩ := hr
  have hget : (s.armTimer 0).Empty (rxChan l) := by simpa [State.Empty] using he
  exact exec_eq_of_turns ho hp rfl ((Turns.arm hh).trans (.run hh (Micro.run_rawGet_timeout hget rfl)))
    (State.reply_microStep _ _ _)

/-- Rules R132, R215: on an empty channel a raw get holds while the countdown runs, and the tick that runs it out leaves
`Timeout` as its next micro-step. -/
theorem microStep_get_of_ticks (hh : s.halt = false) (he : s.Empty (rxChan l)) {k : Nat} (hk : k ≤ s.tmo.toNat) :
    ((s.holding [.get l .raw] [] none).afterTicks k).microStep =
      if k < s.tmo.toNat then none else some ((s.armTimer 0).reply .timeout []) := by
  have hw : (s.holding [.get l .raw] [] none).afterTicks k =
      (s.armTimer (s.tmo - u8 k)).proceed ⟨.script, [.get l .raw], [], none⟩ := State.afterTicks_eq k _ hh hk
  have hget : ∀ v, (s.armTimer v).Empty (rxChan l) := fun v => by simpa [State.Empty] using he
  have hout := sub_u8_eq_zero_iff hk
  rw [hw]
  split
  · next hlt => exact State.microStep_proceed_holds hh ⟨hget _, fun h0 => hlt.ne (hout.1 h0)⟩
  · next hge =>
    rw [hout.2 (hk.antisymm (not_lt.1 hge)), State.microStep_proceed (s := s.armTimer 0) hh,
      Micro.run_rawGet_timeout (hget 0) rfl]

/-- Rule R341: a raw get on an empty channel holds for exactly `t` ticks, and then answers `Timeout`. -/
theorem get_times_out_after_ticks (hr : s.Ready) (hp : programOf s.cfg i = some { todo := [.arm t, .get l .raw] })
    (ht : t ≠ 0) (he : s.Empty (rxChan l)) :
    ∃ w, exec i s = .next w ∧ w = (s.armTimer t).holding [.get l .raw] [] none ∧
      (∀ k, k < t.toNat → (w.afterTicks k).microStep = none) ∧
      (w.afterTicks t.toNat).microStep = some ((s.armTimer 0).reply .timeout []) := by
  have hticks := fun k => microStep_get_of_ticks (s := s.armTimer t) (k := k) hr.1 (by simpa [State.Empty] using he)
  exact ⟨_, exec_get_holds hr hp he ht, rfl, fun k hk => (hticks k hk.le).trans (if_pos hk),
    (hticks t.toNat le_rfl).trans (if_neg (lt_irrefl _))⟩

end TimedGet

/-- Settles O10: the rule of the timed get on each link. -/
theorem rawGetTimesOutAfterExactlyTTicks : Obligations.RawGetTimesOutAfterExactlyTTicks := fun _ _ hr ht =>
  ⟨get_times_out_after_ticks (l := .host) hr rfl ht, get_times_out_after_ticks (l := .bus) hr rfl ht⟩

/-- Settles O9: a raw get takes the byte that is there, or polls. -/
theorem rawGetTakesOldestByteOrPolls : Obligations.RawGetTakesOldestByteOrPolls := fun _ _ hr =>
  ⟨exec_get_takes (l := .host) hr rfl, exec_get_takes (l := .bus) hr rfl,
    exec_get_polls (l := .host) hr rfl, exec_get_polls (l := .bus) hr rfl⟩

/-! ### The untimed get and the flushes -/

/-- Settles O12: the one micro-step of `HRX_WAIT` takes a byte that is there and holds on an empty channel. -/
theorem untimedWaitTakesByteOrHolds : Obligations.UntimedWaitTakesByteOrHolds := by
  intro s ⟨hh, ho⟩
  refine ⟨fun hne => ?_, fun he => ?_⟩
  · exact exec_eq_of_turns ho (p := hrxWaitProgram) rfl rfl (.run hh (if_neg hne)) (State.reply_microStep _ _ _)
  · exact exec_eq_of_turns ho (p := hrxWaitProgram) rfl rfl (.refl _) (State.microStep_proceed_holds hh he)

/-- Rules R139, R140: a flush is never held up. -/
theorem exec_flush {s : State} {l : Link} {i : Instr} (hr : s.Ready)
    (hp : programOf s.cfg i = some { todo := [.flush l] }) :
    exec i s = .next ((s.flushChan (rxChan l)).reply .ok []) :=
  exec_eq_of_turns hr.2 hp rfl (.run hr.1 rfl) (State.reply_microStep _ _ _)

/-- Settles O13: `exec_flush` on each link, and a flushed channel holds nothing. -/
theorem flushEmptiesTheChannel : Obligations.FlushEmptiesTheChannel := fun s hr =>
  ⟨exec_flush (l := .host) hr rfl, exec_flush (l := .bus) hr rfl, s.contents_flushChan .hrx, s.contents_flushChan .brx⟩

/-! ### The puts -/

section Puts

variable {s : State} {l : Link} {i : Instr} {b : Byte}

/-- Rules R131, R134, R135, R160, R161, R181: an operation that is one put pushes where there is room, and moves its
codec's sum. -/
theorem exec_put_pushes {u : SumUse} (hr : s.Ready) (hp : programOf s.cfg i = some { todo := [.put l b u] })
    (hroom : ¬ s.Full (txChan l)) :
    exec i s = .next (((s.push (txChan l) b).setTxSum l (u.apply (s.txSum l) b)).reply .ok []) :=
  exec_eq_of_turns hr.2 hp rfl (.run hr.1 (Micro.run_put hroom)) (State.reply_microStep _ _ _)

/-- Rules R134, R135: a raw put leaves the sum. -/
theorem exec_rawPut_pushes (hr : s.Ready) (hp : programOf s.cfg i = some { todo := [.put l b .keep] })
    (hroom : ¬ s.Full (txChan l)) : exec i s = .next ((s.push (txChan l) b).reply .ok []) := by
  have hsum : (s.push (txChan l) b).setTxSum l (s.txSum l) = s.push (txChan l) b :=
    State.push_txSum s (txChan l) b l ▸ State.setTxSum_self _ l
  rw [exec_put_pushes hr hp hroom, SumUse.apply, hsum]

end Puts

/-- Settles O14: a raw put pushes, or holds (`exec_put_holds`). -/
theorem putPushesOrHolds : Obligations.PutPushesOrHolds := fun _ _ hr =>
  ⟨exec_rawPut_pushes (l := .host) hr rfl, exec_put_holds (l := .host) hr rfl,
    exec_rawPut_pushes (l := .bus) hr rfl, exec_put_holds (l := .bus) hr rfl⟩

/-! ### Arrivals -/

theorem State.arrive_room {s : State} {l : Link} (b : Byte) (h : ¬ s.Full (rxChan l)) :
    s.arrive l b = s.push (rxChan l) b := if_neg h

theorem State.arrive_full {s : State} {l : Link} (b : Byte) (h : s.Full (rxChan l)) :
    s.arrive l b = s.raise (overflowMask l) := if_pos h

/-- Rule R142: what is on the bus line in `Transmit` is lost. -/
theorem exec_evBrx_transmit {s : State} (hd : s.dir = .transmit) (b : Byte) : exec (.evBrx b) s = .next s := by
  simp [exec, execEvBrx, State.busLineByte, hd]

/-- Settles O17: where an arrival is not lost it is `State.arrive`, whose two branches are pushed and dropped. -/
theorem arrivalsPushOrOverflow : Obligations.ArrivalsPushOrOverflow := by
  intro s b hh
  refine ⟨fun hroom => ?_, fun hf => ?_, fun hd => exec_evBrx_transmit hd b, fun hd hroom => ?_, fun hd hf => ?_⟩
  · rw [exec_evHrx hh, State.arrive_room b hroom]; rfl
  · rw [exec_evHrx hh, State.arrive_full b hf]; rfl
  · rw [exec_evBrx hh hd, State.arrive_room b hroom]; rfl
  · rw [exec_evBrx hh hd, State.arrive_full b hf]; rfl

/-! ### The transmitters -/

section Transmitters

variable {s : State} {l : Link}

/-- Rules R143, R145: with an empty channel or a byte in flight a transmitter may not load. -/
theorem State.not_enables_load (h : s.Empty (txChan l) ∨ s.shift l ≠ none) : ¬ s.Enables (.load l) := by
  rintro ⟨-, -, hne, hs⟩
  exact h.elim hne (· hs)

/-- Rules R144, R146: with nothing in flight nothing can complete. -/
theorem State.not_enables_done (h : s.shift l = none) : ¬ s.Enables (.done l) := fun he => he.2 h

/-- Rules R144, R146: the byte in flight is emitted, on the bus in `Transmit`. -/
theorem FairEvent.exec_done_emits {b : Byte} (hh : s.halt = false) (hs : s.shift l = some b)
    (hd : l = .bus → s.dir = .transmit) :
    exec (FairEvent.done l).instr s = .next ((s.emit l b).setShift l none) := by
  cases l with
  | host => simp only [FairEvent.instr, exec, execEvHtxDone, hh, hs, Bool.false_eq_true, if_false]
  | bus => simp only [FairEvent.instr, exec, execEvBtxDone, hh, hs, hd rfl, Bool.false_eq_true, if_false, if_true]

/-- Rule R146: in `Receive` "the driver was off" and the byte in flight is lost. -/
theorem exec_evBtxDone_receive {b : Byte} (hh : s.halt = false) (hs : s.shift .bus = some b) (hd : s.dir = .receive) :
    exec .evBtxDone s = .next (s.setShift .bus none) := by
  simp only [exec, execEvBtxDone, hh, hs, hd, Bool.false_eq_true, reduceCtorEq, if_false]

end Transmitters

/-- Settles O18: each event does what its rule says where it is enabled, and nothing where it is not. -/
theorem transmittersDrain : Obligations.TransmittersDrain := by
  intro s hh
  refine ⟨fun hne hs => ?_, fun h => ?_, fun b hs => ?_, fun hs => ?_, fun hd hne hs => ?_, fun h => ?_, fun b hs hd => ?_,
    fun b hs hd => exec_evBtxDone_receive hh hs hd, fun hs => ?_⟩
  · exact FairEvent.exec_load (l := .host) ⟨hh, nofun, hne, hs⟩
  · exact FairEvent.exec_disabled (State.not_enables_load (l := .host) h)
  · exact FairEvent.exec_done_emits (l := .host) hh hs nofun
  · exact FairEvent.exec_disabled (State.not_enables_done (l := .host) hs)
  · exact FairEvent.exec_load (l := .bus) ⟨hh, fun _ => hd, hne, hs⟩
  · refine FairEvent.exec_disabled (e := .load .bus) fun he => ?_
    rcases h with hd | h
    · exact Direction.noConfusion (hd.symm.trans (he.2.1 rfl))
    · exact State.not_enables_load (l := .bus) h he
  · exact FairEvent.exec_done_emits (l := .bus) hh hs fun _ => hd
  · exact FairEvent.exec_disabled (State.not_enables_done (l := .bus) hs)

/-! ### The one slot a storing operation writes -/

/-- `b` has been stored in channel `c` of `s`: its slot and the put index changed, no other slot and no other index. -/
def State.Stored (s t : State) (c : Chan) (b : Byte) : Prop :=
  t.slot c ((s.chan c).put % s.cap c) = b ∧
  (∀ c' j, c' ≠ c ∨ j ≠ (s.chan c).put % s.cap c → t.slot c' j = s.slot c' j) ∧
  (t.chan c).put = (s.chan c).put + 1 ∧ (t.chan c).get = (s.chan c).get ∧ ∀ c', c' ≠ c → t.chan c' = s.chan c'

section Storing

variable {s t : State} {l : Link} {i : Instr} {c : Chan} {b : Byte}

/-- A slot is read from its channel and the free values of the epoch. -/
theorem State.slot_congr {u : State} (hch : ∀ c, t.chan c = u.chan c) (he : t.epoch = u.epoch) (c : Chan) (j : Nat) :
    t.slot c j = u.slot c j := by
  rw [State.slot, State.slot, hch, he]

/-- Rule R130: a byte is stored where the channels are those a push leaves. -/
theorem State.Stored.of_push (hch : ∀ c', t.chan c' = (s.push c b).chan c') (he : t.epoch = s.epoch) :
    s.Stored t c b := by
  have hslot : ∀ c' j, t.slot c' j = (s.push c b).slot c' j :=
    State.slot_congr hch (he.trans (s.push_epoch c b).symm)
  refine ⟨(hslot _ _).trans (s.push_slot_same c b), fun c' j hne => ?_, ?_, ?_, fun c' hc => ?_⟩
  · rw [hslot, State.push_slot, if_neg (by tauto)]
  · rw [hch, State.push_chan_same]
  · rw [hch, State.push_chan_same]
  · rw [hch, State.push_chan_other s hc]

/-- Rules R134, R135, R160, R161, R181: an operation that is one put stores its byte. -/
theorem stored_of_exec_put {u : SumUse} (hr : s.Ready) (hp : programOf s.cfg i = some { todo := [.put l b u] })
    (hroom : ¬ s.Full (txChan l)) (h : exec i s = .next t) : s.Stored t (txChan l) b := by
  rw [exec_put_pushes hr hp hroom] at h
  cases h
  exact .of_push (by simp) (by simp)

/-- Rules R162, R182: with room the closing put pushes the complement of the sum. -/
theorem Micro.run_putChecksum {o : Op} (h : ¬ s.Full (txChan l)) :
    (Micro.putChecksum l).run o s = some ((s.push (txChan l) (~~~ s.txSum l)).proceed o) := if_neg h

/-- Rule R162: `HC_TX_END` with room. -/
theorem exec_hcTxEnd (hr : s.Ready) (hroom : ¬ s.Full .htx) :
    exec .hcTxEnd s = .next ((s.push .htx (~~~ s.hcTxSum)).reply .ok []) :=
  exec_eq_of_turns hr.2 (p := hcTxEndProgram) rfl rfl (.run hr.1 (Micro.run_putChecksum (l := .host) hroom))
    (State.reply_microStep _ _ _)

/-- Rule R182: `BC_TX_END` with room pushes the complement of the sum and arms the countdown; its drain wait then holds,
ends, or times out. -/
theorem exec_bcTxEnd (hr : s.Ready) (hroom : ¬ s.Full .btx) (h : exec .bcTxEnd s = .next t) :
    let u := (s.push .btx (~~~ s.bcTxSum)).armTimer s.cfg.tBusDrain
    t = u.holding [.awaitDrain] [] none ∨ t = u.reply .ok [] ∨ t = (u.raise busTimeoutMask).reply .timeout [] := by
  intro u
  obtain ⟨hh, ho⟩ := hr
  have hwait : Turns (s.proceed ⟨.script, (bcTxEndProgram s.cfg).todo, [], none⟩)
      (u.proceed ⟨.script, [.awaitDrain], [], none⟩) :=
    (Turns.run hh (Micro.run_putChecksum (l := .bus) hroom)).trans (Turns.arm hh)
  have hends : ∀ v, Turns (u.proceed ⟨.script, [.awaitDrain], [], none⟩) v → v.microStep = none → t = v := fun v hv hnone =>
    Host.Outcome.next.inj (h.symm.trans (exec_eq_of_turns ho rfl rfl (hwait.trans hv) hnone))
  by_cases hd : u.Drained .bus
  · exact .inr (.inl (hends _ (.run hh (if_pos hd)) (State.reply_microStep _ _ _)))
  · by_cases h0 : u.tmo = 0
    · exact .inr (.inr (hends _ (.run hh ((if_neg hd).trans (if_pos h0))) (State.reply_microStep _ _ _)))
    · exact .inl (hends _ (.refl _) (State.microStep_proceed_holds hh ⟨hd, h0⟩))

end Storing

/-- Settles O42: six of the operations are one put, and the drain wait of the seventh stores nothing. -/
theorem storingOperationsWriteOneSlot : Obligations.StoringOperationsWriteOneSlot := by
  intro s t i c b hr hroom hi h
  rcases hi with ⟨rfl, rfl | rfl | ⟨a, rfl⟩ | ⟨rfl, rfl⟩⟩ | ⟨rfl, rfl | rfl | ⟨rfl, rfl⟩⟩
  case inl.inl | inl.inr.inl | inl.inr.inr.inl => exact stored_of_exec_put (l := .host) hr rfl hroom h
  case inr.inl | inr.inr.inl => exact stored_of_exec_put (l := .bus) hr rfl hroom h
  case inl.inr.inr.inr =>
    rw [exec_hcTxEnd hr hroom] at h
    cases h
    exact State.Stored.of_push (by simp) (by simp)
  case inr.inr.inr =>
    rcases exec_bcTxEnd hr hroom h with rfl | rfl | rfl <;> exact State.Stored.of_push (by simp) (by simp)

end Sys2Proof.Machine
end

section
/-!
PROOFS of the host codec statements (41_host_codec.md): the framer (O23), the deframer's byte reads (O25) and its
checksum (O26), and the independence of the two sides (O27).

What an operation does that holds, reads a byte or times out is said over the link, as the two codecs do it alike (rules
R164, R165, R184, R185); the statements are its uses on the host's.
-/

namespace Sys2Proof.Machine

/-! ### An operation that holds at its first micro-step, and one that is not taken up -/

section Held

variable {s t : State} {i : Instr} {p : Program}

/-- Rule R33: an operation whose first micro-step holds is presented, and that is all. -/
theorem exec_holds {m : Micro} {ms : List Micro} (hr : s.Ready) (hp : programOf s.cfg i = some p)
    (htodo : p.todo = m :: ms) (hm : m.Holds s) : exec i s = .next (s.holding (m :: ms) [] p.packet) :=
  exec_eq_of_turns hr.2 hp htodo (.refl _) (State.microStep_proceed_holds hr.1 hm)

/-- Rules R29, R31: in the halted state or on a held interface a CMD row is at most presented. -/
theorem exec_unready (hp : programOf s.cfg i = some p) (hr : ¬ s.Ready) (h : exec i s = .next t) :
    ∃ o, t = { s with op := o } := by
  rw [exec_cmd hp] at h
  by_cases ho : s.op = none
  · have hh : s.halt = true := by simpa [ho] using hr
    rw [State.command_halted hh, State.issue_free s _ p ho] at h
    cases h
    exact ⟨_, rfl⟩
  · rw [State.command_held s p ho] at h
    cases h
    exact ⟨s.op, rfl⟩

end Held

/-! ### A codec's timed get -/

/-- A micro-step that is enabled is the next turn. -/
theorem State.afterTurns_succ {s t : State} (h : s.microStep = some t) (n : Nat) :
    s.afterTurns (n + 1) = t.afterTurns n := by
  rw [State.afterTurns, State.opTurn, h, Option.getD_some]

section CodecGet

variable {s : State} {l : Link} {u : GetUse} {w : Owner} {ms : List Micro} {r : List Byte} {p : Option PacketLocals}

/-- Rules R164, R165, R184, R291: the failure path sets its flag and answers, in one micro-step. -/
theorem State.microStep_fail {m : Byte} {code : Code} (hh : s.halt = false) :
    (s.proceed ⟨w, .fail m code :: ms, r, p⟩).microStep = some ((s.raise m).answer ⟨w, ms, r, p⟩ code) :=
  State.microStep_proceed hh

/-- Rules R164, R165, R185: a codec's get that finds nothing when the countdown is out goes on to the failure path. -/
theorem Micro.run_codecGet_timeout (hu : u ≠ .raw) (he : s.Empty (rxChan l)) (ht : s.tmo = 0) :
    (Micro.get l u).run ⟨w, ms, r, p⟩ s = some (s.proceed ⟨w, [.fail (timeoutMask l) .timeout], r, p⟩) := by
  have htimeout : s.getTimedOut l ⟨w, ms, r, p⟩ u = s.proceed ⟨w, [.fail (timeoutMask l) .timeout], r, p⟩ := by
    cases u with
    | raw => exact absurd rfl hu
    | _ => rfl
  rw [← htimeout]
  exact (if_neg (not_not.2 he)).trans (if_pos ht)

/-- Rules R164, R165, R185: the two micro-steps in which a codec's get times out. -/
theorem State.afterTurns_codecGet_timeout (hu : u ≠ .raw) (hh : s.halt = false) (he : s.Empty (rxChan l))
    (ht : s.tmo = 0) : (s.proceed ⟨w, .get l u :: ms, r, p⟩).afterTurns 2 =
      (s.raise (timeoutMask l)).answer ⟨w, [], r, p⟩ .timeout := by
  have hget := (State.microStep_proceed hh).trans
    (Micro.run_codecGet_timeout (w := w) (ms := ms) (r := r) (p := p) hu he ht)
  rw [State.afterTurns_succ hget, State.afterTurns_succ (State.microStep_fail hh), State.afterTurns]

variable {i : Instr} {t : Byte}

/-- Rules R132, R164, R165, R184: with nothing there, and a bound that is not 0, a timed get holds with the countdown
armed. -/
theorem exec_timedGet_holds (hr : s.Ready) (hp : programOf s.cfg i = some { todo := [.arm t, .get l u] })
    (he : s.Empty (rxChan l)) (ht : t ≠ 0) : exec i s = .next ((s.armTimer t).holding [.get l u] [] none) := by
  have hget : (s.armTimer t).Empty (rxChan l) := by simpa [State.Empty] using he
  exact exec_eq_of_turns hr.2 hp rfl (.arm hr.1) (State.microStep_proceed_holds hr.1 ⟨hget, ht⟩)

/-- Rules R132, R164, R165, R184: with nothing there and a bound of 0 a codec's get times out at once. -/
theorem exec_codecGet_times_out (hr : s.Ready) (hp : programOf s.cfg i = some { todo := [.arm 0, .get l u] })
    (hu : u ≠ .raw) (he : s.Empty (rxChan l)) :
    exec i s = .next (((s.armTimer 0).raise (timeoutMask l)).reply .timeout []) := by
  have hget : (s.armTimer 0).Empty (rxChan l) := by simpa [State.Empty] using he
  have htimeout := Turns.run (s := s.armTimer 0) hr.1
    (Micro.run_codecGet_timeout (w := .script) (ms := []) (r := []) (p := none) hu hget rfl)
  exact exec_eq_of_turns hr.2 hp rfl ((Turns.arm hr.1).trans (htimeout.trans (.step (State.microStep_fail hr.1))))
    (State.reply_microStep _ _ _)

/-- Rules R164, R165, R184: what a codec's timed get comes to where there is nothing. -/
theorem exec_codecGet_empty {v : State} (hr : s.Ready)
    (hp : programOf s.cfg i = some { todo := [.arm t, .get l u] }) (hu : u ≠ .raw) (he : s.Empty (rxChan l))
    (h : exec i s = .next v) :
    v = (s.armTimer t).holding [.get l u] [] none ∨
      v = ((s.armTimer t).raise (timeoutMask l)).reply .timeout [] := by
  by_cases ht : t = 0
  · subst ht
    exact .inr (Host.Outcome.next.inj (h.symm.trans (exec_codecGet_times_out hr hp hu he)))
  · exact .inl (Host.Outcome.next.inj (h.symm.trans (exec_timedGet_holds hr hp he ht)))

/-- Rules R164, R165, R184: with a byte there a timed get arms the countdown and takes it. -/
theorem Turns.timedGet (hh : s.halt = false) (hne : ¬ s.Empty (rxChan l)) :
    Turns (s.proceed ⟨w, .arm t :: .get l u :: ms, r, p⟩)
      (((s.armTimer t).dropOldest (rxChan l)).useByte l ⟨w, ms, r, p⟩ (s.oldest (rxChan l)) u) := by
  have hget : ¬ (s.armTimer t).Empty (rxChan l) := by simpa [State.Empty] using hne
  rw [← State.armTimer_oldest s t]
  exact (Turns.arm hh).trans (.run hh (Micro.run_get hget))

/-! ### The closing read of a packet -/

/-- Rules R165, R184: the checksum byte is the complement of the sum. -/
theorem exec_check_accepts (hr : s.Ready) (hp : programOf s.cfg i = some { todo := [.arm t, .get l .check] })
    (hne : ¬ s.Empty (rxChan l)) (hb : s.oldest (rxChan l) = ~~~ s.rxSum l) :
    exec i s = .next (((s.armTimer t).dropOldest (rxChan l)).reply .ok []) := by
  have huse :
      ((s.armTimer t).dropOldest (rxChan l)).useByte l ⟨.script, [], [], none⟩ (s.oldest (rxChan l)) .check =
      ((s.armTimer t).dropOldest (rxChan l)).reply .ok [] := if_pos (by simpa using hb)
  exact exec_eq_of_turns hr.2 hp rfl (huse ▸ Turns.timedGet hr.1 hne) (State.reply_microStep _ _ _)

/-- Rules R165, R184, R291: it is another byte; the flag is set and the answer is `Checksum`. -/
theorem exec_check_rejects (hr : s.Ready) (hp : programOf s.cfg i = some { todo := [.arm t, .get l .check] })
    (hne : ¬ s.Empty (rxChan l)) (hb : s.oldest (rxChan l) ≠ ~~~ s.rxSum l) :
    exec i s =
      .next ((((s.armTimer t).dropOldest (rxChan l)).raise (checksumErrorMask l)).reply .checksum []) := by
  have huse :
      ((s.armTimer t).dropOldest (rxChan l)).useByte l ⟨.script, [], [], none⟩ (s.oldest (rxChan l)) .check =
      ((s.armTimer t).dropOldest (rxChan l)).proceed ⟨.script, [.fail (checksumErrorMask l) .checksum], [], none⟩ :=
    if_neg (by simpa using hb)
  have hh : ((s.armTimer t).dropOldest (rxChan l)).halt = false := by simpa using hr.1
  exact exec_eq_of_turns hr.2 hp rfl ((huse ▸ Turns.timedGet hr.1 hne).trans (.step (State.microStep_fail hh)))
    (State.reply_microStep _ _ _)

end CodecGet

/-! ### The framer -/

/-- Rules R160 to R162: the three operations of the framer are one put each, so on a full channel they hold there. -/
theorem exec_hcTx_holds {s : State} {i : Instr} {m : Micro} (hr : s.Ready)
    (hp : programOf s.cfg i = some { todo := [m] }) (hm : m.putsTo .host = true) (hf : s.Full .htx) :
    exec i s = .next (s.holding [m] [] none) :=
  exec_holds hr hp rfl ((Micro.holds_of_putsTo hm s).2 hf)

/-- Settles O23: each operation is one put, which pushes with room and holds without. -/
theorem hostFramerQueuesAndAccumulates : Obligations.HostFramerQueuesAndAccumulates := by
  intro s b acc hr
  refine ⟨fun hroom => ⟨?_, ?_, exec_hcTxEnd hr hroom⟩, fun hf i hi => ?_⟩
  · have hsum : SumUse.restart.apply (s.txSum .host) b = b := BitVec.zero_add b
    rw [exec_put_pushes (l := .host) (b := b) hr rfl hroom, hsum]
    rfl
  · rw [exec_put_pushes (l := .host) (b := b) (u := if acc then .add else .keep) hr rfl hroom]
    cases acc <;> rfl
  · have hold : ∀ m, programOf s.cfg i = some { todo := [m] } → m.putsTo .host = true →
        ∃ w, exec i s = .next w ∧ w.op ≠ none ∧ w.microStep = none ∧ w.htx = s.htx ∧ w.status = s.status ∧
          w.tmo = s.tmo := fun m hp hm =>
      ⟨_, exec_hcTx_holds hr hp hm hf, nofun,
        State.microStep_proceed_holds hr.1 ((Micro.holds_of_putsTo hm s).2 hf), rfl, rfl, rfl⟩
    rcases hi with rfl | rfl | rfl
    · exact hold _ rfl rfl
    · exact hold _ rfl rfl
    · exact hold _ rfl rfl

/-! ### The deframer -/

/-- Rule R163: with a byte there `HC_RX_START` takes it, and it is the new sum. -/
theorem exec_hcRxStart_takes {s : State} (hr : s.Ready) (hne : ¬ s.Empty .hrx) :
    exec .hcRxStart s = .next { (s.dropOldest .hrx).reply .ok [s.oldest .hrx] with hcRxSum := s.oldest .hrx } :=
  exec_eq_of_turns hr.2 (p := hcRxStartProgram) rfl rfl (.run hr.1 (if_neg hne)) (State.microStep_idle rfl)

/-- Rule R163: with nothing there it holds. -/
theorem exec_hcRxStart_holds {s : State} (hr : s.Ready) (he : s.Empty .hrx) :
    exec .hcRxStart s = .next (s.holding [.getUntimed .start] [] none) :=
  exec_holds hr (p := hcRxStartProgram) rfl rfl he

/-- Rule R164: with a byte there `HC_RX_BYTE` takes it, and adds it to the sum where asked to. -/
theorem exec_hcRxByte_takes {s : State} (acc : Bool) (hr : s.Ready) (hne : ¬ s.Empty .hrx) :
    exec (.hcRxByte acc) s =
      .next { ((s.armTimer s.cfg.tHostRx).dropOldest .hrx).reply .ok [s.oldest .hrx] with
        hcRxSum := if acc then s.hcRxSum + s.oldest .hrx else s.hcRxSum } := by
  refine exec_eq_of_turns hr.2 (p := hcRxByteProgram s.cfg acc) rfl rfl ?_ (State.microStep_idle rfl)
  have hturns := Turns.timedGet (l := .host) (u := .byte acc) (t := s.cfg.tHostRx) (w := .script) (ms := []) (r := [])
    (p := none) hr.1 hne
  cases acc <;> exact hturns

/-- Settles O25: `HC_RX_START` is an untimed get and `HC_RX_BYTE` a codec's timed one. -/
theorem hostBytesAreReadAndAccumulated : Obligations.HostBytesAreReadAndAccumulated := by
  intro s acc hr
  refine ⟨fun hne => ⟨exec_hcRxStart_takes hr hne, exec_hcRxByte_takes acc hr hne⟩, fun he => ⟨?_, fun ht => ?_,
    fun ht => ?_, fun ht => ?_⟩⟩
  · exact ⟨_, exec_hcRxStart_holds hr he, nofun, State.microStep_proceed_holds hr.1 he, rfl, rfl⟩
  · exact exec_timedGet_holds (l := .host) hr rfl he ht
  · exact exec_codecGet_times_out (l := .host) (u := .byte acc) hr (ht ▸ rfl) nofun he
  · exact State.afterTurns_codecGet_timeout (l := .host) nofun hr.1 he ht

/-- Settles O26: the closing read of a packet on the host's link. -/
theorem hostChecksumIsValidated : Obligations.HostChecksumIsValidated := fun _ hr =>
  ⟨exec_check_accepts (l := .host) hr rfl, exec_check_rejects (l := .host) hr rfl,
    exec_timedGet_holds (l := .host) hr rfl,
    fun he ht => exec_codecGet_times_out (l := .host) (u := .check) hr (ht ▸ rfl) nofun he,
    State.afterTurns_codecGet_timeout (l := .host) nofun hr.1⟩

/-! ### The two sides -/

section Sides

variable {s t : State} {i : Instr}

/-- Rule R167, the transmit side: a row of the framer changes its channel and its sum. -/
theorem exec_hcTx_frame (hi : (∃ b, i = .hcTxStart b) ∨ (∃ b a, i = .hcTxByte b a) ∨ i = .hcTxEnd)
    (h : exec i s = .next t) :
    t = { s with htx := t.htx, hcTxSum := t.hcTxSum, op := t.op, cmdOut := t.cmdOut } := by
  obtain ⟨m, hp, hm⟩ : ∃ m, programOf s.cfg i = some { todo := [m] } ∧ m.putsTo .host = true := by
    rcases hi with ⟨b, rfl⟩ | ⟨b, a, rfl⟩ | rfl
    · exact ⟨_, rfl, rfl⟩
    · exact ⟨_, rfl, rfl⟩
    · exact ⟨_, rfl, rfl⟩
  by_cases hr : s.Ready
  · by_cases hf : s.Full .htx
    · rw [exec_hcTx_holds hr hp hm hf] at h
      cases h
      rfl
    · rcases hi with ⟨b, rfl⟩ | ⟨b, a, rfl⟩ | rfl
      · rw [exec_put_pushes (l := .host) hr rfl hf] at h
        cases h
        rfl
      · rw [exec_put_pushes (l := .host) hr rfl hf] at h
        cases h
        rfl
      · rw [exec_hcTxEnd hr hf] at h
        cases h
        rfl
  · obtain ⟨o, rfl⟩ := exec_unready hp hr h
    rfl

/-- Rule R167, the receive side: a row of the deframer changes its channel and its sum, the countdown, and STATUS. -/
theorem exec_hcRx_frame (hi : i = .hcRxStart ∨ (∃ a, i = .hcRxByte a) ∨ i = .hcRxEnd) (h : exec i s = .next t) :
    t = { s with
      hrx := t.hrx, hcRxSum := t.hcRxSum, tmo := t.tmo, status := t.status, op := t.op, cmdOut := t.cmdOut } := by
  by_cases hr : s.Ready
  · by_cases he : s.Empty .hrx
    · have hget : ∀ u, u ≠ .raw →
          programOf s.cfg i = some { todo := [.arm s.cfg.tHostRx, .get .host u] } → t = { s with
            hrx := t.hrx, hcRxSum := t.hcRxSum, tmo := t.tmo, status := t.status, op := t.op, cmdOut := t.cmdOut } :=
        fun u hu hp => by rcases exec_codecGet_empty hr hp hu he h with rfl | rfl <;> rfl
      rcases hi with rfl | ⟨a, rfl⟩ | rfl
      · rw [exec_hcRxStart_holds hr he] at h
        cases h
        rfl
      · exact hget (.byte a) nofun rfl
      · exact hget .check nofun rfl
    · rcases hi with rfl | ⟨a, rfl⟩ | rfl
      · rw [exec_hcRxStart_takes hr he] at h
        cases h
        rfl
      · rw [exec_hcRxByte_takes a hr he] at h
        cases h
        rfl
      · by_cases hb : s.oldest .hrx = ~~~ s.hcRxSum
        · rw [exec_check_accepts (l := .host) hr rfl he hb] at h
          cases h
          rfl
        · rw [exec_check_rejects (l := .host) hr rfl he hb] at h
          cases h
          rfl
  · obtain ⟨p, hp⟩ := programOf_isSome (c := s.cfg) (i := i) (by rcases hi with rfl | ⟨a, rfl⟩ | rfl <;> rfl)
    obtain ⟨o, rfl⟩ := exec_unready hp hr h
    rfl

end Sides

/-- Settles O27: what the rows of each side change, from any state. -/
theorem hostCodecFrame : Obligations.HostCodecFrame := fun _ _ =>
  ⟨fun _ => exec_hcTx_frame, fun _ => exec_hcRx_frame⟩

end Sys2Proof.Machine
end

section
/-!
PROOFS of the bus codec statements (42_bus_codec.md), first part: the drain wait (O29), the deframer's checksum (O32), the
framer (O28) and the independence of the two sides (O33).

The framer's start is a list of puts (`Turns.puts`), of which the room in BTX says how many are done. The two sides are
told apart by their micro-steps (`Micro.ofBusTx`, `Micro.ofBusRx`): what each of them may write, any chain of them may.
-/

namespace Sys2Proof.Machine

/-! ### The drain wait -/

section Drain

variable {s : State} {o : Op}

/-- Rule R182: drained, the wait ends, whatever the countdown. -/
theorem Micro.run_awaitDrain_drained (hd : s.Drained .bus) : Micro.awaitDrain.run o s = some (s.proceed o) := if_pos hd

/-- Rule R182: the countdown out and not drained, the wait fails. -/
theorem Micro.run_awaitDrain_timeout (hd : ¬ s.Drained .bus) (ht : s.tmo = 0) :
    Micro.awaitDrain.run o s = some ((s.raise busTimeoutMask).answer o .timeout) := (if_neg hd).trans (if_pos ht)

/-- Settles O29: the three branches of the drain wait. -/
theorem drainWaitPrefersDrained : Obligations.DrainWaitPrefersDrained := fun _ hh =>
  ⟨fun hd => (State.microStep_proceed hh).trans (Micro.run_awaitDrain_drained hd),
    fun hd ht => (State.microStep_proceed hh).trans (Micro.run_awaitDrain_timeout hd ht),
    fun hd ht => State.microStep_proceed_holds hh ⟨hd, ht⟩⟩

end Drain

/-- Settles O32: the closing read of a packet on the bus. -/
theorem busChecksumIsValidated : Obligations.BusChecksumIsValidated := fun _ hr =>
  ⟨exec_check_accepts (l := .bus) hr rfl, exec_check_rejects (l := .bus) hr rfl, exec_timedGet_holds (l := .bus) hr rfl,
    fun he ht => exec_codecGet_times_out (l := .bus) (u := .check) hr (ht ▸ rfl) nofun he,
    State.afterTurns_codecGet_timeout (l := .bus) nofun hr.1⟩

/-! ### The framer -/

section Framer

variable {s : State} {l : Link} {w : Owner} {ms : List Micro} {r : List Byte} {p : Option PacketLocals}

/-- Several puts to a link, each a byte and what it does to the sum. -/
def putMicros (l : Link) (xs : List (Byte × SumUse)) : List Micro := xs.map fun x => .put l x.1 x.2

/-- The sum behind several puts. -/
def sumAfterPuts (sum : Byte) (xs : List (Byte × SumUse)) : Byte := xs.foldl (fun y x => x.2.apply y x.1) sum

/-- Rule R131: puts that find room queue their bytes in order and move the sum one after the other. -/
theorem Turns.puts (hh : s.halt = false) (hok : s.ChannelOk (txChan l)) {as : List Answer}
    (xs : List (Byte × SumUse)) : ∀ {out : List Byte} {sum : Byte}, s.Room (txChan l) (out.length + xs.length) →
    Turns ((s.queued l out sum as).proceed ⟨w, putMicros l xs ++ ms, r, p⟩)
      ((s.queued l (out ++ xs.map Prod.fst) (sumAfterPuts sum xs) as).proceed ⟨w, ms, r, p⟩) := by
  induction xs with
  | nil =>
    intro out sum _
    rw [List.map_nil, List.append_nil]
    exact .refl _
  | cons x xs ih =>
    intro out sum hroom
    rw [List.length_cons] at hroom
    have hput := Turns.put (w := w) (ms := putMicros l xs ++ ms) (r := r) (p := p) (out := out) (sum := sum) (as := as)
      (b := x.1) x.2 hh hok (by simp only [State.Room] at hroom ⊢; omega)
    have hrest := ih (out := out ++ [x.1]) (sum := x.2.apply sum x.1)
      (by rw [List.length_append, List.length_singleton]; simp only [State.Room] at hroom ⊢; omega)
    rw [List.append_assoc] at hrest
    exact hput.trans hrest

/-- The five puts of rule R180: the sync bytes are not summed, the header is. -/
def headerPuts (id n instr : Byte) : List (Byte × SumUse) :=
  [(0xFF, .clear), (0xFF, .keep), (id, .add), (n + 2, .add), (instr, .add)]

theorem bcTxStartProgram_todo (id n instr : Byte) :
    (bcTxStartProgram id n instr).todo = putMicros .bus (headerPuts id n instr) := rfl

/-- Rule R180: with room for `k` bytes the first `k` puts are done. -/
theorem Turns.bcTxStart (hr : s.Ready) (hok : s.ChannelOk .btx) (id n instr : Byte) {k : Nat} (hk : k ≤ 5)
    (hroom : s.Room .btx k) :
    Turns (s.proceed ⟨.script, putMicros .bus (headerPuts id n instr), [], none⟩)
      ((s.queued .bus (((headerPuts id n instr).take k).map Prod.fst)
        (sumAfterPuts s.bcTxSum ((headerPuts id n instr).take k)) []).proceed
        ⟨.script, putMicros .bus ((headerPuts id n instr).drop k), [], none⟩) := by
  let xs := headerPuts id n instr
  have hlen : (xs.take k).length = k := List.length_take_of_le hk
  have hturns := Turns.puts (l := .bus) (as := []) (w := .script) (ms := putMicros .bus (xs.drop k)) (r := []) (p := none)
    hr.1 hok (xs.take k) (out := []) (sum := s.bcTxSum) (by rw [hlen, List.length_nil, Nat.zero_add]; exact hroom)
  have hnil : s.queued .bus [] s.bcTxSum [] = s := State.queued_nil (l := .bus) hr.2
  have hsplit : putMicros .bus (xs.take k) ++ putMicros .bus (xs.drop k) = putMicros .bus xs := by
    rw [putMicros, putMicros, ← List.map_append, List.take_append_drop, putMicros]
  rwa [hnil, hsplit] at hturns

/-- Rule R180 with room for all five bytes. -/
theorem exec_bcTxStart_queues (hr : s.Ready) (hok : s.ChannelOk .btx) (id n instr : Byte) (hroom : s.Room .btx 5) :
    exec (.bcTxStart id n instr) s =
      .next { (((((s.push .btx 0xFF).push .btx 0xFF).push .btx id).push .btx (n + 2)).push .btx instr).reply .ok [] with
        bcTxSum := id + (n + 2) + instr } := by
  have hturns := Turns.bcTxStart hr hok id n instr (le_refl 5) hroom
  have hsum : sumAfterPuts s.bcTxSum (headerPuts id n instr) = id + (n + 2) + instr :=
    congrArg (· + (n + 2) + instr) (BitVec.zero_add id)
  refine (exec_eq_of_turns hr.2 rfl (bcTxStartProgram_todo id n instr) hturns (State.microStep_idle rfl)).trans
    (congrArg _ ?_)
  change (s.queued .bus ((headerPuts id n instr).map Prod.fst) (sumAfterPuts s.bcTxSum (headerPuts id n instr)) []).proceed
    ⟨.script, [], [], none⟩ = _
  rw [State.queued_reply, hsum]
  rfl

/-- Rule R180: what the sum covers of the first `k` bytes, the sync bytes left out. -/
theorem bcTxSum_bcTxStart (y id n instr : Byte) {k : Nat} (hk : k < 5) (h0 : 0 < k) :
    sumAfterPuts y ((headerPuts id n instr).take k) = byteSum ([id, n + 2, instr].take (k - 2)) := by
  interval_cases k <;> simp [sumAfterPuts, headerPuts, SumUse.apply, byteSum]

/-- Rules R131, R180: with room for `k` of the five bytes, those are queued and the operation holds. -/
theorem exec_bcTxStart_holds (hr : s.Ready) (hok : s.ChannelOk .btx) (id n instr : Byte) {k : Nat} (hk : k < 5)
    (hfull : s.len .btx + k = s.cap .btx) :
    ∃ w, exec (.bcTxStart id n instr) s = .next w ∧ w.op ≠ none ∧ w.microStep = none ∧
      w.contents .btx = s.contents .btx ++ [0xFF, 0xFF, id, n + 2, instr].take k ∧
      w.bcTxSum = sumAfterPuts s.bcTxSum ((headerPuts id n instr).take k) ∧
      w = { s with btx := w.btx, bcTxSum := w.bcTxSum, op := w.op } := by
  have hturns := Turns.bcTxStart hr hok id n instr hk.le hfull.le
  have hlen : (((headerPuts id n instr).take k).map Prod.fst).length = k := by
    rw [List.length_map, List.length_take_of_le hk.le]
  have hbytes : ((headerPuts id n instr).take k).map Prod.fst = [0xFF, 0xFF, id, n + 2, instr].take k := List.map_take
  obtain ⟨x, xs, hx⟩ : ∃ x xs, (headerPuts id n instr).drop k = x :: xs :=
    ⟨_, _, List.drop_eq_getElem_cons hk⟩
  rw [hx] at hturns
  have hroom : s.Room .btx (((headerPuts id n instr).take k).map Prod.fst).length := hlen.symm ▸ hfull.le
  have hput := State.putAll_spec (c := .btx) _ hok hroom
  have hhold : ∀ v, (s.queued .bus (((headerPuts id n instr).take k).map Prod.fst) v []).Full .btx := fun v => by
    rw [hlen] at hput
    exact hput.2.1.trans hfull
  have hnone := fun v => State.microStep_proceed_holds (w := .script) (m := .put .bus x.1 x.2) (ms := putMicros .bus xs)
    (r := []) (p := none) (s := s.queued .bus _ v []) hr.1 (hhold v)
  refine ⟨_, exec_eq_of_turns hr.2 rfl (bcTxStartProgram_todo id n instr) hturns (hnone _), nofun, hnone _, ?_, rfl, ?_⟩
  · rw [← hbytes]
    exact hput.2.2
  · simp only [putMicros, List.map_cons, State.proceed_cons, State.queued_bus, List.append_nil]

/-- Rule R182: with room the checksum is queued and the countdown armed; the drain wait is next. -/
theorem Turns.bcTxEnd (hh : s.halt = false) (hroom : ¬ s.Full .btx) :
    Turns (s.proceed ⟨w, (bcTxEndProgram s.cfg).todo, r, p⟩)
      (((s.push .btx (~~~ s.bcTxSum)).armTimer s.cfg.tBusDrain).proceed ⟨w, [.awaitDrain], r, p⟩) :=
  (Turns.run hh (Micro.run_putChecksum (l := .bus) hroom)).trans (Turns.arm hh)

/-- Rule R182: behind the checksum byte BTX is not drained, so `BC_TX_END` waits, or with a bound of 0 fails at once. -/
theorem exec_bcTxEnd_waits (hr : s.Ready) (hok : s.ChannelOk .btx) (hroom : s.Room .btx 1) :
    (s.cfg.tBusDrain ≠ 0 → exec .bcTxEnd s =
      .next (((s.push .btx (~~~ s.bcTxSum)).armTimer s.cfg.tBusDrain).holding [.awaitDrain] [] none)) ∧
    (s.cfg.tBusDrain = 0 → exec .bcTxEnd s =
      .next { ((s.push .btx (~~~ s.bcTxSum)).armTimer 0).reply .timeout [] with status := s.status ||| 0x02 }) := by
  obtain ⟨hh, ho⟩ := hr
  have hfull : ¬ s.Full .btx := by simp only [State.Full, State.Room] at hroom ⊢; omega
  let u := (s.push .btx (~~~ s.bcTxSum)).armTimer s.cfg.tBusDrain
  have hdrained : ¬ u.Drained .bus := fun hd => by
    have hlen : u.len .btx = s.len .btx + 1 := s.len_push _ hok.1
    have hempty : u.len .btx = 0 := hd.1
    omega
  have hturns := Turns.bcTxEnd (w := .script) (r := []) (p := none) hh hfull
  refine ⟨fun ht => ?_, fun ht => ?_⟩
  · exact exec_eq_of_turns ho (p := bcTxEndProgram s.cfg) rfl rfl hturns
      (State.microStep_proceed_holds (s := u) hh ⟨hdrained, ht⟩)
  · have hfail := Turns.run (w := .script) (ms := []) (r := []) (p := none) (s := u) hh
      (Micro.run_awaitDrain_timeout hdrained ht)
    rw [exec_eq_of_turns ho (p := bcTxEndProgram s.cfg) rfl rfl (hturns.trans hfail) (State.reply_microStep _ _ _)]
    simp only [u, ht]
    rfl

/-- Settles O28: the five puts of the start as far as there is room, and a put each for a parameter and the checksum. -/
theorem busFramerQueuesAndAccumulates : Obligations.BusFramerQueuesAndAccumulates := by
  intro s id n instr b hr hok
  refine ⟨exec_bcTxStart_queues hr hok id n instr, fun k hk hfull => ?_, fun hf i hi => ?_, fun hroom => ⟨?_, ?_⟩⟩
  · obtain ⟨w, hw, hop, hhold, hcont, hsum, hframe⟩ := exec_bcTxStart_holds hr hok id n instr hk hfull
    exact ⟨w, hw, hop, hhold, hcont, fun h0 => hsum.trans (bcTxSum_bcTxStart _ id n instr hk h0), hframe⟩
  · have hholds : ∀ m ms, programOf s.cfg i = some { todo := m :: ms } → m.putsTo .bus = true →
        ∃ w, exec i s = .next w ∧ w.op ≠ none ∧ w.microStep = none ∧ w = { s with op := w.op } := fun _ _ hp hm =>
      have hfull := (Micro.holds_of_putsTo hm s).2 hf
      ⟨_, exec_holds hr hp rfl hfull, nofun, State.microStep_proceed_holds hr.1 hfull, rfl⟩
    rcases hi with rfl | rfl
    · exact hholds _ _ rfl rfl
    · exact hholds _ _ rfl rfl
  · have hfull : ¬ s.Full .btx := by simp only [State.Full, State.Room] at hroom ⊢; omega
    exact exec_put_pushes (l := .bus) (u := .add) hr rfl hfull
  · exact exec_bcTxEnd_waits hr hok hroom

end Framer

/-! ### The two sides -/

/-- Rules R186, R187, the transmit side: what the framer may write. -/
def State.BusTxKept (s t : State) : Prop :=
  t = { s with btx := t.btx, bcTxSum := t.bcTxSum, tmo := t.tmo, status := t.status, op := t.op, cmdOut := t.cmdOut }

/-- Rules R186, R187, the receive side: what the deframer may write. -/
def State.BusRxKept (s t : State) : Prop :=
  t = { s with brx := t.brx, bcRxSum := t.bcRxSum, tmo := t.tmo, status := t.status, op := t.op, cmdOut := t.cmdOut }

theorem State.BusTxKept.refl (s : State) : s.BusTxKept s := rfl

theorem State.BusRxKept.refl (s : State) : s.BusRxKept s := rfl

theorem State.BusTxKept.trans {s t u : State} (h : s.BusTxKept t) (h' : t.BusTxKept u) : s.BusTxKept u := by
  rw [BusTxKept, h', h]

theorem State.BusRxKept.trans {s t u : State} (h : s.BusRxKept t) (h' : t.BusRxKept u) : s.BusRxKept u := by
  rw [BusRxKept, h', h]

/-- The micro-steps of the framer, rules R180 to R182. -/
def Micro.ofBusTx : Micro → Bool
  | .put .bus _ _ | .putChecksum .bus | .arm _ | .awaitDrain => true
  | _ => false

/-- The micro-steps of the deframer, those its reads add among them (rules R183 to R185). -/
def Micro.ofBusRx : Micro → Bool
  | .arm _ | .armPacket _ | .get .bus _ | .setStatus _ | .fail _ _ => true
  | _ => false

/-- The operation in progress, if any, is the run's own and has only micro-steps to do that `q` admits. -/
def State.ScriptWithin (q : Micro → Bool) (s : State) : Prop := ∀ o, s.op = some o → o.owner = .script ∧ o.Within q

section ScriptWithin

variable {q : Micro → Bool} {s t : State} {o : Op}

/-- An answer of the run's own writes the operation and the trace of answers, and no operation is left. -/
theorem State.answer_script_eq (ho : o.owner = .script) (code : Code) :
    ∃ as, s.answer o code = { s with op := none, cmdOut := as } :=
  ⟨_, State.answer_script ho code⟩

/-- The end of a micro-step of the run's own writes the operation and the trace of answers. -/
theorem State.proceed_script_eq (ho : o.owner = .script) (hw : o.Within q) :
    ∃ x as, s.proceed o = { s with op := x, cmdOut := as } ∧ (s.proceed o).ScriptWithin q := by
  rcases s.proceed_cases o with hp | hp
  · exact ⟨some o, s.cmdOut, hp, fun o' ho' => by rw [hp] at ho'; cases ho'; exact ⟨ho, hw⟩⟩
  · obtain ⟨as, has⟩ := State.answer_script_eq (s := s) ho .ok
    exact ⟨none, as, hp.trans has, fun o' ho' => by rw [hp, has] at ho'; cases ho'⟩

/-- What every micro-step that `q` admits keeps, a chain of them keeps. -/
theorem Turns.keeps_within {P : State → Prop}
    (hanswer : ∀ s as, P s → P { s with op := none, cmdOut := as })
    (hrun : ∀ s t m o, P s → q m = true → o.owner = .script → o.Within q → m.run o s = some t → P t ∧ t.ScriptWithin q)
    (h : Turns s t) (hs : P s) (hw : s.ScriptWithin q) : P t := by
  suffices hboth : P t ∧ t.ScriptWithin q from hboth.1
  induction h with
  | refl => exact ⟨hs, hw⟩
  | tail _ hm ih =>
    obtain ⟨o, ho, rfl | ⟨m, rest, htodo, hr⟩⟩ := State.microStep_run hm
    · obtain ⟨as, has⟩ := State.answer_script_eq (ih.2 o ho).1 .ok
      rw [has]
      exact ⟨hanswer _ as ih.1, nofun⟩
    · obtain ⟨howner, hwithin⟩ := ih.2 o ho
      rw [Op.Within, htodo, List.forall_mem_cons] at hwithin
      exact hrun _ _ m { o with todo := rest } ih.1 hwithin.1 howner hwithin.2 hr

end ScriptWithin

/-- A CMD row on a free interface is a chain of its micro-steps. -/
theorem Turns.of_runOp (n : Nat) : ∀ s : State, Turns s (s.runOp n) := by
  induction n with
  | zero => exact fun s => .refl s
  | succ n ih =>
    intro s
    cases hm : s.microStep with
    | none => rw [State.runOp_hold hm]; exact .refl s
    | some t => rw [State.runOp_step hm]; exact (Turns.step hm).trans (ih t)

theorem Turns.of_exec {s t : State} {i : Instr} {p : Program} (ho : s.op = none) (hp : programOf s.cfg i = some p)
    (h : exec i s = .next t) : Turns (s.issue .script p) t := by
  rw [exec_cmd hp, State.command_free s p ho] at h
  cases h
  exact .of_runOp _ _

section Sides

variable {s t : State} {m : Micro} {o : Op}

/-- A micro-step of the framer writes the transmit side. -/
theorem Micro.run_busTx (hm : m.ofBusTx = true) (ho : o.owner = .script) (hw : o.Within Micro.ofBusTx)
    (h : m.run o s = some t) : s.BusTxKept t ∧ t.ScriptWithin Micro.ofBusTx := by
  have hproceed : ∀ u, s.BusTxKept u → s.BusTxKept (u.proceed o) ∧ (u.proceed o).ScriptWithin Micro.ofBusTx := by
    intro u hu
    obtain ⟨x, as, hp, hw'⟩ := State.proceed_script_eq (s := u) ho hw
    exact ⟨hu.trans (by rw [hp]; rfl), hw'⟩
  cases m <;> simp only [Micro.run] at h
  case put l b u =>
    split at h <;> cases h
    cases l with
    | host => cases hm
    | bus => exact hproceed _ rfl
  case putChecksum l =>
    split at h <;> cases h
    cases l with
    | host => cases hm
    | bus => exact hproceed _ rfl
  case arm b => cases h; exact hproceed _ rfl
  case awaitDrain =>
    split at h
    · cases h; exact hproceed _ rfl
    · split at h <;> cases h
      obtain ⟨as, has⟩ := State.answer_script_eq (s := s.raise busTimeoutMask) ho .timeout
      rw [has]
      exact ⟨rfl, nofun⟩
  all_goals cases hm

theorem paramReads_ofBusRx (b : Byte) (n : Nat) : ∀ m ∈ paramReads b n, m.ofBusRx = true := by
  induction n with
  | zero => exact nofun
  | succ n ih => exact List.forall_mem_cons.2 ⟨rfl, List.forall_mem_cons.2 ⟨rfl, ih⟩⟩

/-- The end of a micro-step of the deframer. -/
theorem State.BusRxKept.proceed {u : State} (hu : s.BusRxKept u) (ho : o.owner = .script)
    (hw : o.Within Micro.ofBusRx) : s.BusRxKept (u.proceed o) ∧ (u.proceed o).ScriptWithin Micro.ofBusRx := by
  obtain ⟨x, as, hp, hw'⟩ := State.proceed_script_eq (s := u) ho hw
  exact ⟨hu.trans (by rw [hp]; rfl), hw'⟩

/-- An answer of the deframer. -/
theorem State.BusRxKept.answer {u : State} (hu : s.BusRxKept u) (ho : o.owner = .script) (code : Code) :
    s.BusRxKept (u.answer o code) ∧ (u.answer o code).ScriptWithin Micro.ofBusRx := by
  obtain ⟨as, has⟩ := State.answer_script_eq (s := u) ho code
  rw [has]
  exact ⟨hu.trans rfl, nofun⟩

/-- The use of a byte of the bus writes its sum alone, and adds micro-steps of the deframer alone. -/
theorem State.useByte_busRx (ho : o.owner = .script) (hw : o.Within Micro.ofBusRx) (b : Byte) (u : GetUse) :
    s.BusRxKept (s.useByte .bus o b u) ∧ (s.useByte .bus o b u).ScriptWithin Micro.ofBusRx := by
  cases u <;> simp only [State.useByte]
  case check =>
    split
    · exact State.BusRxKept.proceed rfl ho hw
    · exact State.BusRxKept.proceed rfl ho (List.forall_mem_singleton.2 rfl)
  case sync2 =>
    split
    · exact State.BusRxKept.proceed rfl ho (List.forall_mem_cons.2 ⟨rfl, hw⟩)
    · exact State.BusRxKept.proceed rfl ho hw
  case err =>
    refine State.BusRxKept.proceed rfl ho (List.forall_mem_append.2 ⟨?_, hw⟩)
    split
    · exact List.forall_mem_cons.2 ⟨rfl, paramReads_ofBusRx _ _⟩
    · exact paramReads_ofBusRx _ _
  case byte acc => cases acc <;> exact State.BusRxKept.proceed rfl ho hw
  all_goals exact State.BusRxKept.proceed rfl ho hw

/-- A micro-step of the deframer writes the receive side. -/
theorem Micro.run_busRx (hm : m.ofBusRx = true) (ho : o.owner = .script) (hw : o.Within Micro.ofBusRx)
    (h : m.run o s = some t) : s.BusRxKept t ∧ t.ScriptWithin Micro.ofBusRx := by
  cases m <;> simp only [Micro.run] at h
  case get l u =>
    cases l with
    | host => cases hm
    | bus =>
      split at h
      · cases h
        exact (State.useByte_busRx ho hw _ u).imp_left (State.BusRxKept.trans (t := s.dropOldest .brx) rfl)
      · split at h <;> cases h
        cases u with
        | raw => exact State.BusRxKept.answer (.refl s) ho .timeout
        | _ =>
          exact State.BusRxKept.proceed (o := { o with todo := [.fail busTimeoutMask .timeout] }) (.refl s) ho
            (List.forall_mem_singleton.2 rfl)
  case arm b | armPacket b | setStatus b => cases h; exact State.BusRxKept.proceed rfl ho hw
  case fail b code => cases h; exact State.BusRxKept.answer (u := s.raise b) rfl ho code
  all_goals cases hm

theorem Turns.busTxKept (h : Turns s t) (hw : s.ScriptWithin Micro.ofBusTx) : s.BusTxKept t :=
  h.keeps_within (P := s.BusTxKept) (fun _ _ hu => hu.trans rfl)
    (fun _ _ _ _ hu hm ho hwo hr => (Micro.run_busTx hm ho hwo hr).imp_left hu.trans) (.refl s) hw

theorem Turns.busRxKept (h : Turns s t) (hw : s.ScriptWithin Micro.ofBusRx) : s.BusRxKept t :=
  h.keeps_within (P := s.BusRxKept) (fun _ _ hu => hu.trans rfl)
    (fun _ _ _ _ hu hm ho hwo hr => (Micro.run_busRx hm ho hwo hr).imp_left hu.trans) (.refl s) hw

/-- What a program's micro-steps and an operation that is at most presented keep, a CMD row keeps from any state. -/
theorem exec_cmd_keeps {i : Instr} {p : Program} {q : Micro → Bool} {K : State → State → Prop}
    (hop : ∀ u o, K u { u with op := o }) (htrans : ∀ {u v x}, K u v → K v x → K u x)
    (hturns : ∀ {u v}, Turns u v → u.ScriptWithin q → K u v)
    (hp : programOf s.cfg i = some p) (hq : p.todo.all q = true) (h : exec i s = .next t) : K s t := by
  by_cases hr : s.Ready
  · have hchain := Turns.of_exec hr.2 hp h
    rw [State.issue_free s _ p hr.2] at hchain
    exact htrans (hop s _) (hturns hchain fun o ho => by cases ho; exact ⟨rfl, List.all_eq_true.1 hq⟩)
  · obtain ⟨o, rfl⟩ := exec_unready hp hr h
    exact hop s o

end Sides

/-- Settles O33: the programs of each side have micro-steps of that side alone. -/
theorem busCodecFrame : Obligations.BusCodecFrame := by
  refine fun s t => ⟨fun i hi h => ?_, fun i hi h => ?_⟩
  · have hkept : ∀ p, programOf s.cfg i = some p → p.todo.all Micro.ofBusTx = true → s.BusTxKept t := fun p hp hq =>
      exec_cmd_keeps (K := State.BusTxKept) (fun _ _ => rfl) .trans Turns.busTxKept hp hq h
    rcases hi with ⟨id, n, b, rfl⟩ | ⟨b, rfl⟩ | rfl <;> exact hkept _ rfl rfl
  · have hkept : ∀ p, programOf s.cfg i = some p → p.todo.all Micro.ofBusRx = true → s.BusRxKept t := fun p hp hq =>
      exec_cmd_keeps (K := State.BusRxKept) (fun _ _ => rfl) .trans Turns.busRxKept hp hq h
    rcases hi with ⟨e, rfl⟩ | rfl <;> exact hkept _ rfl rfl

end Sys2Proof.Machine
end

section
/-!
PROOFS of the bus codec statements, second part: the packet that stops (O31). Wherever it stops, in its header or among
its parameters, `BC_RX_PACKET` comes to a read that finds nothing (`RunsDry`); from there on every packet ends alike.
-/

namespace Sys2Proof.Machine

/-! ### Fewer bytes than a packet has -/

/-- The reads of a packet's header behind the first arming, rule R183. -/
def headerReads (t : Byte) : List Micro :=
  [.get .bus .sync1, .arm t, .get .bus .sync2, .arm t, .get .bus .id, .arm t, .get .bus .len, .arm t, .get .bus .err]

theorem bcRxPacketProgram_todo (c : Config) (expected : Byte) :
    (bcRxPacketProgram c expected).todo = .armPacket c.tBusRx :: headerReads c.tBusRx := rfl

theorem paramReads_add (t : Byte) (m n : Nat) : paramReads t (m + n) = paramReads t m ++ paramReads t n := by
  induction m with
  | zero => rw [Nat.zero_add]; rfl
  | succ m ih => rw [Nat.succ_add, paramReads, paramReads, ih]; rfl

/-- `BC_RX_PACKET` has armed the countdown for its first byte and cleared its sum (rule R183). -/
def State.awaitingPacket (s : State) : State := (s.armTimer s.cfg.tBusRx).setRxSum .bus 0

/-- From `u`, with `todo` and the locals `p`, a `BC_RX_PACKET` that was issued in `s` comes to a read that finds nothing: the
locals are then `q`, the bytes summed are `sum`, and STATUS is `st`. -/
def RunsDry (s u : State) (todo : List Micro) (p : PacketLocals) (sum st : Byte) (q : PacketLocals) : Prop :=
  ∃ v use ms, use ≠ GetUse.raw ∧ Receiving s v [] sum st ∧ ∀ w r,
    Turns (u.proceed ⟨w, todo, r, some p⟩) (v.proceed ⟨w, .get .bus use :: ms, r, some q⟩)

namespace Receiving

variable {s u : State} {bs more : List Byte} {sum st : Byte}

theorem awaitingPacket (hh : s.halt = false) :
    Receiving s s.awaitingPacket (s.contents .brx) 0 s.status := ⟨hh, rfl, rfl, rfl, rfl, rfl, rfl⟩

theorem turns_armPacket (hh : s.halt = false) (w : Owner) (ms : List Micro) (r : List Byte) (p : Option PacketLocals) :
    Turns (s.proceed ⟨w, .armPacket s.cfg.tBusRx :: ms, r, p⟩) (s.awaitingPacket.proceed ⟨w, ms, r, p⟩) := .run hh rfl

/-- The first sync byte. -/
theorem turns_sync1 {b : Byte} (h : Receiving s u (b :: bs) sum st) :
    ∃ v, Receiving s v bs sum st ∧ ∀ w ms r p,
      Turns (u.proceed ⟨w, .get .bus .sync1 :: ms, r, some p⟩) (v.proceed ⟨w, ms, r, some { p with s1 := b }⟩) :=
  ⟨_, h.dropOldest, h.turns_get .sync1⟩

/-- Both sync bytes, and their check. -/
theorem turns_sync {s1 s2 : Byte} (h : Receiving s u (s1 :: s2 :: bs) sum st) :
    ∃ v, Receiving s v bs sum (if s1 ≠ 0xFF ∨ s2 ≠ 0xFF then st ||| 0x08 else st) ∧ ∀ w ms r p,
      Turns (u.proceed ⟨w, .get .bus .sync1 :: .arm s.cfg.tBusRx :: .get .bus .sync2 :: ms, r, some p⟩)
        (v.proceed ⟨w, ms, r, some { p with s1 := s1 }⟩) := by
  obtain ⟨v₁, h₁, hsync1⟩ := h.turns_sync1
  obtain ⟨v₂, h₂, hsync2⟩ := h₁.turns_sync2 s1
  exact ⟨v₂, h₂, fun w ms r p => (hsync1 w _ r p).trans (hsync2 w ms r _ rfl)⟩

/-- A header that is there whole is taken, and as many parameters are asked for as its length byte announces. -/
theorem turns_header {s1 s2 id len err : Byte} (h : Receiving s u (s1 :: s2 :: id :: len :: err :: more) 0 st)
    (expected : Byte) :
    ∃ v, Receiving s v more (byteSum [id, len, err])
        (if s1 ≠ 0xFF ∨ s2 ≠ 0xFF ∨ len - 2 ≠ expected then st ||| 0x08 else st) ∧ ∀ w r,
      Turns (u.proceed ⟨w, headerReads s.cfg.tBusRx, r, some { expected := expected }⟩)
        (v.proceed ⟨w, paramReads s.cfg.tBusRx (len - 2).toNat, r, some ⟨expected, s1, id, len, err, []⟩⟩) := by
  obtain ⟨v₂, h₂, hsync⟩ := h.turns_sync
  obtain ⟨v₃, h₃, hid⟩ := h₂.turns_id
  obtain ⟨v₄, h₄, hlen⟩ := h₃.turns_len
  obtain ⟨v₅, h₅, herr⟩ := h₄.turns_err len expected
  have hsum : 0 + id + len + err = byteSum [id, len, err] := by simp [byteSum, BitVec.add_assoc]
  have hflags := (ite_or_mask (s1 ≠ 0xFF ∨ s2 ≠ 0xFF) (len - 2 ≠ expected) st 0x08).trans (if_congr or_assoc rfl rfl)
  rw [hsum, hflags] at h₅
  exact ⟨v₅, h₅, fun w r => (hsync w _ r _).trans ((hid w _ r _).trans ((hlen w _ r _).trans
    (herr w r _ rfl rfl)))⟩

/-- Parameters that are there are taken, whatever is read behind them. -/
theorem turns_someParams (ps : List Byte) : ∀ {u : State} {sum : Byte}, Receiving s u (ps ++ more) sum st →
    ∃ v, Receiving s v more (sum + byteSum ps) st ∧ ∀ w ms r p,
      Turns (u.proceed ⟨w, paramReads s.cfg.tBusRx ps.length ++ ms, r, some p⟩)
        (v.proceed ⟨w, ms, r, some (ps.foldl PacketLocals.store p)⟩) := by
  induction ps with
  | nil =>
    intro u sum h
    refine ⟨u, ?_, fun w ms r p => .refl _⟩
    rw [byteSum]
    exact (BitVec.add_zero sum).symm ▸ h
  | cons b ps ih =>
    intro u sum h
    obtain ⟨v, hv, hread⟩ := turns_read (bs := ps ++ more) h .param
    obtain ⟨v', hv', hrest⟩ := ih (hv.add b)
    refine ⟨v', ?_, fun w ms r p => (hread w _ r p).trans (hrest w ms r (p.store b))⟩
    rw [byteSum, ← BitVec.add_assoc]
    exact hv'

/-- A read that finds nothing. -/
theorem runsDry (h : Receiving s u [] sum st) {use : GetUse} (hu : use ≠ .raw) (ms : List Micro) (p : PacketLocals) :
    RunsDry s u (.get .bus use :: ms) p sum st p := ⟨u, use, ms, hu, h, fun _ _ => .refl _⟩

/-- A read that arms the countdown anew and finds nothing. -/
theorem runsDry_armed (h : Receiving s u [] sum st) {use : GetUse} (hu : use ≠ .raw) (ms : List Micro)
    (p : PacketLocals) : RunsDry s u (.arm s.cfg.tBusRx :: .get .bus use :: ms) p sum st p :=
  ⟨u.armTimer s.cfg.tBusRx, use, ms, hu, ⟨h.halt, h.cfg, h.cmdOut, rfl, h.left, h.sum, h.status⟩, fun _ _ => .arm h.halt⟩

end Receiving

/-- The locals of a packet whose header stops: the fields not received are 0 (U17). -/
def partialHeader (expected : Byte) (bs : List Byte) : PacketLocals :=
  { expected := expected, s1 := bs.getD 0 0, id := bs.getD 2 0, len := bs.getD 3 0 }

namespace RunsDry

variable {s u v : State} {todo todo' : List Micro} {p p' q : PacketLocals} {sum st : Byte}

theorem of_turns (h : RunsDry s v todo' p' sum st q)
    (hturns : ∀ w r, Turns (u.proceed ⟨w, todo, r, some p⟩) (v.proceed ⟨w, todo', r, some p'⟩)) :
    RunsDry s u todo p sum st q :=
  let ⟨x, use, ms, hu, hx, hdry⟩ := h
  ⟨x, use, ms, hu, hx, fun w r => (hturns w r).trans (hdry w r)⟩

/-- Rules R183, U17: a header that stops leaves the fields behind it 0; the sync bytes are checked once both are read. -/
theorem of_header {bs : List Byte} (h : Receiving s u bs 0 st) (hlen : bs.length < 5) (expected : Byte) :
    RunsDry s u (headerReads s.cfg.tBusRx) { expected := expected } (byteSum (bs.drop 2))
      (if 2 ≤ bs.length ∧ (bs.getD 0 0 ≠ 0xFF ∨ bs.getD 1 0 ≠ 0xFF) then st ||| 0x08 else st)
      (partialHeader expected bs) := by
  match bs, h with
  | [], h => exact h.runsDry (use := .sync1) nofun _ _
  | [s1], h =>
    obtain ⟨v, hv, hsync1⟩ := h.turns_sync1
    exact (hv.runsDry_armed (use := .sync2) nofun _ _).of_turns fun w r => hsync1 w _ r _
  | s1 :: s2 :: bs, h =>
    obtain ⟨v₂, h₂, hsync⟩ := h.turns_sync
    have hflag : (2 ≤ (s1 :: s2 :: bs).length ∧ ((s1 :: s2 :: bs).getD 0 0 ≠ 0xFF ∨
        (s1 :: s2 :: bs).getD 1 0 ≠ 0xFF)) = (s1 ≠ 0xFF ∨ s2 ≠ 0xFF) := by simp
    rw [if_congr (iff_of_eq hflag) rfl rfl]
    match bs, h₂, hlen with
    | [], h₂, _ => exact (h₂.runsDry_armed (use := .id) nofun _ _).of_turns fun w r => hsync w _ r _
    | [id], h₂, _ =>
      obtain ⟨v₃, h₃, hid⟩ := h₂.turns_id
      have hsum : 0 + id = byteSum [id] := BitVec.add_comm 0 id
      exact ((hsum ▸ h₃).runsDry_armed (use := .len) nofun _ _).of_turns
        fun w r => (hsync w _ r _).trans (hid w _ r _)
    | [id, len], h₂, _ =>
      obtain ⟨v₃, h₃, hid⟩ := h₂.turns_id
      obtain ⟨v₄, h₄, hlen₄⟩ := h₃.turns_len
      have hsum : 0 + id + len = byteSum [id, len] := by simp [byteSum]
      exact ((hsum ▸ h₄).runsDry_armed (use := .err) nofun _ _).of_turns
        fun w r => (hsync w _ r _).trans ((hid w _ r _).trans (hlen₄ w _ r _))

/-- Rules R72, R183: a packet that stops among its parameters. -/
theorem of_params {s1 s2 id len err expected : Byte} {ps : List Byte}
    (h : Receiving s u (s1 :: s2 :: id :: len :: err :: ps) 0 st) (hps : ps.length < (len - 2).toNat) :
    RunsDry s u (headerReads s.cfg.tBusRx) { expected := expected } (byteSum (id :: len :: err :: ps))
      (if s1 ≠ 0xFF ∨ s2 ≠ 0xFF ∨ len - 2 ≠ expected then st ||| 0x08 else st)
      ⟨expected, s1, id, len, err, ps.take expected.toNat⟩ := by
  obtain ⟨v, hv, hheader⟩ := h.turns_header expected
  obtain ⟨x, hx, hparams⟩ := Receiving.turns_someParams (more := []) ps (by rwa [List.append_nil])
  obtain ⟨n, hn⟩ : ∃ n, (len - 2).toNat = ps.length + (n + 1) := Nat.exists_eq_add_of_lt hps
  have hsum : byteSum [id, len, err] + byteSum ps = byteSum (id :: len :: err :: ps) := (byteSum_append _ _).symm
  have hstored : ps.foldl PacketLocals.store ⟨expected, s1, id, len, err, []⟩ =
      ⟨expected, s1, id, len, err, ps.take expected.toNat⟩ := PacketLocals.params_foldl_store ps _ (Nat.zero_le _)
  rw [hn, paramReads_add] at hheader
  exact (((hsum ▸ hx).runsDry_armed (use := .param) nofun _ _).of_turns
    fun w r => hstored ▸ hparams w _ r _).of_turns hheader

end RunsDry

/-! ### The wait that ends such a packet -/

section Wait

variable {s v : State} {l : Link} {use : GetUse} {w : Owner} {ms : List Micro} {r : List Byte}
  {p : Option PacketLocals} {k : Nat}

/-- Rules R164, R185: the two micro-steps in which a codec's get times out. -/
theorem Turns.codecGet_timeout (hu : use ≠ .raw) (hh : s.halt = false) (he : s.Empty (rxChan l)) (ht : s.tmo = 0) :
    Turns (s.proceed ⟨w, .get l use :: ms, r, p⟩) ((s.raise (timeoutMask l)).answer ⟨w, [], r, p⟩ .timeout) :=
  (Turns.run hh (Micro.run_codecGet_timeout hu he ht)).trans (.step (State.microStep_fail hh))

/-- Rule R215: ticks leave an operation at the micro-step it stands at, with the countdown lowered. -/
theorem State.afterTicks_proceed {m : Micro} (hh : s.halt = false) (hk : k ≤ s.tmo.toNat) :
    (s.proceed ⟨w, m :: ms, r, p⟩).afterTicks k = (s.armTimer (s.tmo - u8 k)).proceed ⟨w, m :: ms, r, p⟩ :=
  State.afterTicks_eq k (s.proceed ⟨w, m :: ms, r, p⟩) hh hk

/-- Rules R132, R215: a get that found nothing holds through every tick but the one that runs the countdown out. -/
theorem Micro.holds_get_afterTicks (he : s.Empty (rxChan l)) (hk : k < s.tmo.toNat) :
    (Micro.get l use).Holds (s.armTimer (s.tmo - u8 k)) :=
  ⟨by simpa [State.Empty] using he, fun h0 => hk.ne ((sub_u8_eq_zero_iff hk.le).1 h0)⟩

theorem State.afterTurns_idle (ho : s.op = none) (n : Nat) : s.afterTurns n = s := by
  rw [← State.runOp_eq_afterTurns, State.runOp_hold (State.microStep_idle ho)]

/-- Rules R185, R341: `BC_RX_PACKET` of a packet that stops holds for exactly `T_BUS_RX` ticks, and then answers `Timeout`
with what it has. -/
theorem RunsDry.exec {sum st expected : Byte} {q : PacketLocals} (hr : s.Ready)
    (hdry : RunsDry s s.awaitingPacket (headerReads s.cfg.tBusRx) { expected := expected } sum st q) :
    ∃ v, Receiving s v [] sum st ∧ ∃ w, Machine.exec (.bcRxPacket expected) s = .next w ∧
      (∀ k, k < s.cfg.tBusRx.toNat → (w.afterTicks k).microStep = none ∧ (w.afterTicks k).op ≠ none) ∧
      (w.afterTicks s.cfg.tBusRx.toNat).afterTurns 2 =
        ((v.armTimer 0).raise busTimeoutMask).reply .timeout q.results := by
  obtain ⟨v, use, ms, hu, hv, hturns⟩ := hdry
  have hempty : v.Empty .brx := v.empty_of_contents hv.left
  have hexec : ∀ {t}, Turns (v.proceed ⟨.script, .get .bus use :: ms, [], some q⟩) t → t.microStep = none →
      Machine.exec (.bcRxPacket expected) s = .next t := fun h ht =>
    exec_eq_of_turns hr.2 rfl (bcRxPacketProgram_todo s.cfg expected)
      ((Receiving.turns_armPacket hr.1 _ _ _ _).trans ((hturns _ _).trans h)) ht
  refine ⟨v, hv, ?_⟩
  by_cases ht : s.cfg.tBusRx = 0
  · have htmo : v.tmo = 0 := hv.tmo.trans ht
    have hout : v.armTimer 0 = v := by rw [← htmo]; rfl
    refine ⟨_, hexec (Turns.codecGet_timeout hu hv.halt hempty htmo) (State.microStep_idle rfl), fun k hk => ?_, ?_⟩
    · rw [ht] at hk
      exact absurd hk (Nat.not_lt_zero k)
    · rw [hout, ht]
      exact State.afterTurns_idle rfl 2
  · have hwait : ∀ k, k ≤ s.cfg.tBusRx.toNat → (v.proceed ⟨.script, .get .bus use :: ms, [], some q⟩).afterTicks k =
        (v.armTimer (v.tmo - u8 k)).proceed ⟨.script, .get .bus use :: ms, [], some q⟩ := fun k hk =>
      State.afterTicks_proceed hv.halt (hv.tmo.symm ▸ hk)
    refine ⟨_, hexec (.refl _) (State.microStep_proceed_holds hv.halt ⟨hempty, fun h0 => ht (hv.tmo.symm.trans h0)⟩),
      fun k hk => ?_, ?_⟩
    · rw [hwait k hk.le]
      exact ⟨State.microStep_proceed_holds (s := v.armTimer _) hv.halt
        (Micro.holds_get_afterTicks (l := .bus) hempty (hv.tmo.symm ▸ hk)), nofun⟩
    · have hout : v.tmo - u8 s.cfg.tBusRx.toNat = 0 := (sub_u8_eq_zero_iff (by rw [hv.tmo])).2 (by rw [hv.tmo])
      rw [hwait _ le_rfl, hout]
      exact State.afterTurns_codecGet_timeout (l := .bus) (s := v.armTimer 0) hu hv.halt hempty rfl

end Wait

/-- A flag set, or not, beside those that are. -/
theorem or_ite_mask (bad : Prop) [Decidable bad] (st m : Byte) :
    st ||| (if bad then m else 0x00) = if bad then st ||| m else st := by
  split
  · rfl
  · exact BitVec.or_zero

/-- Settles O31: a header that stops and parameters that stop both come to a read that finds nothing, and end alike. -/
theorem busPacketTimeoutIsPartial : Obligations.BusPacketTimeoutIsPartial := by
  intro s expected hr partialAnswer
  have hanswer : ∀ {bs fields params flags st q}, st = s.status ||| flags →
      q.results = fields ++ u8 params.length :: params →
      RunsDry s s.awaitingPacket (headerReads s.cfg.tBusRx) { expected := expected } (byteSum (bs.drop 2)) st q →
      partialAnswer bs fields params flags := by
    intro bs fields params flags st q hst hq hdry
    obtain ⟨v, hv, w, hw, hhold, hend⟩ := hdry.exec hr
    refine ⟨w, hw, hhold, ?_⟩
    intro t
    have ht : t = _ := hend
    rw [ht]
    refine ⟨rfl, rfl, hv.left, hv.sum, ?_, ?_⟩
    · rw [← hv.cmdOut, ← hq]
      rfl
    · rw [← hst, ← hv.status]
      rfl
  refine ⟨fun bs hlen hc => ?_, fun s1 s2 id len err ps hc hps => ?_⟩
  · exact hanswer (or_ite_mask _ _ _).symm rfl (.of_header (hc ▸ Receiving.awaitingPacket hr.1) hlen expected)
  · exact hanswer (or_ite_mask _ _ _).symm rfl (.of_params (hc ▸ Receiving.awaitingPacket hr.1) hps)

end Sys2Proof.Machine
end

section
/-!
PROOFS of the bus codec statements, third part: the ping of a device (O55). Its first half is `Acts.ask`; once the packet
has left, the transaction is in `State.listening` with what the deframer has written, and each operation of rule R245 leads
from there to the next: the wait for the reply, its packet, its checksum, the retry of rule R246, the report of rule R247.

A reply that arrives while the client waits is taken as if it had been there all along (`busFeed_awaitingReply`).
-/

namespace Sys2Proof.Machine

/-! ### The second half of a bus transaction -/

/-- A transaction whose packet has left in `s` has turned the line to `Receive` and stands at place `p`: the deframer has
written its side, and `as` has been answered. -/
def State.listening (s : State) (brx : Channel) (tmo sum status : Byte) (as : List Answer) (p : Pos) : State :=
  { s with
    brx := brx
    dir := .receive
    tmo := tmo
    bcRxSum := sum
    status := status
    op := none
    cmdOut := s.cmdOut ++ as
    client := { s.client with pos := p } }

/-- The transaction waits for the first byte of its reply (rules R183, R245). -/
def State.awaitingReply (s : State) (brx : Channel) (tmo : Byte) (t : Txn) (f : TxnFor) : State :=
  (s.listening brx tmo 0 s.status [.plain, .plain] (.txn .packet t f)).proceed
    ⟨.client, headerReads s.cfg.tBusRx, [], some { expected := t.expected }⟩

theorem turnsOf_headerReads (t : Byte) : turnsOf (headerReads t) = 779 := by
  simp [headerReads, Micro.turns, GetUse.turns]

section Listening

variable {s : State} {brx : Channel} {tmo sum status : Byte} {as : List Answer} {p q : Pos} {t : Txn} {f : TxnFor}

theorem State.listening_told {code : Code} {r : List Byte}
    (hk : Client.react s.cfg { s.client with pos := p } { code := code, results := r } = { s.client with pos := q }) :
    (s.listening brx tmo sum status as p).told code r =
      s.listening brx tmo sum status (as ++ [{ code := code, results := r }]) q := by
  rw [State.told_eq (s := s.listening brx tmo sum status as p) hk, State.listening, State.listening, ← List.append_assoc]

/-- Rules R182, R211, R245: once its packet has left, the transaction turns the line round and waits for the reply. -/
theorem Acts.listen (hh : s.halt = false) (ho : s.op = some ⟨.client, [.awaitDrain], [], none⟩)
    (hpos : s.client.pos = .txn .close t f) (hf : f ≠ .sendOnly) (hid : t.id ≠ busBroadcastId) (hd : s.Drained .bus) :
    Acts 800 s (s.awaitingReply s.brx s.cfg.tBusRx t f) := by
  have hclose : Client.react s.cfg s.client .plain = { s.client with pos := .txn .dirRx t f } := by
    simp [Client.react, hpos, txnReact, Answer.plain, hf, hid]
  have hdrain : Acts 2 s (s.told .ok []) := by
    have hbound : s.turnsLeft = 2 := by simp [State.turnsLeft, ho, Micro.turns]
    exact hbound ▸ Acts.of_turns (.step ((State.microStep_cons hh ho).trans (if_pos hd)))
  rw [State.told_eq hclose] at hdrain
  let u : State := { s with op := none, cmdOut := s.cmdOut ++ [.plain], client := { s.client with pos := .txn .dirRx t f } }
  let x := s.listening s.brx s.tmo s.bcRxSum s.status [.plain, .plain] (.txn .packet t f)
  have hturned : (u.setDir .receive).told .ok [] = x := by
    rw [State.told_eq (s := u.setDir .receive) (q := .txn .packet t f) rfl]
    simp only [u, x, State.listening, State.setDir, List.append_assoc]
    rfl
  have hdir : Acts 3 u x := hturned ▸ Acts.operation (s := u) (m := .direction .receive) (ms := []) (p := none) ⟨hh, rfl⟩
    (fun h : Pos.txn .dirRx t f = .cycleStart => by cases h) rfl (.run hh rfl)
  have hpacket : Acts 790 x (s.awaitingReply s.brx s.cfg.tBusRx t f) :=
    (Acts.operation (s := x) (m := .armPacket s.cfg.tBusRx) (ms := headerReads s.cfg.tBusRx)
      (p := some { expected := t.expected }) ⟨hh, rfl⟩ (fun h : Pos.txn .packet t f = .cycleStart => by cases h) rfl
      (Receiving.turns_armPacket (s := x) hh _ _ _ _)).mono (by simp [turnsOf_headerReads, Micro.turns])
  exact (hdrain.trans (hdir.trans hpacket)).mono (by omega)

theorem State.awaitingReply_holds (hh : s.halt = false) (he : s.Empty .brx) (ht : tmo ≠ 0) :
    (s.awaitingReply s.brx tmo t f).foregroundStep = none :=
  State.foregroundStep_held (s := s.awaitingReply s.brx tmo t f) (m := .get .bus .sync1) hh rfl ⟨he, ht⟩

theorem State.awaitingReply_afterTicks (hh : s.halt = false) {k : Nat} (hk : k ≤ tmo.toNat) :
    (s.awaitingReply brx tmo t f).afterTicks k = s.awaitingReply brx (tmo - u8 k) t f :=
  State.afterTicks_proceed (s := s.listening brx tmo 0 s.status [.plain, .plain] (.txn .packet t f)) hh hk

theorem State.awaitingReply_turnsLeft : (s.awaitingReply brx tmo t f).turnsLeft = 780 :=
  congrArg (· + 1) (turnsOf_headerReads s.cfg.tBusRx)

/-- Rules R185, R245: without a reply the transaction ends in its timeout. -/
theorem Acts.noReply (hh : s.halt = false) (he : s.Empty .brx) :
    ∃ as, Acts 780 (s.awaitingReply s.brx 0 t f)
      (s.listening s.brx 0 0 (s.status ||| 0x02) as
        (txnDone s.cfg { s.client with pos := .txn .packet t f } f .timeout)) := by
  let x := s.listening s.brx 0 0 s.status [.plain, .plain] (.txn .packet t f)
  have hturns : Turns (s.awaitingReply s.brx 0 t f)
      ((s.listening s.brx 0 0 (s.status ||| 0x02) [.plain, .plain] (.txn .packet t f)).told .timeout [0, 0, 0, 0]) :=
    Turns.codecGet_timeout (s := x) (l := .bus) (use := .sync1) nofun hh he rfl
  rw [State.listening_told (q := txnDone s.cfg { s.client with pos := .txn .packet t f } f .timeout) rfl] at hturns
  exact ⟨_, (Acts.of_turns hturns).mono (State.awaitingReply_turnsLeft).le⟩

/-- What the deframer leaves behind its last read is what it may write (rules R186, R187). -/
theorem Turns.deframed {u v : State} {m : Micro} {ms : List Micro} {r : List Byte} {o o' : Option PacketLocals}
    (h : Turns (u.proceed ⟨.script, m :: ms, r, o⟩) (v.proceed ⟨.script, [], r, o'⟩))
    (hms : (m :: ms).all Micro.ofBusRx = true) :
    v = { u with
      brx := v.brx, bcRxSum := v.bcRxSum, tmo := v.tmo, status := v.status, op := v.op, cmdOut := v.cmdOut } :=
  have hkept := h.busRxKept fun o ho => by cases ho; exact ⟨rfl, List.all_eq_true.1 hms⟩
  congrArg (fun x : State => { x with op := v.op, cmdOut := v.cmdOut }) hkept

/-- Rules R183, R245: a reply that is there up to its checksum is taken, and the transaction turns to the checksum. -/
theorem Acts.takePacket {s1 s2 id len err : Byte} {ps more : List Byte} (hh : s.halt = false)
    (hc : ({ s with brx := brx } : State).contents .brx = s1 :: s2 :: id :: len :: err :: (ps ++ more))
    (hps : ps.length = (len - 2).toNat) :
    ∃ brx' tmo' as, (s.listening brx' tmo' 0 0 [] .cycleStart).contents .brx = more ∧
      Acts 780 (s.awaitingReply brx s.cfg.tBusRx t f)
        (s.listening brx' tmo' (byteSum (id :: len :: err :: ps))
          (if s1 ≠ 0xFF ∨ s2 ≠ 0xFF ∨ len - 2 ≠ t.expected then s.status ||| 0x08 else s.status) as
          (.txn (.check id err (ps.take t.expected.toNat)) t f)) := by
  let x := s.listening brx s.cfg.tBusRx 0 s.status [.plain, .plain] (.txn .packet t f)
  have h₀ : Receiving x x (s1 :: s2 :: id :: len :: err :: (ps ++ more)) 0 s.status := ⟨hh, rfl, rfl, rfl, hc, rfl, rfl⟩
  obtain ⟨u, hu, hheader⟩ := h₀.turns_header t.expected
  obtain ⟨v, hv, hparams⟩ := Receiving.turns_someParams ps hu
  have hsum : byteSum [id, len, err] + byteSum ps = byteSum (id :: len :: err :: ps) := (byteSum_append _ _).symm
  let got : PacketLocals := ⟨t.expected, s1, id, len, err, ps.take t.expected.toNat⟩
  have hstored : ps.foldl PacketLocals.store ⟨t.expected, s1, id, len, err, []⟩ = got :=
    PacketLocals.params_foldl_store ps _ (Nat.zero_le _)
  have hturns : ∀ w r, Turns (x.proceed ⟨w, headerReads s.cfg.tBusRx, r, some { expected := t.expected }⟩)
      (v.proceed ⟨w, [], r, some got⟩) := fun w r => by
    have hrest := hparams w [] r ⟨t.expected, s1, id, len, err, []⟩
    rw [List.append_nil, hps, hstored] at hrest
    exact (hheader w r).trans hrest
  have hframe := (hturns .script []).deframed rfl
  rw [hv.cmdOut, hv.sum, hsum, hv.status] at hframe
  have hlisten := State.listening_told (s := s) (brx := v.brx) (tmo := v.tmo) (sum := byteSum (id :: len :: err :: ps))
    (status := if s1 ≠ 0xFF ∨ s2 ≠ 0xFF ∨ len - 2 ≠ t.expected then s.status ||| 0x08 else s.status)
    (as := [.plain, .plain]) (p := .txn .packet t f) (q := .txn (.check id err (ps.take t.expected.toNat)) t f)
    (code := .ok) (r := got.results) rfl
  have htold : v.told .ok got.results = _ := (congrArg (State.told · .ok got.results) hframe).trans hlisten
  have hacts : Acts 780 (s.awaitingReply brx s.cfg.tBusRx t f) (v.told .ok got.results) :=
    (Acts.of_turns (hturns .client [])).mono State.awaitingReply_turnsLeft.le
  rw [htold] at hacts
  refine ⟨_, _, _, ?_, hacts⟩
  rw [← hv.left, hframe]
  rfl

/-- Rules R184, R245: the checksum of a reply is read, and a wrong one sets `BusChecksumError`. -/
theorem Acts.takeChecksum {cks rid err : Byte} {data left : List Byte} (hh : s.halt = false)
    (hc : (s.listening brx tmo 0 0 [] .cycleStart).contents .brx = cks :: left)
    (hk : Client.react s.cfg { s.client with pos := .txn (.check rid err data) t f }
      { code := if cks = ~~~ sum then .ok else .checksum, results := [] } = { s.client with pos := q }) :
    ∃ brx' as', (s.listening brx' tmo 0 0 [] .cycleStart).contents .brx = left ∧
      Acts 5 (s.listening brx tmo sum status as (.txn (.check rid err data) t f))
        (s.listening brx' s.cfg.tBusRx sum (if cks = ~~~ sum then status else status ||| 0x80) as' q) := by
  let x := s.listening brx tmo sum status as (.txn (.check rid err data) t f)
  let y := s.listening { brx with get := brx.get + 1 } s.cfg.tBusRx sum status as (.txn (.check rid err data) t f)
  obtain ⟨hne, hold, hleft⟩ := State.contents_cons x (c := .brx) hc
  have hread := Turns.timedGet (s := x) (l := .bus) (u := .check) (t := s.cfg.tBusRx) (w := .client) (ms := []) (r := [])
    (p := none) hh hne
  have huse : Turns (x.proceed ⟨.client, [.arm s.cfg.tBusRx, .get .bus .check], [], none⟩)
      (y.useByte .bus ⟨.client, [], [], none⟩ cks .check) := hold ▸ hread
  have hacts : ∀ {z}, Turns (x.proceed ⟨.client, [.arm s.cfg.tBusRx, .get .bus .check], [], none⟩) z → Acts 5 x z := fun h =>
    Acts.operation (s := x) ⟨hh, rfl⟩ (fun h : Pos.txn _ t f = .cycleStart => by cases h) rfl h
  by_cases hm : cks = ~~~ sum
  · simp only [if_pos hm] at hk ⊢
    have haccept : y.useByte .bus ⟨.client, [], [], none⟩ cks .check = _ := (if_pos hm).trans (State.listening_told hk)
    exact ⟨_, _, hleft, hacts (haccept ▸ huse)⟩
  · simp only [if_neg hm] at hk ⊢
    have hreject : y.useByte .bus ⟨.client, [], [], none⟩ cks .check =
        y.proceed ⟨.client, [.fail busChecksumErrorMask .checksum], [], none⟩ := if_neg hm
    have hfail : Turns (y.proceed ⟨.client, [.fail busChecksumErrorMask .checksum], [], none⟩)
        ((s.listening { brx with get := brx.get + 1 } s.cfg.tBusRx sum (status ||| 0x80) as
          (.txn (.check rid err data) t f)).told .checksum []) := .run hh rfl
    rw [State.listening_told hk, ← hreject] at hfail
    exact ⟨_, _, hleft, hacts (huse.trans hfail)⟩

/-- Rule R246: a retry clears `BusChecksumError`, counts itself and sends the packet again. -/
theorem Acts.retry (hh : s.halt = false) (hok : s.ChannelOk .btx) (hroom : s.Room .btx (t.params.length + 6)) :
    ∃ as',
      let y := State.listening { s with client := { s.client with retry := s.client.retry + 1 } } brx tmo sum
        (status &&& ~~~ 0x80) as' (.txn .dirTx t f)
      Acts (3 * t.params.length + 18) (s.listening brx tmo sum status as (.txn .retry t f)) (y.asked t f) ∧
        (s.cfg.tBusDrain ≠ 0 → (y.asked t f).foregroundStep = none) := by
  let x := s.listening brx tmo sum status as (.txn .retry t f)
  let y := State.listening { s with client := { s.client with retry := s.client.retry + 1 } } brx tmo sum
    (status &&& ~~~ 0x80) (as ++ [.plain]) (.txn .dirTx t f)
  have hclear : (x.clearFlags busChecksumErrorMask).told .ok [] = y := by
    simp only [x, y, State.listening, State.told, State.clearFlags, List.append_assoc]
    rfl
  have hretry : Acts 3 x y := hclear ▸ Acts.operation (s := x) (m := .clearStatus busChecksumErrorMask) (ms := [])
    (p := none) ⟨hh, rfl⟩ (fun h : Pos.txn .retry t f = .cycleStart => by cases h) rfl (.run hh rfl)
  have hask : Acts (3 * t.params.length + 15) y (y.asked t f) := Acts.ask ⟨hh, rfl⟩ rfl hok hroom
  exact ⟨_, (hretry.trans hask).mono (by omega), State.asked_holds (s := y) hh hok hroom⟩

end Listening

/-- Rule R246: the transaction's decision at its closing checksum. -/
theorem Client.react_check (c : Config) (k : Client) (rid err : Byte) (data : List Byte) (t : Txn) (f : TxnFor)
    {code : Code} (hcode : code ≠ .timeout) (bad : Prop) [Decidable bad]
    (hbad : bad ↔ err &&& c.errCksumMask ≠ 0 ∨ code = .checksum) :
    let k' : Client := { k with pos := .txn (.check rid err data) t f }
    let result := if bad then TxnResult.checksumFailure rid err data else .success rid err data
    k'.react c { code := code, results := [] } =
      { k with pos := if bad ∧ k.retry < 3 then (.txn .retry t f) else txnDone c k' f result } := by
  simp only [Client.react, txnReact, if_neg hcode, ← hbad]
  by_cases hb : bad
  · by_cases hretry : k.retry < 3
    · simp [hb, hretry]
    · simp [hb, hretry]
  · simp [hb]

/-! ### What follows the transaction of a ping -/

section Report

variable {s x : State} {p : Pos}

/-- Rule R244: a plain status response, and the client is free again. -/
theorem Acts.report (hr : x.Ready) (hpos : x.client.pos = plainStatus 0xF0) (hok : x.ChannelOk .htx)
    (hroom : x.Room .htx 7) :
    ∃ v, Acts 24 x v ∧ v.ForegroundFree ∧ v.Reported x 0xF0 x.status ∧
      v = { x with htx := v.htx, hcTxSum := v.hcTxSum, op := v.op, cmdOut := v.cmdOut, client := v.client } := by
  obtain ⟨as, hacts⟩ := Acts.respond (payload := []) hr hpos hok hroom
  refine ⟨_, hacts, ⟨rfl, rfl⟩, ⟨rfl, rfl, rfl, ?_⟩, ?_⟩
  · exact State.queued_contents (s := x.atPos .cycleStart) (l := .host) hok hroom
  · rw [State.queued_host]
    rfl

/-- What is reported is read off the client's samples and its retry counter, and queued behind what HTX had. -/
theorem State.Reported.of_kept {v : State} {instr status : Byte} (h : v.Reported x instr status)
    (hk : x.client = { s.client with pos := p }) (hc : x.contents .htx = s.contents .htx) :
    v.Reported s instr status := by
  obtain ⟨hop, hst, hclient, hcont⟩ := h
  rw [hk] at hclient hcont
  exact ⟨hop, hst, hclient, hc ▸ hcont⟩

/-- Rule R247: a ping whose packet cannot be sent reports `BusTimeout`. -/
theorem Acts.pingUnsent {addr : Byte} {t : Txn} (hh : s.halt = false)
    (ho : s.op = some ⟨.client, [.awaitDrain], [], none⟩) (hpos : s.client.pos = .txn .close t (.ping addr))
    (hok : s.ChannelOk .htx) (hroom : s.Room .htx 7) (hd : ¬ s.Drained .bus) (ht : s.tmo = 0) :
    ∃ v, Acts 26 s v ∧ v.ForegroundFree ∧ v.Reported s 0xF0 (s.status ||| 0x02) := by
  let x : State := { s.raise busTimeoutMask with
    op := none
    cmdOut := s.cmdOut ++ [{ code := .timeout, results := [] }]
    client := { s.client with pos := plainStatus 0xF0 } }
  have hk : Client.react s.cfg s.client { code := .timeout, results := [] } = { s.client with pos := plainStatus 0xF0 } := by
    simp [Client.react, hpos, txnReact, txnDone]
  have htold : (s.raise busTimeoutMask).told .timeout [] = x := State.told_eq (s := s.raise busTimeoutMask) hk
  have hfail : Acts 2 s x := by
    have hbound : s.turnsLeft = 2 := by simp [State.turnsLeft, ho, Micro.turns]
    exact hbound ▸ htold ▸
      Acts.of_turns (.step ((State.microStep_cons hh ho).trans (Micro.run_awaitDrain_timeout hd ht)))
  obtain ⟨v, hreport, hfree, hv, -⟩ := Acts.report (x := x) ⟨hh, rfl⟩ rfl hok hroom
  exact ⟨v, hfail.trans hreport, hfree, hv.of_kept (s := s) rfl rfl⟩

variable {brx : Channel} {tmo sum status : Byte} {as : List Answer}

/-- Rules R244, R247: the report behind the transaction. -/
theorem Acts.reportListening (hh : s.halt = false) (hok : s.ChannelOk .htx) (hroom : s.Room .htx 7) :
    ∃ v, Acts 24 (s.listening brx tmo sum status as (plainStatus 0xF0)) v ∧ v.ForegroundFree ∧
      v.Reported s 0xF0 status ∧ v.dir = .receive := by
  let x := s.listening brx tmo sum status as (plainStatus 0xF0)
  obtain ⟨v, hreport, hfree, hv, hframe⟩ := Acts.report (x := x) ⟨hh, rfl⟩ rfl hok hroom
  refine ⟨v, hreport, hfree, hv.of_kept (s := s) rfl rfl, ?_⟩
  rw [hframe]
  rfl

/-- Rule R247: a replied id that is not the address is reported too. -/
theorem Acts.reportReply {addr rid : Byte} (hh : s.halt = false) (hok : s.ChannelOk .htx) (hroom : s.Room .htx 7) :
    ∃ v, Acts 27 (s.listening brx tmo sum status as (if rid ≠ addr then .pingMark else plainStatus 0xF0)) v ∧
      v.ForegroundFree ∧ v.Reported s 0xF0 (status ||| (if rid = addr then 0x00 else 0x08)) ∧ v.dir = .receive := by
  by_cases hid : rid = addr
  · have hor : status ||| 0x00 = status := BitVec.or_zero
    rw [if_neg (not_not.2 hid), if_pos hid, hor]
    obtain ⟨v, hreport, hv⟩ := Acts.reportListening (brx := brx) (tmo := tmo) (sum := sum) (status := status) (as := as)
      hh hok hroom
    exact ⟨v, hreport.mono (by omega), hv⟩
  · rw [if_pos hid, if_neg hid]
    let x := s.listening brx tmo sum status as .pingMark
    have hmark : Turns (x.proceed ⟨.client, [.setStatus invalidBusResponseMask], [], none⟩)
        ((s.listening brx tmo sum (status ||| 0x08) as .pingMark).told .ok []) := .run hh rfl
    rw [State.listening_told (q := plainStatus 0xF0) rfl] at hmark
    have hacts := Acts.operation (s := x) ⟨hh, rfl⟩ (fun h : Pos.pingMark = .cycleStart => by cases h) rfl hmark
    obtain ⟨v, hreport, hv⟩ := Acts.reportListening hh hok hroom
    exact ⟨v, hacts.trans hreport, hv⟩

/-- Rules R185, R247: a ping without a reply reports `BusTimeout`. -/
theorem Acts.pingUnanswered {addr : Byte} {t : Txn} (hh : s.halt = false) (he : s.Empty .brx) (hok : s.ChannelOk .htx)
    (hroom : s.Room .htx 7) :
    ∃ v, Acts 804 (s.awaitingReply s.brx 0 t (.ping addr)) v ∧ v.ForegroundFree ∧
      v.Reported s 0xF0 (s.status ||| 0x02) ∧ v.dir = .receive := by
  obtain ⟨as, hdry⟩ := Acts.noReply (t := t) (f := .ping addr) hh he
  obtain ⟨v, hreport, hv⟩ := Acts.reportListening hh hok hroom
  exact ⟨v, hdry.trans hreport, hv⟩

/-- Rules R245 to R247: the reply to a ping is taken whole; the ping is then sent again, or reported. -/
theorem Acts.pingReplied {s1 s2 rid len err cks addr : Byte} {ps : List Byte} {t : Txn} (hh : s.halt = false)
    (hc : ({ s with brx := brx } : State).contents .brx = s1 :: s2 :: rid :: len :: err :: (ps ++ [cks]))
    (hps : ps.length = (len - 2).toNat) :
    let st := if s1 ≠ 0xFF ∨ s2 ≠ 0xFF ∨ len - 2 ≠ t.expected then s.status ||| 0x08 else s.status
    let cksOk := cks = checksumOf (rid :: len :: err :: ps)
    let bad := err &&& s.cfg.errCksumMask ≠ 0 ∨ ¬ cksOk
    ∃ brx' sum as q, (s.listening brx' s.cfg.tBusRx 0 0 [] .cycleStart).contents .brx = [] ∧
      Acts 785 (s.awaitingReply brx s.cfg.tBusRx t (.ping addr))
        (s.listening brx' s.cfg.tBusRx sum (if cksOk then st else st ||| 0x80) as q) ∧
      (bad → s.client.retry < 3 → q = .txn .retry t (.ping addr)) ∧
      (¬ bad ∨ 3 ≤ s.client.retry → q = if rid ≠ addr then .pingMark else plainStatus 0xF0) := by
  intro st cksOk bad
  obtain ⟨brx₁, tmo₁, as₁, hcks, hpacket⟩ := Acts.takePacket (t := t) (f := .ping addr) hh hc hps
  let code : Code := if cks = checksumOf (rid :: len :: err :: ps) then .ok else .checksum
  have hcode : code ≠ .timeout ∧ (code = .checksum ↔ ¬ cks = checksumOf (rid :: len :: err :: ps)) := by
    by_cases hm : cks = checksumOf (rid :: len :: err :: ps) <;> simp [code, hm]
  have hk := Client.react_check s.cfg s.client rid err (ps.take t.expected.toNat) t (.ping addr) hcode.1
    (err &&& s.cfg.errCksumMask ≠ 0 ∨ ¬ cks = checksumOf (rid :: len :: err :: ps)) (or_congr_right hcode.2.symm)
  have hdone : txnDone s.cfg { s.client with pos := .txn (.check rid err (ps.take t.expected.toNat)) t (.ping addr) }
      (.ping addr) (if err &&& s.cfg.errCksumMask ≠ 0 ∨ ¬ cks = checksumOf (rid :: len :: err :: ps) then
        .checksumFailure rid err (ps.take t.expected.toNat) else .success rid err (ps.take t.expected.toNat)) =
      if rid ≠ addr then .pingMark else plainStatus 0xF0 := by
    split
    · rfl
    · rfl
  simp only [hdone] at hk
  obtain ⟨brx₂, as₂, hleft, hchecksum⟩ := Acts.takeChecksum (status := st) (as := as₁) hh hcks hk
  exact ⟨brx₂, _, as₂, _, hleft, hpacket.trans hchecksum, fun hb hr => if_pos ⟨hb, hr⟩,
    fun hgood => if_neg fun ⟨hb, hr⟩ => hgood.elim (absurd hb) (Nat.not_le.2 hr)⟩

end Report

/-! ### A channel that nothing arrives at stays empty -/

/-- No micro-step puts a byte in BRX. -/
theorem BlockEffect.empty_brx {s t : State} (h : BlockEffect s t) (he : s.Empty .brx) : t.Empty .brx := by
  cases h with
  | put l b v _ =>
    have hlen := State.push_len_other s (c := txChan l) (c' := .brx) (by cases l <;> simp [txChan]) b
    rw [State.Empty, State.setTxSum_len, hlen]
    exact he
  | got l v hne =>
    cases l with
    | bus => exact absurd he hne
    | host =>
      have hlen := State.dropOldest_len_other s (c := .hrx) (c' := .brx) (by simp)
      rw [State.Empty, State.setRxSum_len]
      exact hlen.trans he
  | flush l =>
    cases l with
    | bus => exact State.len_flushChan s .brx
    | host => exact (State.flushChan_len_other s (c := .hrx) (c' := .brx) (by simp)).trans he
  | _ => simpa [State.Empty] using he

theorem State.runForeground_empty_brx (n : Nat) {s : State} (he : s.Empty .brx) : (s.runForeground n).Empty .brx := by
  refine State.runForeground_keeps (P := fun u => u.Empty .brx) (fun _ _ h => h) (fun u v hu hm => ?_) n s he
  obtain ⟨-, o, -, x, hx, hend⟩ := State.microStep_cases hm
  obtain ⟨o', a, k, rfl⟩ := hend.eq
  exact hx.empty_brx hu

/-- Where the foreground agent comes by a state with nothing in BRX, nothing is there where it stops. -/
theorem Acts.contents_brx {n : Nat} {s t : State} (h : Acts n s t) (hn : n ≤ foregroundFuel)
    (hc : t.contents .brx = []) : (s.runForeground foregroundFuel).contents .brx = [] := by
  obtain ⟨m, hm, hs⟩ := h
  have hempty := State.runForeground_empty_brx (foregroundFuel - m) (t.empty_of_contents hc)
  rw [← hs, Nat.add_sub_cancel' (hm.trans hn)] at hempty
  exact List.length_eq_zero_iff.1 ((State.length_contents _ _).trans hempty)

/-! ### The ping of a device -/

section PingDevice

variable {s : State} {addr : Byte}

/-- Rules R11, R247: a device's address is not the broadcast id. -/
theorem ne_busBroadcastId (haddr : addr.toNat ≤ 253) : addr ≠ busBroadcastId := by
  rintro rfl
  exact absurd haddr (by decide)

/-- Rules R245, R247: a ping of a device is a transaction, whose packet is queued. -/
theorem exec_ping_asks {cks : Byte} {more : List Byte} (haddr : addr.toNat ≤ 253) (hr : s.ClientReady)
    (hc : s.contents .hrx = addr :: cks :: more) (hok : s.ChannelOk .btx) (hroom : s.Room .btx 6)
    (hd : s.cfg.tBusDrain ≠ 0) :
    ∃ hrx tmo as,
      let u := s.hearing hrx tmo (checkedStatus [0xF0, addr] cks) (byteSum [0xF0, addr]) as
        (.txn .dirTx (pingTxn s.cfg addr) (.ping addr))
      u.contents .hrx = more ∧ exec .ping s = .next (u.asked (pingTxn s.cfg addr) (.ping addr)) := by
  have hnull : addr ≠ 0xFF := by rintro rfl; exact absurd haddr (by decide)
  have hbroadcast := ne_busBroadcastId haddr
  obtain ⟨u, hping, hrx, tmo, as, rfl, hleft⟩ := Hearing.ping (q := .txn .dirTx (pingTxn s.cfg addr) (.ping addr)) hr hc
    (fun code hcode => by simp only [Client.react, if_neg hcode, if_neg hnull, if_neg hbroadcast, pingTxn])
  refine ⟨hrx, tmo, as, hleft, exec_ping hr (hping.trans (Acts.ask ⟨hr.1, rfl⟩ rfl hok hroom)) ?_ ?_⟩
  · exact State.asked_holds (s := s.hearing hrx tmo _ _ as _) hr.1 hok hroom hd
  · exact Nat.le_of_ble_eq_true rfl

/-- A count of parameters that fits a byte comes back from the length byte. -/
theorem lengthByte_count {n : Nat} (h : n ≤ 255) : n = (lengthByte (u8 n) - 2).toNat := by
  simp only [lengthByte]
  bv_omega

/-- Clearing a flag undoes what a check may have set. -/
theorem clear_or_ite_mask (good : Prop) [Decidable good] (st m : Byte) :
    (st ||| (if good then 0x00 else m)) &&& ~~~ m = st &&& ~~~ m := by
  ext i hi
  split <;> cases hm : m[i] <;> simp [hm]

/-- A flag that a check leaves clear and its failure sets. -/
theorem ite_mask_or (good : Prop) [Decidable good] (st m : Byte) :
    (if good then st else st ||| m) = st ||| (if good then 0x00 else m) := by
  split
  · exact BitVec.or_zero.symm
  · rfl

/-- Rule R245: once the ping has left, the client listens; it waits for a reply as long as `T_BUS_RX` says, and without one
it reports `BusTimeout`. -/
theorem ping_listens (haddr : addr.toNat ≤ 253) (hh : s.halt = false)
    (ho : s.op = some ⟨.client, [.awaitDrain], [], none⟩)
    (hpos : s.client.pos = .txn .close (pingTxn s.cfg addr) (.ping addr)) (hok : s.ChannelOk .htx) (hroom : s.Room .htx 7)
    (hd : s.Drained .bus) (he : s.Empty .brx) :
    let v := s.runForeground foregroundFuel
    v.dir = .receive ∧ (∀ k, k < s.cfg.tBusRx.toNat → (v.afterTicks k).foregroundStep = none) ∧
      ((v.afterTicks s.cfg.tBusRx.toNat).runForeground foregroundFuel).Reported s 0xF0 (s.status ||| 0x02) ∧
      (s.cfg.tBusRx ≠ 0 → v = s.awaitingReply s.brx s.cfg.tBusRx (pingTxn s.cfg addr) (.ping addr)) := by
  intro v
  have hlisten := Acts.listen hh ho hpos nofun (ne_busBroadcastId haddr) hd
  obtain ⟨r, hreport, hfree, hr, hdir⟩ := Acts.pingUnanswered (addr := addr) (t := pingTxn s.cfg addr) hh he hok hroom
  have hstop := State.foregroundStep_free hfree
  by_cases ht : s.cfg.tBusRx = 0
  · have hv : v = r := by
      rw [ht] at hlisten
      exact (hlisten.trans hreport).run hstop (Nat.le_of_ble_eq_true rfl)
    rw [hv, ht]
    refine ⟨hdir, fun k hk => absurd hk (Nat.not_lt_zero k), ?_, fun h => absurd rfl h⟩
    change (r.runForeground foregroundFuel).Reported s 0xF0 (s.status ||| 0x02)
    rwa [State.runForeground_hold hstop]
  · have hv : v = s.awaitingReply s.brx s.cfg.tBusRx (pingTxn s.cfg addr) (.ping addr) :=
      hlisten.run (State.awaitingReply_holds hh he ht) (Nat.le_of_ble_eq_true rfl)
    rw [hv]
    refine ⟨rfl, fun k hk => ?_, ?_, fun _ => rfl⟩
    · rw [State.awaitingReply_afterTicks hh hk.le]
      exact State.awaitingReply_holds hh he fun h0 => hk.ne ((sub_u8_eq_zero_iff hk.le).1 h0)
    · rw [State.awaitingReply_afterTicks hh le_rfl, (sub_u8_eq_zero_iff le_rfl).2 rfl,
        hreport.run hstop (Nat.le_of_ble_eq_true rfl)]
      exact hr

/-- Rules R142, R183: while the client listens, a reply that finds room arrives as if it had been there all along. -/
theorem busFeed_awaitingReply {tmo : Byte} {t : Txn} {f : TxnFor} {bytes : List Byte} (hh : s.halt = false)
    (hok : s.ChannelOk .brx) (hroom : s.Room .brx bytes.length) :
    (s.awaitingReply s.brx tmo t f).busFeed bytes = s.awaitingReply (s.putAll .brx bytes).brx tmo t f :=
  State.busFeed_receive (s := s.awaitingReply s.brx tmo t f) bytes hh rfl hok hroom

/-- Rules R183, R245: what the reply to a ping says of itself, its sync bytes and its count. -/
theorem ping_reply_flags {head : BusHead} {ps : List Byte} (hps : ps.length ≤ 255) (c : Config) (addr status : Byte) :
    (if head.s1 ≠ 0xFF ∨ head.s2 ≠ 0xFF ∨ lengthByte (u8 ps.length) - 2 ≠ (pingTxn c addr).expected then status ||| 0x08
      else status) =
      status ||| (if head.s1 ≠ 0xFF ∨ head.s2 ≠ 0xFF ∨ ps ≠ [] then 0x08 else 0x00) := by
  have hcount := lengthByte_count hps
  have hzero : lengthByte (u8 ps.length) - 2 = 0 ↔ ps.length = 0 := by
    rw [← BitVec.toNat_inj, ← hcount]
    rfl
  have hnil := not_congr (hzero.trans List.length_eq_zero_iff)
  rw [or_ite_mask]
  exact if_congr (or_congr_right (or_congr_right hnil)) rfl rfl

/-- Rules R245 to R247: a client that listens and finds a whole reply asks again, or reports. -/
theorem ping_replied {brx : Channel} {head : BusHead} {err cks : Byte} {ps : List Byte} (hh : s.halt = false)
    (hpos : s.client.pos = .txn .close (pingTxn s.cfg addr) (.ping addr)) (hok : s.ChannelOk .htx) (hroom : s.Room .htx 7)
    (hc : ({ s with brx := brx } : State).contents .brx = busRxBytes head err ps cks) (hps : ps.length ≤ 255) :
    let cksOk := cks = checksumOf (head.id :: (u8 ps.length + 2) :: err :: ps)
    let bad := err &&& s.cfg.errCksumMask ≠ 0 ∨ ¬ cksOk
    let st := s.status ||| (if head.s1 ≠ 0xFF ∨ head.s2 ≠ 0xFF ∨ ps ≠ [] then 0x08 else 0x00)
    let u := (s.awaitingReply brx s.cfg.tBusRx (pingTxn s.cfg addr) (.ping addr)).runForeground foregroundFuel
    u.contents .brx = [] ∧
      (bad → s.client.retry < 3 → s.ChannelOk .btx → s.Room .btx 6 → s.cfg.tBusDrain ≠ 0 →
        (u.AwaitsDrain ∧ u.dir = .transmit ∧ u.contents .btx = s.contents .btx ++ busTxBytes addr s.cfg.biPing []) ∧
        u.client = { s.client with retry := s.client.retry + 1 } ∧ u.status = st &&& ~~~ 0x80 ∧ u.htx = s.htx) ∧
      (¬ bad ∨ 3 ≤ s.client.retry → u.dir = .receive ∧
        u.Reported s 0xF0 (st ||| (if cksOk then 0x00 else 0x80) ||| (if head.id = addr then 0x00 else 0x08))) := by
  intro cksOk bad st u
  obtain ⟨brx', sum, as, q, hnone, hacts, hagain, hreport⟩ := Acts.pingReplied (addr := addr)
    (t := pingTxn s.cfg addr) hh hc (lengthByte_count hps)
  rw [ping_reply_flags hps, ite_mask_or] at hacts
  refine ⟨hacts.contents_brx (Nat.le_of_ble_eq_true rfl) hnone, fun hbad hretry hokT hroomT hdrain => ?_, fun hgood => ?_⟩
  · rw [hagain hbad hretry] at hacts
    obtain ⟨as', hsend, hhold⟩ := Acts.retry (t := pingTxn s.cfg addr) hh hokT hroomT
    have hu : u = _ := (hacts.trans hsend).run (hhold hdrain) (Nat.le_of_ble_eq_true rfl)
    have hclient : ({ s.client with retry := s.client.retry + 1, pos := .txn .close (pingTxn s.cfg addr) (.ping addr) } :
        Client) = { s.client with retry := s.client.retry + 1 } := by rw [← hpos]
    rw [hu]
    exact ⟨⟨⟨rfl, rfl⟩, rfl, State.asked_contents (t := pingTxn s.cfg addr) hokT hroomT⟩, hclient,
      clear_or_ite_mask _ st 0x80, rfl⟩
  · rw [hreport hgood] at hacts
    obtain ⟨r, hanswer, hfree, hr, hdir⟩ := Acts.reportReply hh hok hroom
    have hu : u = _ := (hacts.trans hanswer).run (State.foregroundStep_free hfree) (Nat.le_of_ble_eq_true rfl)
    rw [hu]
    exact ⟨hdir, hr⟩

/-- Settles O55: the request, its failure, the silence behind it, and the reply, which is asked for again or reported. -/
theorem pingOfADeviceAsksAndReports : Obligations.PingOfADeviceAsksAndReports := by
  intro s addr haddr asked
  refine ⟨fun cks more hr hc hok hroom hd => ?_, fun hh ho hpos hok hroom => ?_⟩
  · obtain ⟨hrx, tmo, as, hleft, hexec⟩ := exec_ping_asks haddr hr hc hok hroom hd
    exact ⟨_, hexec, ⟨⟨rfl, rfl⟩, rfl, State.asked_contents (s := s.hearing hrx tmo _ _ as _) hok hroom⟩, hleft, rfl, rfl,
      rfl, rfl⟩
  intro v
  refine ⟨fun hd ht => ?_, fun hd he => ?_⟩
  · obtain ⟨r, hacts, hfree, hr⟩ := Acts.pingUnsent hh ho hpos hok hroom hd ht
    have hv : v = r := hacts.run (State.foregroundStep_free hfree) (Nat.le_of_ble_eq_true rfl)
    rwa [hv]
  obtain ⟨hdir, hholds, hsilent, hlistens⟩ := ping_listens haddr hh ho hpos hok hroom hd he
  refine ⟨hdir, hholds, hsilent, fun head err cks ps ht hps hokB hroomB => ?_⟩
  let bytes := busRxBytes head err ps cks
  have hlen : bytes.length = ps.length + 6 := by simp [bytes, busRxBytes]
  have hroomB' : s.Room .brx bytes.length := hlen ▸ hroomB
  have hcont : (s.putAll .brx bytes).contents .brx = bytes := by
    rw [(State.putAll_spec bytes hokB hroomB').2.2, List.length_eq_zero_iff.1 ((s.length_contents .brx).trans he)]
    rfl
  have hexec : exec (.busReply head err ps cks) v =
      .next (s.awaitingReply (s.putAll .brx bytes).brx s.cfg.tBusRx (pingTxn s.cfg addr) (.ping addr)) :=
    congrArg Host.Outcome.next
      ((congrArg (State.busFeed · bytes) (hlistens ht)).trans (busFeed_awaitingReply hh hokB hroomB'))
  exact ⟨_, hexec, ping_replied hh hpos hok hroom hcont hps⟩

end PingDevice

end Sys2Proof.Machine
end

section
/-!
PROOFS of the arbiter, timer and status statements (43_arbiter_timer_status.md): the operations on DIR, TMO and STATUS (O34,
O36), the tick (O19), and what the INVALID rows end in (O56).

The operations are each one micro-step that is always enabled (`exec_of_microStep_replies`). The Invalid path is said of any
host command that has come to its first place (`Hearing.invalidPath`), its end of any state that waits out a cooldown.
-/

namespace Sys2Proof.Machine

/-! ### The operations on one register -/

section Registers

variable {s t : State} {i : Instr} {m : Micro} {code : Code} {r : List Byte}

/-- Rules R31, R68: an operation whose one micro-step answers has completed with it. -/
theorem exec_of_microStep_replies (hr : s.Ready) (hp : programOf s.cfg i = some { todo := [m] })
    (h : m.run ⟨.script, [], [], none⟩ s = some (t.reply code r)) : exec i s = .next (t.reply code r) :=
  exec_eq_of_turns hr.2 hp rfl (.run hr.1 h) (t.reply_microStep code r)

end Registers

/-- Rule R217: clearing every flag leaves 0. -/
theorem State.clearFlags_all (s : State) : s.clearFlags 0xFF = { s with status := 0x00 } := by
  have hmask : ~~~(0xFF : Byte) = 0#8 := by decide
  have hand : s.status &&& ~~~(0xFF : Byte) = 0x00 := hmask ▸ BitVec.and_zero
  rw [State.clearFlags, hand]

/-- Settles O34: the micro-step of each operation writes its register. -/
theorem arbiterAndCountdownOperations : Obligations.ArbiterAndCountdownOperations := fun s t hr =>
  ⟨exec_of_microStep_replies (t := s.setDir .transmit) hr rfl rfl,
    exec_of_microStep_replies (t := s.setDir .receive) hr rfl rfl,
    exec_of_microStep_replies (t := s.armTimer t) hr rfl rfl⟩

/-- Settles O36: `ST_READ` answers the register; the others write it, `ST_RESET` by clearing every flag. -/
theorem statusOperations : Obligations.StatusOperations := by
  intro s m hr
  have hreset : exec .stReset s = .next ((s.clearFlags 0xFF).reply .ok []) := exec_of_microStep_replies hr rfl rfl
  rw [State.clearFlags_all] at hreset
  exact ⟨exec_of_microStep_replies hr rfl rfl, hreset, exec_of_microStep_replies (t := s.raise m) hr rfl rfl,
    exec_of_microStep_replies (t := s.clearFlags m) hr rfl rfl⟩

/-! ### The tick -/

/-- Rule R215: a tick that finds the countdown at 0 changes nothing. -/
theorem exec_evTick_zero {s : State} (ht : s.tmo = 0) : exec .evTick s = .next s := by
  simp only [exec, execEvTick, ht, if_true, ite_self]

/-- Settles O19: a running countdown is lowered (`FairEvent.exec_tick`), one that is out stays. -/
theorem tickStopsAtZero : Obligations.TickStopsAtZero := fun _ hh =>
  ⟨FairEvent.exec_tick hh, exec_evTick_zero⟩

/-! ### The Invalid path -/

section InvalidPath

variable {s : State}

/-- Rule R252: wherever a host command takes the Invalid path, the flag is set and reported, and the cooldown is waited out
or, with `T_COOLDOWN = 0`, over. -/
theorem Hearing.invalidPath {u : State} {heard left : List Byte} {status instr : Byte}
    (h : Hearing s heard left status (.invalidSet instr) u) (hh : s.halt = false) (hok : s.ChannelOk .htx)
    (hroom : s.Room .htx 7) :
    ∃ t, Acts 39 u t ∧ t.foregroundStep = none ∧ t.CoolsDown { s.client with retry := 0 } left s.brx ∧
      t.status = status ||| 0x04 ∧
      t.contents .htx = s.contents .htx ++ statusResponse s.client instr (status ||| 0x04) 0x00 ∧
      t = { s with
        hrx := t.hrx, htx := t.htx, brx := t.brx, tmo := t.tmo, status := t.status, hcTxSum := t.hcTxSum,
        hcRxSum := byteSum heard, op := t.op, cmdOut := t.cmdOut, client := t.client } := by
  obtain ⟨v, hmark, hv⟩ := h.mark hh
  obtain ⟨hrx, tmo, as, sum, as', hrespond, hleft⟩ := hv.respond hh hok hroom
  let w := s.hearing hrx tmo (status ||| 0x04) (byteSum heard) as .coolArm
  let r := w.queued .host (statusResponse s.client instr (status ||| 0x04) 0x00) sum as'
  have hcool : Acts 12 r r.cooled := Acts.coolDown ⟨hh, rfl⟩ rfl
  refine ⟨r.cooled, hmark.trans (hrespond.trans hcool), State.cooled_holds hh,
    State.CoolsDown.of_pos (p := .coolArm) (hleft ▸ r.cooled_coolsDown), r.cooled_htx.1,
    r.cooled_htx.2.trans (State.queued_contents (s := w) (l := .host) hok hroom), ?_⟩
  rw [r.cooled_frame]
  rfl

/-- Rule R242: a host command by a free client is the run of its procedure. -/
theorem State.takeCommand_of_acts {t : State} {n : Nat} {b : Byte} {start : Client → Client} (hr : s.ClientReady)
    (h : Acts n (s.dispatched b start) t) (ht : t.foregroundStep = none) (hn : n ≤ foregroundFuel) :
    s.takeCommand b start = .next t :=
  (State.takeCommand_ready b start hr).trans (congrArg _ (h.run ht hn))

/-- Rules R214, R215: the cooldown holds through every tick but the one that runs it out. -/
theorem State.foregroundStep_cooldown (hh : s.halt = false) (ho : s.op = some ⟨.client, [.awaitExpiry], [], none⟩)
    {k : Nat} (hk : k < s.tmo.toNat) : (s.afterTicks k).foregroundStep = none := by
  rw [State.afterTicks_eq k s hh hk.le]
  exact State.foregroundStep_held (s := s.armTimer (s.tmo - u8 k)) (m := .awaitExpiry) hh ho
    fun h0 => hk.ne ((sub_u8_eq_zero_iff hk.le).1 h0)

/-- Rule R252: with that tick the client goes on to the flushes, and to the start of a cycle. -/
theorem State.runForeground_cooldown (hh : s.halt = false) (hpos : s.client.pos = .coolWait)
    (ho : s.op = some ⟨.client, [.awaitExpiry], [], none⟩) :
    (s.afterTicks s.tmo.toNat).runForeground foregroundFuel = s.recovered := by
  rw [State.afterTicks_eq _ s hh le_rfl, (sub_u8_eq_zero_iff le_rfl).2 rfl]
  exact (Acts.recover (s := s.armTimer 0) hh hpos ho rfl).run (State.foregroundStep_free ⟨rfl, rfl⟩)
    (by simp [foregroundFuel])

end InvalidPath

/-- Settles O56: both INVALID rows are the cycle's opening followed by the Invalid path; its end is that of any cooldown. -/
theorem invalidPathReportsCoolsDownAndFlushes : Obligations.InvalidPathReportsCoolsDownAndFlushes := by
  refine ⟨fun s i b hi hr hok hroom => ?_, fun s hh hpos ho =>
    ⟨fun k => State.foregroundStep_cooldown hh ho, State.runForeground_cooldown hh hpos ho⟩⟩
  have hopen : Hearing s [b] (s.contents .hrx) 0x00 (.invalidSet b) (s.dispatched b (Client.startInvalid · b)) :=
    Hearing.dispatched b hr.2.1 rfl
  obtain ⟨t, hacts, hhold, hcool, hst, hout, hframe⟩ := hopen.invalidPath hr.1 hok hroom
  have hcommand : s.takeCommand b (Client.startInvalid · b) = .next t :=
    State.takeCommand_of_acts hr hacts hhold (by simp [foregroundFuel])
  have hflag : (0x00 ||| 0x04 : Byte) = 0x04 := by decide
  rw [hflag] at hst hout
  rw [byteSum_singleton] at hframe
  refine ⟨t, ?_, hcool, hst, hout, hframe⟩
  rcases hi with rfl | rfl
  · exact hcommand
  · exact hcommand

end Sys2Proof.Machine
end

section
/-!
PROOFS of the client statements (45_client_sequencer.md), first part: the host instruction byte (O5) and the cycle it opens
(O49), the retry decision at the closing checksum of a reply (O50), and the blocks `READ_DATA` splits an entry into (O51).
-/

namespace Sys2Proof.Machine

/-! ### The host instruction byte -/

/-- The sync nibble of a host instruction byte, as the decoder takes it. -/
theorem toNat_syncNibble (b : Byte) : (b.extractLsb' 4 4).toNat = b.toNat / 16 := by
  have := b.isLt
  simp only [BitVec.extractLsb'_toNat, Nat.shiftRight_eq_div_pow]
  omega

/-- The command nibble of a host instruction byte, as the decoder takes it. -/
theorem toNat_commandNibble (b : Byte) : (b.extractLsb' 0 4).toNat = b.toNat % 16 := by
  simp [BitVec.extractLsb'_toNat]

/-- Rule R243: under the sync nibble the command nibble decides. -/
theorem decodeHostByte_synced {b : Byte} (h : b.toNat / 16 = 0xF) :
    decodeHostByte b = match b.toNat % 16 with
      | 0 => .ping | 1 => .setReadFormat | 2 => .setWriteFormat | 3 => .readData | 4 => .writeData
      | _ => .reserved b :=
  if_neg (not_not.2 h)

/-- Settles O5: the decoder divides the byte where the rule takes its bits. -/
theorem hostByteRoutesByNibbles : Obligations.HostByteRoutesByNibbles := by
  intro b
  simp only [ne_eq, ← BitVec.toNat_inj, toNat_syncNibble, toNat_commandNibble]
  refine ⟨fun h => if_pos h, fun h hn => ?_, fun h hn => ?_, fun h hn => ?_, fun h hn => ?_, fun h hn => ?_,
    fun h hn => ?_⟩
  case refine_6 =>
    rw [decodeHostByte_synced h]
    split
    case h_6 => rfl
    all_goals omega
  all_goals
    rw [decodeHostByte_synced h, hn]
    rfl

/-! ### The cycle of a host command -/

section Cycle

variable {s : State} {b : Byte}

/-- While an operation is in progress the foreground agent's action is its micro-step. -/
theorem State.foregroundStep_proceed {w : Owner} {m : Micro} {ms : List Micro} {r : List Byte} {p : Option PacketLocals}
    (hh : s.halt = false) : (s.proceed ⟨w, m :: ms, r, p⟩).foregroundStep = m.run ⟨w, ms, r, p⟩ s := by
  rw [← State.microStep_proceed hh]
  simp [State.foregroundStep, hh]

/-- Where the client may issue the operation of its place, it is presented. -/
theorem State.clientIssue_eq {m : Micro} {ms : List Micro} {p : Option PacketLocals} (hr : s.Ready)
    (hp : clientProgram s.cfg s.client = { todo := m :: ms, packet := p }) :
    s.clientIssue = s.proceed ⟨.client, m :: ms, [], p⟩ := by
  simp [State.clientIssue, hr.1, State.issue_free s _ _ hr.2, hp]

/-- The client is idle, the cycle's `ST_RESET` behind it (rule R242). -/
def State.idled (s : State) : State :=
  { s with status := 0x00, cmdOut := s.cmdOut ++ [.plain], client := { s.client with retry := 0, pos := .idle } }

/-- Rule R242: the cycle opens with `ST_RESET`, beside whose answer RETRY is cleared. -/
theorem State.foregroundStep_stReset (hr : s.ClientReady) : s.clientIssue.foregroundStep = some s.idled := by
  obtain ⟨hh, ho, hpos⟩ := hr
  have hissue := State.clientIssue_eq (s := s) ⟨hh, ho⟩ (m := .resetStatus) (ms := []) (p := none)
    (by rw [clientProgram, hpos]; rfl)
  have hreset : (s.clearFlags 0xFF).told .ok [] = s.idled := by
    rw [State.clearFlags_all]
    simp only [State.told, Client.react, hpos, State.idled, ← ho]
    rfl
  rw [hissue, State.foregroundStep_proceed hh, ← hreset]
  rfl

/-- Rules R163, R243: `HC_RX_START` takes the instruction byte, and the client the procedure it routes to. -/
theorem State.run_hcRxStart {more : List Byte} (ho : s.op = none) (hc : s.contents .hrx = b :: more) :
    (Micro.getUntimed .start).run ⟨.client, [], [], none⟩ s.idled =
      some ((s.dropOldest .hrx).dispatched b (fun k => k.route s.cfg b)) := by
  obtain ⟨hne, hold, -⟩ := State.contents_cons s.idled (c := .hrx) hc
  have hget : (Micro.getUntimed .start).run ⟨.client, [], [], none⟩ s.idled =
      some ((s.idled.dropOldest .hrx).useByte .host ⟨.client, [], [], none⟩ b .start) := by
    rw [← hold]
    exact if_neg hne
  have hout : s.cmdOut ++ [.plain] ++ [{ code := .ok, results := [b] }] =
      s.cmdOut ++ [.plain, { code := .ok, results := [b] }] := List.append_assoc _ _ _
  have huse : (s.idled.dropOldest .hrx).useByte .host ⟨.client, [], [], none⟩ b .start =
      { (s.dropOldest .hrx).dispatched b (fun k => k.route s.cfg b) with
        op := none, cmdOut := s.cmdOut ++ [.plain] ++ [{ code := .ok, results := [b] }] } := rfl
  rw [hget, huse, hout, ← ho]
  rfl

/-- Rule R242: the three actions of the client that open a cycle. -/
theorem State.runForeground_cycle {more : List Byte} (hr : s.ClientReady) (hc : s.contents .hrx = b :: more) (n : Nat) :
    s.clientIssue.runForeground (n + 3) =
      ((s.dropOldest .hrx).dispatched b (fun k => k.route s.cfg b)).runForeground n := by
  have hissue : s.idled.foregroundStep = some (s.idled.proceed ⟨.client, [.getUntimed .start], [], none⟩) := by
    rw [← State.clientIssue_eq (s := s.idled) ⟨hr.1, hr.2.1⟩ rfl]
    have ho : s.idled.op = none := hr.2.1
    simp [State.foregroundStep, State.idled, hr.1, hr.2.1]
  have hstart := State.foregroundStep_proceed (s := s.idled) (w := .client) (m := .getUntimed .start) (ms := []) (r := [])
    (p := none) hr.1
  rw [State.run_hcRxStart hr.2.1 hc] at hstart
  rw [State.runForeground_step (State.foregroundStep_stReset hr), State.runForeground_step hissue,
    State.runForeground_step hstart]

/-- Settles O49: both ways lead to the same opened cycle, from which the fuel of the row runs. -/
theorem dispatcherRunsTheDecodedCommand : Obligations.DispatcherRunsTheDecodedCommand := by
  intro s b more hr hc u
  refine ⟨State.runForeground_cycle hr hc, ?_⟩
  rw [exec_host, State.dropOldest_cfg]
  exact State.takeCommand_ready b _ (s := s.dropOldest .hrx) hr

end Cycle

/-! ### The retry decision -/

/-- Settles O50: the three branches of `txnReact` at a closing checksum that did not time out. -/
theorem retryPolicy : Obligations.RetryPolicy := by
  intro c k t f rid err data a hpos hcode
  have hreact : k.react c a =
      if err &&& c.errCksumMask ≠ 0 ∨ a.code = .checksum then
        if k.retry < 3 then { k with pos := .txn .retry t f }
        else { k with pos := txnDone c k f (.checksumFailure rid err data) }
      else { k with pos := txnDone c k f (.success rid err data) } := by
    simp only [Client.react, hpos, txnReact]
    exact if_neg hcode
  refine ⟨fun hbad hretry => ?_, fun hbad hretry => ?_, fun herr hok => ?_⟩
  · rw [hreact, if_pos hbad, if_pos hretry]
    exact ⟨rfl, rfl, rfl, fun _ => ⟨rfl, rfl⟩⟩
  · rw [hreact, if_pos hbad, if_neg (Nat.not_lt.2 hretry)]
  · rw [hreact, if_neg (by simp [herr, hok])]

/-! ### The blocks of `READ_DATA` -/

section Blocks

/-- Rule R250: a block ends at the virtual register. -/
def blockVirt (addr rem : Nat) : Bool := decide (addr + min rem blockCeiling = virtualRegister + 1)

/-- Rule R250: the bytes of a block that are read from the device. -/
def blockPhys (addr rem : Nat) : Nat :=
  if blockVirt addr rem then min rem blockCeiling - 1 else min rem blockCeiling

/-- Rule R250: the transaction of a block. -/
def blockTxn (c : Config) (device : Byte) (addr phys : Nat) : Txn :=
  if phys = 0 then { id := device, instr := c.biPing, params := [], expected := 0 }
  else { id := device, instr := c.biRead, params := [u8 addr, u8 phys], expected := u8 phys }

variable (c : Config) (addr rem : Nat)

theorem readBlock_eq (l : ReadLoop) : readBlock c l =
    .txn .dirTx (blockTxn c l.device l.addr (blockPhys l.addr l.rem))
      (.read { l with addr := l.addr + min l.rem blockCeiling, rem := l.rem - min l.rem blockCeiling }
        (blockVirt l.addr l.rem) (blockPhys l.addr l.rem)) := rfl

theorem blockPhys_le : blockPhys addr rem ≤ 20 := by
  unfold blockPhys blockCeiling
  split <;> omega

/-- The virtual byte is the one a block is trimmed by. -/
theorem blockBytes_block (h : 0 < rem) :
    blockBytes (blockVirt addr rem) (blockPhys addr rem) = min rem blockCeiling := by
  unfold blockBytes blockPhys blockCeiling
  cases blockVirt addr rem with
  | true => simp only [if_true]; omega
  | false => simp only [Bool.false_eq_true, if_false]; omega

/-- Rules R11, R250: of an entry that ends at the virtual register at most, no block is read from it. -/
theorem add_blockPhys_le (h : 0 < rem) (hend : addr + rem ≤ 55) : addr + blockPhys addr rem ≤ 54 := by
  have hvirt : blockVirt addr rem = true ↔ addr + min rem 20 = 55 := decide_eq_true_iff
  unfold blockPhys blockCeiling
  split
  · omega
  · rename_i hv
    have := mt hvirt.2 hv
    omega

theorem blockTxn_ping (device : Byte) {phys : Nat} (h : phys = 0) :
    blockTxn c device addr phys = { id := device, instr := c.biPing, params := [], expected := 0 } := if_pos h

theorem blockTxn_read (device : Byte) {phys : Nat} (h : phys ≠ 0) : blockTxn c device addr phys =
    { id := device, instr := c.biRead, params := [u8 addr, u8 phys], expected := u8 phys } := if_neg h

theorem blockTxn_expected (device : Byte) (phys : Nat) : (blockTxn c device addr phys).expected = u8 phys := by
  by_cases h : phys = 0
  · rw [blockTxn_ping c addr device h, h]; rfl
  · rw [blockTxn_read c addr device h]

end Blocks

/-- Settles O51: the block's transaction (`readBlock_eq`) and its size. -/
theorem noReadCoversTheVirtualRegister : Obligations.NoReadCoversTheVirtualRegister := by
  intro c l hrem hend
  have hbytes := blockBytes_block l.addr l.rem hrem
  refine ⟨_, _, _, _, readBlock_eq c l, add_blockPhys_le l.addr l.rem hrem hend, fun h => ?_, fun h => ?_,
    blockPhys_le l.addr l.rem, congrArg (l.addr + ·) hbytes.symm, ?_⟩
  · rw [blockTxn_ping c l.addr l.device h]
    exact ⟨rfl, rfl⟩
  · rw [blockTxn_read c l.addr l.device h]
    exact ⟨rfl, rfl⟩
  · change l.rem - min l.rem blockCeiling + blockBytes _ _ = l.rem
    omega

end Sys2Proof.Machine
end

section
/-!
PROOFS of the client statements (45_client_sequencer.md), second part: every step keeps the retry bound (O46). RETRY moves at
the opening of a command and at `ST_CLR 80` alone, and the client comes to that operation from the closing checksum of a
reply alone; so each procedure's next place is shown once not to be a retry (`retryBelow`).
-/

namespace Sys2Proof.Machine

/-! ### The places where a retry has been decided on -/

/-- Rule R246: where the client has decided on a retry, fewer than 3 have been used. -/
def retryBelow (n : Nat) : Pos → Prop
  | .txn .retry _ _ => n < 3
  | _ => True

section Places

variable (c : Config) (k : Client) (n : Nat)

theorem retryBelow_emitThenStatus (bs : List Byte) (after : After) : retryBelow n (emitThenStatus bs after) := by
  cases bs <;> trivial

theorem retryBelow_emitThenClose (bs : List Byte) (after : After) : retryBelow n (emitThenClose bs after) := by
  cases bs <;> trivial

theorem retryBelow_after (after : After) : retryBelow n after.pos := by cases after <;> trivial

theorem retryBelow_paramStage (ps : List Byte) (t : Txn) (f : TxnFor) : retryBelow n (.txn (paramStage ps) t f) := by
  cases ps <;> trivial

theorem retryBelow_formatNext (d : TableSel) (left : Nat) (new : List Entry) : retryBelow n (formatNext d left new) := by
  cases left <;> trivial

theorem retryBelow_readFinish (payload : List Byte) : retryBelow n (readFinish c k payload) := by
  unfold readFinish
  cases c.readOrder with
  | statusFirst => trivial
  | payloadFirst => exact retryBelow_emitThenStatus n _ _

theorem retryBelow_readNext (l : ReadLoop) : retryBelow n (readNext c k l) := by
  unfold readNext
  split
  · trivial
  · split
    · trivial
    · exact retryBelow_readFinish c k n _

theorem retryBelow_readBegin (rest : List Entry) : retryBelow n (readBegin c k rest) := by
  unfold readBegin
  cases c.readOrder with
  | statusFirst => exact retryBelow_readNext c k n _
  | payloadFirst => trivial

theorem retryBelow_readGot (l : ReadLoop) (virt : Bool) (phys : Nat) (err : Byte) (data : List Byte) :
    retryBelow n (readGot c k l virt phys err data) := by
  unfold readGot
  simp only
  split
  · trivial
  · exact retryBelow_readNext c k n _

theorem retryBelow_writeNext (es : List Entry) : retryBelow n (writeNext c es) := by
  cases es with
  | nil => trivial
  | cons e es => simp only [writeNext]; split <;> trivial

/-- Rules R247, R250, R251: what follows a transaction's result is no retry. -/
theorem retryBelow_txnDone (f : TxnFor) (r : TxnResult) : retryBelow n (txnDone c k f r) := by
  cases f with
  | ping addr =>
    cases r with
    | success | checksumFailure => simp only [txnDone]; split <;> trivial
    | sendFail | timeout => trivial
  | read l virt phys =>
    cases r with
    | success rid err data => exact retryBelow_readGot c k n l virt phys err data
    | _ => exact retryBelow_readFinish c k n _
  | write rest =>
    cases r with
    | success rid err data => exact retryBelow_writeNext c n rest
    | _ => trivial
  | commit | sendOnly => trivial

end Places

/-! ### The client -/

/-- Rule R246 of the client alone. -/
def Client.RetryBound (k : Client) : Prop := k.retry ≤ 3 ∧ retryBelow k.retry k.pos

theorem State.retryInv_iff {s : State} : s.RetryInv ↔ s.client.RetryBound := by
  refine and_congr_right fun _ => ⟨fun h => ?_, fun h t f hp => ?_⟩
  · unfold retryBelow
    split
    · rename_i hp; exact h _ _ hp
    · trivial
  · rw [hp] at h
    exact h

namespace Client.RetryBound

variable {k : Client} {p : Pos}

/-- The client moves to another place, its retry counter as it is. -/
theorem moveTo (h : k.RetryBound) (hp : retryBelow k.retry p) : Client.RetryBound { k with pos := p } := ⟨h.1, hp⟩

/-- The tables are no part of it. -/
theorem setTable (h : k.RetryBound) (d : TableSel) (es : List Entry) (hp : retryBelow k.retry p) :
    Client.RetryBound { k.setTable d es with pos := p } := by
  cases d with
  | read => exact ⟨h.1, hp⟩
  | write => exact ⟨h.1, hp⟩

/-- Rule R242: the opening of a command sets the counter to 0. -/
theorem restart (k : Client) : Client.RetryBound { k with retry := 0, pos := .idle } := ⟨Nat.zero_le 3, trivial⟩

theorem formatByte (h : k.RetryBound) (d : TableSel) (left : Nat) (got : List Byte) (new : List Entry) (b : Byte) :
    (k.formatByte d left got new b).RetryBound := by
  unfold Client.formatByte
  split
  · simp only
    split
    · exact h.moveTo (retryBelow_formatNext _ d _ _)
    · exact h.setTable d [] trivial
  · exact h.moveTo (by trivial)

/-- Rules R245, R246: a retry is decided on below 3 alone, and counted when it starts. -/
theorem txnReact (h : k.RetryBound) (c : Config) {stage : TxnStage} {t : Txn} {f : TxnFor}
    (hpos : k.pos = .txn stage t f) (a : Answer) : (txnReact c k stage t f a).RetryBound := by
  have hdone : ∀ r, Client.RetryBound { k with pos := txnDone c k f r } := fun r =>
    h.moveTo (retryBelow_txnDone c k _ f r)
  cases stage <;> simp only [Machine.txnReact]
  case dirTx | dirRx => exact h.moveTo (by trivial)
  case start | param => exact h.moveTo (retryBelow_paramStage _ _ t f)
  case close =>
    split
    · exact hdone _
    · split
      · exact h.moveTo (by trivial)
      · split
        · exact hdone _
        · exact h.moveTo (by trivial)
  case packet =>
    split
    · exact h.moveTo (by trivial)
    · exact hdone _
  case check rid err data =>
    split
    · exact hdone _
    · split
      · split
        · rename_i hretry; exact h.moveTo hretry
        · exact hdone _
      · exact hdone _
  case retry =>
    have hbelow : k.retry < 3 := by simpa only [retryBelow, hpos] using h.2
    exact ⟨hbelow, trivial⟩

/-- Rule R243: a command's procedure starts with no retry. -/
theorem route (h : k.RetryBound) (c : Config) (b : Byte) : (k.route c b).RetryBound := by
  unfold Client.route
  split
  case h_5 => exact h.moveTo (retryBelow_writeNext c _ _)
  all_goals exact h.moveTo (by trivial)

/-- Every answer the client takes keeps the bound. -/
theorem react (h : k.RetryBound) (c : Config) (a : Answer) : (k.react c a).RetryBound := by
  unfold Client.react
  cases hp : k.pos with simp only
  | cycleStart => exact restart k
  | idle => exact h.route c _
  | formatCount d =>
    split
    · exact h.setTable d [] trivial
    · split
      · exact h.setTable d [] trivial
      · exact h.moveTo (retryBelow_formatNext _ d _ _)
  | formatEntry d left got new =>
    split
    · exact h.setTable d [] trivial
    · exact h.formatByte d left got new _
  | formatEnd d new =>
    split
    · exact h.setTable d [] trivial
    · exact h.setTable d new trivial
  | readEnd => split <;> exact h.moveTo (retryBelow_readBegin c k _ _)
  | readOpen l => exact h.moveTo (retryBelow_readNext c k _ l)
  | txn stage t f => exact h.txnReact c hp a
  | statusRetry payload after => exact h.moveTo (retryBelow_emitThenClose _ _ after)
  | statusEnd after => exact h.moveTo (retryBelow_after _ after)
  | emit b bs f =>
    split
    case h_4 => exact h.moveTo (retryBelow_readNext c k _ _)
    all_goals exact h.moveTo (by trivial)
  | pingAddr | writeEnd => split <;> exact h.moveTo (by trivial)
  | pingEnd addr =>
    split
    · exact h.moveTo (by trivial)
    · split
      · exact h.moveTo (by trivial)
      · split <;> exact h.moveTo (by trivial)
  | writeArg left data e rest =>
    split
    · exact h.moveTo (by trivial)
    · split <;> exact h.moveTo (by trivial)
  | _ => exact h.moveTo (by trivial)

end Client.RetryBound

/-! ### The step -/

/-- A micro-step leaves the client as it is, or gives it the answer it waits for. -/
theorem State.RetryInv.microStep {s t : State} (h : s.RetryInv) (hm : s.microStep = some t) : t.RetryInv := by
  have hclient := State.retryInv_iff.1 h
  refine State.retryInv_iff.2 ?_
  obtain ⟨o, o', -, -, -, -, ⟨-, hk⟩ | ⟨-, code, hk⟩⟩ := State.microStep_op hm
  · exact hk ▸ hclient
  · rw [hk]
    cases o.owner with
    | script => exact hclient
    | client => exact hclient.react s.cfg _

/-- Settles O46: the client alone holds the counter; it moves by the answers it takes, by the opening of a host command, by
the sending of a packet and by a refreshed sample, and RESET sets the counter to 0. -/
theorem stepKeepsRetryBound : Obligations.StepKeepsRetryBound := by
  intro s t hs hst
  refine step_keeps (P := State.RetryInv) ?input ?issue ?micro ?host ?send ?event ?analog hs hst
  case input => exact fun s l h => h
  case issue =>
    intro s w p h ho _
    rw [State.issue_free s w p ho]
    exact h
  case micro => exact fun s t h hm => h.microStep hm
  case host =>
    exact fun s b _ _ => State.retryInv_iff.2 ((Client.RetryBound.restart s.client).route s.cfg b)
  case send =>
    exact fun s id instr params h _ => State.retryInv_iff.2 ((State.retryInv_iff.1 h).moveTo (by trivial))
  case analog => intro s a v h; cases a <;> exact h
  case event =>
    intro s t i h hi hx
    rcases or_assoc.2 hi with hi | hi
    · exact exec_event_keeps (P := State.RetryInv)
        (fun u v hu he => State.retryInv_iff.2 (he.client ▸ State.retryInv_iff.1 hu)) hi h hx
    · cases i <;> simp only [Instr.format, reduceCtorEq] at hi
      case reset => cases hx; exact State.retryInv_iff.2 ⟨Nat.zero_le 3, trivial⟩

end Sys2Proof.Machine
end

section
/-!
PROOFS of the client statements, third part: every step keeps the byte count of `READ_DATA` (O48). Each place the loop of
rule R250 comes to is shown once to keep the count, from the count before it; what a reply may add is bounded by the locals
of its `BC_RX_PACKET` (`packetBound`), which no micro-step fills beyond what was asked for (`PacketKept`).
-/

namespace Sys2Proof.Machine

/-! ### The places of `READ_DATA` -/

section Places

variable {c : Config} {k : Client} {n : Nat}

theorem readCount_emitThenStatus (bs : List Byte) (after : After) : readCount n (emitThenStatus bs after) := by
  cases bs <;> trivial

theorem readCount_emitThenClose (bs : List Byte) (after : After) : readCount n (emitThenClose bs after) := by
  cases bs <;> trivial

/-- What follows a run of emitted bytes keeps the count, not the bytes. -/
theorem readCount_emit {b b' : Byte} {bs bs' : List Byte} {f : EmitThen} (h : readCount n (.emit b bs f)) :
    readCount n (.emit b' bs' f) := by
  cases f <;> exact h

/-- A plain status response that is not of `READ_DATA` is no part of the count. -/
theorem readCount_plainStatus {instr : Byte} (h : instr ≠ 0xF3) : readCount n (plainStatus instr) :=
  fun h' => absurd h' h

theorem readCount_after (after : After) : readCount n after.pos := by cases after <;> trivial

theorem readCount_formatNext (d : TableSel) (left : Nat) (new : List Entry) : readCount n (formatNext d left new) := by
  cases left <;> trivial

theorem readCount_writeNext (es : List Entry) : readCount n (writeNext c es) := by
  cases es with
  | nil => trivial
  | cons e es => simp only [writeNext]; split <;> trivial

/-- Rule R250, label `backfill`: the sentinels fill up what has been obtained to exactly what is owed. -/
theorem readCount_readFinish {payload : List Byte} (h : payload.length ≤ totalBytesOf k.readTable) :
    readCount (totalBytesOf k.readTable) (readFinish c k payload) := by
  unfold readFinish
  cases c.readOrder with
  | statusFirst =>
    intro _
    rw [List.length_append, List.length_replicate]
    omega
  | payloadFirst => exact readCount_emitThenStatus _ _

/-- Rule R250: a block adds what it takes off the rest of its entry, the virtual byte included. -/
theorem readCount_readBlock {l : ReadLoop} (hrem : l.rem ≠ 0) (h : l.payload.length + l.owed ≤ n) :
    readCount n (readBlock c l) := by
  have hbytes := blockBytes_block l.addr l.rem (Nat.pos_of_ne_zero hrem)
  rw [readBlock_eq]
  refine ⟨?_, blockPhys_le _ _, blockTxn_expected c _ _ _, nofun⟩
  simp only [ReadLoop.owed] at h ⊢
  omega

/-- Rule R250: entries of length 0 are owed nothing. -/
theorem totalBytesOf_firstNonEmpty {es rest : List Entry} {e : Entry} (h : firstNonEmpty es = some (e, rest)) :
    totalBytesOf es = e.length.toNat + totalBytesOf rest ∧ e.length.toNat ≠ 0 := by
  induction es with
  | nil => cases h
  | cons e' es ih =>
    simp only [firstNonEmpty] at h
    split at h
    · rename_i hzero
      obtain ⟨htotal, hne⟩ := ih h
      exact ⟨by rw [totalBytesOf, hzero, htotal]; omega, hne⟩
    · rename_i hne
      cases h
      exact ⟨rfl, hne⟩

theorem readCount_readNext {l : ReadLoop} (h : l.payload.length + l.owed ≤ totalBytesOf k.readTable) :
    readCount (totalBytesOf k.readTable) (readNext c k l) := by
  unfold readNext
  split
  · rename_i hrem; exact readCount_readBlock hrem h
  · split
    · rename_i e es hfirst
      obtain ⟨htotal, hne⟩ := totalBytesOf_firstNonEmpty hfirst
      refine readCount_readBlock hne ?_
      simp only [ReadLoop.owed] at h ⊢
      omega
    · exact readCount_readFinish (by omega)

/-- Rule R250: the loop starts with nothing obtained and no more owed than the table has. -/
theorem readCount_readBegin {rest : List Entry} (h : totalBytesOf rest ≤ totalBytesOf k.readTable) :
    readCount (totalBytesOf k.readTable) (readBegin c k rest) := by
  have howed : ([] : List Byte).length + ReadLoop.owed { payload := [], device := 0, addr := 0, rem := 0, rest := rest } ≤
      totalBytesOf k.readTable := by
    simp only [ReadLoop.owed, List.length_nil]
    omega
  unfold readBegin
  cases c.readOrder with
  | statusFirst => exact readCount_readNext howed
  | payloadFirst => exact howed

/-- Rule R250: a reply adds exactly its block, whatever is short in it being filled up. -/
theorem readCount_readGot {l : ReadLoop} {virt : Bool} {phys : Nat} (err : Byte) {data : List Byte}
    (h : l.payload.length + blockBytes virt phys + l.owed ≤ totalBytesOf k.readTable) (hdata : data.length ≤ phys) :
    readCount (totalBytesOf k.readTable) (readGot c k l virt phys err data) := by
  have hchunk : (l.payload ++ (data ++ List.replicate (phys - data.length) sentinel ++
      (if virt then [err] else []))).length = l.payload.length + blockBytes virt phys := by
    cases virt <;> simp [blockBytes] <;> omega
  unfold readGot
  simp only
  rw [← hchunk] at h
  split
  · exact h
  · exact readCount_readNext h

/-- Rules R247, R250, R251: what follows a transaction's result keeps the count where its data are no more than asked for. -/
theorem readCount_txnDone {stage : TxnStage} {t : Txn} {f : TxnFor} {r : TxnResult}
    (h : readCount (totalBytesOf k.readTable) (.txn stage t f))
    (hdata : ∀ l virt phys rid err data, f = .read l virt phys → r = .success rid err data → data.length ≤ phys) :
    readCount (totalBytesOf k.readTable) (txnDone c k f r) := by
  have hplain : ∀ {instr}, instr ≠ 0xF3 → readCount (totalBytesOf k.readTable) (plainStatus instr) :=
    readCount_plainStatus
  cases f with
  | ping addr =>
    cases r with
    | success | checksumFailure =>
      simp only [txnDone]
      split
      · trivial
      · exact hplain (by decide)
    | sendFail | timeout => exact hplain (by decide)
  | read l virt phys =>
    obtain ⟨hcount, -, -, -⟩ := h
    cases r with
    | success rid err data => exact readCount_readGot err hcount (hdata _ _ _ _ _ _ rfl rfl)
    | _ => exact readCount_readFinish (by omega)
  | write rest =>
    cases r with
    | success rid err data => exact readCount_writeNext rest
    | _ => exact hplain (by decide)
  | commit => exact hplain (by decide)
  | sendOnly => trivial

/-- A transaction that goes on keeps the count; at its checksum it holds no more data than it asked for. -/
theorem readCount_txn {stage stage' : TxnStage} {t : Txn} {f : TxnFor} (h : readCount n (.txn stage t f))
    (hdata : ∀ l virt phys rid err data, f = .read l virt phys → stage' = .check rid err data → data.length ≤ phys) :
    readCount n (.txn stage' t f) := by
  cases f with
  | read l virt phys =>
    obtain ⟨hcount, hphys, hexp, -⟩ := h
    exact ⟨hcount, hphys, hexp, fun rid err data => hdata l virt phys rid err data rfl⟩
  | _ => trivial

end Places

/-! ### The client -/

/-- Rule R250 of the client alone. -/
def Client.ReadSound (k : Client) : Prop := readCount (totalBytesOf k.readTable) k.pos

/-- The data of an answer the client takes for a reply's packet are no more than it asked for (rule R183). -/
def Client.AsksFor (k : Client) (a : Answer) : Prop :=
  ∀ t f, k.pos = .txn .packet t f → ∀ rid len err count data, a.results = rid :: len :: err :: count :: data →
    data.length ≤ t.expected.toNat

namespace Client.ReadSound

variable {k : Client} {c : Config} {p : Pos}

/-- The client moves to another place, its tables as they are. -/
theorem moveTo (hp : readCount (totalBytesOf k.readTable) p) : Client.ReadSound { k with pos := p } := hp

/-- Outside `READ_DATA` the tables may change. -/
theorem setTable (k : Client) (d : TableSel) (es : List Entry) (hp : ∀ n, readCount n p) :
    Client.ReadSound { k.setTable d es with pos := p } := hp _

/-- Rules R248, R249: no `SET_FORMAT` answers with 0xF3. -/
theorem formatInstr_ne (d : TableSel) : formatInstr d ≠ 0xF3 := by cases d <;> decide

theorem formatViolation (k : Client) (d : TableSel) : (k.formatViolation d).ReadSound :=
  setTable k d [] fun _ => formatInstr_ne d

theorem formatAbandoned (k : Client) (d : TableSel) : (k.formatAbandoned d).ReadSound :=
  setTable k d [] fun _ => readCount_plainStatus (formatInstr_ne d)

theorem formatByte (k : Client) (d : TableSel) (left : Nat) (got : List Byte) (new : List Entry) (b : Byte) :
    (k.formatByte d left got new b).ReadSound := by
  unfold Client.formatByte
  split
  · simp only
    split
    · exact moveTo (readCount_formatNext d _ _)
    · exact formatViolation k d
  · exact moveTo (by trivial)

/-- Rule R243: 0xF3 is the byte of `READ_DATA`, and none an INVALID row echoes. -/
theorem route (k : Client) (c : Config) (b : Byte) : (k.route c b).ReadSound := by
  have hne : ∀ n, 0xF5 ≤ n ∨ n < 0xF0 → n = b.toNat → b ≠ 0xF3 := by
    rintro n hn rfl rfl
    revert hn
    decide
  unfold Client.route
  rcases decodeHostByte_cases b with ⟨h, -⟩ | ⟨h, -⟩ | ⟨h, -⟩ | ⟨h, -⟩ | ⟨h, -⟩ | ⟨h, hb⟩ | ⟨h, hb⟩ <;> rw [h]
  · exact moveTo (by trivial)
  · exact moveTo (by trivial)
  · exact moveTo (by trivial)
  · exact moveTo (by trivial)
  · exact moveTo (readCount_writeNext _)
  · exact moveTo (hne _ (.inl hb) rfl)
  · exact moveTo (hne _ (.inr hb) rfl)

/-- Rule R250: a block asks for at most 20 bytes, so its packet tells how many. -/
theorem length_le_phys {t : Txn} {f : TxnFor} {l : ReadLoop} {virt : Bool} {phys m : Nat} {stage : TxnStage}
    (h : readCount m (.txn stage t f)) (hf : f = .read l virt phys) {data : List Byte}
    (hdata : data.length ≤ t.expected.toNat) : data.length ≤ phys := by
  subst hf
  obtain ⟨-, hphys, hexp, -⟩ := h
  rw [hexp] at hdata
  bv_omega

/-- Rules R245, R246, R250: a transaction's stages keep the count. -/
theorem txnReact {stage : TxnStage} {t : Txn} {f : TxnFor} {a : Answer} (h : k.ReadSound)
    (hpos : k.pos = .txn stage t f) (hasked : k.AsksFor a) : (txnReact c k stage t f a).ReadSound := by
  have hcount : readCount (totalBytesOf k.readTable) (.txn stage t f) := hpos ▸ h
  have hdone : ∀ r, (∀ rid err data, r ≠ .success rid err data) →
      Client.ReadSound { k with pos := txnDone c k f r } := fun r hr =>
    moveTo (readCount_txnDone hcount fun _ _ _ rid err data _ h => absurd h (hr rid err data))
  have hstage : ∀ stage', (∀ rid err data, stage' ≠ .check rid err data) →
      Client.ReadSound { k with pos := .txn stage' t f } := fun stage' hs =>
    moveTo (readCount_txn hcount fun _ _ _ rid err data _ h => absurd h (hs rid err data))
  have hparams : ∀ ps rid err data, paramStage ps ≠ .check rid err data := fun ps => by cases ps <;> exact nofun
  cases stage <;> simp only [Machine.txnReact]
  case dirTx | dirRx => exact hstage _ nofun
  case start | param => exact hstage _ (hparams _)
  case close =>
    split
    · exact hdone _ nofun
    · split
      · exact moveTo (by trivial)
      · split
        · exact moveTo (readCount_txnDone hcount fun _ _ _ _ _ _ _ h => by cases h; exact Nat.zero_le _)
        · exact hstage _ nofun
  case packet =>
    split
    · rename_i rid len err count data hcode hres
      have hlen := hasked t f hpos rid len err count data hres
      exact moveTo (readCount_txn hcount fun _ _ _ _ _ _ hf h => by cases h; exact length_le_phys hcount hf hlen)
    · exact hdone _ nofun
  case check rid err data =>
    split
    · exact hdone _ nofun
    · split
      · split
        · exact hstage _ nofun
        · exact hdone _ nofun
      · refine moveTo (readCount_txnDone hcount fun l virt phys rid' err' data' hf h => ?_)
        subst hf
        cases h
        exact hcount.2.2.2 rid err data rfl
  case retry => exact hstage _ nofun

/-- Every answer the client takes keeps the count. -/
theorem react {a : Answer} (h : k.ReadSound) (hasked : k.AsksFor a) : (k.react c a).ReadSound := by
  have hcount := h
  unfold Client.ReadSound at hcount
  unfold Client.react
  cases hp : k.pos with (simp only; rw [hp] at hcount)
  | cycleStart => exact moveTo (k := { k with retry := 0 }) (by trivial)
  | idle => exact route k c _
  | formatCount d =>
    split
    · exact formatAbandoned k d
    · split
      · exact formatViolation k d
      · exact moveTo (readCount_formatNext d _ _)
  | formatEntry d left got new =>
    split
    · exact formatAbandoned k d
    · exact formatByte k d left got new _
  | formatEnd d new =>
    split
    · exact formatAbandoned k d
    · exact setTable k d new fun _ => readCount_plainStatus (formatInstr_ne d)
  | readEnd =>
    split
    · exact moveTo (readCount_readBegin (Nat.zero_le _))
    · exact moveTo (readCount_readBegin le_rfl)
  | readOpen l => exact moveTo (readCount_readNext hcount)
  | txn stage t f => exact h.txnReact hp hasked
  | invalidSet instr => exact moveTo (p := .statusStart instr [] .cooldown) fun h => absurd h hcount
  | statusRetry payload after => exact moveTo (readCount_emitThenClose _ after)
  | statusEnd after => exact moveTo (readCount_after after)
  | emit b bs f =>
    split
    case h_1 => exact moveTo (readCount_emit hcount)
    case h_4 => exact moveTo (readCount_readNext hcount)
    all_goals exact moveTo (by trivial)
  | pingAddr =>
    split
    · exact moveTo (readCount_plainStatus (by decide))
    · exact moveTo (by trivial)
  | pingEnd addr =>
    split
    · exact moveTo (readCount_plainStatus (by decide))
    · split
      · exact moveTo (readCount_plainStatus (by decide))
      · split
        · exact moveTo (p := invalidPath 0xF0) (show (0xF0 : Byte) ≠ 0xF3 by decide)
        · exact moveTo (by trivial)
  | pingMark => exact moveTo (readCount_plainStatus (by decide))
  | writeArg left data e rest =>
    split
    · exact moveTo (readCount_plainStatus (by decide))
    · split <;> exact moveTo (by trivial)
  | writeEnd =>
    split
    · exact moveTo (readCount_plainStatus (by decide))
    · exact moveTo (by trivial)
  | _ => exact moveTo (by trivial)

end Client.ReadSound

/-! ### The step -/

/-- With no operation in progress there are no locals. -/
theorem packetBound_none (p : Pos) : packetBound none p := by
  unfold packetBound
  split
  · exact nofun
  · trivial

/-- Rule R183: a micro-step of the packet's operation leaves its locals within what was asked for. -/
theorem packetBound_kept {o o' : Op} {p : Pos} (h : packetBound (some o) p) (howner : o'.owner = o.owner)
    (hkept : PacketKept o.packet o'.packet) : packetBound (some o') p := by
  unfold packetBound at h ⊢
  split
  · rintro _ ⟨rfl⟩ hclient
    obtain ⟨q, hq, hexp, hlen⟩ := h o rfl (howner ▸ hclient)
    obtain ⟨q', hq', hexp', hlen'⟩ := hkept q hq
    exact ⟨q', hq', hexp'.trans hexp, hexp' ▸ hlen' hlen⟩
  · trivial

/-- Rule R183: the answer of the packet's operation carries no more data than were asked for. -/
theorem asksFor_of_packetBound {o o' : Op} {k : Client} {code : Code} (h : packetBound (some o) k.pos)
    (hclient : o.owner = .client) (howner : o'.owner = o.owner) (hkept : PacketKept o.packet o'.packet) :
    k.AsksFor { code := code, results := o'.answerBytes } := by
  intro t f hpos rid len err count data hres
  have hbound := packetBound_kept h howner hkept
  rw [hpos] at hbound
  obtain ⟨q, hq, hexp, hlen⟩ := hbound o' rfl (howner.trans hclient)
  simp only [Op.answerBytes, hq, PacketLocals.results, List.cons.injEq] at hres
  obtain ⟨-, -, -, -, rfl⟩ := hres
  exact hexp ▸ hlen

theorem State.readInv_iff {s : State} : s.ReadInv ↔ s.client.ReadSound ∧ packetBound s.op s.client.pos := Iff.rfl

/-- A client that has no operation in progress has only its own count to keep. -/
theorem State.ReadInv.of_free {s : State} (ho : s.op = none) (h : s.client.ReadSound) : s.ReadInv :=
  State.readInv_iff.2 ⟨h, ho ▸ packetBound_none _⟩

/-- A micro-step leaves the client as it is, or gives it the answer it waits for. -/
theorem State.ReadInv.microStep {s t : State} (h : s.ReadInv) (hm : s.microStep = some t) : t.ReadInv := by
  obtain ⟨hclient, hbound⟩ := State.readInv_iff.1 h
  obtain ⟨o, o', ho, howner, hkept, -, ⟨hop, hk⟩ | ⟨hop, code, hk⟩⟩ := State.microStep_op hm
  · rw [ho] at hbound
    exact State.readInv_iff.2 ⟨hk ▸ hclient, hop ▸ hk ▸ packetBound_kept hbound howner hkept⟩
  · refine .of_free hop ?_
    rw [hk]
    cases hw : o.owner with
    | script => exact hclient
    | client => exact hclient.react (asksFor_of_packetBound (ho ▸ hbound) hw howner hkept)

/-- Rule R183: the client issues `BC_RX_PACKET` with the count its transaction expects and nothing stored. -/
theorem State.ReadInv.issue {s : State} {w : Owner} {p : Program} (h : s.ReadInv) (ho : s.op = none)
    (hp : w = .client → p = clientProgram s.cfg s.client) : (s.issue w p).ReadInv := by
  rw [State.issue_free s w p ho]
  refine State.readInv_iff.2 ⟨h.1, ?_⟩
  simp only
  unfold packetBound
  split
  · rename_i t f hpos
    rintro _ ⟨rfl⟩ hclient
    rw [hp hclient, clientProgram, hpos]
    exact ⟨_, rfl, rfl, Nat.zero_le _⟩
  · trivial

/-- No event touches the operation in progress. -/
theorem EventEffect.op {s t : State} (h : EventEffect s t) : t.op = s.op := by
  cases h with
  | arrive l b =>
    unfold State.arrive
    split
    · rfl
    · exact State.push_op s _ b
  | load l => simp [State.loadShift]
  | sent l b => simp
  | lost => exact State.setShift_op s _ _
  | none | tick | halt => rfl

/-- Settles O48: the count moves with the answers the client takes, and a command, a packet's sending and RESET start
outside `READ_DATA`. -/
theorem stepKeepsReadPayloadExact : Obligations.StepKeepsReadPayloadExact := by
  intro s t hs hst
  refine step_keeps (P := State.ReadInv) ?input ?issue ?micro ?host ?send ?event ?analog hs hst
  case input => exact fun s l h => h
  case issue => exact fun s w p h ho hp => h.issue ho hp
  case micro => exact fun s t h hm => h.microStep hm
  case host =>
    exact fun s b _ hr => .of_free (s := s.dispatched b _) hr.2.1
      (Client.ReadSound.route { s.client with retry := 0, pos := .idle } s.cfg b)
  case send => exact fun s id instr params _ hr => .of_free (s := { s with client := _ }) hr.2.1 (by trivial)
  case analog => intro s a v h; cases a <;> exact h
  case event =>
    intro s t i h hi hx
    rcases or_assoc.2 hi with hi | hi
    · exact exec_event_keeps (P := State.ReadInv)
        (fun u v hu he => State.readInv_iff.2 (he.client ▸ he.op ▸ State.readInv_iff.1 hu)) hi h hx
    · cases i <;> simp only [Instr.format, reduceCtorEq] at hi
      case reset => cases hx; exact .of_free rfl (by trivial)

end Sys2Proof.Machine
end

section
/-!
PROOFS of the client statements, fourth part: `SET_FORMAT` that succeeds (O57) and that fails (O58). Its arguments are read as
any host command's (`Hearing`); where it ends, the client that goes on is one with another table (`State.withTable`). A byte
that does not come is said of any place at which a host command reads (`Hearing.starves`).
-/

namespace Sys2Proof.Machine

/-! ### A host command that writes a table -/

/-- The client has another table (rules R241, R248). -/
def State.withTable (s : State) (d : TableSel) (es : List Entry) : State := { s with client := s.client.setTable d es }

section Tables

variable {s u : State} {heard left : List Byte} {b status instr : Byte} {p q : Pos} {d : TableSel} {es : List Entry}

/-- A table is written beside the answer the client takes; the counter and the place are written beside it. -/
theorem Client.setTable_moved (k : Client) (d : TableSel) (es : List Entry) (r : Nat) (p q : Pos) :
    { Client.setTable { k with retry := r, pos := p } d es with pos := q } =
      { k.setTable d es with retry := r, pos := q } := by
  cases d <;> rfl

/-- A response carries nothing of the tables. -/
theorem statusResponse_setTable (k : Client) (instr status retry : Byte) :
    statusResponse (k.setTable d es) instr status retry = statusResponse k instr status retry := by
  cases d <;> rfl

theorem State.hearing_told_withTable {hrx : Channel} {tmo sum : Byte} {as : List Answer} {code : Code} {r : List Byte}
    (hk : Client.react s.cfg { s.client with retry := 0, pos := p } { code := code, results := r } =
      { s.client.setTable d es with retry := 0, pos := q }) :
    (s.hearing hrx tmo status sum as p).told code r =
      (s.withTable d es).hearing hrx tmo status sum (as ++ [{ code := code, results := r }]) q := by
  have htold : (s.hearing hrx tmo status sum as p).told code r = { s.hearing hrx tmo status sum as p with
      op := none
      cmdOut := as ++ [{ code := code, results := r }]
      client := Client.react s.cfg { s.client with retry := 0, pos := p } { code := code, results := r } } := rfl
  rw [htold, hk]
  rfl

/-- Rule R164: an argument byte is read and summed, and the client answers it with a table. -/
theorem Hearing.readWithTable (h : Hearing s heard (b :: left) status p u) (hh : s.halt = false) (hp : p ≠ .cycleStart)
    (hprog : clientProgram s.cfg { s.client with retry := 0, pos := p } = hcRxByteProgram s.cfg true)
    (hk : Client.react s.cfg { s.client with retry := 0, pos := p } { code := .ok, results := [b] } =
      { s.client.setTable d es with retry := 0, pos := q }) :
    ∃ v, Acts 5 u v ∧ Hearing (s.withTable d es) (heard ++ [b]) left status q v := by
  obtain ⟨hrx, tmo, as, rfl, hc⟩ := h
  obtain ⟨hleft, hturns⟩ := Turns.hear hh hc (.byte true)
  let w := s.hearing { hrx with get := hrx.get + 1 } s.cfg.tHostRx status (byteSum heard + b) as p
  have huse : (s.hearing { hrx with get := hrx.get + 1 } s.cfg.tHostRx status (byteSum heard) as p).useByte .host
      ⟨.client, [], [], none⟩ b (.byte true) = w.told .ok [b] := rfl
  have hsum : byteSum heard + b = byteSum (heard ++ [b]) := by rw [byteSum_append, byteSum_singleton]
  rw [huse, State.hearing_told_withTable hk, hsum] at hturns
  exact ⟨_, Acts.operation (s := s.hearing hrx tmo status (byteSum heard) as p) ⟨hh, rfl⟩ hp hprog hturns, _, _, _, rfl,
    hleft⟩

/-- Rule R165: whichever way the checksum byte compares, the client is told so, and the status says it. -/
theorem Turns.hearChecksum {hrx : Channel} {tmo cks : Byte} {as : List Answer} (hh : s.halt = false)
    (hc : (s.hearing hrx tmo 0x00 (byteSum heard) as p).contents .hrx = cks :: left) :
    ∃ code, code ≠ Code.timeout ∧
      Turns ((s.hearing hrx tmo 0x00 (byteSum heard) as p).proceed
          ⟨.client, [.arm s.cfg.tHostRx, .get .host .check], [], none⟩)
        ((s.hearing { hrx with get := hrx.get + 1 } s.cfg.tHostRx (checkedStatus heard cks) (byteSum heard) as p).told
          code []) := by
  obtain ⟨-, hturns⟩ := Turns.hear hh hc .check
  let w := s.hearing { hrx with get := hrx.get + 1 } s.cfg.tHostRx 0x00 (byteSum heard) as p
  by_cases hm : cks = checksumOf heard
  · have huse : w.useByte .host ⟨.client, [], [], none⟩ cks .check = w.told .ok [] := if_pos hm
    rw [checkedStatus, if_pos hm]
    exact ⟨.ok, nofun, huse ▸ hturns⟩
  · have huse : w.useByte .host ⟨.client, [], [], none⟩ cks .check =
        w.proceed ⟨.client, [.fail hostChecksumErrorMask .checksum], [], none⟩ := if_neg hm
    have hfail : Turns (w.proceed ⟨.client, [.fail hostChecksumErrorMask .checksum], [], none⟩)
        ((w.raise hostChecksumErrorMask).told .checksum []) := .run hh rfl
    have hflag : (0x00 ||| hostChecksumErrorMask : Byte) = 0x40 := by decide
    rw [State.hearing_raise, hflag] at hfail
    rw [checkedStatus, if_neg hm]
    exact ⟨.checksum, nofun, (huse ▸ hturns).trans hfail⟩

/-- Rule R165: the checksum byte is read, and the client answers it with a table. -/
theorem Hearing.checkWithTable {cks : Byte} (h : Hearing s heard (cks :: left) 0x00 p u) (hh : s.halt = false)
    (hp : p ≠ .cycleStart) (hprog : clientProgram s.cfg { s.client with retry := 0, pos := p } = hcRxEndProgram s.cfg)
    (hk : ∀ code, code ≠ .timeout → Client.react s.cfg { s.client with retry := 0, pos := p }
      { code := code, results := [] } = { s.client.setTable d es with retry := 0, pos := q }) :
    ∃ v, Acts 5 u v ∧ Hearing (s.withTable d es) heard left (checkedStatus heard cks) q v := by
  obtain ⟨hrx, tmo, as, rfl, hc⟩ := h
  obtain ⟨hleft, -⟩ := Turns.hear hh hc .check
  obtain ⟨code, hcode, hturns⟩ := Turns.hearChecksum hh hc
  rw [State.hearing_told_withTable (hk code hcode)] at hturns
  exact ⟨_, Acts.operation (s := s.hearing hrx tmo 0x00 (byteSum heard) as p) ⟨hh, rfl⟩ hp hprog hturns, _, _, _, rfl,
    hleft⟩

/-- Rule R244: a plain status response ends the command, the table written. -/
theorem Hearing.reportWithTable (h : Hearing (s.withTable d es) heard left status (plainStatus instr) u)
    (hr : s.ClientReady) (hok : s.ChannelOk .htx) (hroom : s.Room .htx 7) :
    ∃ t, Acts 24 u t ∧ t.ForegroundFree ∧ t.client = { s.client.setTable d es with retry := 0 } ∧ t.status = status ∧
      t.contents .hrx = left ∧
      t.contents .htx = s.contents .htx ++ statusResponse s.client instr status 0x00 ∧
      t.busOut = s.busOut ∧ t.btx = s.btx ∧ t.brx = s.brx ∧ t.dir = s.dir := by
  obtain ⟨hrx, tmo, as, sum, as', hacts, hleft⟩ := h.respond hr.1 hok hroom
  have hclient : { s.client.setTable d es with retry := 0, pos := .cycleStart } =
      { s.client.setTable d es with retry := 0 } := by
    rw [← hr.2.2]
    cases d <;> rfl
  have hresponse : statusResponse (s.withTable d es).client instr status 0x00 =
      statusResponse s.client instr status 0x00 := statusResponse_setTable _ _ _ _
  rw [hresponse] at hacts
  refine ⟨_, hacts, ⟨rfl, rfl⟩, hclient, rfl, hleft, ?_, rfl, rfl, rfl, rfl⟩
  exact State.queued_contents (s := (s.withTable d es).hearing hrx tmo status (byteSum heard) as .cycleStart) (l := .host)
    hok hroom

end Tables

/-! ### The arguments of `SET_FORMAT` -/

/-- The row of the table that `SET_FORMAT` of a direction is (rules R248, R249). -/
def setFormatRow : TableSel → Instr
  | .read => .setReadFormat
  | .write => .setWriteFormat

theorem exec_setFormatRow (s : State) (d : TableSel) :
    exec (setFormatRow d) s = s.takeCommand (formatInstr d) (fun k => k.startFormat d) := by
  cases d <;> rfl

section Format

variable {s u : State} {heard left : List Byte} {d : TableSel} {es new : List Entry} {n : Nat}

/-- Rule R242: the cycle's opening, up to the count of entries. -/
theorem Hearing.setFormat (hr : s.ClientReady) (d : TableSel) :
    Hearing s [formatInstr d] (s.contents .hrx) 0x00 (.formatCount d)
      (s.dispatched (formatInstr d) (fun k => k.startFormat d)) :=
  Hearing.dispatched (formatInstr d) hr.2.1 rfl

/-- Rule R248: a count of at most 32 entries is taken. -/
theorem Hearing.count {count : Byte} (h : Hearing s heard (count :: left) 0x00 (.formatCount d) u) (hh : s.halt = false)
    (hcount : count.toNat ≤ 32) :
    ∃ v, Acts 5 u v ∧ Hearing s (heard ++ [count]) left 0x00 (formatNext d count.toNat []) v := by
  refine h.read hh (by simp) rfl ?_
  simp [Client.react, Answer.byte0, Nat.not_lt.2 hcount]

/-- Rule R248: an entry is looked at with its third byte, not before. -/
theorem Client.react_entryByte {got : List Byte} (hgot : got.length < 2) (c : Config) (k : Client) (d : TableSel) (n : Nat)
    (new : List Entry) (b : Byte) :
    Client.react c { k with retry := 0, pos := .formatEntry d n got new } { code := .ok, results := [b] } =
      { k with retry := 0, pos := .formatEntry d n (got ++ [b]) new } := by
  match got, hgot with
  | [], _ => rfl
  | [x], _ => rfl

/-- Rule R248: with the third byte of an illegal entry the table is emptied. -/
theorem Client.react_illegalEntry {e : Entry} (he : ¬ e.valid) (c : Config) (k : Client) (d : TableSel) (n : Nat)
    (new : List Entry) :
    Client.react c { k with retry := 0, pos := .formatEntry d n [e.deviceId, e.startAddr] new }
        { code := .ok, results := [e.length] } =
      { k.setTable d [] with retry := 0, pos := .invalidSet (formatInstr d) } := by
  rw [← Client.setTable_moved k d [] 0 (.formatEntry d n [e.deviceId, e.startAddr] new)]
  simp [Client.react, Client.formatByte, Answer.byte0, he, Client.formatViolation, invalidPath]

/-- Rule R248: the bytes of an entry before its last are taken as they come. -/
theorem Hearing.entryBytes (hh : s.halt = false) (bs : List Byte) : ∀ {u : State} {heard got : List Byte},
    Hearing s heard (bs ++ left) 0x00 (.formatEntry d n got new) u → got.length + bs.length < 3 →
    ∃ v, Acts (5 * bs.length) u v ∧ Hearing s (heard ++ bs) left 0x00 (.formatEntry d n (got ++ bs) new) v := by
  induction bs with
  | nil => exact fun {u heard got} h _ => ⟨u, Acts.refl u, by rwa [List.append_nil, List.append_nil]⟩
  | cons b bs ih =>
    intro u heard got h hlen
    rw [List.length_cons] at hlen
    obtain ⟨v, hread, hv⟩ := h.read hh (by simp) rfl (Client.react_entryByte (by omega) s.cfg s.client d n new b)
    obtain ⟨w, hrest, hw⟩ := ih hv (by rw [List.length_append, List.length_singleton]; omega)
    exact ⟨w, (hread.trans hrest).mono (by rw [List.length_cons]; omega), by simpa using hw⟩

/-- Rule R248: the first two bytes of an entry. -/
theorem Hearing.entryHead {e : Entry} (h : Hearing s heard (e.bytes ++ left) 0x00 (.formatEntry d n [] new) u)
    (hh : s.halt = false) :
    ∃ v, Acts 10 u v ∧ Hearing s (heard ++ [e.deviceId, e.startAddr]) (e.length :: left) 0x00
      (.formatEntry d n [e.deviceId, e.startAddr] new) v :=
  Hearing.entryBytes hh [e.deviceId, e.startAddr] h (by simp)

/-- Rule R248: a legal entry is taken as soon as its three bytes are read. -/
theorem Hearing.entry {e : Entry} (h : Hearing s heard (e.bytes ++ left) 0x00 (.formatEntry d (n + 1) [] new) u)
    (hh : s.halt = false) (he : e.valid) :
    ∃ v, Acts 15 u v ∧ Hearing s (heard ++ e.bytes) left 0x00 (formatNext d n (new ++ [e])) v := by
  obtain ⟨v, hhead, hv⟩ := h.entryHead hh
  obtain ⟨w, hread, hw⟩ := hv.read (q := formatNext d n (new ++ [e])) hh (by simp) rfl
    (by simp [Client.react, Client.formatByte, Answer.byte0, he])
  exact ⟨w, hhead.trans hread, by simpa [Entry.bytes] using hw⟩

/-- Rules R248, R252: an illegal entry empties the table, and the Invalid path is taken. -/
theorem Hearing.illegalEntry {e : Entry} (h : Hearing s heard (e.bytes ++ left) 0x00 (.formatEntry d n [] new) u)
    (hh : s.halt = false) (he : ¬ e.valid) :
    ∃ v, Acts 15 u v ∧ Hearing (s.withTable d []) (heard ++ e.bytes) left 0x00 (.invalidSet (formatInstr d)) v := by
  obtain ⟨v, hhead, hv⟩ := h.entryHead hh
  obtain ⟨w, hread, hw⟩ := hv.readWithTable hh (by simp) rfl
    (Client.react_illegalEntry he s.cfg s.client d n new)
  exact ⟨w, hhead.trans hread, by simpa [Entry.bytes] using hw⟩

/-- Rule R248: legal entries are taken one after the other. -/
theorem Hearing.entries (hh : s.halt = false) (es : List Entry) : ∀ {u : State} {heard : List Byte} {new : List Entry},
    Hearing s heard (es.flatMap Entry.bytes ++ left) 0x00 (formatNext d (es.length + n) new) u → (∀ e ∈ es, e.valid) →
    ∃ v, Acts (15 * es.length) u v ∧ Hearing s (heard ++ es.flatMap Entry.bytes) left 0x00 (formatNext d n (new ++ es)) v := by
  induction es with
  | nil =>
    intro u heard new h _
    rw [List.length_nil, Nat.zero_add] at h
    exact ⟨u, Acts.refl u, by simpa using h⟩
  | cons e es ih =>
    intro u heard new h hes
    obtain ⟨he, hes⟩ := List.forall_mem_cons.1 hes
    rw [List.flatMap_cons, List.append_assoc, List.length_cons, Nat.succ_add] at h
    obtain ⟨v, hentry, hv⟩ := Hearing.entry h hh he
    obtain ⟨w, hrest, hw⟩ := ih hv hes
    exact ⟨w, (hentry.trans hrest).mono (by rw [List.length_cons]; omega), by simpa using hw⟩

/-- Rules R242, R248: the opening, the count and legal entries. -/
theorem Hearing.setFormatEntries {count : Byte} (hr : s.ClientReady) (hcount : count.toNat ≤ 32)
    (hes : ∀ e ∈ es, e.valid) (hn : count.toNat = es.length + n)
    (hc : s.contents .hrx = count :: es.flatMap Entry.bytes ++ left) :
    ∃ v, Acts (15 * es.length + 5) (s.dispatched (formatInstr d) (fun k => k.startFormat d)) v ∧
      Hearing s (formatInstr d :: count :: es.flatMap Entry.bytes) left 0x00 (formatNext d n es) v := by
  obtain ⟨v, hread, hv⟩ := (hc ▸ Hearing.setFormat hr d).count hr.1 hcount
  rw [hn] at hv
  obtain ⟨w, hrest, hw⟩ := Hearing.entries hr.1 es hv hes
  exact ⟨w, (hread.trans hrest).mono (by omega), hw⟩

/-- Rule R248: at the closing checksum the table is replaced, whatever the checksum. -/
theorem Client.react_formatEnd {code : Code} (hcode : code ≠ .timeout) (c : Config) (k : Client) (d : TableSel)
    (es : List Entry) : Client.react c { k with retry := 0, pos := .formatEnd d es } { code := code, results := [] } =
      { k.setTable d es with retry := 0, pos := plainStatus (formatInstr d) } := by
  rw [← Client.setTable_moved k d es 0 (.formatEnd d es)]
  simp [Client.react, hcode]

end Format

/-- Settles O57: the count, the entries, the checksum beside which the table is replaced, and the response. -/
theorem setFormatReplacesTheTable : Obligations.SetFormatReplacesTheTable := by
  intro s d es cks more hr hes hc hok hroom i st
  have hi : i = setFormatRow d := by cases d <;> rfl
  obtain ⟨hlen, hvalid⟩ := hes
  have hcount : (u8 es.length).toNat = es.length := Nat.mod_eq_of_lt (Nat.lt_of_le_of_lt hlen (by decide))
  obtain ⟨u, hentries, hu⟩ := Hearing.setFormatEntries (n := 0) (d := d) hr (hcount.trans_le hlen) hvalid hcount hc
  obtain ⟨v, hcheck, hv⟩ := Hearing.checkWithTable (q := plainStatus (formatInstr d)) hu hr.1 nofun rfl
    fun code hcode => Client.react_formatEnd hcode s.cfg s.client d es
  obtain ⟨t, hreport, hfree, hclient, hst, hleft, hout, hbus⟩ := hv.reportWithTable hr hok hroom
  have hexec : exec (setFormatRow d) s = .next t := (exec_setFormatRow s d).trans
    (State.takeCommand_of_acts hr (hentries.trans (hcheck.trans hreport)) (State.foregroundStep_free hfree)
      (by simp only [foregroundFuel]; omega))
  exact ⟨t, hi ▸ hexec, hclient, hfree.1, hleft, hst, hout, hbus⟩

/-! ### `SET_FORMAT` that fails -/

section Failures

variable {s u x t : State} {heard left : List Byte} {b : Byte} {p q : Pos} {d : TableSel} {es : List Entry} {n m : Nat}
  {use : GetUse} {start : Client → Client}

/-- Rule R248: more than 32 entries announced empty the table. -/
theorem Client.react_tooMany {count : Byte} (hcount : 32 < count.toNat) (c : Config) (k : Client) (d : TableSel) :
    Client.react c { k with retry := 0, pos := .formatCount d } { code := .ok, results := [count] } =
      { k.setTable d [] with retry := 0, pos := .invalidSet (formatInstr d) } := by
  rw [← Client.setTable_moved k d [] 0 (.formatCount d)]
  simp [Client.react, Answer.byte0, hcount, Client.formatViolation, invalidPath]

/-- Rules R248, R252: a violation is reported, and the cooldown runs. -/
theorem setFormat_refused (hr : s.ClientReady) (hok : s.ChannelOk .htx) (hroom : s.Room .htx 7)
    (hacts : Acts n (s.dispatched (formatInstr d) (fun k => k.startFormat d)) u)
    (hu : Hearing (s.withTable d []) heard left 0x00 (.invalidSet (formatInstr d)) u) (hn : n ≤ 1000) :
    ∃ t, exec (setFormatRow d) s = .next t ∧ t.CoolsDown { s.client.setTable d [] with retry := 0 } left s.brx ∧
      t.status = 0x04 ∧ t.contents .htx = s.contents .htx ++ statusResponse s.client (formatInstr d) 0x04 0x00 := by
  obtain ⟨t, hpath, hhold, hcool, hst, hout, -⟩ := hu.invalidPath hr.1 hok hroom
  have hflag : (0x00 ||| 0x04 : Byte) = 0x04 := by decide
  have hresponse : statusResponse (s.withTable d []).client (formatInstr d) 0x04 0x00 =
      statusResponse s.client (formatInstr d) 0x04 0x00 := statusResponse_setTable _ _ _ _
  rw [hflag] at hst hout
  rw [hresponse] at hout
  exact ⟨t, (exec_setFormatRow s d).trans (State.takeCommand_of_acts hr (hacts.trans hpath) hhold
    (by simp only [foregroundFuel]; omega)), hcool, hst, hout⟩

/-- The client waits for a byte of the host (rule R132). -/
def State.awaitingByte (s : State) (use : GetUse) : State := s.proceed ⟨.client, [.get .host use], [], none⟩

theorem GetUse.turns_le (use : GetUse) : use.turns ≤ 766 := by cases use <;> simp [GetUse.turns]

theorem turnsOf_get (use : GetUse) : turnsOf [.get .host use] ≤ 767 := by
  have := use.turns_le
  simp only [turnsOf_cons, turnsOf_nil, Micro.turns]
  omega

/-- Rules R132, R164, R165, R253: a command that finds nothing where it reads arms the countdown and waits; once that is out,
it has failed with `HostTimeout`. -/
theorem Hearing.starves (h : Hearing s heard [] 0x00 p u) (hh : s.halt = false) (hp : p ≠ .cycleStart) (huse : use ≠ .raw)
    (hprog : clientProgram s.cfg { s.client with retry := 0, pos := p } =
      { todo := [.arm s.cfg.tHostRx, .get .host use] })
    (hk : Client.react s.cfg { s.client with retry := 0, pos := p } { code := .timeout, results := [] } =
      { s.client.setTable d es with retry := 0, pos := q }) :
    ∃ x v : State, x.halt = false ∧ x.Empty .hrx ∧ x.tmo = s.cfg.tHostRx ∧ Acts 800 u (x.awaitingByte use) ∧
      Acts 800 ((x.armTimer 0).awaitingByte use) v ∧ Hearing (s.withTable d es) heard [] 0x01 q v := by
  obtain ⟨hrx, tmo, as, rfl, hc⟩ := h
  let x := s.hearing hrx s.cfg.tHostRx 0x00 (byteSum heard) as p
  have hempty : x.Empty .hrx := x.empty_of_contents hc
  have hturns := turnsOf_get use
  have harm : (Micro.arm s.cfg.tHostRx).turns = 1 := rfl
  have hwait : Acts 800 (s.hearing hrx tmo 0x00 (byteSum heard) as p) (x.awaitingByte use) :=
    (Acts.operation (s := s.hearing hrx tmo 0x00 (byteSum heard) as p) ⟨hh, rfl⟩ hp hprog (Turns.arm hh)).mono
      (by rw [turnsOf_cons, harm]; omega)
  have hfail : Turns ((x.armTimer 0).awaitingByte use) (((x.armTimer 0).raise hostTimeoutMask).told .timeout []) :=
    Turns.codecGet_timeout (s := x.armTimer 0) (l := .host) huse hh hempty rfl
  have hflag : (0x00 ||| hostTimeoutMask : Byte) = 0x01 := by decide
  have hraise : (x.armTimer 0).raise hostTimeoutMask = s.hearing hrx 0 0x01 (byteSum heard) as p := hflag ▸ rfl
  rw [hraise, State.hearing_told_withTable hk] at hfail
  refine ⟨x, _, hh, hempty, rfl, hwait, (Acts.of_turns hfail).mono ?_, hrx, 0, _, rfl, hc⟩
  have := (x.armTimer 0).proceed_turnsLeft ⟨.client, [.get .host use], [], none⟩
  exact this.trans (by simp only; omega)

/-- Rules R132, R215: a host command that waits for a byte holds for exactly the ticks it armed, and then goes on. -/
theorem takeCommand_starved (hr : s.ClientReady) (hacts : Acts n (s.dispatched b start) (x.awaitingByte use))
    (hh : x.halt = false) (he : x.Empty .hrx) (hend : Acts m ((x.armTimer 0).awaitingByte use) t)
    (ht : t.ForegroundFree) (hn : n + m ≤ foregroundFuel) :
    ∃ w, s.takeCommand b start = .next w ∧
      (∀ k, k < x.tmo.toNat → (w.afterTicks k).foregroundStep = none ∧ (w.afterTicks k).op ≠ none) ∧
      (w.afterTicks x.tmo.toNat).runForeground foregroundFuel = t := by
  have hstop := State.foregroundStep_free ht
  by_cases h0 : x.tmo = 0
  · have hx : x.armTimer 0 = x := by rw [← h0]; rfl
    rw [hx] at hend
    rw [h0]
    exact ⟨t, State.takeCommand_of_acts hr (hacts.trans hend) hstop hn, fun k hk => absurd hk (Nat.not_lt_zero k),
      State.runForeground_hold hstop⟩
  · have hwait : ∀ k, k ≤ x.tmo.toNat → (x.awaitingByte use).afterTicks k = (x.armTimer (x.tmo - u8 k)).awaitingByte use :=
      fun k hk => State.afterTicks_proceed hh hk
    have hhold : ∀ k, k < x.tmo.toNat → ((x.armTimer (x.tmo - u8 k)).awaitingByte use).foregroundStep = none :=
      fun k hk => State.foregroundStep_held (s := (x.armTimer (x.tmo - u8 k)).awaitingByte use) hh rfl
        (Micro.holds_get_afterTicks (l := .host) (use := use) he hk)
    have hpos : 0 < x.tmo.toNat := Nat.pos_of_ne_zero fun h => h0 (BitVec.eq_of_toNat_eq h)
    refine ⟨x.awaitingByte use, State.takeCommand_of_acts hr hacts ?_ (by omega), fun k hk => ?_, ?_⟩
    · have := hhold 0 hpos
      rwa [← hwait 0 hpos.le] at this
    · rw [hwait k hk.le]
      exact ⟨hhold k hk, nofun⟩
    · rw [hwait _ le_rfl, (sub_u8_eq_zero_iff le_rfl).2 rfl]
      exact hend.run hstop (by omega)

/-- Rules R248, R253: wherever in `SET_FORMAT` a byte does not come, the table is left empty and the timeout reported. -/
theorem setFormat_starved (hr : s.ClientReady) (hok : s.ChannelOk .htx) (hroom : s.Room .htx 7)
    (hacts : Acts n (s.dispatched (formatInstr d) (fun k => k.startFormat d)) u) (hn : n ≤ 1000)
    (hu : Hearing s heard [] 0x00 p u) (hp : p ≠ .cycleStart) (huse : use ≠ .raw)
    (hprog : clientProgram s.cfg { s.client with retry := 0, pos := p } =
      { todo := [.arm s.cfg.tHostRx, .get .host use] })
    (hk : Client.react s.cfg { s.client with retry := 0, pos := p } { code := .timeout, results := [] } =
      Client.formatAbandoned { s.client with retry := 0, pos := p } d) :
    ∃ w, exec (setFormatRow d) s = .next w ∧
      (∀ k, k < s.cfg.tHostRx.toNat → (w.afterTicks k).foregroundStep = none ∧ (w.afterTicks k).op ≠ none) ∧
      let t := (w.afterTicks s.cfg.tHostRx.toNat).runForeground foregroundFuel
      t.op = none ∧ t.client = { s.client.setTable d [] with retry := 0 } ∧ t.status = 0x01 ∧ t.contents .hrx = [] ∧
      t.contents .htx = s.contents .htx ++ statusResponse s.client (formatInstr d) 0x01 0x00 := by
  obtain ⟨x, v, hh, he, htmo, hwait, hend, hv⟩ := hu.starves (q := plainStatus (formatInstr d)) (es := []) hr.1 hp huse hprog
    (hk.trans (Client.setTable_moved s.client d [] 0 p _))
  obtain ⟨t, hreport, hfree, hclient, hst, hleft, hout, -⟩ := hv.reportWithTable hr hok hroom
  obtain ⟨w, hw, hhold, ht⟩ := takeCommand_starved hr (hacts.trans hwait) hh he (hend.trans hreport) hfree
    (by simp only [foregroundFuel]; omega)
  rw [htmo] at hhold ht
  refine ⟨w, (exec_setFormatRow s d).trans hw, hhold, ?_⟩
  rw [ht]
  exact ⟨hfree.1, hclient, hst, hleft, hout⟩

end Failures

/-- Settles O58: the two violations take the Invalid path, the three places where a byte does not come are left alike. -/
theorem failedSetFormatEmptiesTheTable : Obligations.FailedSetFormatEmptiesTheTable := by
  intro s d hr hok hroom i refusedWith timesOut
  have hi : i = setFormatRow d := by cases d <;> rfl
  have hrefused : ∀ {n heard u left}, Acts n (s.dispatched (formatInstr d) (fun k => k.startFormat d)) u →
      Hearing (s.withTable d []) heard left 0x00 (.invalidSet (formatInstr d)) u → n ≤ 1000 → refusedWith left :=
    fun hacts hu hn => by
      have := setFormat_refused hr hok hroom hacts hu hn
      rwa [← hi] at this
  have hstarved : ∀ {n heard u p use}, Acts n (s.dispatched (formatInstr d) (fun k => k.startFormat d)) u → n ≤ 1000 →
      Hearing s heard [] 0x00 p u → p ≠ .cycleStart → use ≠ .raw →
      clientProgram s.cfg { s.client with retry := 0, pos := p } = { todo := [.arm s.cfg.tHostRx, .get .host use] } →
      Client.react s.cfg { s.client with retry := 0, pos := p } { code := .timeout, results := [] } =
        Client.formatAbandoned { s.client with retry := 0, pos := p } d → timesOut :=
    fun hacts hn hu hp huse hprog hk => by
      have := setFormat_starved hr hok hroom hacts hn hu hp huse hprog hk
      rwa [← hi] at this
  refine ⟨fun count more hcount hc => ?_, fun count es e more hcount hlen hes he hc => ?_, fun hc => ?_,
    fun count es part hcount hes hc hend => ?_⟩
  · obtain ⟨v, hread, hv⟩ := (hc ▸ Hearing.setFormat hr d).readWithTable hr.1 nofun rfl
      (Client.react_tooMany hcount s.cfg s.client d)
    exact hrefused hread hv (by omega)
  · obtain ⟨n, hn⟩ : ∃ n, count.toNat = es.length + (n + 1) := Nat.exists_eq_add_of_lt hlen
    obtain ⟨u, hentries, hu⟩ := Hearing.setFormatEntries (d := d) (left := e.bytes ++ more) hr hcount hes hn
      (by rw [hc, List.append_assoc])
    obtain ⟨v, hread, hv⟩ := Hearing.illegalEntry hu hr.1 he
    exact hrefused (hentries.trans hread) hv (by omega)
  · have hopen : Hearing s [formatInstr d] [] 0x00 (.formatCount d) _ := hc ▸ Hearing.setFormat hr d
    exact hstarved (use := .byte true) (Acts.refl _) (by omega) hopen nofun nofun rfl rfl
  · rcases hend with ⟨hlen, hpart⟩ | ⟨hlen, rfl⟩
    · obtain ⟨n, hn⟩ : ∃ n, count.toNat = es.length + (n + 1) := Nat.exists_eq_add_of_lt hlen
      obtain ⟨u, hentries, hu⟩ := Hearing.setFormatEntries (d := d) hr hcount hes hn hc
      obtain ⟨v, hread, hv⟩ := Hearing.entryBytes (left := []) (got := []) (n := n + 1) hr.1 part
        (by rw [List.append_nil]; exact hu) (by simpa using hpart)
      exact hstarved (use := .byte true) (hentries.trans hread) (by omega) hv nofun nofun rfl rfl
    · obtain ⟨u, hentries, hu⟩ := Hearing.setFormatEntries (d := d) (n := 0) hr hcount hes hlen.symm hc
      exact hstarved (use := .check) hentries (by omega) hu nofun nofun rfl rfl

end Sys2Proof.Machine
end

section
/-!
PROOFS of the client statements, fifth part: `WRITE_DATA` (O60) and `READ_DATA` (O59) up to their first bus transaction. Both
come to it from what they have heard (`Hearing.ask`). `READ_DATA` may by then have opened its response (`ReadOpened`), and
where it has nothing to read or cannot send, it ends in the same response of sentinels (`Acts.readReport`).
-/

namespace Sys2Proof.Machine

/-! ### From the host's bytes to the bus -/

section Commands

variable {s u : State} {heard left : List Byte} {status : Byte} {t : Txn} {f : TxnFor}

/-- Rules R180 to R182, R245: a command that has heard what it needs sends its packet and waits for the drain. -/
theorem Hearing.ask (h : Hearing s heard left status (.txn .dirTx t f) u) (hh : s.halt = false) (hok : s.ChannelOk .btx)
    (hroom : s.Room .btx (t.params.length + 6)) (hd : s.cfg.tBusDrain ≠ 0) :
    ∃ v, Acts (3 * t.params.length + 15) u v ∧ v.foregroundStep = none ∧ v.AwaitsDrain ∧ v.dir = .transmit ∧
      v.contents .hrx = left ∧ v.contents .btx = s.contents .btx ++ busTxBytes t.id t.instr t.params ∧
      v.status = status ∧ v.htx = s.htx := by
  obtain ⟨hrx, tmo, as, rfl, hc⟩ := h
  let x := s.hearing hrx tmo status (byteSum heard) as (.txn .dirTx t f)
  exact ⟨x.asked t f, Acts.ask (s := x) ⟨hh, rfl⟩ rfl hok hroom, State.asked_holds (s := x) hh hok hroom hd, ⟨rfl, rfl⟩, rfl,
    hc, State.asked_contents (s := x) hok hroom, rfl, rfl⟩

end Commands

/-! ### `WRITE_DATA` -/

section Write

variable {s u : State} {heard left data : List Byte} {e : Entry} {rest : List Entry}

/-- The place of `WRITE_DATA` with `left` bytes of an entry's payload still to read (rule R251). -/
def writeStage (c : Config) (e : Entry) (rest : List Entry) (left : Nat) (data : List Byte) : Pos :=
  if left = 0 then writeTxn c e data rest else .writeArg left data e rest

theorem writeNext_cons (c : Config) (e : Entry) (rest : List Entry) :
    writeNext c (e :: rest) = writeStage c e rest e.length.toNat [] := rfl

/-- Rule R251: a payload byte is taken behind those before it. -/
theorem Client.react_writeArg (c : Config) (k : Client) (n : Nat) (data : List Byte) (e : Entry) (rest : List Entry)
    (b : Byte) : Client.react c { k with retry := 0, pos := .writeArg (n + 1) data e rest } { code := .ok, results := [b] } =
      { k with retry := 0, pos := writeStage c e rest n (data ++ [b]) } := by
  cases n with
  | zero => rfl
  | succ n => rfl

/-- Rule R251: an entry's payload is read from the host before it is written. -/
theorem Hearing.payload (hh : s.halt = false) (bs : List Byte) : ∀ {u : State} {heard data : List Byte},
    Hearing s heard (bs ++ left) 0x00 (writeStage s.cfg e rest bs.length data) u →
    ∃ v, Acts (5 * bs.length) u v ∧ Hearing s (heard ++ bs) left 0x00 (writeTxn s.cfg e (data ++ bs) rest) v := by
  induction bs with
  | nil => exact fun {u heard data} h => ⟨u, Acts.refl u, by rw [List.append_nil, List.append_nil]; exact h⟩
  | cons b bs ih =>
    intro u heard data h
    obtain ⟨v, hread, hv⟩ := Hearing.read (p := .writeArg (bs.length + 1) data e rest) h hh nofun rfl
      (Client.react_writeArg s.cfg s.client bs.length data e rest b)
    obtain ⟨w, hrest, hw⟩ := ih hv
    exact ⟨w, (hread.trans hrest).mono (by rw [List.length_cons]; omega), by simpa using hw⟩

/-- Rule R242: the cycle's opening, up to the first entry or the checksum. -/
theorem Hearing.writeData (hr : s.ClientReady) :
    Hearing s [0xF4] (s.contents .hrx) 0x00 (writeNext s.cfg s.client.writeTable)
      (s.dispatched 0xF4 (Client.startWrite s.cfg)) :=
  Hearing.dispatched 0xF4 hr.2.1 rfl

/-- `WRITE_DATA` by a free client is the run of its procedure. -/
theorem exec_writeData {t : State} {n : Nat} (hr : s.ClientReady) (h : Acts n (s.dispatched 0xF4 (Client.startWrite s.cfg)) t)
    (ht : t.foregroundStep = none) (hn : n ≤ foregroundFuel) : exec .writeData s = .next t :=
  State.takeCommand_of_acts hr h ht hn

/-- Settles O60: over an empty table the checksum and the commit, else the payload and the register write. -/
theorem writeDataReadsThenWrites : Obligations.WriteDataReadsThenWrites := by
  intro s hr hok hd
  refine ⟨fun cks more htable hc hroom => ?_, fun e es data more htable hlen hc hroom => ?_⟩
  · have hopen := Hearing.writeData hr
    rw [htable, hc] at hopen
    obtain ⟨v, hcheck, hv⟩ := Hearing.check (p := .writeEnd) (q := commitTxn s.cfg) hopen hr.1 nofun rfl
      fun code hcode => by simp [Client.react, hcode]
    obtain ⟨w, hask, hhold, hdrain, hdir, hleft, hout, hst, hhtx⟩ := Hearing.ask hv hr.1 hok hroom hd
    exact ⟨w, exec_writeData hr (hcheck.trans hask) hhold (Nat.le_of_ble_eq_true rfl), hdrain, hdir, hleft, hout, hst, hhtx⟩
  · have hopen := Hearing.writeData hr
    rw [htable, hc, writeNext_cons, ← hlen] at hopen
    obtain ⟨v, hread, hv⟩ := Hearing.payload hr.1 data hopen
    obtain ⟨w, hask, hhold, hdrain, hdir, hleft, hout, hst, hhtx⟩ := Hearing.ask hv hr.1 hok hroom hd
    have hbyte := e.length.isLt
    refine ⟨w, exec_writeData hr (hread.trans hask) hhold ?_, hdrain, hdir, hleft, hout, hst, hhtx⟩
    simp only [foregroundFuel, List.nil_append, List.length_cons]
    omega

end Write

/-! ### The response of `READ_DATA` -/

/-- Rule R98: a legal entry has at most 55 bytes. -/
theorem totalBytesOf_le {es : List Entry} (h : ∀ e ∈ es, e.valid) : totalBytesOf es ≤ 55 * es.length := by
  induction es with
  | nil => exact Nat.zero_le _
  | cons e es ih =>
    obtain ⟨⟨-, -, hlen⟩, hes⟩ := List.forall_mem_cons.1 h
    have := ih hes
    rw [totalBytesOf, List.length_cons]
    omega

/-- What stands in HTX of a `READ_DATA` response before its first block is obtained (log entry 22). -/
def readHead (c : Config) : List Byte := if c.readOrder = .payloadFirst then [0xF3] else []

theorem readHead_length (c : Config) : (readHead c).length ≤ 1 := by
  unfold readHead
  split <;> simp

namespace Responding

variable {s u : State} {out payload : List Byte} {after : After}

/-- Rules R161, R244: with `PayloadFirst` the payload's bytes precede the status part. -/
theorem emitPayload (hh : s.halt = false) (hok : s.ChannelOk .htx) (bs : List Byte) : ∀ {u : State} {out : List Byte},
    Responding s out (emitThenStatus bs after) u → s.Room .htx (out.length + bs.length) →
    ∃ v, Acts (3 * bs.length) u v ∧ Responding s (out ++ bs) (.statusRead [] after) v := by
  induction bs with
  | nil => exact fun {u out} h _ => ⟨u, Acts.refl u, by rwa [List.append_nil]⟩
  | cons b bs ih =>
    intro u out h hroom
    rw [List.length_cons] at hroom
    obtain ⟨v, hacts, hv⟩ := h.put (q := emitThenStatus bs after) b hh hok
      (by simp only [State.Room] at hroom ⊢; omega) nofun rfl (by cases bs <;> rfl)
    obtain ⟨w, hrest, hw⟩ := ih hv (by
      rw [List.length_append, List.length_singleton]
      simp only [State.Room] at hroom ⊢
      omega)
    exact ⟨w, (hacts.trans hrest).mono (by rw [List.length_cons]; omega), by simpa using hw⟩

/-- Rules R97, R244: the status part and the checksum behind what has been sent. -/
theorem statusPart (h : Responding s out (.statusRead [] after) u) (hh : s.halt = false) (hok : s.ChannelOk .htx)
    (hroom : s.Room .htx (out.length + 6)) :
    let body := out ++ [s.status, u8 s.client.retry, s.client.supply, s.client.secondary, s.client.thermal]
    ∃ as, Acts 21 u ((s.atPos after.pos).queued .host (body ++ [checksumOf body]) (byteSum body) as) := by
  have hfits : ∀ {n}, n ≤ out.length + 6 → s.Room .htx n := fun hn => by
    simp only [State.Room] at hroom ⊢
    omega
  obtain ⟨v₂, hread, h₂⟩ := h.readStatus hh
  obtain ⟨v₃, hstatus, h₃⟩ := h₂.put (q := .statusRetry [] after) s.status hh hok (hfits (by omega)) nofun rfl rfl
  obtain ⟨v₄, hretry, h₄⟩ := h₃.put (q := emitThenClose [s.client.supply, s.client.secondary, s.client.thermal] after)
    (u8 s.client.retry) hh hok (hfits (by simp)) nofun rfl rfl
  obtain ⟨v₅, hemit, h₅⟩ := Responding.emit hh hok _ h₄ (hfits (by simp))
  obtain ⟨as, hclose⟩ := h₅.close hh hok (hfits (by simp))
  have hbody : out ++ [s.status] ++ [u8 s.client.retry] ++ [s.client.supply, s.client.secondary, s.client.thermal] =
      out ++ [s.status, u8 s.client.retry, s.client.supply, s.client.secondary, s.client.thermal] := by simp
  rw [hbody] at hclose
  exact ⟨as, (hread.trans (hstatus.trans (hretry.trans (hemit.trans hclose)))).mono (by simp)⟩

end Responding

/-- Where nothing is queued yet, the answers before are all there is. -/
theorem State.queued_after_nil {s : State} {out : List Byte} {sum sum' : Byte} {as as' : List Answer} {p : Pos} :
    ((s.queued .host [] sum as).atPos p).queued .host out sum' as' = (s.atPos p).queued .host out sum' (as ++ as') := by
  have has : s.cmdOut ++ as ++ as' = s.cmdOut ++ (as ++ as') := List.append_assoc _ _ _
  exact congrArg (fun answers => { (s.atPos p).queued .host out sum' [] with cmdOut := answers }) has

/-- Rule R250: `READ_DATA` over the table `k` holds answers with sentinels alone, in either order of its parts; `y` is the state
as it would be with nothing in HTX yet. -/
theorem Acts.readReport {y : State} {sum : Byte} {as : List Answer} (hh : y.halt = false)
    (hsum : y.cfg.readOrder = .payloadFirst → sum = 0xF3) (hpos : y.client.pos = readFinish y.cfg y.client [])
    (hok : y.ChannelOk .htx) (hroom : y.Room .htx (totalBytesOf y.client.readTable + 7)) :
    let response := readResponse y.cfg.readOrder y.client y.status (u8 y.client.retry)
      (List.replicate (totalBytesOf y.client.readTable) sentinel)
    ∃ sum' as', Acts (3 * totalBytesOf y.client.readTable + 24) (y.queued .host (readHead y.cfg) sum as)
      ((y.atPos .cycleStart).queued .host response sum' as') := by
  have hfits : ∀ {n}, n ≤ totalBytesOf y.client.readTable + 7 → y.Room .htx n := fun hn => by
    simp only [State.Room] at hroom ⊢
    omega
  have hat : y.atPos y.client.pos = y := rfl
  cases horder : y.cfg.readOrder with
  | statusFirst =>
    have hhead : readHead y.cfg = [] := by simp [readHead, horder]
    have hstart : y.client.pos = .statusStart 0xF3 (List.replicate (totalBytesOf y.client.readTable) sentinel) .done := by
      rw [hpos, readFinish, horder]
      rfl
    obtain ⟨as', hacts⟩ := Acts.respond (s := y.queued .host [] sum as) ⟨hh, rfl⟩ hstart hok
      (hfits (by rw [List.length_replicate]))
    rw [List.length_replicate] at hacts
    rw [State.queued_after_nil] at hacts
    rw [hhead]
    exact ⟨_, _, hacts⟩
  | payloadFirst =>
    have hhead : readHead y.cfg = [0xF3] := by simp [readHead, horder]
    have hstart : y.client.pos = emitThenStatus (List.replicate (totalBytesOf y.client.readTable) sentinel) .done := by
      rw [hpos, readFinish, horder]
      rfl
    have hopened : Responding y [0xF3] (emitThenStatus (List.replicate (totalBytesOf y.client.readTable) sentinel) .done)
        (y.queued .host [0xF3] sum as) := by
      refine ⟨as, ?_⟩
      rw [hsum horder, ← hstart, hat]
      rfl
    obtain ⟨v, hemit, hv⟩ := hopened.emitPayload hh hok _
      (hfits (by simp only [List.length_cons, List.length_nil, List.length_replicate]; omega))
    obtain ⟨as', hstatus⟩ := hv.statusPart hh hok (hfits (by simp))
    rw [List.length_replicate] at hemit
    rw [hhead]
    refine ⟨_, as', (hemit.trans hstatus).mono ?_⟩
    omega

/-! ### `READ_DATA` up to its first bus transaction -/

/-- `READ_DATA` has heard its checksum, opened its response as far as the configuration has it, and stands at `p`. -/
def ReadOpened (s : State) (left : List Byte) (status : Byte) (p : Pos) (x : State) : Prop :=
  ∃ hrx tmo sum as, (s.cfg.readOrder = .payloadFirst → sum = 0xF3) ∧
    x = (s.hearing hrx tmo status (byteSum [0xF3]) [] p).queued .host (readHead s.cfg) sum as ∧ x.contents .hrx = left

/-- The loop of `READ_DATA` before its first entry (rule R250). -/
def readStart (rest : List Entry) : ReadLoop := { payload := [], device := 0, addr := 0, rem := 0, rest := rest }

section Read

variable {s u x : State} {left : List Byte} {status : Byte} {p : Pos}

/-- Rule R244, log entry 22: with `PayloadFirst` the response is opened before the first block. -/
theorem Hearing.openRead {rest : List Entry}
    (h : Hearing s [0xF3] left status (readBegin s.cfg s.client rest) u) (hh : s.halt = false) (hok : s.ChannelOk .htx)
    (hroom : s.Room .htx (readHead s.cfg).length) :
    ∃ x, Acts 3 u x ∧ ReadOpened s left status (readNext s.cfg s.client (readStart rest)) x := by
  obtain ⟨hrx, tmo, as, rfl, hc⟩ := h
  cases horder : s.cfg.readOrder with
  | statusFirst =>
    have hhead : readHead s.cfg = [] := by simp [readHead, horder]
    have hbegin : readBegin s.cfg s.client rest = readNext s.cfg s.client (readStart rest) := by
      rw [readBegin, horder]
      rfl
    rw [hbegin] at hc ⊢
    refine ⟨_, (Acts.refl _).mono (Nat.zero_le 3), hrx, tmo, s.hcTxSum, as, ?_, ?_, hc⟩
    · simp [horder]
    · rw [hhead]
      rfl
  | payloadFirst =>
    have hhead : readHead s.cfg = [0xF3] := by simp [readHead, horder]
    have hbegin : readBegin s.cfg s.client rest = .readOpen (readStart rest) := by
      rw [readBegin, horder]
      rfl
    rw [hbegin] at hc ⊢
    rw [hhead] at hroom
    have hput := Acts.put (s := s.hearing hrx tmo status (byteSum [0xF3]) [] (.readOpen (readStart rest))) (l := .host)
      (out := []) (sum := s.hcTxSum) (b := 0xF3) (as := as) (u := .restart)
      (q := readNext s.cfg s.client (readStart rest)) hh hok hroom nofun rfl rfl
    exact ⟨_, hput, hrx, tmo, 0xF3, as ++ [.plain], fun _ => rfl, by rw [hhead]; rfl, hc⟩

/-- Rules R242, R250: the cycle's opening, the checksum and the opening of the response. -/
theorem exec_readData_opens {cks : Byte} (hr : s.ClientReady) (hc : s.contents .hrx = cks :: left) (hok : s.ChannelOk .htx)
    (hroom : s.Room .htx (readHead s.cfg).length) :
    ∃ x, ReadOpened s left (checkedStatus [0xF3] cks)
        (readNext s.cfg s.client (readStart s.client.readTable)) x ∧
      ∀ {n t}, Acts n x t → t.foregroundStep = none → n + 8 ≤ foregroundFuel → exec .readData s = .next t := by
  have hopen : Hearing s [0xF3] (cks :: left) 0x00 .readEnd (s.dispatched 0xF3 Client.startRead) :=
    hc ▸ Hearing.dispatched 0xF3 hr.2.1 rfl
  obtain ⟨v, hcheck, hv⟩ := hopen.check (q := readBegin s.cfg s.client s.client.readTable) hr.1 nofun rfl
    fun code hcode => if_neg hcode
  obtain ⟨x, hhead, hx⟩ := hv.openRead hr.1 hok hroom
  exact ⟨x, hx, fun h ht hn => State.takeCommand_of_acts hr (hcheck.trans (hhead.trans h)) ht (by omega)⟩

/-- Rule R250: entries of length 0 in front are passed over. -/
theorem firstNonEmpty_append {empties es : List Entry} {e : Entry} (h : ∀ x ∈ empties, x.length.toNat = 0)
    (he : 0 < e.length.toNat) : firstNonEmpty (empties ++ e :: es) = some (e, es) := by
  induction empties with
  | nil => exact if_neg he.ne'
  | cons x xs ih =>
    obtain ⟨hx, hxs⟩ := List.forall_mem_cons.1 h
    exact (if_pos hx).trans (ih hxs)

/-- Rule R250: a table of entries of length 0 has nothing to read. -/
theorem firstNonEmpty_eq_none {es : List Entry} (h : ∀ x ∈ es, x.length.toNat = 0) :
    firstNonEmpty es = none ∧ totalBytesOf es = 0 := by
  induction es with
  | nil => exact ⟨rfl, rfl⟩
  | cons x xs ih =>
    obtain ⟨hx, hxs⟩ := List.forall_mem_cons.1 h
    obtain ⟨hfirst, htotal⟩ := ih hxs
    exact ⟨(if_pos hx).trans hfirst, by rw [totalBytesOf, hx, htotal]⟩

/-- Rule R250: the loop starts with the first block of the first entry that has one. -/
theorem readNext_readStart_some (c : Config) (k : Client) {rest es : List Entry} {e : Entry}
    (h : firstNonEmpty rest = some (e, es)) :
    ∃ f, readNext c k (readStart rest) =
      .txn .dirTx (blockTxn c e.deviceId e.startAddr.toNat (blockPhys e.startAddr.toNat e.length.toNat)) f ∧
      ∀ k', txnDone c k' f .sendFail = readFinish c k' [] := by
  have hblock : readNext c k (readStart rest) = readBlock c
      { payload := [], device := e.deviceId, addr := e.startAddr.toNat, rem := e.length.toNat, rest := es } := by
    simp [readNext, readStart, h]
  exact ⟨_, hblock.trans (readBlock_eq c _), fun _ => rfl⟩

theorem readNext_readStart_none (c : Config) (k : Client) {rest : List Entry} (h : firstNonEmpty rest = none) :
    readNext c k (readStart rest) = readFinish c k [] := by
  simp [readNext, readStart, h]

/-- Rules R182, R245: with `T_BUS_DRAIN = 0` the drain wait of a packet just queued fails at once. -/
theorem Acts.unsent {t : Txn} {f : TxnFor} (hh : x.halt = false) (hok : x.ChannelOk .btx)
    (hroom : x.Room .btx (t.params.length + 6)) (hd : x.cfg.tBusDrain = 0) :
    Acts 2 (x.asked t f) { (x.asked t f).raise busTimeoutMask with
      op := none
      cmdOut := (x.asked t f).cmdOut ++ [{ code := .timeout, results := [] }]
      client := { x.client with pos := txnDone x.cfg (x.asked t f).client f .sendFail } } := by
  have hlen : (busTxBytes t.id t.instr t.params).length = t.params.length + 6 := by simp [busTxBytes]
  have hqueued := (State.putAll_spec (s := x) (busTxBytes t.id t.instr t.params) hok (hlen ▸ hroom)).2.1
  have hfull : ¬ (x.asked t f).Drained .bus := fun hdrained => by
    have hempty : (x.putAll .btx (busTxBytes t.id t.instr t.params)).len .btx = 0 := hdrained.1
    omega
  have hbound : (x.asked t f).turnsLeft = 2 := rfl
  have hturns : Turns (x.asked t f) (((x.asked t f).raise busTimeoutMask).told .timeout []) :=
    .step ((State.microStep_cons (s := x.asked t f) hh rfl).trans (Micro.run_awaitDrain_timeout hfull hd))
  have htold : ((x.asked t f).raise busTimeoutMask).told .timeout [] = _ :=
    State.told_eq (s := (x.asked t f).raise busTimeoutMask)
      (q := txnDone x.cfg (x.asked t f).client f .sendFail) rfl
  exact hbound ▸ htold ▸ Acts.of_turns hturns

/-- Rules R101, R250: the packet of a block. -/
theorem busTxBytes_blockTxn (c : Config) (device : Byte) (addr phys : Nat) :
    busTxBytes (blockTxn c device addr phys).id (blockTxn c device addr phys).instr (blockTxn c device addr phys).params =
      if phys = 0 then busTxBytes device c.biPing [] else busTxBytes device c.biRead [u8 addr, u8 phys] := by
  unfold blockTxn
  split <;> rfl

theorem blockTxn_params_length (c : Config) (device : Byte) (addr phys : Nat) :
    (blockTxn c device addr phys).params.length ≤ 2 := by
  unfold blockTxn
  split <;> simp

theorem blockPhys_eq (addr rem : Nat) :
    blockPhys addr rem = if addr + min rem 20 = 55 then min rem 20 - 1 else min rem 20 :=
  if_congr decide_eq_true_iff rfl rfl

theorem readResponse_length (order : ReadOrder) (k : Client) (status retry : Byte) (payload : List Byte) :
    (readResponse order k status retry payload).length = payload.length + 7 := by
  cases order <;> simp [readResponse]

/-- Rule R97: with no payload both orders are the plain status response. -/
theorem readResponse_nil (order : ReadOrder) (k : Client) (status retry : Byte) :
    readResponse order k status retry [] = statusResponse k 0xF3 status retry := by cases order <;> rfl

/-- Rule R250: the response of sentinels as it then stands in HTX. -/
theorem State.readReported_contents {y : State} {sum : Byte} {as : List Answer} (hok : y.ChannelOk .htx)
    (hroom : y.Room .htx (totalBytesOf y.client.readTable + 7)) :
    let response := readResponse y.cfg.readOrder y.client y.status (u8 y.client.retry)
      (List.replicate (totalBytesOf y.client.readTable) sentinel)
    ((y.atPos .cycleStart).queued .host response sum as).contents .htx = y.contents .htx ++ response :=
  State.queued_contents (s := y.atPos .cycleStart) (l := .host) hok
    (by rw [readResponse_length, List.length_replicate]; exact hroom)

/-- The client is back at the start of a cycle, where it was. -/
theorem Client.restarted {k : Client} (hpos : k.pos = .cycleStart) :
    ({ k with retry := 0, pos := .cycleStart } : Client) = { k with retry := 0 } := by rw [← hpos]

/-- Rule R250: with nothing to read the response follows at once. -/
theorem exec_readData_none {cks : Byte} (hr : s.ClientReady) (hc : s.contents .hrx = cks :: left) (hok : s.ChannelOk .htx)
    (hroom : s.Room .htx 7) (hnone : ∀ e ∈ s.client.readTable, e.length.toNat = 0) :
    let st := checkedStatus [0xF3] cks
    ∃ t, exec .readData s = .next t ∧ t.contents .htx = s.contents .htx ++ statusResponse s.client 0xF3 st 0x00 ∧
      t.contents .hrx = left ∧ t.op = none ∧ t.client = { s.client with retry := 0 } ∧ t.status = st ∧
      t.busOut = s.busOut ∧ t.btx = s.btx := by
  obtain ⟨hfirst, htotal⟩ := firstNonEmpty_eq_none hnone
  have hhead := readHead_length s.cfg
  obtain ⟨x, ⟨hrx, tmo, sum, as, hsum, rfl, hleft⟩, hexec⟩ := exec_readData_opens hr hc hok
    (by simp only [State.Room] at hroom ⊢; omega)
  rw [readNext_readStart_none s.cfg s.client hfirst] at hleft hexec
  let y := s.hearing hrx tmo (checkedStatus [0xF3] cks) (byteSum [0xF3]) [] (readFinish s.cfg s.client [])
  have hroom' : y.Room .htx (totalBytesOf y.client.readTable + 7) := htotal.symm ▸ hroom
  obtain ⟨sum', as', hacts⟩ := Acts.readReport (y := y) (sum := sum) (as := as) hr.1 hsum rfl hok hroom'
  have hcontents := State.readReported_contents (y := y) (sum := sum') (as := as') hok hroom'
  have htotal' : totalBytesOf y.client.readTable = 0 := htotal
  rw [htotal', List.replicate_zero, readResponse_nil] at hacts hcontents
  exact ⟨_, hexec hacts (State.foregroundStep_free ⟨rfl, rfl⟩) (by simp [foregroundFuel]), hcontents, hleft, rfl,
    Client.restarted hr.2.2, rfl, rfl, rfl⟩

/-- Rules R180 to R182, R250: the first block's packet is sent, behind what the response has been opened with. -/
theorem exec_readData_asks {cks : Byte} {t : Txn} {f : TxnFor} (hr : s.ClientReady) (hc : s.contents .hrx = cks :: left)
    (hok : s.ChannelOk .htx) (hroom : s.Room .htx 1) (hokB : s.ChannelOk .btx)
    (hroomB : s.Room .btx (t.params.length + 6)) (ht : t.params.length ≤ 2) (hd : s.cfg.tBusDrain ≠ 0)
    (hblock : readNext s.cfg s.client (readStart s.client.readTable) = .txn .dirTx t f) :
    ∃ v, exec .readData s = .next v ∧ v.AwaitsDrain ∧ v.dir = .transmit ∧ v.contents .hrx = left ∧
      v.contents .btx = s.contents .btx ++ busTxBytes t.id t.instr t.params ∧
      v.contents .htx = s.contents .htx ++ readHead s.cfg := by
  have hhead := readHead_length s.cfg
  have hroom' : s.Room .htx (readHead s.cfg).length := by simp only [State.Room] at hroom ⊢; omega
  obtain ⟨x, ⟨hrx, tmo, sum, as, -, rfl, hleft⟩, hexec⟩ := exec_readData_opens hr hc hok hroom'
  rw [hblock] at hleft hexec
  let y := s.hearing hrx tmo (checkedStatus [0xF3] cks) (byteSum [0xF3]) [] (.txn .dirTx t f)
  let x := y.queued .host (readHead s.cfg) sum as
  have hask : Acts (3 * t.params.length + 15) x (x.asked t f) := Acts.ask (s := x) ⟨hr.1, rfl⟩ rfl hokB hroomB
  exact ⟨x.asked t f, hexec hask (State.asked_holds (s := x) hr.1 hokB hroomB hd) (by simp only [foregroundFuel]; omega),
    ⟨rfl, rfl⟩, rfl, hleft, State.asked_contents (s := x) hokB hroomB,
    State.queued_contents (s := y) (l := .host) (sum := sum) (as := as) hok hroom'⟩

/-- Rules R182, R250: where the first block's packet cannot be sent, the response is all sentinels. -/
theorem exec_readData_unsent {cks : Byte} {t : Txn} {f : TxnFor} (hr : s.ClientReady) (hc : s.contents .hrx = cks :: left)
    (hok : s.ChannelOk .htx) (htable : tableValid s.client.readTable)
    (hroom : s.Room .htx (totalBytesOf s.client.readTable + 7)) (hokB : s.ChannelOk .btx)
    (hroomB : s.Room .btx (t.params.length + 6)) (ht : t.params.length ≤ 2) (hd : s.cfg.tBusDrain = 0)
    (hblock : readNext s.cfg s.client (readStart s.client.readTable) = .txn .dirTx t f)
    (hf : ∀ k, txnDone s.cfg k f .sendFail = readFinish s.cfg k []) :
    let st := checkedStatus [0xF3] cks
    ∃ v, exec .readData s = .next v ∧ v.op = none ∧ v.dir = .transmit ∧ v.contents .hrx = left ∧
      v.contents .btx = s.contents .btx ++ busTxBytes t.id t.instr t.params ∧ v.status = st ||| 0x02 ∧
      v.contents .htx = s.contents .htx ++ readResponse s.cfg.readOrder s.client (st ||| 0x02) 0x00
        (List.replicate (totalBytesOf s.client.readTable) sentinel) ∧
      v.client = { s.client with retry := 0 } := by
  have hhead := readHead_length s.cfg
  obtain ⟨x, ⟨hrx, tmo, sum, as, hsum, rfl, hleft⟩, hexec⟩ := exec_readData_opens hr hc hok
    (by simp only [State.Room] at hroom ⊢; omega)
  rw [hblock] at hleft hexec
  let h := s.hearing hrx tmo (checkedStatus [0xF3] cks) (byteSum [0xF3]) [] (.txn .dirTx t f)
  let x := h.queued .host (readHead s.cfg) sum as
  let y : State := { (h.asked t f).raise busTimeoutMask with
    op := none, cmdOut := [], client := { h.client with pos := readFinish s.cfg (h.asked t f).client [] } }
  have hask : Acts (3 * t.params.length + 15) x (x.asked t f) := Acts.ask (s := x) ⟨hr.1, rfl⟩ rfl hokB hroomB
  have hfail := Acts.unsent (x := x) (t := t) (f := f) hr.1 hokB hroomB hd
  have hy : { (x.asked t f).raise busTimeoutMask with
      op := none
      cmdOut := (x.asked t f).cmdOut ++ [{ code := .timeout, results := [] }]
      client := { x.client with pos := txnDone x.cfg (x.asked t f).client f .sendFail } } =
      y.queued .host (readHead y.cfg) sum ((x.asked t f).cmdOut ++ [{ code := .timeout, results := [] }]) := by
    have hdone : txnDone x.cfg (x.asked t f).client f .sendFail = readFinish s.cfg (h.asked t f).client [] := hf _
    rw [hdone]
    rfl
  rw [hy] at hfail
  obtain ⟨sum', as', hacts⟩ := Acts.readReport (y := y) hr.1 hsum rfl hok hroom
  have htotal := totalBytesOf_le htable.2
  have hlen := htable.1
  refine ⟨_, hexec (hask.trans (hfail.trans hacts)) (State.foregroundStep_free ⟨rfl, rfl⟩) ?_, rfl, rfl, hleft,
    State.asked_contents (s := h) (f := f) hokB hroomB, rfl,
    State.readReported_contents (y := y) (sum := sum') (as := as') hok hroom,
    Client.restarted hr.2.2⟩
  have htotal' : totalBytesOf y.client.readTable = totalBytesOf s.client.readTable := rfl
  rw [htotal']
  simp only [foregroundFuel]
  omega

end Read

/-- Settles O59: a table with nothing to read, the first block, and its send failing. -/
theorem readDataStartsWithTheFirstBlock : Obligations.ReadDataStartsWithTheFirstBlock := by
  intro s cks more hr hc hok st
  refine ⟨fun hnone hroom => exec_readData_none hr hc hok hroom hnone, ?_⟩
  intro empties e es htable hempties _ hlen hokB hroomB blk phys packet
  have hfirst : firstNonEmpty s.client.readTable = some (e, es) := htable ▸ firstNonEmpty_append hempties hlen
  obtain ⟨f, hblock, hsend⟩ := readNext_readStart_some s.cfg s.client hfirst
  have hphys : blockPhys e.startAddr.toNat e.length.toNat = phys := blockPhys_eq _ _
  have haddr : u8 e.startAddr.toNat = e.startAddr := BitVec.eq_of_toNat_eq (by simp)
  rw [hphys] at hblock
  have hpacket : busTxBytes (blockTxn s.cfg e.deviceId e.startAddr.toNat phys).id
      (blockTxn s.cfg e.deviceId e.startAddr.toNat phys).instr
      (blockTxn s.cfg e.deviceId e.startAddr.toNat phys).params = packet :=
    (busTxBytes_blockTxn s.cfg e.deviceId e.startAddr.toNat phys).trans (by rw [haddr])
  have ht := blockTxn_params_length s.cfg e.deviceId e.startAddr.toNat phys
  have hroomB' : s.Room .btx ((blockTxn s.cfg e.deviceId e.startAddr.toNat phys).params.length + 6) := by
    simp only [State.Room] at hroomB ⊢
    omega
  refine ⟨fun hd hroom => ?_, fun hd hvalid hroom => ?_⟩
  · obtain ⟨v, hexec, hdrain, hdir, hleft, hout, hhtx⟩ :=
      exec_readData_asks hr hc hok hroom hokB hroomB' ht hd hblock
    exact ⟨v, hexec, hdrain, hdir, hleft, hout.trans (congrArg (s.contents .btx ++ ·) hpacket), hhtx⟩
  · obtain ⟨v, hexec, hop, hdir, hleft, hout, hrest⟩ :=
      exec_readData_unsent hr hc hok hvalid hroom hokB hroomB' ht hd hblock hsend
    exact ⟨v, hexec, hop, hdir, hleft, hout.trans (congrArg (s.contents .btx ++ ·) hpacket), hrest⟩

end Sys2Proof.Machine
end

section
/-!
PROOFS of the exception statements (60_exceptions.md): the events' frame (O39), the causes of the status bits (O40), and
the outcomes of the CMD operations (O41).

The last two are one fact about the micro-steps. Each has a `Scope`: the status bits it can set and the outcomes other than
`Ok` it can answer, the micro-steps it leads to counted in. An operation never leaves the scope of its row
(`State.InScope`), and the scope of a row is the cause table of rule R291 with the outcome table of rule R292
(`programOf_scope`).
-/

namespace Sys2Proof.Machine

/-! ### The events -/

/-- Rule R298: what an event may write. -/
theorem EventEffect.frame {s t : State} (h : EventEffect s t) :
    t = { s with
      hrx := t.hrx, htx := t.htx, brx := t.brx, btx := t.btx, htxShift := t.htxShift, btxShift := t.btxShift,
      tmo := t.tmo, status := t.status, halt := t.halt, hostOut := t.hostOut, busOut := t.busOut } := by
  cases h with
  | arrive l b =>
    unfold State.arrive
    split
    · rfl
    · cases l <;> rfl
  | load l _ | sent l _ => cases l <;> rfl
  | none | lost | tick | halt => rfl

/-- Rules R141, R142: a byte that arrives sets no bit but the overflow bit of its link. -/
theorem State.arrive_status (s : State) (l : Link) (b : Byte) :
    (s.arrive l b).status = s.status ∨ (s.arrive l b).status = s.status ||| overflowMask l := by
  unfold State.arrive
  split
  · exact .inr rfl
  · exact .inl (State.push_status s _ b)

/-- Rule R298: an event sets no bit but the two overflow bits. -/
theorem EventEffect.status {s t : State} (h : EventEffect s t) :
    t.status = s.status ∨ t.status = s.status ||| 0x10 ∨ t.status = s.status ||| 0x20 := by
  cases h with
  | arrive l b =>
    refine (s.arrive_status l b).imp_right fun hs => ?_
    cases l with
    | host => exact .inl hs
    | bus => exact .inr hs
  | load l _ => exact .inl (by simp [State.loadShift])
  | sent l b => exact .inl (by simp)
  | none | lost | tick | halt => exact .inl rfl

/-- Settles O39: every effect an event can have, by `EventEffect`. -/
theorem eventsStayInTheirContext : Obligations.EventsStayInTheirContext := fun _ _ _ hi h =>
  have heffect := EventEffect.of_exec hi h
  ⟨heffect.frame, heffect.status⟩

/-! ### Sets of status bits -/

/-- Every bit of `a` is a bit of `c`. -/
abbrev FlagsIn (a c : Byte) : Prop := a &&& ~~~ c = 0

namespace FlagsIn

variable {a b c : Byte}

theorem iff_bits : FlagsIn a c ↔ ∀ k, a.getLsbD k = true → c.getLsbD k = true := by
  constructor
  · intro h k ha
    have hbit : (a &&& ~~~ c).getLsbD k = false := by rw [h]; exact BitVec.getLsbD_zero
    simpa [ha, BitVec.lt_of_getLsbD ha] using hbit
  · intro h
    refine BitVec.eq_of_getLsbD_eq fun k hk => ?_
    have hbit := h k
    simp_all

theorem refl (a : Byte) : FlagsIn a a := iff_bits.2 fun _ => id

theorem zero (c : Byte) : FlagsIn 0x00 c := BitVec.zero_and

theorem all (a : Byte) : FlagsIn a 0xFF := BitVec.and_zero

theorem trans (h : FlagsIn a b) (h' : FlagsIn b c) : FlagsIn a c :=
  iff_bits.2 fun k ha => iff_bits.1 h' k (iff_bits.1 h k ha)

theorem left (a c : Byte) : FlagsIn a (a ||| c) := iff_bits.2 fun k ha => by simp [ha]

theorem right (a c : Byte) : FlagsIn c (a ||| c) := iff_bits.2 fun k hc => by simp [hc]

theorem or (h : FlagsIn a c) (h' : FlagsIn b c) : FlagsIn (a ||| b) c := by
  refine iff_bits.2 fun k hab => ?_
  rw [BitVec.getLsbD_or, Bool.or_eq_true] at hab
  exact hab.elim (iff_bits.1 h k) (iff_bits.1 h' k)

/-- Clearing bits sets none. -/
theorem clear (h : FlagsIn a c) (m : Byte) : FlagsIn (a &&& m) c :=
  iff_bits.2 fun k ham => iff_bits.1 h k (by simp_all)

/-- The bits of `t` that `s` does not have are bits of `c`. -/
theorem new_iff {s t : Byte} : t &&& ~~~ s &&& ~~~ c = 0 ↔ FlagsIn t (s ||| c) := by
  rw [FlagsIn, BitVec.not_or, BitVec.and_assoc]

end FlagsIn

/-! ### The scope of a micro-step -/

/-- Status bits that may be set, and outcomes other than `Ok` that may be answered. -/
structure Scope where
  flags : Byte
  codes : List Code

/-- One scope is part of another. -/
abbrev Scope.Within (a b : Scope) : Prop := FlagsIn a.flags b.flags ∧ ∀ code ∈ a.codes, code ∈ b.codes

namespace Scope.Within

variable {a b c : Scope}

theorem trans (h : a.Within b) (h' : b.Within c) : a.Within c :=
  ⟨h.1.trans h'.1, fun code hc => h'.2 code (h.2 code hc)⟩

/-- A micro-step that sets nothing and fails with nothing is in every scope. -/
theorem empty (c : Scope) : Scope.Within ⟨0x00, []⟩ c := ⟨.zero _, nofun⟩

end Scope.Within

/-- What the use of a byte can lead to: the validation of a checksum byte to its failure (rules R165, R184), the second
sync byte and the count of a packet to the flag of rule R183, and the count to the reads of the parameters too. -/
def GetUse.scope (l : Link) : GetUse → Scope
  | .check => ⟨checksumErrorMask l, [.checksum]⟩
  | .sync2 => ⟨invalidBusResponseMask, []⟩
  | .err => ⟨invalidBusResponseMask ||| busTimeoutMask, [.timeout]⟩
  | .raw | .byte _ | .start | .sync1 | .id | .len | .param => ⟨0x00, []⟩

/-- What a micro-step can set and answer, itself or by what it leads to. -/
def Micro.scope : Micro → Scope
  | .get _ .raw => ⟨0x00, [.timeout]⟩
  | .get l u => ⟨timeoutMask l ||| (u.scope l).flags, .timeout :: (u.scope l).codes⟩
  | .getUntimed u => u.scope .host
  | .awaitDrain => ⟨busTimeoutMask, [.timeout]⟩
  | .setStatus m => ⟨m, []⟩
  | .fail m code => ⟨m, [code]⟩
  | .put _ _ _ | .putChecksum _ | .arm _ | .armPacket _ | .flush _ | .direction _ => ⟨0x00, []⟩
  | .awaitExpiry | .readStatus | .resetStatus | .clearStatus _ => ⟨0x00, []⟩

/-- What a timed get can come to holds what the use of its byte can. -/
theorem GetUse.scope_within_get (l : Link) (u : GetUse) : (u.scope l).Within (Micro.get l u).scope := by
  cases u
  case raw => exact .empty _
  all_goals exact ⟨.right _ _, fun _ hc => List.mem_cons_of_mem _ hc⟩

/-- A codec's get that times out fails with the bit of its link. -/
theorem Micro.scope_timeout_within_get {l : Link} {u : GetUse} (hu : u ≠ .raw) :
    (Micro.fail (timeoutMask l) .timeout).scope.Within (Micro.get l u).scope := by
  cases u
  case raw => exact absurd rfl hu
  all_goals exact ⟨.left _ _, fun _ hc => List.mem_singleton.1 hc ▸ List.mem_cons_self⟩

/-- The reads of the parameters, rule R183, can time out. -/
theorem paramReads_scope (t : Byte) (n : Nat) :
    ∀ m ∈ paramReads t n, m.scope.Within ⟨busTimeoutMask, [.timeout]⟩ := by
  induction n with
  | zero => exact nofun
  | succ n ih =>
    exact List.forall_mem_cons.2 ⟨.empty _, List.forall_mem_cons.2 ⟨by decide, ih⟩⟩

/-! ### An operation stays in its scope -/

/-- Every micro-step still to do is in the scope `c`. -/
def Op.InScope (c : Scope) (o : Op) : Prop := ∀ m ∈ o.todo, m.scope.Within c

/-- `t` has one answer more than `s`, `Ok` or of the scope `c`, and the interface is free. -/
def State.Answered (s : State) (c : Scope) (t : State) : Prop :=
  ∃ a, t.cmdOut = s.cmdOut ++ [a] ∧ t.op = none ∧ (a.code = .ok ∨ a.code ∈ c.codes)

/-- What an operation presented in `s` has come to in `t` is in the scope `c`: the bits it has set; and it has not answered
yet and has only micro-steps of the scope to do, or has answered once. -/
structure State.InScope (s : State) (c : Scope) (t : State) : Prop where
  flags : FlagsIn t.status (s.status ||| c.flags)
  answer : (t.cmdOut = s.cmdOut ∧ ∀ o, t.op = some o → o.InScope c) ∨ s.Answered c t

section InScope

variable {s t u : State} {c : Scope} {o : Op}

/-- An operation that has not answered yet answers with an outcome of the scope. -/
theorem State.InScope.of_answer {code : Code} (hs : FlagsIn u.status (s.status ||| c.flags)) (hout : u.cmdOut = s.cmdOut)
    (hcode : code = .ok ∨ code ∈ c.codes) : s.InScope c (u.answer o code) := by
  obtain ⟨k, hk⟩ := u.answer_eq o code
  rw [hk]
  exact ⟨hs, .inr ⟨_, by rw [hout], rfl, hcode⟩⟩

/-- An operation that has not answered yet goes on with micro-steps of the scope. -/
theorem State.InScope.of_proceed (hs : FlagsIn u.status (s.status ||| c.flags)) (hout : u.cmdOut = s.cmdOut)
    (ho : o.InScope c) : s.InScope c (u.proceed o) := by
  rcases u.proceed_cases o with hp | hp
  · rw [hp]
    exact ⟨hs, .inl ⟨hout, fun o' ho' => by cases ho'; exact ho⟩⟩
  · rw [hp]
    exact .of_answer hs hout (.inl rfl)

/-- The use of a byte adds only micro-steps of its scope. -/
theorem State.InScope.of_useByte (hs : FlagsIn u.status (s.status ||| c.flags)) (hout : u.cmdOut = s.cmdOut)
    (ho : o.InScope c) (l : Link) (b : Byte) {use : GetUse} (huse : (use.scope l).Within c) :
    s.InScope c (u.useByte l o b use) := by
  have hproceed : ∀ {o'} v, o'.InScope c → s.InScope c ((u.setRxSum l v).proceed o') := fun v ho' =>
    .of_proceed (by rwa [State.setRxSum_status]) ((State.setRxSum_cmdOut u l v).trans hout) ho'
  cases use <;> simp only [State.useByte]
  case byte acc =>
    cases acc
    · exact .of_proceed hs hout ho
    · exact hproceed _ ho
  case check =>
    split
    · exact .of_proceed hs hout ho
    · exact .of_proceed hs hout (List.forall_mem_singleton.2 huse)
  case sync2 =>
    split
    · exact .of_proceed hs hout (List.forall_mem_cons.2 ⟨huse, ho⟩)
    · exact .of_proceed hs hout ho
  case err =>
    have hmark : (Micro.setStatus invalidBusResponseMask).scope.Within (GetUse.err.scope l) := ⟨.left _ _, nofun⟩
    have hread : Scope.Within ⟨busTimeoutMask, [.timeout]⟩ (GetUse.err.scope l) := ⟨.right _ _, fun _ => id⟩
    have hreads : ∀ n, ∀ m ∈ paramReads (u.cfg.tRx l) n, m.scope.Within c := fun n m hm =>
      (paramReads_scope _ n m hm).trans (hread.trans huse)
    refine hproceed _ (List.forall_mem_append.2 ⟨?_, ho⟩)
    split
    · exact List.forall_mem_cons.2 ⟨hmark.trans huse, hreads _⟩
    · exact hreads _
  case start | id | len | param => exact hproceed _ ho
  case raw | sync1 => exact .of_proceed hs hout ho

/-- A timed get that times out answers, or goes on to the failure with the bit of its link. -/
theorem State.InScope.of_getTimedOut (hs : FlagsIn u.status (s.status ||| c.flags)) (hout : u.cmdOut = s.cmdOut)
    {l : Link} {use : GetUse} (hget : (Micro.get l use).scope.Within c) : s.InScope c (u.getTimedOut l o use) := by
  by_cases hraw : use = .raw
  · subst hraw
    exact .of_answer hs hout (.inr (hget.2 _ List.mem_cons_self))
  · have hfail : u.getTimedOut l o use = u.proceed { o with todo := [.fail (timeoutMask l) .timeout] } := by
      cases use
      case raw => exact absurd rfl hraw
      all_goals rfl
    rw [hfail]
    exact .of_proceed hs hout (List.forall_mem_singleton.2 ((Micro.scope_timeout_within_get hraw).trans hget))

/-- A micro-step of the scope leaves the operation in it. -/
theorem Micro.run_inScope {m : Micro} (hs : FlagsIn u.status (s.status ||| c.flags)) (hout : u.cmdOut = s.cmdOut)
    (hm : m.scope.Within c) (ho : o.InScope c) (h : m.run o u = some t) : s.InScope c t := by
  have hproceed : ∀ v : State, v.status = u.status → v.cmdOut = u.cmdOut → s.InScope c (v.proceed o) :=
    fun v hst hcmd => .of_proceed (hst ▸ hs) (hcmd.trans hout) ho
  have hraise : ∀ {b : Byte}, FlagsIn b c.flags → FlagsIn (u.raise b).status (s.status ||| c.flags) := fun hb =>
    hs.or (hb.trans (.right _ _))
  cases m <;> simp only [Micro.run] at h
  case put | putChecksum =>
    split at h <;> cases h
    exact hproceed _ (by simp) (by simp)
  case get l use =>
    split at h
    · cases h
      exact .of_useByte (by simpa using hs) (by simpa using hout) ho l _ ((use.scope_within_get l).trans hm)
    · split at h <;> cases h
      exact .of_getTimedOut hs hout hm
  case getUntimed use =>
    split at h <;> cases h
    exact .of_useByte (by simpa using hs) (by simpa using hout) ho .host _ hm
  case awaitExpiry =>
    split at h <;> cases h
    exact hproceed u rfl rfl
  case awaitDrain =>
    split at h
    · cases h; exact hproceed u rfl rfl
    · split at h <;> cases h
      exact .of_answer (hraise hm.1) hout (.inr (hm.2 _ List.mem_cons_self))
  case readStatus => cases h; exact .of_proceed hs hout ho
  case resetStatus | clearStatus => cases h; exact .of_proceed (hs.clear _) hout ho
  case setStatus b => cases h; exact .of_proceed (hraise hm.1) hout ho
  case fail b code => cases h; exact .of_answer (hraise hm.1) hout (.inr (hm.2 _ List.mem_cons_self))
  case arm | armPacket | flush | direction => cases h; exact hproceed _ (by simp) (by simp)

/-- An operation takes a micro-step only before it has answered, and stays in its scope. -/
theorem State.InScope.microStep (h : s.InScope c u) (hm : u.microStep = some t) : s.InScope c t := by
  obtain ⟨hs, ⟨hout, hop⟩ | ⟨a, -, hnone, -⟩⟩ := h
  · obtain ⟨o, ho, rfl | ⟨m, rest, htodo, hr⟩⟩ := State.microStep_run hm
    · exact .of_answer hs hout (.inl rfl)
    · have hall := hop o ho
      rw [Op.InScope, htodo, List.forall_mem_cons] at hall
      exact Micro.run_inScope (o := { o with todo := rest }) hs hout hall.1 hall.2 hr
  · exact absurd (hm.symm.trans (State.microStep_idle hnone)) nofun

/-- A program of the scope sets bits of it alone, and answers at most once, `Ok` or with an outcome of it. -/
theorem State.command_scope {p : Program} (hp : ∀ m ∈ p.todo, m.scope.Within c) (h : s.command p = .next t) :
    FlagsIn t.status (s.status ||| c.flags) ∧ (t.cmdOut = s.cmdOut ∨ s.Answered c t) := by
  have hs : FlagsIn s.status (s.status ||| c.flags) := .left _ _
  by_cases ho : s.op = none
  · rw [State.command_free s p ho, State.issue_free s _ p ho] at h
    cases h
    have hissued : s.InScope c { s with op := some ⟨.script, p.todo, [], p.packet⟩ } :=
      ⟨hs, .inl ⟨rfl, fun o ho => by cases ho; exact hp⟩⟩
    have hrun := State.runOp_keeps (fun _ _ hu hm => hu.microStep hm) opFuel _ hissued
    exact ⟨hrun.flags, hrun.answer.imp_left And.left⟩
  · rw [State.command_held s p ho] at h
    cases h
    exact ⟨hs, .inl rfl⟩

end InScope

/-! ### The tables of causes and of outcomes -/

/-- The rows that validate a checksum byte, rules R165 and R184. -/
def validates : Instr → Bool
  | .hcRxEnd | .bcRxEnd => true
  | _ => false

theorem eq_of_validates {i : Instr} (h : validates i = true) : i = .hcRxEnd ∨ i = .bcRxEnd := by
  cases i
  case hcRxEnd => exact .inl rfl
  case bcRxEnd => exact .inr rfl
  all_goals cases h

/-- The scope of a row: the causes of rule R291 and the outcomes of rule R292. -/
def rowScope (i : Instr) : Scope where
  flags := causesOf i
  codes := (bif canTimeOut i then [.timeout] else []) ++ bif validates i then [.checksum] else []

theorem timeout_mem_rowScope {i : Instr} (h : .timeout ∈ (rowScope i).codes) : canTimeOut i = true := by
  simpa [rowScope, Bool.cond_eq_ite] using h

theorem checksum_mem_rowScope {i : Instr} (h : .checksum ∈ (rowScope i).codes) : i = .hcRxEnd ∨ i = .bcRxEnd :=
  eq_of_validates (by simpa [rowScope, Bool.cond_eq_ite] using h)

/-- Rules R291, R292: the micro-steps of every row are in the row's scope. -/
theorem programOf_scope {c : Config} {i : Instr} {p : Program} (h : programOf c i = some p) :
    ∀ m ∈ p.todo, m.scope.Within (rowScope i) := by
  rw [← List.forall_mem_map (f := Micro.scope) (P := fun sc => sc.Within (rowScope i))]
  cases i <;> simp only [programOf, Option.some.injEq, reduceCtorEq] at h <;> subst h
  case stSet m =>
    have hset : (Micro.setStatus m).scope.Within (rowScope (.stSet m)) := ⟨.refl m, nofun⟩
    simpa [stSetProgram] using hset
  all_goals
    simp only [hrxGetProgram, hrxWaitProgram, hrxFlushProgram, htxPutProgram, brxGetProgram, brxFlushProgram,
      btxPutProgram, hcTxStartProgram, hcTxByteProgram, hcTxEndProgram, hcRxStartProgram, hcRxByteProgram, hcRxEndProgram,
      bcTxStartProgram, bcTxByteProgram, bcTxEndProgram, bcRxPacketProgram, bcRxEndProgram, dirTxProgram, dirRxProgram,
      tmoArmProgram, tmoWaitProgram, stReadProgram, stResetProgram, stClrProgram, List.map_cons, List.map_nil, Micro.scope,
      GetUse.scope, rowScope, causesOf, canTimeOut, validates]
    decide

/-- What a CMD row sets and answers, from any state. -/
theorem exec_cmd_scope {s t : State} {i : Instr} (hi : i.format = .cmd) (h : exec i s = .next t) :
    FlagsIn t.status (s.status ||| causesOf i) ∧ (t.cmdOut = s.cmdOut ∨ s.Answered (rowScope i) t) := by
  obtain ⟨p, hp⟩ := programOf_isSome (c := s.cfg) hi
  rw [exec_cmd hp] at h
  exact State.command_scope (c := rowScope i) (programOf_scope hp) h

/-- Settles O41: a row answers within its scope. -/
theorem outcomesAreThoseOfTheOperation : Obligations.OutcomesAreThoseOfTheOperation := by
  intro s t i hi h
  refine (exec_cmd_scope hi h).2.imp_right fun ⟨a, hout, hop, hcode⟩ => ⟨a, hout, hop, fun ht => ?_, fun hc => ?_⟩
  · rw [ht] at hcode
    exact timeout_mem_rowScope (hcode.resolve_left nofun)
  · rw [hc] at hcode
    exact checksum_mem_rowScope (hcode.resolve_left nofun)

/-- A byte that arrives causes the overflow bit of its link alone. -/
theorem State.arrive_flags (s : State) (l : Link) (b : Byte) :
    FlagsIn (s.arrive l b).status (s.status ||| overflowMask l) := by
  rcases s.arrive_status l b with hs | hs
  · rw [hs]; exact .left _ _
  · rw [hs]; exact .refl _

/-- Rule R142: a byte on the bus line causes `BusOverflow` alone. -/
theorem State.busLineByte_flags (s : State) (b : Byte) : FlagsIn (s.busLineByte b).status (s.status ||| 0x20) := by
  unfold State.busLineByte
  split
  · exact .left _ _
  · split
    · exact .left _ _
    · exact s.arrive_flags .bus b

/-- Bytes on the bus line, one after the other, cause `BusOverflow` alone. -/
theorem State.busFeed_flags (s : State) (bs : List Byte) : FlagsIn (s.busFeed bs).status (s.status ||| 0x20) :=
  State.busFeed_keeps (P := fun u => FlagsIn u.status (s.status ||| 0x20))
    (fun u b hu => (u.busLineByte_flags b).trans (hu.or (.right _ _))) bs s (.left _ _)

/-- Rules R141 to R146, R215, R220: the events and their causes. But for the arrivals they leave STATUS. -/
theorem exec_event_flags {s t : State} {i : Instr} (hi : i.format = .evt) (h : exec i s = .next t) :
    FlagsIn t.status (s.status ||| causesOf i) := by
  have hkept : ∀ {u : State}, u.status = s.status → FlagsIn u.status (s.status ||| causesOf i) := fun hu =>
    hu ▸ .left _ _
  cases i <;> simp only [Instr.format, reduceCtorEq] at hi
  case evHrx b =>
    cases h
    split
    · exact hkept rfl
    · exact s.arrive_flags .host b
  case evBrx b => cases h; exact s.busLineByte_flags b
  case evHtxLoad | evBtxLoad =>
    cases h
    split
    · exact hkept (by simp [State.loadShift])
    · exact hkept rfl
  case evHtxDone =>
    cases h
    split
    · exact hkept rfl
    · split
      · exact hkept rfl
      · exact hkept (by simp)
  case evBtxDone =>
    cases h
    split
    · exact hkept rfl
    · split
      · exact hkept rfl
      · split
        · exact hkept (by simp)
        · exact hkept (by simp)
  case evTick =>
    cases h
    split
    · exact hkept rfl
    · split
      · exact hkept rfl
      · exact hkept rfl
  case evUnmapped => cases h; exact hkept rfl

/-- Settles O40: the CMD rows by their scope, the arrivals by the overflow bit of their link; the other events leave
STATUS, RESET clears it, and a procedure of the client may set any bit. -/
theorem flagsHaveTheirCauses : Obligations.FlagsHaveTheirCauses := by
  intro s t i h
  rw [FlagsIn.new_iff]
  have hany : causesOf i = 0xFF → FlagsIn t.status (s.status ||| causesOf i) := fun hc => by
    rw [hc]
    exact (FlagsIn.all _).trans (.right _ _)
  cases hi : i.format with
  | cmd => exact (exec_cmd_scope hi h).1
  | evt => exact exec_event_flags hi h
  | resetLine =>
    cases i <;> simp only [Instr.format, reduceCtorEq] at hi
    cases h
    exact .zero _
  | hostPkt => cases i <;> simp only [Instr.format, reduceCtorEq] at hi <;> exact hany rfl
  | busTx => cases i <;> simp only [Instr.format, reduceCtorEq] at hi <;> exact hany rfl
  | busRx =>
    cases i <;> simp only [Instr.format, reduceCtorEq] at hi
    cases h
    exact s.busFeed_flags _

end Sys2Proof.Machine
end
